-- ==== Sys2Proof/Word.lean ====
section
/-! DEFINITION. The words of the model and their plainest arithmetic: a byte, a 32-bit word, and the indexes by which
the spec numbers its Isles, rows, ports, channels, slices and functions. -/

namespace Sys2Proof

abbrev Byte := BitVec 8
abbrev Word := BitVec 32
abbrev DWord := BitVec 64

/-- Isle number i = 8y + x (R12). -/
abbrev IsleIdx := Fin 64
/-- Row y of the mesh; also the Strait port Sy and host tap y of that row (R28). -/
abbrev RowIdx := Fin 8
/-- LPDDR5X channel c (R18). -/
abbrev ChanIdx := Fin 64
/-- Lagoon slice s (R17). -/
abbrev SliceIdx := Fin 16
/-- A PCI Express function: 0 to 7 are VF 0 to VF 7, 8 is the PF (R337, R393). -/
abbrev Fn := Fin 9

/-- The physical function. -/
abbrev Fn.pf : Fn := 8

/-- The row of an Isle: i div 8 (R12). -/
def IsleIdx.row (i : IsleIdx) : RowIdx := ⟨i.val / 8, by omega⟩
/-- The column of an Isle: i mod 8 (R12). -/
def IsleIdx.col (i : IsleIdx) : Nat := i.val % 8
/-- The row a near channel belongs to (R28). -/
def ChanIdx.row (c : ChanIdx) : RowIdx := ⟨c.val / 8, by omega⟩
/-- The row a Lagoon slice belongs to (R17). -/
def SliceIdx.row (s : SliceIdx) : RowIdx := ⟨s.val / 2, by omega⟩

/-- A natural number as a byte, modulo 2^8. -/
def byteOf (n : Nat) : Byte := BitVec.ofNat 8 n

end Sys2Proof
end

