-- ==== Sys2Proof/Machine/Bits.lean ====
section
/-! DEFINITION. Bit fields, byte order and small list helpers that the meanings share. -/

namespace Sys2Proof.Machine

/-- Bits [lo + w − 1 : lo] of a natural number. -/
def field (n lo w : Nat) : Nat := n >>> lo % 2 ^ w

/-- Bit `i` of a natural number. -/
def bitAt (n i : Nat) : Bool := n.testBit i

/-- A Bool as a bit. -/
def b2n (b : Bool) : Nat := if b then 1 else 0

/-- Little-endian value of a byte list. -/
def leNat : List Byte → Nat
  | [] => 0
  | b :: t => b.toNat + 256 * leNat t

/-- Big-endian value of a byte list. -/
def beNat (l : List Byte) : Nat := l.foldl (fun n b => 256 * n + b.toNat) 0

/-- The `k` low bytes of `n`, little-endian. -/
def leBytes : Nat → Nat → List Byte
  | 0, _ => []
  | k + 1, n => byteOf n :: leBytes k (n / 256)

/-- The `k` low bytes of `n`, big-endian. -/
def beBytes (k n : Nat) : List Byte := (leBytes k n).reverse

/-- Bytes [at, at + len) of a list. -/
def slice (l : List α) (pos len : Nat) : List α := (l.drop pos).take len

/-- Little-endian value of `len` bytes at `pos`. -/
def leAt (l : List Byte) (pos len : Nat) : Nat := leNat (slice l pos len)

/-- Consecutive groups of `k` elements; `fuel` bounds their number. -/
def chunksAux (k : Nat) : Nat → List α → List (List α)
  | 0, _ => []
  | fuel + 1, l => if l.isEmpty then [] else l.take k :: chunksAux k fuel (l.drop k)

def chunks (k : Nat) (l : List α) : List (List α) := chunksAux k l.length l

/-- `l` without its first element that satisfies `p`. -/
def eraseFirst (p : α → Bool) : List α → List α
  | [] => []
  | x :: t => if p x then t else x :: eraseFirst p t

/-- `l` with `f` applied to every element that satisfies `p`. -/
def mapWhere (p : α → Bool) (f : α → α) (l : List α) : List α := l.map (fun x => if p x then f x else x)

/-- The number of bits of `n`; 0 for 0. -/
def bitLen (n : Nat) : Nat := if n = 0 then 0 else n.log2 + 1

/-- ⌈a / b⌉. -/
def ceilDiv (a b : Nat) : Nat := (a + b - 1) / b

/-- Rounds down to a multiple of `k`. -/
def roundTo (k n : Nat) : Nat := n / k * k

/-- `n` as a value of `Fin (m + 1)`, modulo its size. -/
def finOf (m : Nat) (n : Nat) : Fin (m + 1) := Fin.ofNat (m + 1) n

/-- A word as a signed number. -/
def sgn (w : Word) : Int := w.toInt

/-- Signed value of the low `w` bits of `n`. -/
def signedOf (w n : Nat) : Int := if n % 2 ^ w < 2 ^ (w - 1) then (n % 2 ^ w : Nat) else ((n % 2 ^ w : Nat) : Int) - (2 ^ w : Nat)

/-- `x` modulo 2^w as a natural number. -/
def wrapOf (w : Nat) (x : Int) : Nat := (x % (2 ^ w : Nat)).toNat

/-- `x` saturated to the signed range of `w` bits, and whether it saturated. -/
def satSigned (w : Nat) (x : Int) : Int × Bool :=
  let hi : Int := (2 ^ (w - 1) : Nat) - 1
  let lo : Int := -(2 ^ (w - 1) : Nat)
  if x > hi then (hi, true) else if x < lo then (lo, true) else (x, false)

/-- A 32-bit counter that saturates at its largest value. -/
def satInc32 (w : Word) : Word := if w = 0xFFFFFFFF then w else w + 1

/-- A counter of `n` bits that saturates at its largest value, advanced by `k`. -/
def satAdd {n : Nat} (w : BitVec n) (k : Nat) : BitVec n := BitVec.ofNat n (min (w.toNat + k) (2 ^ n - 1))

/-- The element of a vector at a number, modulo its size. -/
def vget {α : Type} {m : Nat} (v : Vector α (m + 1)) (n : Nat) : α := v[finOf m n]

end Sys2Proof.Machine
end

