-- ==== Sys2Proof/Syntax.lean ====
section
/-! DEFINITION. The commands of the block, one constructor of `Instr` per row of spec/opcode_table.json, and the data
their operands carry: host packets (15_host_commands.md), instruction fields (09_instruction_set.md), mover descriptors
(11_data_mover_and_layout.md), program images, key manifests, flits and status codewords (13_straits.md). -/

namespace Sys2Proof

/-- A 64-byte command packet as the host block hands it to the authority holder (R344): the function and queue it came
from, the common fields of Table HC-5, bytes 16–47 as `body` and bytes 48–63 as `ext`, both little-endian. -/
structure Packet where
  fn : Fn
  q : Fin 8
  idx : Nat
  version : BitVec 4
  noirq : Bool
  fence : Bool
  arm : Bool
  opcode : BitVec 16
  cid : BitVec 16
  jobid : DWord
  body : BitVec 256
  ext : BitVec 128
  deriving DecidableEq, Repr

/-- The sync field of an instruction or descriptor (R205). -/
structure Sync where
  rv : Bool
  rslot : Fin 128
  wv : Bool
  wslot : Fin 128
  deriving DecidableEq, Repr

/-- A sync field that names no slot. -/
def Sync.none : Sync := { rv := false, rslot := 0, wv := false, wslot := 0 }

/-- Fields of a scalar instruction (R191): `useImm` is bit 7 of the operation code. -/
structure SFields where
  sd : Fin 32
  sa : Fin 32
  sb : Fin 32
  sc : Fin 32
  useImm : Bool
  imm : Word
  deriving DecidableEq, Repr

/-- Fields of a conditional branch (Table ISA-3). -/
structure BrFields where
  sa : Fin 32
  sb : Fin 32
  imm : Word
  deriving DecidableEq, Repr

/-- Fields of WLOAD (Table ISA-4). -/
structure WloadFields where
  mode : BitVec 3
  st : Fin 8
  wrow : BitVec 7
  wcol : BitVec 7
  wf : Bool
  sync : Sync
  deriving DecidableEq, Repr

/-- Fields of MMUL (Table ISA-4); `n1` holds N − 1. -/
structure MmulFields where
  mode : BitVec 3
  ft : Fin 8
  dt : Fin 8
  n1 : BitVec 7
  acc : Bool
  red : Bool
  close : Bool
  fsrc : Bool
  ag : Fin 16
  ff : Bool
  frow : BitVec 7
  sync : Sync
  deriving DecidableEq, Repr

/-- Fields of CHAINA (Table ISA-4). -/
structure ChainaFields where
  agp : Fin 16
  age : Fin 16
  ags : Fin 16
  sx : Fin 32
  sy : Fin 32
  sz : Fin 32
  sync : Sync
  deriving DecidableEq, Repr

/-- Fields of a vector instruction (R200). The VCVT and VMOVS fields of Table ISA-5 overlay `vb` and `vc`. -/
structure VFields where
  ty : BitVec 3
  vd : Fin 32
  va : Fin 32
  vb : Fin 32
  vc : Fin 32
  sn : Fin 32
  ag : Fin 16
  aux : BitVec 4
  sync : Sync
  deriving DecidableEq, Repr

/-- Fields of a BSOP (Table ISA-6). -/
structure BFields where
  aga : Fin 16
  agb : Fin 16
  sn : Fin 32
  sync : Sync
  deriving DecidableEq, Repr

/-- Fields of TTAKE and TPUT (Table ISA-6); `q` names MQ, VQ, DQ or BQ. -/
structure TFields where
  q : Fin 4
  sk : Bool
  sync : Sync
  deriving DecidableEq, Repr

/-- Fields of CHAINH beside its registers (Table ISA-4). -/
structure ChainhFields where
  link2 : Bool
  sync : Sync
  deriving DecidableEq, Repr

/-- Fields of IMLOAD beside its page (Table ISA-6). -/
structure ImloadFields where
  bank : Bool
  sync : Sync
  deriving DecidableEq, Repr

/-- A port, and bytes 0–113 of the frames it received last, oldest first (R290, R299). -/
structure LinkFrames where
  port : RowIdx
  frames : List (List (BitVec 8))
  deriving DecidableEq, Repr

/-- A 64-byte mover descriptor but for its OP (Table DM-1). -/
structure DescFields where
  version : BitVec 4
  srcsp : BitVec 4
  dstsp : BitVec 4
  esize : BitVec 2
  peer : IsleIdx
  zpad : Bool
  sref : BitVec 16
  dref : BitVec 16
  length : Word
  src : DWord
  dst : DWord
  sync : Sync
  target : BitVec 16
  param : BitVec 128
  deriving DecidableEq, Repr

/-- Operation of a mover descriptor (Table DM-1). -/
inductive DOp where
  | copy | transpose | windowx | automorph | reverse | seedx | forward
  deriving DecidableEq, Repr

/-- Scalar operations (Table ISA-2). -/
inductive SOp where
  | add | sub | and | or | xor | sll | srl | sra | slt | sltu | seq | sne
  | mul | mulh | mulhu | div | divu | rem | remu
  | fadd | fsub | fmul | fma | fdiv | fsqrt | fcvtws | fcvtsw
  | ld8 | ld8u | ld16 | ld16u | ld32 | st8 | st16 | st32
  deriving DecidableEq, Repr

/-- Conditional branches (Table ISA-3). -/
inductive BrOp where
  | beq | bne | blt | bge | bltu | bgeu
  deriving DecidableEq, Repr

/-- Vector operations (Table ISA-5); VMREDS is VMRED with AUX[2] = 1. -/
inductive VOp where
  | vadd | vsub | vadds | vsubs | vmullo | vmax | vmin | vand | vor | vxor | vnot | vshl | vshr | vsra | vcmp | vsel | vprime | vmadd | vmsub | vmneg | vmmul | vmred | vmreds | vmctr | vfadd | vfsub | vfmul | vfma | vfmax | vfmin | vfcmp | vfdiv | vfsqrt | vgelu | vsilu | vtanh | vexp | vcvt | vbcast | vslide | vperm | vrsum | vrmax | vrmin | vrmaxi | vrcnt | vrfsum | vrfmax | vrfmin | vmovs | vld | vst | vtld | vtst
  deriving DecidableEq, Repr

/-- Bank-side operations (Table ST-3). -/
inductive BOp where
  | zfill | iadd | madd | msub | fadd32 | madds | mmuls | mmult | mmack | mmace | ccf32 | ccb16 | cci32 | ccu32
  deriving DecidableEq, Repr

/-- A decoded 64-bit instruction word of an Isle (R189): what the Skerry fetches. -/
inductive IsleInstr where
  | scalar (op : SOp) (f : SFields)
  | branch (op : BrOp) (f : BrFields)
  | j (imm : Word)
  | loop (sa : Fin 32) (ci : Bool) (maxcnt : BitVec 24) (body : BitVec 16)
  | lexit (sa : Fin 32)
  | lidx (sd : Fin 32) (k : Fin 8)
  | swap (page : Fin 16) (imm : Word)
  | waitcyc (target : BitVec 48)
  | csrr (sd : Fin 32) (num : BitVec 12)
  | csrw (sa : Fin 32) (num : BitVec 12)
  | agld (ag : Fin 16) (sa : Fin 32) (imm : Word)
  | agw (ag : Fin 16) (field : BitVec 6) (sb : Fin 32)
  | fence (qmask : BitVec 4)
  | iend
  | wload (f : WloadFields)
  | wswap (y : Sync)
  | mmul (f : MmulFields)
  | chainh (sa sb : Fin 32) (f : ChainhFields)
  | chaina (f : ChainaFields)
  | vec (op : VOp) (f : VFields)
  | mvissue (count : BitVec 12) (addr : BitVec 22) (y : Sync)
  | imload (page : Fin 16) (f : ImloadFields)
  | bank (op : BOp) (f : BFields)
  | ttake (f : TFields)
  | tput (f : TFields)
  /-- a reserved encoding: a no-operation of one Isle cycle (R185, R190) -/
  | nop
  deriving DecidableEq, Repr

/-- A level-ciphertext, refresh or repacking operation of a program (Table HO-1, Table CT-7). Operand and result
numbers index the value list of the job: inputs first, then each operation's output in program order. -/
inductive HeOp where
  | add (a b : Nat)
  | sub (a b : Nat)
  | pmul (a b : Nat)
  | mul (a b : Nat)
  | mulr (a b : Nat)
  | rescale (a : Nat)
  | moddrop (a k : Nat)
  | rot (a g : Nat)
  | conj (a : Nat)
  | ntt (a : Nat)
  | intt (a : Nat)
  /-- level refresh with the profile of index `prof` (R103) -/
  | levelRefresh (a prof : Nat)
  /-- EXTRACT with first index, stride, count, bit set and declared output width (R121) -/
  | extract (a k0 stride count pset width : Nat)
  /-- REPACK of WIDE accumulators (R123) under PACK into level set `pset` -/
  | repack (as : List Nat) (pset : Nat)
  /-- bit refresh with lookup table `lut`; `wide` stops after the blind rotation (R109, R119) -/
  | bitRefresh (a lut : Nat) (wide : Bool)
  deriving DecidableEq, Repr

/-- An input declaration (R59); `align16` is bit 0 of its flags byte (R249). -/
structure InputDecl where
  kind : BitVec 4
  pset : Fin 16
  level : Nat
  ntt : Bool
  seeded : Bool
  bitwidth : Nat
  count : Nat
  align16 : Bool
  deriving DecidableEq, Repr

/-- A result declaration: the value of the job written as a result, and its ALIGN16 flag (R219 type 8, R249). -/
structure ResultDecl where
  value : Nat
  align16 : Bool
  deriving DecidableEq, Repr

/-- The constants of one level of CoeffToSlot or SlotToCoeff, computed by Priper (R103, R105): its diagonals, each the residues of its
limbs in NTT domain, and the Galois elements of its rotations, within the blocks and between them. -/
structure RefreshLevel where
  diags : List (List (List Nat))
  inner : List Nat
  outer : List Nat
  deriving DecidableEq, Repr

/-- A refresh profile (Table RF-1) with its transform constants. -/
structure RefreshProfile where
  pset : Nat
  cts : Nat
  stc : Nat
  evalLog : Nat
  double : Nat
  krange : Nat
  coefs : List Word
  ctsLevels : List RefreshLevel
  stcLevels : List RefreshLevel
  deriving DecidableEq, Repr

/-- A place in the Isle stores of a row: the Isle and the byte offset. -/
structure RedPlace where
  isle : IsleIdx
  off : Nat
  deriving DecidableEq, Repr

/-- One reduction declared in a Strait plan (R312). Its slots are lists of places, over any Isles of the row: tile (or bucket) k takes
place k modulo the length of the list, so that a tensor beyond the stores uses its slots again (DESIGN CHOICE,
notes/assumptions/29.md). -/
structure ReductionDecl where
  port : RowIdx
  base : Nat
  /-- 0 fp32, 1 bf16, 2 MOD32 (Table SD-2) -/
  ty : BitVec 2
  pset : Fin 16
  limbs : Nat
  hardwired : Bool
  /-- 0 fp32, 1 bf16, 2 residue -/
  pfmt : BitVec 2
  sfmt : BitVec 2
  master : Bool
  thinMin : Nat
  /-- 16 KiB tiles of the tensor in TYPE -/
  tiles : Nat
  /-- contributions, a tile each, or g′ of a bucket each when thinned -/
  contrib : List RedPlace
  /-- parameters, a tile's in PFMT each; with KIND PROGRAM also the distribution slots -/
  param : List RedPlace
  /-- state tiles m and v in SFMT and the fp32 master copy: buffer 0 and buffer 1 of a tile, one after the other (R328) -/
  stM : List RedPlace
  stV : List RedPlace
  masterAt : List RedPlace
  /-- landing slots of S for KIND PROGRAM, a tile's each (R320) -/
  land : List RedPlace
  /-- residual slots of a thinned reduction and the places of its selection words, a bucket each (R322, R324) -/
  resid : List RedPlace
  selw : List RedPlace
  /-- the slot of the scalar block (R327) -/
  scalar : RedPlace
  deriving DecidableEq, Repr

/-- The topology a plan demands of one port (R302): a ring of the first RINGSIZE members of the list, or a pair with the member of index
`peer`. -/
structure TopoDecl where
  port : RowIdx
  ring : Bool
  peer : Nat
  deriving DecidableEq, Repr

/-- A KEY stream a row consumes: the record the slot's plan expects and the Isle that takes it (R84, R99). -/
structure KeyLanding where
  port : RowIdx
  record : Nat
  consumer : IsleIdx
  /-- first key slot of the consumer and the number of slots it cycles through -/
  slot0 : Fin 128
  kslots : Nat
  /-- chunk indices in the order the slots expect them -/
  chunks : List Nat
  deriving DecidableEq, Repr

/-- The circulation and Strait plan of an image (R219 section type 7, R100, R302). -/
structure StraitPlan where
  /-- per port, the class of its flit groups in order, over and over: 0 IDLE, 1 KEY, 2 WIN, 3 RED (R100); a port that is not listed has
  IDLE groups only -/
  groups : List (RowIdx × List (BitVec 2))
  topo : List TopoDecl
  ringPorts : BitVec 8
  reductions : List ReductionDecl
  keyLandings : List KeyLanding
  /-- window handles, per port, whose landings the plan reserves (R307) -/
  landings : List (RowIdx × Nat)
  deriving DecidableEq, Repr

/-- The classes of a port's flit groups. -/
def StraitPlan.classes (p : StraitPlan) (y : RowIdx) : List (BitVec 2) := (p.groups.find? (fun g => g.1 == y)).elim [] (·.2)

/-- Some flit group of the port is of the class. -/
def StraitPlan.gives (p : StraitPlan) (y : RowIdx) (c : BitVec 2) : Bool := (p.classes y).contains c

/-- Descriptor tables of one Isle position: store offset and bytes (R244). -/
structure DescTable where
  isle : Nat
  offset : Nat
  bytes : List Byte
  deriving DecidableEq, Repr

/-- A window of the plan for scheduled traffic (R284): of a slice port or of a channel's scheduler, by its place in the run, the first
management cycle counted from the start boundary, and the length. -/
structure MemWindow where
  slice : Bool
  pos : Nat
  start : Nat
  len : Nat
  deriving DecidableEq, Repr

/-- The sections of a program image (R219). The spec names what they hold and gives no byte layout for most of them, so
they arrive as values (DESIGN CHOICE, notes/assumptions/29.md). -/
structure ImageSections where
  pages : List (List DWord)
  /-- per Isle position, its slot-table entries (Table ISA-7) -/
  slotTables : List (List DWord)
  /-- per Isle position, (RUNAHEAD, DELIVERY, SNAPSHOT) (R251) -/
  moverPlans : List (Nat × Nat × Nat)
  inputs : List InputDecl
  results : List ResultDecl
  fingerprints : List (Fin 16 × Word)
  /-- serial of the key set the job uses, and the (KIND, GALOIS) pairs it needs (R79) -/
  keySerial : Option (BitVec 16)
  keyKinds : List (Nat × Nat)
  luts : List (List Byte)
  profiles : List RefreshProfile
  /-- records resident in the Isle stores for a job, and the store offset of each Isle's shard (R89, R118) -/
  residents : List (Nat × Nat)
  lagoonPlan : List (BitVec 2)
  memWindows : List MemWindow
  descTables : List DescTable
  strait : Option StraitPlan
  prog : List HeOp
  deriving DecidableEq, Repr

/-- What the DMA of LOAD_PROGRAM reads: the image bytes before the seal (header first), the sections they hold, and the
seal's signature block (R219, R393). -/
structure ImageData where
  raw : List Byte
  sections : ImageSections
  sealBlk : List Byte
  deriving DecidableEq, Repr

/-- What the DMA of LOAD_KEYSET reads: manifest header and record table, the signature block, and the bytes of each key
record named by the table (R355). -/
structure ManifestData where
  raw : List Byte
  sig : List Byte
  records : List (List Byte)
  deriving DecidableEq, Repr

/-- A checker's report to the Reef (R400, R401): its identifier, and the location it logs. -/
structure Report where
  checker : BitVec 16
  /-- row charged when it differs from the one Table FL-2 derives (sending row of a dropped flit, writing row) -/
  rowOverride : Option RowIdx
  /-- DRAM: channel-page and block; store: word; tile: word -/
  page : Nat
  block : Nat
  symbol : Nat
  /-- SCHEDULE_OVERRUN rather than any other sequencing fault -/
  overrun : Bool
  /-- a NACK report, which ends the job with WINDOW_CLOSED (R310) -/
  nack : Bool
  /-- kind 9, the cause that is no overrun: 0 ALIGN, 1 BANKCONF, 256 + CAUSE a trap -/
  detail : Word
  deriving DecidableEq, Repr

/-- What the module monitor measures (Table EL-7), each a 16-bit word in the table's unit. -/
structure MonSample where
  vin : BitVec 16
  cur : BitVec 16
  pow : BitVec 16
  die : BitVec 16
  dram : BitVec 16
  cool : BitVec 16
  deriving DecidableEq, Repr

/-- The commands: one constructor per row of spec/opcode_table.json, in the table's order. -/
inductive Instr where
  -- host command packets (15_host_commands.md)
  | hello (p : Packet)
  | loadProgram (p : Packet) (img : ImageData)
  | loadProgramComplete (id : Nat)
  | loadParamset (p : Packet) (rec : List Byte)
  | loadKeyset (p : Packet) (man : ManifestData)
  | loadKeysetComplete (id : Nat)
  | submitJob (p : Packet)
  | armJob (p : Packet)
  | abortJob (p : Packet)
  | releaseResult (p : Packet)
  | openWindow (p : Packet)
  | closeWindow (p : Packet)
  | windowCloseComplete (port : RowIdx) (handle : Fin 1024)
  -- Atoll operations (17_atoll.md): the packet and the operand bytes read at SRC
  | modexp (p : Packet) (data : List Byte)
  | ecmul (p : Packet) (data : List Byte)
  | verify (p : Packet) (data : List Byte)
  | sign (p : Packet) (data : List Byte)
  | kaStart (p : Packet)
  | kaFinish (p : Packet) (data : List Byte)
  | ownkey (p : Packet) (data : List Byte)
  | curveload (p : Packet) (data : List Byte)
  | anchor (p : Packet) (data : List Byte)
  | atollOpStart
  | atollOpEnd
  | entropyFailure
  -- owners, recorder and self-test packets
  | setOwner (p : Packet)
  | wipeStart (id : Nat)
  | wipeEnd (id : Nat)
  | logRead (p : Packet)
  | logClear (p : Packet) (auth : List Byte)
  | logClearEffect
  | bistSlice (p : Packet)
  | depotTest (p : Packet)
  | retirePage (p : Packet)
  | queryHealth (p : Packet)
  | invalidOpcode (p : Packet)
  -- queues and registers
  | commandFetch (fn : Fn) (q : Fin 8) (entry : List Byte)
  | fetchError (fn : Fn) (q : Fin 8)
  | sqDoorbell (fn : Fn) (q : Fin 8) (v : Word)
  | cqDoorbell (fn : Fn) (q : Fin 8) (v : Word)
  | hbrQcfgWrite (fn : Fn) (q : Fin 8) (v : Word)
  | hbrCtrlWrite (v : Word)
  | admClsmapWrite (k : Fin 32) (v : Word)
  | reefEvpop (v : Word)
  | faultInjectArm (v : Word)
  | handover (v : Word)
  | handoverAccept
  | handoverTimeout
  | recoveryUpdate (v : Word)
  | recoveryProgramComplete
  | devidWrite (v : Word)
  | skerryStep (isle : IsleIdx) (v : Word)
  | skerryHalt (isle : IsleIdx) (v : Word)
  | registerWrite (fn : Fn) (offset : Nat) (wide : Bool) (v : DWord)
  | hostDramRead (fn : Fn) (addr : BitVec 40) (len : Nat)
  | hostDramWrite (fn : Fn) (addr : BitVec 40) (data : List Byte)
  | hostReadExpired (fn : Fn) (chan : ChanIdx) (waited : Nat)
  | resultRead (fn : Fn) (window : Fin 64) (offset : Nat) (len : Nat)
  | functionLevelReset (fn : Fn)
  -- power, start-up, clocks
  | pfD3hotEntry
  | pfD0Entry
  | vfD3hotEntry (vf : RowIdx)
  | vfD0Entry (vf : RowIdx)
  | perstNAssert
  | perstNDeassert (genCompat holmPref : Bool) (modesel : BitVec 2) (tsyncEn : Bool)
  | pllLock
  -- the bytes that slots 0 and 1 were delivered with, for a slot not programmed since
  | firmwareBoot (delivered0 delivered1 : List (BitVec 8))
  | startupTimeout (pllFailed : Bool) (northDead southDead : Bool)
  | dramTrainingComplete (failed : List ChanIdx) (hot : List (Fin 16))
  | ready
  | tsyncEdge
  | tsyncTimeout
  | timelineOrigin
  | preOriginRefresh (ctrl : Fin 16)
  | aliveToggle
  | refreshSlot (chan : ChanIdx)
  | powerFail
  | flushComplete
  -- authority: `south` names the controller that sets or renews its claim bit
  | claimRenew (south : Bool)
  | claimLapse
  | authorityDispute
  | tokenClaim
  | claimTimeout
  -- admission
  | admPublish
  | admRequest (cls : BitVec 8) (req : Bool) (gen : Nat)
  | protectedPlacementLapse
  -- jobs
  | jobPrepare (id : Nat)
  | jobStart (id : Nat)
  | jobCommit (id : Nat)
  | jobEnd (id : Nat)
  | heldLoadWrite (id : Nat)
  | scheduleOverrun (isle : IsleIdx)
  -- faults
  | correctedFault (r : Report)
  | containedFault (r : Report)
  | fatalFault (r : Report)
  | driverActionEvent (r : Report)
  | captureReadComplete
  | captureReadAbandoned
  | dramHot (package : Fin 16)
  | dramHotClear (row : RowIdx)
  | retirementWindowStart (id : Nat)
  | retirementWindowEnd (id : Nat)
  -- self-test
  | sliceStart (id : Nat)
  | sliceEnd (id : Nat) (scanOk : Bool) (signature : DWord) (patrolled : Nat)
  | periodicSlicePlace
  | depotTestStart (refclkOk vcoreOk : Bool)
  | depotTestEnd (failedIsles : BitVec 64) (otherFailed : Bool) (signature : DWord)
  -- Straits
  -- `frames`: bytes 0–113 of the frames received last, oldest first
  | linkUp (port : RowIdx) (frames : List (List (BitVec 8)))
  | linkDown (l : LinkFrames)
  | frameTransmit (port : RowIdx)
  | wstate (port : RowIdx) (cw : List Byte)
  | nack (port : RowIdx) (cw : List Byte)
  | keyFlit (port : RowIdx) (wire : List Byte)
  | winFlit (port : RowIdx) (wire : List Byte)
  | redFlit (port : RowIdx) (wire : List Byte)
  | idleFlit (port : RowIdx) (wire : List Byte)
  | meshFlitDelivery (stop : IsleIdx) (hdr payload : List Byte)
  | debugPreempt (chan : ChanIdx)
  -- SMBus: `pecOk` tells whether the PEC byte was right or absent
  | smbReadVin (pecOk : Bool) (now : MonSample)
  | smbReadCurrent (pecOk : Bool) (now : MonSample)
  | smbReadPower (pecOk : Bool) (now : MonSample)
  | smbReadDieTemp (pecOk : Bool) (now : MonSample)
  | smbReadDramTemp (pecOk : Bool) (now : MonSample)
  | smbReadCoolant (pecOk : Bool) (now : MonSample)
  | smbReadPowerState (pecOk : Bool)
  | smbReadAlertSources (pecOk : Bool)
  -- scalar instructions (Table ISA-2)
  | add (i : IsleIdx) (f : SFields)
  | sub (i : IsleIdx) (f : SFields)
  | and (i : IsleIdx) (f : SFields)
  | or (i : IsleIdx) (f : SFields)
  | xor (i : IsleIdx) (f : SFields)
  | sll (i : IsleIdx) (f : SFields)
  | srl (i : IsleIdx) (f : SFields)
  | sra (i : IsleIdx) (f : SFields)
  | slt (i : IsleIdx) (f : SFields)
  | sltu (i : IsleIdx) (f : SFields)
  | seq (i : IsleIdx) (f : SFields)
  | sne (i : IsleIdx) (f : SFields)
  | mul (i : IsleIdx) (f : SFields)
  | mulh (i : IsleIdx) (f : SFields)
  | mulhu (i : IsleIdx) (f : SFields)
  | div (i : IsleIdx) (f : SFields)
  | divu (i : IsleIdx) (f : SFields)
  | rem (i : IsleIdx) (f : SFields)
  | remu (i : IsleIdx) (f : SFields)
  | fadd (i : IsleIdx) (f : SFields)
  | fsub (i : IsleIdx) (f : SFields)
  | fmul (i : IsleIdx) (f : SFields)
  | fma (i : IsleIdx) (f : SFields)
  | fdiv (i : IsleIdx) (f : SFields)
  | fsqrt (i : IsleIdx) (f : SFields)
  | fcvtws (i : IsleIdx) (f : SFields)
  | fcvtsw (i : IsleIdx) (f : SFields)
  | ld8 (i : IsleIdx) (f : SFields)
  | ld8u (i : IsleIdx) (f : SFields)
  | ld16 (i : IsleIdx) (f : SFields)
  | ld16u (i : IsleIdx) (f : SFields)
  | ld32 (i : IsleIdx) (f : SFields)
  | st8 (i : IsleIdx) (f : SFields)
  | st16 (i : IsleIdx) (f : SFields)
  | st32 (i : IsleIdx) (f : SFields)
  -- control instructions (Table ISA-3)
  | beq (i : IsleIdx) (f : BrFields)
  | bne (i : IsleIdx) (f : BrFields)
  | blt (i : IsleIdx) (f : BrFields)
  | bge (i : IsleIdx) (f : BrFields)
  | bltu (i : IsleIdx) (f : BrFields)
  | bgeu (i : IsleIdx) (f : BrFields)
  | j (i : IsleIdx) (imm : Word)
  | loop (i : IsleIdx) (sa : Fin 32) (ci : Bool) (maxcnt : BitVec 24) (body : BitVec 16)
  | lexit (i : IsleIdx) (sa : Fin 32)
  | lidx (i : IsleIdx) (sd : Fin 32) (k : Fin 8)
  | swap (i : IsleIdx) (page : Fin 16) (imm : Word)
  | waitcyc (i : IsleIdx) (target : BitVec 48)
  | csrr (i : IsleIdx) (sd : Fin 32) (num : BitVec 12)
  | csrw (i : IsleIdx) (sa : Fin 32) (num : BitVec 12)
  | agld (i : IsleIdx) (ag : Fin 16) (sa : Fin 32) (imm : Word)
  | agw (i : IsleIdx) (ag : Fin 16) (field : BitVec 6) (sb : Fin 32)
  | fence (i : IsleIdx) (qmask : BitVec 4)
  | iend (i : IsleIdx)
  -- matrix instructions (Table ISA-4)
  | wload (i : IsleIdx) (f : WloadFields)
  | wswap (i : IsleIdx) (y : Sync)
  | mmul (i : IsleIdx) (f : MmulFields)
  | chainh (i : IsleIdx) (sa sb : Fin 32) (f : ChainhFields)
  | chaina (i : IsleIdx) (f : ChainaFields)
  -- vector instructions (Table ISA-5)
  | vadd (i : IsleIdx) (f : VFields)
  | vsub (i : IsleIdx) (f : VFields)
  | vadds (i : IsleIdx) (f : VFields)
  | vsubs (i : IsleIdx) (f : VFields)
  | vmullo (i : IsleIdx) (f : VFields)
  | vmax (i : IsleIdx) (f : VFields)
  | vmin (i : IsleIdx) (f : VFields)
  | vand (i : IsleIdx) (f : VFields)
  | vor (i : IsleIdx) (f : VFields)
  | vxor (i : IsleIdx) (f : VFields)
  | vnot (i : IsleIdx) (f : VFields)
  | vshl (i : IsleIdx) (f : VFields)
  | vshr (i : IsleIdx) (f : VFields)
  | vsra (i : IsleIdx) (f : VFields)
  | vcmp (i : IsleIdx) (f : VFields)
  | vsel (i : IsleIdx) (f : VFields)
  | vprime (i : IsleIdx) (f : VFields)
  | vmadd (i : IsleIdx) (f : VFields)
  | vmsub (i : IsleIdx) (f : VFields)
  | vmneg (i : IsleIdx) (f : VFields)
  | vmmul (i : IsleIdx) (f : VFields)
  | vmred (i : IsleIdx) (f : VFields)
  | vmreds (i : IsleIdx) (f : VFields)
  | vmctr (i : IsleIdx) (f : VFields)
  | vfadd (i : IsleIdx) (f : VFields)
  | vfsub (i : IsleIdx) (f : VFields)
  | vfmul (i : IsleIdx) (f : VFields)
  | vfma (i : IsleIdx) (f : VFields)
  | vfmax (i : IsleIdx) (f : VFields)
  | vfmin (i : IsleIdx) (f : VFields)
  | vfcmp (i : IsleIdx) (f : VFields)
  | vfdiv (i : IsleIdx) (f : VFields)
  | vfsqrt (i : IsleIdx) (f : VFields)
  | vgelu (i : IsleIdx) (f : VFields)
  | vsilu (i : IsleIdx) (f : VFields)
  | vtanh (i : IsleIdx) (f : VFields)
  | vexp (i : IsleIdx) (f : VFields)
  | vcvt (i : IsleIdx) (f : VFields)
  | vbcast (i : IsleIdx) (f : VFields)
  | vslide (i : IsleIdx) (f : VFields)
  | vperm (i : IsleIdx) (f : VFields)
  | vrsum (i : IsleIdx) (f : VFields)
  | vrmax (i : IsleIdx) (f : VFields)
  | vrmin (i : IsleIdx) (f : VFields)
  | vrmaxi (i : IsleIdx) (f : VFields)
  | vrcnt (i : IsleIdx) (f : VFields)
  | vrfsum (i : IsleIdx) (f : VFields)
  | vrfmax (i : IsleIdx) (f : VFields)
  | vrfmin (i : IsleIdx) (f : VFields)
  | vmovs (i : IsleIdx) (f : VFields)
  | vld (i : IsleIdx) (f : VFields)
  | vst (i : IsleIdx) (f : VFields)
  | vtld (i : IsleIdx) (f : VFields)
  | vtst (i : IsleIdx) (f : VFields)
  -- mover, sync and bank-side instructions (Table ISA-6, Table ST-3)
  | mvissue (i : IsleIdx) (count : BitVec 12) (addr : BitVec 22) (y : Sync)
  | imload (i : IsleIdx) (page : Fin 16) (f : ImloadFields)
  | imloadComplete (i : IsleIdx)
  | ttake (i : IsleIdx) (f : TFields)
  | tput (i : IsleIdx) (f : TFields)
  | zfill (i : IsleIdx) (f : BFields)
  | iadd (i : IsleIdx) (f : BFields)
  | madd (i : IsleIdx) (f : BFields)
  | msub (i : IsleIdx) (f : BFields)
  | fadd32 (i : IsleIdx) (f : BFields)
  | madds (i : IsleIdx) (f : BFields)
  | mmuls (i : IsleIdx) (f : BFields)
  | mmult (i : IsleIdx) (f : BFields)
  | mmack (i : IsleIdx) (f : BFields)
  | mmace (i : IsleIdx) (f : BFields)
  | ccf32 (i : IsleIdx) (f : BFields)
  | ccb16 (i : IsleIdx) (f : BFields)
  | cci32 (i : IsleIdx) (f : BFields)
  | ccu32 (i : IsleIdx) (f : BFields)
  -- mover descriptors (Table DM-4)
  | copy (i : IsleIdx) (d : DescFields)
  | transpose (i : IsleIdx) (d : DescFields)
  | windowx (i : IsleIdx) (d : DescFields)
  | automorph (i : IsleIdx) (d : DescFields)
  | reverse (i : IsleIdx) (d : DescFields)
  | seedx (i : IsleIdx) (d : DescFields)
  | forward (i : IsleIdx) (d : DescFields)
  | descriptorWritePhase (i : IsleIdx)
  -- power and links
  | powerUp
  | holdUpEnd
  | pcieLinkL0
  | statusCodeword (port : RowIdx) (cw : List Byte)
  | smbAlertNAssert (now : MonSample)
  deriving DecidableEq, Repr

end Sys2Proof
end

