-- ==== Sys2Proof/Decode.lean ====
section
/-! DEFINITION. The decoder of the opcode table's words, and the decoder of the 64-bit instruction words an Isle's Skerry
fetches (Tables ISA-1 to ISA-6) with the decoder of mover descriptors (Table DM-1). -/

namespace Sys2Proof

open Machine (field bitAt finOf leAt)

/-- The table gives no row any bits, so no word spells a command. -/
def decodeTableWord (nbits w : Nat) : Option Instr :=
  match nbits, w with
  | _, _ => none

/-- The sync field, bits [15:0] (R205). -/
def syncOf (n : Nat) : Sync :=
  { rv := bitAt n 15, rslot := finOf 127 (field n 8 7), wv := bitAt n 7, wslot := finOf 127 (field n 0 7) }

/-- Scalar operation codes (Table ISA-2), without the immediate bit. -/
def sopOf : Nat → Option SOp
  | 0x00 => some .add | 0x01 => some .sub | 0x02 => some .and | 0x03 => some .or | 0x04 => some .xor | 0x05 => some .sll
  | 0x06 => some .srl | 0x07 => some .sra | 0x08 => some .slt | 0x09 => some .sltu | 0x0A => some .seq | 0x0B => some .sne
  | 0x10 => some .mul | 0x11 => some .mulh | 0x12 => some .mulhu | 0x14 => some .div | 0x15 => some .divu
  | 0x16 => some .rem | 0x17 => some .remu | 0x20 => some .fadd | 0x21 => some .fsub | 0x22 => some .fmul
  | 0x23 => some .fma | 0x24 => some .fdiv | 0x25 => some .fsqrt | 0x26 => some .fcvtws | 0x27 => some .fcvtsw
  | 0x30 => some .ld8 | 0x31 => some .ld8u | 0x32 => some .ld16 | 0x33 => some .ld16u | 0x34 => some .ld32
  | 0x38 => some .st8 | 0x39 => some .st16 | 0x3A => some .st32
  | _ => none

/-- Vector operation codes (Table ISA-5); `aux2` turns VMRED into VMREDS. -/
def vopOf (aux2 : Bool) : Nat → Option VOp
  | 0x00 => some .vadd | 0x01 => some .vsub | 0x02 => some .vadds | 0x03 => some .vsubs | 0x04 => some .vmullo
  | 0x05 => some .vmax | 0x06 => some .vmin | 0x08 => some .vand | 0x09 => some .vor | 0x0A => some .vxor
  | 0x0B => some .vnot | 0x0C => some .vshl | 0x0D => some .vshr | 0x0E => some .vsra | 0x10 => some .vcmp
  | 0x11 => some .vsel | 0x20 => some .vprime | 0x21 => some .vmadd | 0x22 => some .vmsub | 0x23 => some .vmneg
  | 0x24 => some .vmmul | 0x25 => some (if aux2 then .vmreds else .vmred) | 0x26 => some .vmctr
  | 0x30 => some .vfadd | 0x31 => some .vfsub | 0x32 => some .vfmul | 0x33 => some .vfma | 0x34 => some .vfmax
  | 0x35 => some .vfmin | 0x36 => some .vfcmp | 0x37 => some .vfdiv | 0x38 => some .vfsqrt | 0x39 => some .vgelu
  | 0x3A => some .vsilu | 0x3B => some .vtanh | 0x3C => some .vexp | 0x40 => some .vcvt | 0x48 => some .vbcast
  | 0x49 => some .vslide | 0x4A => some .vperm | 0x50 => some .vrsum | 0x51 => some .vrmax | 0x52 => some .vrmin
  | 0x53 => some .vrmaxi | 0x54 => some .vrcnt | 0x55 => some .vrfsum | 0x56 => some .vrfmax | 0x57 => some .vrfmin
  | 0x58 => some .vmovs | 0x60 => some .vld | 0x61 => some .vst | 0x62 => some .vtld | 0x63 => some .vtst
  | _ => none

/-- Bank-side FN codes (Table ST-3). -/
def bopOf : Nat → Option BOp
  | 0x01 => some .zfill | 0x10 => some .iadd | 0x11 => some .madd | 0x12 => some .msub | 0x13 => some .fadd32
  | 0x18 => some .madds | 0x19 => some .mmuls | 0x1A => some .mmult | 0x20 => some .mmack | 0x21 => some .mmace
  | 0x30 => some .ccf32 | 0x31 => some .ccb16 | 0x32 => some .cci32 | 0x33 => some .ccu32
  | _ => none

def brOf : Nat → Option BrOp
  | 0 => some .beq | 1 => some .bne | 2 => some .blt | 3 => some .bge | 4 => some .bltu | 5 => some .bgeu
  | _ => none

/-- A five-bit register field. -/
def reg5 (n lo : Nat) : Fin 32 := finOf 31 (field n lo 5)

def sfieldsOf (n : Nat) (imm : Bool) : SFields :=
  { sd := reg5 n 47, sa := reg5 n 42, sb := reg5 n 37, sc := reg5 n 32, useImm := imm, imm := BitVec.ofNat 32 n }

def vfieldsOf (n : Nat) : VFields :=
  { ty := BitVec.ofNat 3 (field n 49 3), vd := reg5 n 44, va := reg5 n 39, vb := reg5 n 34, vc := reg5 n 29,
    sn := reg5 n 24, ag := finOf 15 (field n 20 4), aux := BitVec.ofNat 4 (field n 16 4), sync := syncOf n }

def wloadOf (n : Nat) : WloadFields :=
  { mode := BitVec.ofNat 3 (field n 49 3), st := finOf 7 (field n 46 3), wrow := BitVec.ofNat 7 (field n 39 7),
    wcol := BitVec.ofNat 7 (field n 32 7), wf := bitAt n 31, sync := syncOf n }

def mmulOf (n : Nat) : MmulFields :=
  { mode := BitVec.ofNat 3 (field n 49 3), ft := finOf 7 (field n 46 3), dt := finOf 7 (field n 43 3),
    n1 := BitVec.ofNat 7 (field n 36 7), acc := bitAt n 35, red := bitAt n 34, close := bitAt n 33, fsrc := bitAt n 32,
    ag := finOf 15 (field n 28 4), ff := bitAt n 27, frow := BitVec.ofNat 7 (field n 20 7), sync := syncOf n }

def chainaOf (n : Nat) : ChainaFields :=
  { agp := finOf 15 (field n 48 4), age := finOf 15 (field n 44 4), ags := finOf 15 (field n 40 4),
    sx := reg5 n 35, sy := reg5 n 30, sz := reg5 n 25, sync := syncOf n }

def tfieldsOf (n : Nat) : TFields := { q := finOf 3 (field n 50 2), sk := bitAt n 49, sync := syncOf n }

/-- The scalar unit (Table ISA-2): bit 7 of the code selects the immediate form of codes 0x00 to 0x17. -/
def decodeScalar (n op : Nat) : IsleInstr :=
  let imm := decide (op ≥ 0x80)
  let base := if imm then op - 0x80 else op
  match sopOf base with
  | some o => if imm && decide (base > 0x17) then .nop else .scalar o (sfieldsOf n imm)
  | none => .nop

/-- The control unit (Table ISA-3). -/
def decodeControl (n op : Nat) : IsleInstr :=
  let imm := BitVec.ofNat 32 n
  let csr := BitVec.ofNat 12 n
  match brOf op with
  | some o => .branch o { sa := reg5 n 42, sb := reg5 n 37, imm := imm }
  | none =>
    match op with
    | 0x08 => .j imm
    | 0x10 => .loop (reg5 n 47) (bitAt n 46) (BitVec.ofNat 24 (field n 22 24)) (BitVec.ofNat 16 n)
    | 0x11 => .lexit (reg5 n 42)
    | 0x12 => .lidx (reg5 n 47) (finOf 7 (field n 32 3))
    | 0x18 => .swap (finOf 15 (field n 48 4)) imm
    | 0x19 => .waitcyc (BitVec.ofNat 48 n)
    | 0x20 => .csrr (reg5 n 47) csr
    | 0x21 => .csrw (reg5 n 42) csr
    | 0x28 => .agld (finOf 15 (field n 48 4)) (reg5 n 42) imm
    | 0x29 => if field n 42 6 ≤ 14 then .agw (finOf 15 (field n 48 4)) (BitVec.ofNat 6 (field n 42 6)) (reg5 n 37) else .nop
    | 0x30 => .fence (BitVec.ofNat 4 (field n 48 4))
    | 0x3F => .iend
    | _ => .nop

/-- The matrix unit (Table ISA-4); MODE 7 is reserved (R126). -/
def decodeMatrix (n op : Nat) : IsleInstr :=
  match op with
  | 0x00 => if field n 49 3 = 7 then .nop else .wload (wloadOf n)
  | 0x01 => .wswap (syncOf n)
  | 0x02 => if field n 49 3 = 7 then .nop else .mmul (mmulOf n)
  | 0x08 => .chainh (reg5 n 47) (reg5 n 42) { link2 := bitAt n 32, sync := syncOf n }
  | 0x09 => .chaina (chainaOf n)
  | _ => .nop

/-- An instruction word (R189); a reserved encoding is a no-operation (R190). -/
def decodeIsle (w : DWord) : IsleInstr :=
  let n := w.toNat
  let op := field n 52 8
  match field n 60 4 with
  | 0 => decodeScalar n op
  | 1 => decodeControl n op
  | 2 => decodeMatrix n op
  | 3 => match vopOf (bitAt n 18) op with
    | some o => .vec o (vfieldsOf n)
    | none => .nop
  | 4 =>
    if op = 0x00 then (if field n 40 12 = 0 then .nop
      else .mvissue (BitVec.ofNat 12 (field n 40 12)) (BitVec.ofNat 22 (field n 16 22)) (syncOf n))
    else if op = 0x10 then .imload (finOf 15 (field n 48 4)) { bank := bitAt n 47, sync := syncOf n }
    else .nop
  | 5 =>
    if op ≠ 0 then .nop
    else match bopOf (field n 44 8) with
      | some o => .bank o { aga := finOf 15 (field n 40 4), agb := finOf 15 (field n 36 4), sn := reg5 n 31, sync := syncOf n }
      | none => .nop
  | 6 => if op = 0 then .ttake (tfieldsOf n) else if op = 1 then .tput (tfieldsOf n) else .nop
  | _ => .nop

/-- Mover operation codes (Table DM-1). -/
def dopOf : Nat → Option DOp
  | 1 => some .copy | 2 => some .transpose | 3 => some .windowx | 4 => some .automorph | 5 => some .reverse
  | 6 => some .seedx | 7 => some .forward
  | _ => none

/-- The fields of a 64-byte descriptor but for OP (Table DM-1). -/
def descFieldsOf (l : List Byte) : DescFields :=
  { version := BitVec.ofNat 4 (leAt l 0 1 / 16), srcsp := BitVec.ofNat 4 (leAt l 1 1), dstsp := BitVec.ofNat 4 (leAt l 1 1 / 16),
    esize := BitVec.ofNat 2 (leAt l 2 1 / 64), peer := finOf 63 (leAt l 2 1), zpad := bitAt (leAt l 3 1) 0,
    sref := BitVec.ofNat 16 (leAt l 4 2), dref := BitVec.ofNat 16 (leAt l 6 2), length := BitVec.ofNat 32 (leAt l 8 4),
    src := BitVec.ofNat 64 (leAt l 12 8), dst := BitVec.ofNat 64 (leAt l 20 8), sync := syncOf (leAt l 28 2),
    target := BitVec.ofNat 16 (leAt l 30 2), param := BitVec.ofNat 128 (leAt l 32 16) }

/-- A descriptor; none for a reserved OP. -/
def descOf (l : List Byte) : Option (DOp × DescFields) := (dopOf (leAt l 0 1 % 16)).map (fun o => (o, descFieldsOf l))

end Sys2Proof
end

