-- ==== Sys2Proof/Machine/Crypto.lean ====
section
/-! DEFINITION. Hashes and check sums: SHAKE128 and Keccak-f[1600] (FIPS 202), SHA-384 (FIPS 180-4), HMAC-SHA-384, CRC-32
(R44) and CRC-64 (R333). -/

namespace Sys2Proof.Machine

/-! ## Keccak -/

def rotl64 (x n : Nat) : Nat := ((x <<< n) ||| (x >>> (64 - n))) % 2 ^ 64

/-- Rotation offset of lane x + 5y. -/
def keccakRot : List Nat :=
  [0, 1, 62, 28, 27, 36, 44, 6, 55, 20, 3, 10, 43, 25, 39, 41, 45, 15, 21, 8, 18, 2, 61, 56, 14]

def keccakRc : List Nat :=
  [0x0000000000000001, 0x0000000000008082, 0x800000000000808A, 0x8000000080008000, 0x000000000000808B, 0x0000000080000001,
   0x8000000080008081, 0x8000000000008009, 0x000000000000008A, 0x0000000000000088, 0x0000000080008009, 0x000000008000000A,
   0x000000008000808B, 0x800000000000008B, 0x8000000000008089, 0x8000000000008003, 0x8000000000008002, 0x8000000000000080,
   0x000000000000800A, 0x800000008000000A, 0x8000000080008081, 0x8000000000008080, 0x0000000080000001, 0x8000000080008008]

/-- One round on the 25 lanes. -/
def keccakRound (a : List Nat) (rc : Nat) : List Nat :=
  let g := fun (l : List Nat) i => l.getD i 0
  let c := (List.range 5).map (fun x => g a x ^^^ g a (x + 5) ^^^ g a (x + 10) ^^^ g a (x + 15) ^^^ g a (x + 20))
  let d := (List.range 5).map (fun x => g c ((x + 4) % 5) ^^^ rotl64 (g c ((x + 1) % 5)) 1)
  let t := (List.range 25).map (fun i => rotl64 (g a i ^^^ g d (i % 5)) (g keccakRot i))
  -- lane (x, y) of π comes from lane ((x + 3y) mod 5, x)
  let b := (List.range 25).map (fun i => g t ((i % 5 + 3 * (i / 5)) % 5 + 5 * (i % 5)))
  (List.range 25).map (fun i =>
    let x := i % 5; let y := i / 5
    let v := g b i ^^^ ((2 ^ 64 - 1 - g b ((x + 1) % 5 + 5 * y)) &&& g b ((x + 2) % 5 + 5 * y))
    if i = 0 then v ^^^ rc else v)

def keccakF (a : List Nat) : List Nat := keccakRc.foldl keccakRound a

/-- SHAKE128's state after absorbing at most 167 bytes. -/
def shakeAbsorb (msg : List Byte) : List Nat :=
  let padded := msg ++ [0x1F] ++ List.replicate (167 - msg.length) 0
  let block := leNat padded ^^^ (0x80 <<< (8 * 167))
  keccakF ((List.range 25).map (fun i => if i < 21 then field block (64 * i) 64 else 0))

/-- The first 64-bit little-endian words of SHAKE128's output, `blocks` times 21 of them. -/
def shakeWords : Nat → List Nat → List Nat
  | 0, _ => []
  | k + 1, st => st.take 21 ++ shakeWords k (keccakF st)

/-- The first `n` 64-bit words SHAKE128 squeezes for a message of at most 167 bytes (R48). -/
def shake128 (msg : List Byte) (n : Nat) : List Nat := (shakeWords (ceilDiv n 21) (shakeAbsorb msg)).take n

/-- The 39-byte string SEED ‖ TAG ‖ A ‖ B ‖ C of R48. -/
def seedString (seed : List Byte) (tag a b c : Nat) : List Byte :=
  seed ++ [byteOf tag] ++ leBytes 2 a ++ leBytes 2 b ++ leBytes 2 c

/-- The residues of one pseudorandom block (R48). -/
def seedBlock (seed : List Byte) (tag a b c n p : Nat) : List Nat :=
  (shake128 (seedString seed tag a b c) n).map (· % p)

/-! ## SHA-384 -/

/-- The largest r whose k-th power does not pass x, bit by bit below 2^n, from the bits of `r` found so far. -/
def rootBits (k x : Nat) : Nat → Nat → Nat
  | 0, r => r
  | n + 1, r => rootBits k x n (if (r + 2 ^ n) ^ k ≤ x then r + 2 ^ n else r)

/-- The first 64 bits of the fractional part of the k-th root of a number below 512. -/
def rootFraction (k p : Nat) : Nat := rootBits k (p * 2 ^ (64 * k)) 69 0 % 2 ^ 64

/-- The first 80 primes: those up to 409. A composite number among them has a factor up to 19. -/
def shaPrimes : List Nat := (List.range' 2 408).filter (fun n => [2, 3, 5, 7, 11, 13, 17, 19].all (fun d => n % d != 0 || n == d))

/-- The round constants of SHA-384: the cube roots of the first 80 primes (FIPS 180-4, 4.2.3). -/
def shaRoundConstants : List Nat := shaPrimes.map (rootFraction 3)

/-- The hash value SHA-384 begins with: the square roots of the ninth to sixteenth primes (FIPS 180-4, 5.3.4). -/
def shaStart : List Nat := ((shaPrimes.drop 8).take 8).map (rootFraction 2)

def rotr64 (x n : Nat) : Nat := ((x >>> n) ||| (x <<< (64 - n))) % 2 ^ 64

/-- Extends the message schedule, kept newest first, by `k` words. -/
def shaExtend : Nat → List Nat → List Nat
  | 0, w => w
  | k + 1, w =>
    let g := fun i => w.getD i 0
    let s0 := rotr64 (g 14) 1 ^^^ rotr64 (g 14) 8 ^^^ (g 14 >>> 7)
    let s1 := rotr64 (g 1) 19 ^^^ rotr64 (g 1) 61 ^^^ (g 1 >>> 6)
    shaExtend k (((g 15 + s0 + g 6 + s1) % 2 ^ 64) :: w)

/-- The eight working variables after one round. -/
def shaRound (v : List Nat) (kw : Nat) : List Nat :=
  match v with
  | [a, b, c, d, e, f, g, h] =>
    let s1 := rotr64 e 14 ^^^ rotr64 e 18 ^^^ rotr64 e 41
    let ch := (e &&& f) ^^^ ((2 ^ 64 - 1 - e) &&& g)
    let t1 := h + s1 + ch + kw
    let s0 := rotr64 a 28 ^^^ rotr64 a 34 ^^^ rotr64 a 39
    let mj := (a &&& b) ^^^ (a &&& c) ^^^ (b &&& c)
    [(t1 + s0 + mj) % 2 ^ 64, a, b, c, (d + t1) % 2 ^ 64, e, f, g]
  | v => v

def shaBlock (h : List Nat) (block : List Byte) : List Nat :=
  let w := (shaExtend 64 ((chunks 8 block).map beNat).reverse).reverse
  let v := (shaRoundConstants.zip w).foldl (fun v kw => shaRound v (kw.1 + kw.2)) h
  h.zipWith (fun x y => (x + y) % 2 ^ 64) v

def shaPad (msg : List Byte) : List Byte :=
  msg ++ [0x80] ++ List.replicate ((239 - msg.length % 128) % 128) 0 ++ beBytes 16 (8 * msg.length)

/-- SHA-384 of a byte string: 48 bytes. -/
def sha384 (msg : List Byte) : List Byte :=
  (((chunks 128 (shaPad msg)).foldl shaBlock shaStart).take 6).flatMap (beBytes 8)

/-- HMAC-SHA-384 (RFC 2104). -/
def hmacSha384 (key msg : List Byte) : List Byte :=
  let k0 := if key.length > 128 then sha384 key else key
  let k := k0 ++ List.replicate (128 - k0.length) 0
  sha384 (k.map (· ^^^ 0x5C) ++ sha384 (k.map (· ^^^ 0x36) ++ msg))

/-! ## Check sums -/

def crcBits (poly : Nat) : Nat → Nat → Nat
  | 0, r => r
  | k + 1, r => crcBits poly k (if r % 2 = 1 then (r / 2) ^^^ poly else r / 2)

/-- CRC-32 with the reflected polynomial 0xEDB88320, initial value and final inversion all ones (R44). -/
def crc32 (l : List Byte) : Nat :=
  l.foldl (fun r b => crcBits 0xEDB88320 8 (r ^^^ b.toNat)) 0xFFFFFFFF ^^^ 0xFFFFFFFF

def crc64Bits : Nat → Nat → Nat
  | 0, r => r
  | k + 1, r => crc64Bits k (if 2 ^ 63 ≤ r then (2 * r) % 2 ^ 64 ^^^ 0x42F0E1EBA9EA3693 else 2 * r)

/-- CRC-64 with the ECMA-182 polynomial, no reflection and no final XOR, continued from `r` (R333). -/
def crc64 (r : Nat) (l : List Byte) : Nat := l.foldl (fun r b => crc64Bits 8 (r ^^^ (b.toNat * 2 ^ 56))) r

end Sys2Proof.Machine
end

