-- ==== Sys2Proof/Config.lean ====
section
/-! DEFINITION. What an implementation fixes and the spec leaves open: constants without a body, so that no proof can see
a value. Each is named in notes/assumptions. -/

namespace Sys2Proof.Config

/-- A fresh random or undefined natural number: the DRBG outputs of R396 and every other value the spec leaves open,
applied to the counter `State.free`. -/
opaque freeNat : Nat → Nat

/-- Which of the fp32 values within 2 units in the last place GELU, SILU, TANH or EXP returns (R158): a function of the
operation (0 GELU, 1 SILU, 2 TANH, 3 EXP) and the input bits. For GELU and SILU of −Inf, whose defining product the spec
gives no value, it is the result word itself. -/
opaque ulpChoice : Nat → Word → Nat

/-- The VENDOR key of the fuses as a point of P-384 (R389). -/
opaque vendorKey : Nat × Nat

/-- The private scalar of IDENT, generated on-die at manufacture (R389). -/
opaque identScalar : Nat

/-- The version a firmware image carries (R421); its place in the image is given nowhere. -/
opaque firmwareVersion : List (BitVec 8) → BitVec 16

/-- What an MMUL yields when its mode differs from the mode of the active weights (R144): the latches are read in a mode
they were not loaded in, and the spec gives no layout of one mode's cells in another. -/
opaque foreignWeight : Nat → Nat → Nat → Nat → BitVec 32

/-- A word the Isle reads where the spec gives none: a purpose and what it depends on. Purpose 0: an Isle-store or
tile-register byte beyond the address space, which no sealed image reads (R210); 1: the index of a loop that is not open
(LIDX); 2: a lane E word beyond those of the chunks consumed, for which an element waits (R237), so that none is used; 4: a stage
operand word where the chain names no generator (R199); 5: VMOVS of a lane index beyond the register's lanes (R179);
6: the slot that ISL_TOKSTAT names for a token wait on no slot of the Isle (R208, R216, R253); 7: the Isle cycles by which a grant
to the debug port delays the transfers of a row (R284). -/
opaque isleWord : Nat → Nat → BitVec 32

/-- The Isle-store word a chain with SINK = 1 or an STMUL stage writes: the spec names no generator for the sink address
(R153, R160, R236). A function of the chain header, the number of the closing MMUL within the chain, and the number of its
result word. -/
opaque sinkWord : BitVec 64 → Nat → Nat → Nat

/-- A stored key word of a chunk that another module of the ring keeps (R86): key-set tag, record, chunk, word. -/
opaque keyChunkWord : Nat → Nat → Nat → Nat → Nat

/-- LOGSLOTS of a result whose operands differ in it: the spec states no rule (Table CT-1, Table CT-7). -/
opaque mixedLogslots : Nat → Nat → Nat

/-- Contents of a Lagoon slice that changed from CACHE to SCRATCH (R280): the change's number and the offset. -/
opaque lagoonByte : Nat → Nat → BitVec 8

end Sys2Proof.Config
end

