-- ==== Sys2Proof/Machine/Rs.lean ====
section
/-! DEFINITION. The Reed–Solomon codes of the manual over GF(2^8) with field polynomial 0x11D and α = 2 (R15, R226, R274,
R291): check bytes, syndromes and the decoding of one codeword. -/

namespace Sys2Proof.Machine

/-- Multiplication by α. -/
def gfDouble (a : Nat) : Nat := if a ≥ 128 then (2 * a) ^^^ 0x11D else 2 * a

def gfMulAux : Nat → Nat → Nat → Nat → Nat
  | 0, _, _, acc => acc
  | k + 1, a, b, acc => gfMulAux k (gfDouble a) (b / 2) (if b % 2 = 1 then acc ^^^ a else acc)

/-- The product in GF(2^8). -/
def gfMul (a b : Nat) : Nat := gfMulAux 8 a b 0

/-- α^i. -/
def gfAlpha : Nat → Nat
  | 0 => 1
  | i + 1 => gfDouble (gfAlpha i)

/-- c(α^j) of a codeword given with its lowest coefficient first. -/
def rsEval (j : Nat) (cw : List Byte) : Nat := cw.foldr (fun b acc => gfMul acc (gfAlpha j) ^^^ b.toNat) 0

/-- Coefficients of (x + 1)(x + α)…(x + α^(r−1)), lowest first, without the leading 1. -/
def rsGen : Nat → List Nat
  | 0 => []
  | r + 1 =>
    let g := rsGen r ++ [1]
    let lo := g.map (gfMul (gfAlpha r))
    let hi := 0 :: g
    ((List.range (r + 1)).map (fun i => lo.getD i 0 ^^^ hi.getD i 0))

/-- One step of the division by the generator: the register holds the remainder, lowest coefficient first. -/
def rsShift (g reg : List Nat) (b : Nat) : List Nat :=
  let fb := b ^^^ reg.getLastD 0
  (0 :: reg.dropLast).zipWith (fun x c => x ^^^ gfMul c fb) g

/-- The `r` check bytes C0, C1, … of the data bytes D0, D1, …, which are the high-order coefficients. -/
def rsCheck (r : Nat) (data : List Byte) : List Byte :=
  let g := rsGen r
  (data.foldr (fun b reg => rsShift g reg b.toNat) (List.replicate r 0)).map byteOf

/-- What a decoder finds: nothing, one wrong symbol and its value, or an uncorrectable codeword. -/
inductive RsVerdict where
  | clean
  | corrected (symbol : Nat) (value : Nat)
  | bad
  deriving DecidableEq, Repr

/-- The verdict from the syndromes S0, S1, … of a codeword of `n` symbols: a single error of value S0 at symbol i makes
S(j+1) = S(j) · α^i. -/
def rsJudge (n : Nat) (synd : List Nat) : RsVerdict :=
  if synd.all (· == 0) then .clean
  else
    let ok := fun i => synd.headD 0 != 0 && (synd.zip (synd.drop 1)).all (fun p => p.2 == gfMul p.1 (gfAlpha i))
    match (List.range n).find? ok with
    | some i => .corrected i (synd.headD 0)
    | none => .bad

/-- The verdict on a codeword with its lowest coefficient first and `r` check symbols. -/
def rsDecode (r : Nat) (cw : List Byte) : RsVerdict := rsJudge cw.length ((List.range r).map (fun j => rsEval j cw))

/-- The codeword with a verdict's correction applied. -/
def rsFix (cw : List Byte) : RsVerdict → List Byte
  | .corrected i v => cw.set i (cw.getD i 0 ^^^ byteOf v)
  | _ => cw

/-- The verdict on a stored codeword of `n` symbols whose wrong symbols are known (an entry of `ErrMarks`). -/
def rsMarks (r n : Nat) (marks : List (Nat × Byte)) : RsVerdict :=
  rsJudge n ((List.range r).map (fun j =>
    marks.foldl (fun acc m => acc ^^^ gfMul m.2.toNat (gfAlpha (j * m.1))) 0))

end Sys2Proof.Machine
end

