-- ==== Sys2Proof/Machine/State.lean ====
section
/-! DEFINITION. The state of the module as plain data: every register, queue, table, memory and pin level the spec gives
it (INVENTORY.md, '## State', names the rule of each), the two closed types of stop reasons, and the state after reset. -/

namespace Sys2Proof.Machine

/-- A memory: (address, byte) pairs with addresses strictly rising and no entry equal to 0, what an unlisted address
reads as. -/
abbrev Mem := List Host.Cell

/-- Error marks of a coded memory: for a word or block number, the wrong symbols of its codeword and their XOR. Symbols
number the codeword's bytes as the logs do: check bytes first, then data. -/
abbrev ErrMarks := List (Nat × List (Nat × Byte))

/-! ## Isles -/

/-- An address generator (Table ISA-8). -/
structure AddrGen where
  base : BitVec 22
  oreg : Fin 32
  omask : BitVec 22
  counts : Vector (BitVec 24) 6
  strides : Vector Word 6
  rotmask : BitVec 4
  rotlog : BitVec 3
  deriving DecidableEq, Repr

/-- An address generator with the offset register's value, as an instruction captures it at issue (R203, R210). -/
structure AgCap where
  ag : AddrGen
  off : Word
  deriving DecidableEq, Repr

/-- What a write to a generator sets: the whole of it (AGLD), or one field (AGW). -/
inductive AgSet where
  | whole (g : AddrGen)
  | field (k : Nat) (v : Word)
  deriving DecidableEq, Repr

/-- A write to an address generator that instructions issued in cycle `land` or later capture (R212). -/
structure AgWrite where
  ag : Fin 16
  land : Nat
  set : AgSet
  deriving DecidableEq, Repr

/-- The chain header and stage operands in force (R199). -/
structure Chain where
  /-- advanced when a header of all zeros ends a chain: the row statistics then start anew -/
  gen : Nat
  header : DWord
  link2 : Bool
  agp : Option AgCap
  age : Option AgCap
  ags : Option AgCap
  sx : Word
  sy : Word
  sz : Word
  deriving DecidableEq, Repr

/-- An instruction in an issue queue with what it captured at issue (R203). -/
inductive QOp where
  | wload (f : WloadFields)
  | wswap
  | mmul (f : MmulFields) (ch : Chain) (feed : AgCap)
  | vec (op : VOp) (f : VFields) (scalar : Word) (ag : Option AgCap)
  | mvissue (count addr : Nat)
  | imload (page : Fin 16)
  | bank (op : BOp) (f : BFields) (a b : AgCap) (p c : Word)
  /-- TTAKE, TPUT and CHAINA at a queue head: only their sync field acts -/
  | token
  /-- CHAINH in MQ: a header of all zeros ends the chain there (R199) -/
  | chainh (ends : Bool)
  deriving DecidableEq, Repr

structure QEntry where
  op : QOp
  sync : Sync
  /-- consecutive Isle cycles of token wait so far (R207) -/
  wait : Nat
  deriving DecidableEq, Repr

/-- An open hardware loop (R194): byte offsets of its first body instruction and of the one after its body, the latched
count and the iteration index. -/
structure LoopFrame where
  first : Nat
  past : Nat
  count : Nat
  idx : Nat
  deriving DecidableEq, Repr

/-- ISL_SKSTAT.STATE (R188). -/
inductive SkState where
  | halted | running | stalled | trapped
  deriving DecidableEq, Repr

/-- An instruction-memory bank and its tag (R214). `fn` is the function whose handle `image` names. -/
structure ImBank where
  valid : Bool
  fn : Fn
  image : BitVec 16
  page : BitVec 4
  words : List DWord
  deriving DecidableEq, Repr

structure Skerry where
  s : Vector Word 32
  scr : Vector Word 4
  pc : Nat
  loops : List LoopFrame
  st : SkState
  cause : BitVec 6
  halt : Bool
  /-- Isle cycles since the start boundary (CYC) and the latched CYC_HI -/
  cyc : Nat
  cycHi : Word
  runFirst : BitVec 8
  runRows : BitVec 8
  owner : BitVec 4
  jobtag : Word
  /-- function and handle of the running image (R216) -/
  run : Option (Fn × BitVec 16)
  /-- the instruction held at issue by a full queue, a token, FENCE, SWAP or END, and its token wait -/
  held : Option IsleInstr
  heldWait : Nat
  ended : Bool
  bank0 : ImBank
  bank1 : ImBank
  active : Bool
  /-- an IMLOAD in progress: the page it writes into the shadow bank -/
  imload : Option (BitVec 4)
  /-- sync field of that IMLOAD -/
  imSync : Sync
  /-- generators as they stand before the writes of `agw`, which lists those not landed when the last one was made, in landing
  order (R212) -/
  ags : Vector AddrGen 16
  agw : List AgWrite
  chain : Chain
  deriving DecidableEq, Repr

/-- One weight-latch set (R141): its mode and FP8 format, rows of weights, column primes, and whether the parity of its
first latch is wrong (R150, R408). -/
structure WeightSet where
  mode : BitVec 3
  wf : Bool
  rows : List (List Word)
  primes : List Word
  badParity : Bool
  deriving DecidableEq, Repr

/-- Running row statistics of a chain (R165, R166), fp32 words. -/
structure RowStat where
  n : Word
  mu : Word
  m2 : Word
  mx : Word
  l : Word
  /-- γ of every score tile closed so far, and per destination register how many were applied -/
  gammas : List Word
  applied : List (Nat × Nat)
  deriving DecidableEq, Repr

/-- The tile registers t0 to t7 and the matrix engine: R128, R131, R141, and the fields of ISL_MECFG and ISL_MESTAT (R148). -/
structure Matrix where
  tiles : Mem
  tileErrs : ErrMarks
  /-- armed injections of the tile-register code and of the latch parity (R408) -/
  tileInj : Option Bool
  latchInj : Bool
  wA : WeightSet
  wB : WeightSet
  /-- false: set A active; true: set B -/
  active : Bool
  mode : BitVec 3
  corr : BitVec 8
  wpar : Bool
  sat : Bool
  ovf : Bool
  nan : Bool
  stats : List RowStat
  statGen : Nat
  /-- MMULs of the chain that have closed their accumulation, and the AGS generator of a NORMSTAT whose values wait for the
  chain's end (R165) -/
  closed : Nat
  norm : Option AgCap
  deriving DecidableEq, Repr

structure Vec where
  v : Vector (BitVec 2048) 32
  primes : Vector Word 64
  sat : Bool
  ovf : Bool
  nan : Bool
  deriving DecidableEq, Repr

/-- A key chunk's circulation tag but for HOPS (Table KC-1), and what the seed expander needs to produce the seeded words
beside it (R48, R85). -/
structure KeyChunk where
  keyset : Word
  mfp : Word
  record : Nat
  seed : List Byte
  kind : Nat
  chunk : Nat
  /-- L + K limbs and tiles per limb of a level set, or N_r and DIGITS and n of a bit set -/
  limbs : Nat
  tiles : Nat
  nr : Nat
  digits : Nat
  lweDim : Nat
  primes : List Nat
  deriving DecidableEq, Repr

/-- A slot and its token (R204, R205); key slots and landing slots are of this kind (R96, R169), their ranges disjoint (R239). -/
structure Slot where
  kind : BitVec 2
  init : Bool
  readers : Nat
  len : Nat
  base : Nat
  full : Bool
  drain : Nat
  rounds : Nat
  /-- bytes of the current round's deliveries into a key or landing slot -/
  got : Nat
  deriving DecidableEq, Repr

structure Store where
  mem : Mem
  errs : ErrMarks
  /-- an armed injection: C0 inverted, or C0 and C1 (R228) -/
  inj : Option Bool
  eccCnt : Word
  eccLog : Word
  nan : Bool
  ovf : Bool
  bankConf : Bool
  slotSel : BitVec 7
  slots : List Slot
  /-- the circulation tags of the chunks in the store, each at the address of its chunk's first byte (R83, R85) -/
  tags : List (Nat × KeyChunk)
  deriving DecidableEq, Repr

/-- A descriptor whose read phase has begun and whose write phase is not done (R252). -/
structure Staged where
  op : DOp
  d : DescFields
  /-- what is still to be written, in pieces of at most 16 KiB: (offset in the destination, bytes) -/
  runs : List (Nat × List Byte)
  /-- pieces in all and those written; 16 KiB blocks of the source in all and those the read phase has brought in -/
  pieces : Nat
  done : Nat
  blocks : Nat
  inn : Nat
  idx : Nat
  wait : Nat
  /-- slot its batch fills, and whether it is the first and the last descriptor of the batch (R243) -/
  bwv : Option (Fin 128)
  /-- the key chunks that begin at these offsets of the runs -/
  keys : List (Nat × KeyChunk)
  /-- Isles that have had the copy of the first run (R263) -/
  sent : List IsleIdx
  first : Bool
  last : Bool
  deriving DecidableEq, Repr

/-- A standing forward (R264): slot, destination and bytes left to arrive; the words that have arrived and wait to go on, each with
its place, and how long the first of them has waited. -/
structure Fwd where
  slot : Fin 128
  d : DescFields
  left : Nat
  pend : List (Nat × List Byte × Option KeyChunk)
  wait : Nat
  deriving DecidableEq, Repr

/-- Words that arrived for an Isle from the mesh, a row lane or a Strait and wait in DELIVERY blocks (R240, R253). -/
structure Arrival where
  addr : Nat
  bytes : List Byte
  /-- the tag of the chunk that begins here -/
  key : Option KeyChunk
  /-- arrived from a Strait: forwarded round the ring by the port alone (R99) -/
  ring : Bool
  wait : Nat
  deriving DecidableEq, Repr

structure Mover where
  ra : BitVec 5
  rd : BitVec 5
  rs : BitVec 5
  /-- fetched descriptors of the running batch still to begin their read phase, with their index -/
  batch : List (DOp × DescFields × Nat)
  /-- descriptors of the batch not fetched yet, and the store address of the first of them (R242) -/
  unread : Nat
  fetchAt : Nat
  /-- index of the next descriptor to be fetched -/
  fetchIdx : Nat
  /-- slot the batch's MVISSUE fills when every descriptor has completed (R243) -/
  batchWv : Option (Fin 128)
  /-- Isle cycles the head of the batch has waited for its RSLOT -/
  rwait : Nat
  staged : List Staged
  arrivals : List Arrival
  fwds : List Fwd
  dindex : BitVec 12
  errLog : Word
  stopped : Bool
  bytes : DWord
  deriving DecidableEq, Repr

/-- A bank-side operation under way in its channel (R236): what BQ captured, the next element, the count of a CC operation so
far (of an MMACK, 1 once lane K has read its whole slot), and the Isle cycles since its dispatch. -/
structure BankRun where
  op : BOp
  f : BFields
  a : AgCap
  b : AgCap
  p : Word
  c : Word
  next : Nat
  total : Nat
  age : Nat
  deriving DecidableEq, Repr

/-- A vector instruction in one of the three slots (R172): what VQ captured, the executions begun, and the Isle cycles for which
the one under way still takes the slot. -/
structure VecRun where
  op : VOp
  f : VFields
  scalar : Word
  ag : Option AgCap
  sync : Sync
  next : Nat
  busy : Nat
  /-- place in the order of issue among the instructions in the slots -/
  seq : Nat
  deriving DecidableEq, Repr

/-- The MMUL whose feed rows issue (R145): the next row, and the Isle cycles since the first could issue. -/
structure MatFeed where
  f : MmulFields
  ch : Chain
  ag : AgCap
  sync : Sync
  next : Nat
  age : Nat
  deriving DecidableEq, Repr

/-- A feed row in the array (R145): the set it multiplies with, the row number, and the Isle cycles to its write. `done` is the
sync field of an MMUL whose last row it is. -/
structure MatRow where
  f : MmulFields
  ch : Chain
  w : WeightSet
  row : Nat
  x : List Nat
  left : Nat
  done : Option Sync
  deriving DecidableEq, Repr

/-- A WLOAD under way (R141): rows latched so far, each an Isle cycle. -/
structure MatLoad where
  f : WloadFields
  sync : Sync
  rows : List (List Word)
  deriving DecidableEq, Repr

/-- What an instruction under way writes when its latency has passed. -/
inductive LandOp where
  | vreg (r : Fin 32) (v : BitVec 2048)
  | primes (v : Vector Word 64)
  | sreg (r : Fin 32) (v : Word)
  /-- port writes of one Isle cycle, a step's write-back (R230) -/
  | store (l : List (Nat × List Byte))
  | step (addr : Nat) (data : List Byte)
  /-- a tile-register write of the vector engine, of the mover -/
  | vtst (addr : Nat) (data : List Byte)
  | mtile (addr : Nat) (data : List Byte)
  /-- the token changes of an instruction's end -/
  | sync (y : Sync)
  deriving DecidableEq, Repr

/-- A write that lands at the end of the Isle cycle in which `left` reaches 0, with the flags its result raises: SAT, OVF, NAN of
the vector engine, or of the bank-side units. -/
structure Landing where
  left : Nat
  op : LandOp
  sat : Bool
  ovf : Bool
  nan : Bool
  /-- place of the instruction in the order of issue, for a vector result -/
  seq : Nat
  deriving DecidableEq, Repr

/-- The units of an Isle at work: the slots of the vector engine, the array, the channels of the bank-side units, and the writes
on their way. -/
structure Units where
  arith : Option VecRun
  vread : Option VecRun
  vwrite : Option VecRun
  vseq : Nat
  feed : Option MatFeed
  rows : List MatRow
  load : Option MatLoad
  /-- quarters of an arithmetic-slot cycle that the running chain still needs (R178) -/
  chainDue : Nat
  chZ : Option BankRun
  chK : Option BankRun
  chE : Option BankRun
  flight : List Landing
  /-- scalar registers whose result is not usable yet, with the Isle cycles left (Table VS-2) -/
  regs : List (Fin 32 × Nat)
  /-- Isle cycles until the Skerry issues again -/
  idle : Nat
  deriving DecidableEq, Repr

structure Isle where
  sk : Skerry
  me : Matrix
  ve : Vec
  sto : Store
  mov : Mover
  mq : List QEntry
  vq : List QEntry
  dq : List QEntry
  bq : List QEntry
  slack : BitVec 24
  tokOvr : Bool
  tokSlot : BitVec 7
  tokMax : BitVec 24
  /-- the chunks whose seeded words lane E supplies, in order, and how many 32-bit words of the first it has supplied (R85,
  R238) -/
  laneE : List KeyChunk
  lanePos : Nat
  un : Units
  deriving DecidableEq, Repr

/-! ## Host block -/

/-- A queue pair (R339 to R343). -/
structure Queue where
  sqBase : DWord
  cqBase : DWord
  en : Bool
  sqlog : BitVec 4
  cqlog : BitVec 4
  vector : BitVec 8
  version : BitVec 4
  err : Bool
  stall : Bool
  sqHead : Nat
  sqTail : Nat
  cqTail : Nat
  cqHead : Nat
  phase : Bool
  /-- HBR_CTRL.COMPAT when EN was set: the stride before the first HELLO (R340) -/
  compatAtEn : Bool
  clamp : Word
  deriving DecidableEq, Repr

/-- A status reply (Table HC-7). -/
structure Reply where
  status : BitVec 16
  abortLate : Bool
  ruleSub : Bool
  cid : BitVec 16
  sqhd : BitVec 16
  version : BitVec 4
  qid : BitVec 3
  phase : Bool
  detail : Byte
  opcode : BitVec 16
  result0 : Word
  result1 : DWord
  time : BitVec 28
  kind : BitVec 4
  deriving DecidableEq, Repr

/-- A reply that waits for its VF to return to D0 (R449). -/
structure Deferred where
  q : Fin 8
  noirq : Bool
  r : Reply
  deriving DecidableEq, Repr

/-- One result of a READY slot (R361): payload address, length in bytes, descriptor copy. -/
structure ResultInfo where
  payload : DWord
  len : Nat
  desc : List Byte
  deriving DecidableEq, Repr

inductive SlotSt where
  | free | pending | ready
  deriving DecidableEq, Repr

/-- A result slot of a function (R356, R360, R361). -/
structure ResultSlot where
  st : SlotSt
  /-- first management cycle in which a READY slot reads READY -/
  since : Nat
  jobid : DWord
  status : BitVec 16
  info : BitVec 16
  time : BitVec 28
  results : List ResultInfo
  rows : BitVec 8
  deriving DecidableEq, Repr

structure FnState where
  queues : Vector Queue 8
  clamp8 : Word
  d3hot : Bool
  slots : Vector ResultSlot 64
  deferred : List Deferred
  deriving DecidableEq, Repr

/-! ## Ciphertexts, sets, images, jobs -/

/-- A ciphertext descriptor (R35, Table CT-1). -/
structure Desc where
  version : BitVec 4
  kind : BitVec 4
  pset : BitVec 4
  level : Nat
  limbs : Nat
  scale : Int
  exhausted : Bool
  mismatch : Bool
  ntt : Bool
  seeded : Bool
  keyset : Word
  refreshes : Nat
  bitwidth : Nat
  logslots : Nat
  payload : DWord
  count : Nat
  deriving DecidableEq, Repr

/-- Constants of one pass of a limb's transform (R63): the matrix of its radix, row a of column b at 16 · a + b, and the twiddle of
output b of stride j at r · j + b; then those of the inverse. Words in Montgomery form (R137). -/
structure PassConsts where
  mat : List Nat
  twid : List Nat
  invMat : List Nat
  invTwid : List Nat
  deriving DecidableEq, Repr

structure LimbConsts where
  twist : List Nat
  untwist : List Nat
  passes : List PassConsts
  deriving DecidableEq, Repr

/-- Constants of a basis conversion (R70, R71): the prescale of each source limb, and per target limb the column of the matrix. -/
structure ConvConsts where
  pre : List Nat
  mat : List (List Nat)
  deriving DecidableEq, Repr

/-- What the holm controller derives from a loaded level set (R65): per limb, per level and digit, and for ModDown with the inverses of
the special product. -/
structure SetConsts where
  limbs : List LimbConsts
  up : List (List ConvConsts)
  down : ConvConsts
  pInv : List Nat
  deriving DecidableEq, Repr

/-- A loaded parameter set (R41 to R44). -/
structure ParamSet where
  fn : Fn
  fp : Word
  kind : Nat
  logn : Nat
  limbs : Nat
  special : Nat
  dnum : Nat
  scaleBits : Nat
  lweDim : Nat
  brBase : Nat
  brLen : Nat
  ksBase : Nat
  ksLen : Nat
  maxBits : Nat
  primes : List Nat
  roots : List Nat
  /-- held with the index and freed with it (R65) -/
  consts : SetConsts
  deriving DecidableEq, Repr

/-- A key record's header (Table CT-4). -/
structure KeyRec where
  kind : Nat
  pset : Fin 16
  digits : Nat
  keyset : Word
  galois : Nat
  pset2 : Fin 16
  bodyLen : Nat
  seed : List Byte
  deriving DecidableEq, Repr

/-- A loaded key set (R86, R355): where it is held and its records. `stored` is false from the second judgement of a
replacing load until that load completes. -/
structure KeySet where
  tag : Word
  fn : Fn
  firstRow : RowIdx
  nrows : Nat
  m : Nat
  mTotal : Nat
  koff : Nat
  mfp : Word
  records : List KeyRec
  deriving DecidableEq, Repr

/-- The image header of Table ISA-9. -/
structure ImageHdr where
  version : BitVec 4
  cls : Byte
  rows : Nat
  pages : Nat
  loopDepth : Nat
  agLevels : Nat
  featBit : Bool
  featStrait : Bool
  paged : Bool
  slots : Nat
  storeUse : Nat
  slack : Nat
  wcd : Nat
  ringSize : Nat
  deriving DecidableEq, Repr

/-- An image bound under a handle (R353). -/
structure Image where
  bind : Nat
  fn : Fn
  handle : BitVec 16
  hdr : ImageHdr
  sections : ImageSections
  firstRow : RowIdx
  ioff : Nat
  /-- the seal verified: the image has a valid duration (R2) -/
  valid : Bool
  deriving DecidableEq, Repr

inductive JobPhase where
  | armed | admitted | prepared | started
  deriving DecidableEq, Repr

/-- How a job ended: the management cycle, the final status with RESULT0 and TIME, and whether it committed or ended
normally. Its completion reply begins to be written in the cycle after `cyc`. -/
structure Ending where
  cyc : Nat
  status : BitVec 16
  result0 : Word
  time : BitVec 28
  done : Bool
  deriving DecidableEq, Repr

/-- A job from its SUBMIT_JOB to its completion reply. -/
structure Job where
  id : Nat
  fn : Fn
  q : Fin 8
  cid : BitVec 16
  noirq : Bool
  version : BitVec 4
  jobid : DWord
  slot : Fin 64
  img : Image
  phase : JobPhase
  byAdm : Bool
  c0 : Nat
  start : Nat
  cp : Nat
  prep : Nat
  idesc : DWord
  rdesc : DWord
  rcfg : DWord
  members : List (BitVec 20)
  abortLate : Bool
  ruleSub : Bool
  mismatch : Bool
  /-- input descriptors read at job start under R59 and the result payload addresses read then (R356) -/
  inputs : List Desc
  /-- per input, the payload bytes as they stood at job start -/
  inData : List (List Byte)
  payloads : List DWord
  /-- reduction configurations after R314 to R316: (rule, thin, step, W0 to W4) -/
  configs : List (Nat × Nat × Word × List Word)
  /-- records whose key stream met a mismatched chunk, and the Isle that consumed it (R84, R118) -/
  badRecords : List (Nat × IsleIdx)
  /-- key words that came from other modules: record, chunk, offset in the chunk, bytes -/
  keyIn : List (Nat × Nat × Nat × List Byte)
  ending : Option Ending
  deriving DecidableEq, Repr

/-- A load between its interpretation and the moment it takes effect (R353, R355). `checked` is the Atoll's verdict. -/
structure ProgLoad where
  id : Nat
  p : Packet
  img : ImageData
  checked : Option Bool
  interp : Nat
  deriving DecidableEq, Repr

structure KeyLoad where
  id : Nat
  p : Packet
  man : ManifestData
  /-- the queue's version at the interpretation (R352) -/
  version : BitVec 4
  tag : Word
  checked : Option Bool
  interp : Nat
  deriving DecidableEq, Repr

/-- The write of a LOAD_PROGRAM's page 0 that R217 or R218 holds: its occupancy, the image and the rows whose shadow
banks are still to be written. -/
structure HeldLoad where
  id : Nat
  occ : Nat
  p : Packet
  bind : Nat
  isles : List IsleIdx
  interp : Nat
  /-- the jobs it waits for (R217, R218) -/
  waits : List Nat
  deriving DecidableEq, Repr

/-! ## Timeline, owners, self-test -/

inductive OccKind where
  | job (id : Nat)
  | tentative (cls : Nat)
  | wipe
  | slice
  | depot
  | retire
  | held
  /-- one that ended before its placed length: it stands to the end of that cycle (R370) -/
  | ended
  deriving DecidableEq, Repr

/-- An occupancy of the timeline (R370): rows, first cycle, length. -/
structure Occ where
  id : Nat
  rows : BitVec 8
  start : Nat
  len : Nat
  kind : OccKind
  deriving DecidableEq, Repr

structure Wipe where
  id : Nat
  rows : BitVec 8
  /-- VF the rows go to; none for unowned -/
  vf : Option RowIdx
  number : BitVec 16
  p : Packet
  interp : Nat
  begun : Bool
  deriving DecidableEq, Repr

structure Slice where
  id : Nat
  isle : IsleIdx
  /-- the BIST_SLICE packet; none for a periodic slice -/
  p : Option Packet
  begun : Bool
  deriving DecidableEq, Repr

structure Depot where
  id : Nat
  p : Packet
  begun : Bool
  deriving DecidableEq, Repr

structure Retire where
  id : Nat
  p : Packet
  chan : ChanIdx
  page : Nat
  begun : Bool
  /-- the entry that the window's end has activated, until the table is in flash and the reply written (Table LG-3) -/
  saving : Option Nat
  deriving DecidableEq, Repr

/-- The owner side of a row (R32, R434): the VF that holds it, and whether a wipe runs. -/
structure RowState where
  owner : Option RowIdx
  wiping : Bool
  deriving DecidableEq, Repr

/-! ## Admission port -/

/-- A published entry of a class (R369): OK, TIME, the head job and its tentative placement. -/
structure AdmEntry where
  cls : Nat
  ok : Bool
  time : BitVec 28
  job : Nat
  start : Nat
  cp : Nat
  prep : Nat
  /-- the rows of its tentative placement -/
  rows : BitVec 8
  deriving DecidableEq, Repr

structure Adm where
  en : Bool
  ignored : Word
  admitted : Word
  lastGrid : Word
  lastVf : BitVec 4
  lastTime : BitVec 28
  lastCls : Byte
  lastSlot : BitVec 6
  sel : Byte
  clsmap : Vector (BitVec 4) 256
  /-- management cycle of the newest generation and its entries; a class without an entry reads OK 0, no promise -/
  gen : Nat
  table : List AdmEntry
  /-- generations a request may still be judged against, newest first -/
  past : List (Nat × List AdmEntry)
  /-- generation of the copy that the port took at the last edge of ADM_CLK (R374) -/
  copy : Nat
  /-- generation that must be published before requests are honoured again (R377) -/
  lockout : Option Nat
  deriving DecidableEq, Repr

/-! ## Reef and event recorder -/

/-- A Reef event (R407): checker, class, row charged (8 for none) and SEQ of its record. -/
structure ReefEvent where
  checker : BitVec 16
  cls : BitVec 2
  row : Option RowIdx
  seq : Word
  deriving DecidableEq, Repr

structure Reef where
  irqen : Bool
  vector : BitVec 5
  fatal : Bool
  alive : Bool
  aliveOn : Bool
  pwrfail : Bool
  fchk : BitVec 16
  evovf : Bool
  events : List ReefEvent
  /-- an event joined after the last message sent while the PF was in D3hot (R407) -/
  owedIrq : Bool
  corr : DWord
  cont : Word
  injArmed : Bool
  injMode : BitVec 2
  injChk : BitVec 16
  rowCorr : Vector Word 8
  rowCont : Vector Word 8
  /-- per checker, the window (1 s) in which its last CORRECTED record was written (Table FL-5) -/
  corrWin : List (BitVec 16 × Nat)
  /-- faults latched before the origin, recorded after BOOT (R423): class, report and row charged -/
  early : List (BitVec 2 × Report × Option RowIdx)
  deriving DecidableEq, Repr

/-- A record of the event recorder (Table FL-4). -/
structure Record where
  ty : BitVec 16
  seq : Word
  time : DWord
  payload : List Byte
  deriving DecidableEq, Repr

structure Recorder where
  /-- records in flash and those only in the volatile buffer, oldest first -/
  flash : List Record
  buf : List Record
  next : Word
  clears : Word
  lost : Word
  full : Bool
  flushing : Bool
  /-- LOG_CLEARs that passed their checks and wait for the flush: the packet, UPTO, and the count it will write -/
  clearing : List (Packet × Word × Word)
  bootCount : Word
  /-- capture reads waiting for their grant: channel, page, block, cycle asked (R411) -/
  captures : List (ChanIdx × Nat × Nat × Nat)
  deriving DecidableEq, Repr

/-! ## Atoll -/

/-- A curve slot (R391, R392). -/
structure Curve where
  wp : Nat
  wn : Nat
  p : Nat
  a : Nat
  b : Nat
  gx : Nat
  gy : Nat
  n : Nat
  h : Nat
  deriving DecidableEq, Repr

/-- A public key in a key slot (R389). -/
structure PubKey where
  curve : Fin 16
  x : Nat
  y : Nat
  deriving DecidableEq, Repr

inductive AtollOp where
  | modexp | ecmul | verify | sign | kaStart | kaFinish | ownkey | curveload | anchor
  deriving DecidableEq, Repr

/-- Work queued at the Atoll (R383). -/
inductive AtollWork where
  | op (o : AtollOp) (p : Packet) (data : List Byte)
  | checkSeal (id : Nat)
  | checkManifest (id : Nat)
  | checkAuth (p : Packet) (auth : List Byte)
  | checkFirmware
  deriving DecidableEq, Repr

/-- The running operation: what it is, the curve and key it read at its start, and its duration. -/
structure AtollRun where
  work : AtollWork
  curve : Option Curve
  key : Option PubKey
  keyCurve : Option Curve
  dur : Nat
  started : Nat
  deriving DecidableEq, Repr

structure Atoll where
  queue : List AtollWork
  /-- work that found the queue full and waits for a place (R383) -/
  waiting : List AtollWork
  running : Option AtollRun
  entfail : Bool
  rejects : Word
  done : Word
  keysel : Byte
  devown : Option PubKey
  seal0 : Option PubKey
  seal1 : Option PubKey
  owners : Vector (Option PubKey) 8
  /-- slot 0 is P-384; 1–7 flash; 8–15 working memory -/
  curves : Vector (Option Curve) 16
  sessions : Vector (Option (List Byte)) 8
  /-- pending ephemeral scalar, its curve slot and the curve as loaded then -/
  pendingD : Vector (Option (Nat × Fin 16 × Curve)) 8
  deriving DecidableEq, Repr

/-! ## Straits -/

inductive WinState where
  | closed | opened | closing
  deriving DecidableEq, Repr

inductive WinTarget where
  | none
  | store (isle : IsleIdx) (base len : Nat)
  | device (addr : DWord) (len : Nat)
  | lagoon (slice : SliceIdx) (off len : Nat)
  deriving DecidableEq, Repr

/-- A window-table entry that is not CLOSED at epoch 0 with no command on it (R305). `closers` are the packets whose
replies the close owes; `reopen` the OPEN_WINDOW that waits for it (R309). `open` replies wait for their WSTATE. -/
structure WinEntry where
  handle : Fin 1024
  owner : Option RowIdx
  st : WinState
  epoch : BitVec 16
  target : WinTarget
  /-- the management cycle at whose start a latched close takes effect (R308) -/
  closeAt : Nat
  /-- the close was begun by an OPEN_WINDOW on an OPEN entry: it queues no WSTATE of its own (R309) -/
  quiet : Bool
  closers : List Packet
  reopen : List (Packet × WinTarget)
  deriving DecidableEq, Repr

structure MirrorEntry where
  handle : Fin 1024
  opened : Bool
  epoch : BitVec 16
  deriving DecidableEq, Repr

/-- A control message (Table SD-3). `openPkt` is the OPEN_WINDOW whose reply waits for it to leave. -/
structure CtlMsg where
  nack : Bool
  mhops : BitVec 20
  mdest : BitVec 20
  msrc : BitVec 20
  handle : BitVec 16
  epoch : BitVec 16
  arg : Byte
  count : BitVec 16
  openPkt : Option Packet
  deriving DecidableEq, Repr

/-- A digest entry of one step of one reduction slot (R333). -/
structure Digest where
  step : Word
  partialStep : Bool
  tx : DWord
  rx : DWord
  txn : Word
  rxn : Word
  deriving DecidableEq, Repr

/-- The chunk whose KEY flits are arriving: store addresses that take it, and whether it is forwarded; a dropped group
takes none (R99, R102). -/
structure KeyRx where
  targets : List (IsleIdx × Nat)
  chunk : Option KeyChunk
  fwd : Bool
  deriving DecidableEq, Repr

/-- One RED flit, decoded, waiting in the reduction buffer (R321). -/
structure RedWait where
  raw : List Byte
  wait : Nat
  deriving DecidableEq, Repr

structure Port where
  up : Bool
  dupid : Bool
  rxpeer : BitVec 20
  fecUnc : Word
  fecCorr : Word
  windrop : Word
  nacklate : Word
  reddrop : Word
  downs : BitVec 16
  msgs : BitVec 16
  kcEn : Bool
  kcRsize : BitVec 20
  kcRindex : BitVec 20
  kcSucc : BitVec 20
  kcdrop : Word
  windows : List WinEntry
  mirror : List MirrorEntry
  fwdMsgs : List CtlMsg
  nackMsgs : List CtlMsg
  wstateMsgs : List CtlMsg
  /-- NACKs of the running frame: one per window, with the cause of the first refusal (R307) -/
  nackAcc : List CtlMsg
  repeatAt : Nat
  frame : Nat
  /-- flits waiting at the egress for the next flit group of their class: KEY forwards, window writes, reductions (R100) -/
  egress : List (List Byte)
  redBuf : List RedWait
  inj : Option Bool
  digests : Vector (List Digest) 4
  /-- the group of KEY flits under way, and the places (landing, position) of the plan at which a chunk has begun, newest
  first -/
  keyRx : Option KeyRx
  keySeen : List (Nat × Nat)
  /-- stream bases of the reductions the port last ran, in slot order, and (stream, tile) already emitted by this module
  as the first of its ring -/
  redBases : List Nat
  redSent : List (Nat × Nat)
  /-- scalar blocks that the reduction unit has read, by stream base (R327) -/
  redBlocks : List (Nat × List Word)
  /-- classes of the flit groups under the last job's plan, over and over from group `groupAt` on (R100) -/
  groups : List (BitVec 2)
  groupAt : Nat
  deriving DecidableEq, Repr

/-! ## DRAM, Lagoon, monitor, start-up -/

/-- A protected range of a channel (R354): the binding or key set it belongs to. -/
structure ProtRange where
  lo : Nat
  hi : Nat
  img : Bool
  key : Nat
  deriving DecidableEq, Repr

structure Channel where
  mem : Mem
  errs : ErrMarks
  /-- error marks of the check blocks, by group (R273, R274) -/
  chk : ErrMarks
  inj : Option Bool
  retired : List Nat
  retireFull : Bool
  prot : List ProtRange
  trained : Bool
  patrol : Nat
  /-- refresh slots begun since the origin and all-bank refresh commands issued -/
  slots : Nat
  refreshes : Nat
  /-- windows of scheduled traffic in the channel's scheduler: first management cycle and length (R284) -/
  windows : List (Nat × Nat)
  deriving DecidableEq, Repr

structure DramCtrl where
  logValid : Bool
  logUnc : Bool
  logRetreq : Bool
  logCh : BitVec 2
  logPage : BitVec 19
  logBlock : BitVec 8
  logSymbol : BitVec 7
  pcount : Byte
  expired : Word
  rank : BitVec 3
  maxwait : BitVec 24
  /-- a DRAM of the package asked for more than twice the base refresh rate, and its row has not cooled since -/
  tooHot : Bool
  deriving DecidableEq, Repr

structure Lagoon where
  mode : BitVec 2
  corr : Byte
  hits : Word
  misses : Word
  /-- the stored bytes, each XORed with what `junk` supplies at its offset -/
  mem : Mem
  /-- the model's own: the number of the open contents left by a change from CACHE to SCRATCH (R280) -/
  junk : Option Nat
  errs : ErrMarks
  inj : Option Bool
  /-- cached interleave units (channel, unit, line of the slice), most recently used first (R281) -/
  lines : List (Nat × Nat × Nat)
  /-- windows of scheduled traffic in the slice port (R284) -/
  windows : List (Nat × Nat)
  deriving DecidableEq, Repr

structure Monitor where
  now : MonSample
  sources : BitVec 4
  alert : Bool
  deriving DecidableEq, Repr

inductive Power where
  /-- PERST_N asserted, RESET of Table EL-3 -/
  | reset
  /-- the interval of R448; `again` when a deassertion waits for the flush, with its straps -/
  | resetting (again : Option (Bool × Bool × BitVec 2 × Bool))
  /-- start-up of Table SU-1 -/
  | starting
  /-- start-up failed: the module never reaches ready (R421) -/
  | stuck
  /-- ready, before the timeline origin -/
  | ready
  /-- from the origin on: ACTIVE or STANDBY -/
  | running
  /-- input power failed: hold-up runs -/
  | holdUp
  /-- hold-up has ended; latched until PERST_N is asserted and deasserted -/
  | dark
  deriving DecidableEq, Repr

/-- A firmware slot of the flash (R421): the image last programmed with its signature block, empty while the slot holds what it was
delivered with. -/
structure FwSlot where
  image : List Byte
  version : BitVec 16
  count : Word
  valid : Bool
  deriving DecidableEq, Repr

structure Boot where
  genCompat : Bool
  holmPref : Bool
  mode : BitVec 2
  tsyncEn : Bool
  pll : Bool
  l0 : Bool
  fw : Bool
  dram : Bool
  fwslot : Bool
  fallback : Bool
  nosync : Bool
  trainFail : BitVec 8
  /-- management cycles from the deassertion of PERST_N to ready -/
  readyAt : Nat
  fwver : BitVec 16
  /-- HLM_RECOV -/
  recovLen : BitVec 24
  recovResult : BitVec 3
  recovImage : List Byte
  /-- the image verified and waits to be programmed -/
  recovOk : Bool
  slot0 : FwSlot
  slot1 : FwSlot
  deriving DecidableEq, Repr

/-- The holm controllers' authority (R430 to R433): false is North, true is South. -/
structure Authority where
  claimN : Bool
  claimS : Bool
  renewN : Nat
  renewS : Nat
  /-- the holm that held the token last -/
  lastS : Bool
  /-- cycle since which neither claim is set -/
  noneSince : Option Nat
  /-- a declared dispute not yet resolved: the cycle of its declaration -/
  dispute : Option Nat
  disputes : Byte
  hofail : Bool
  /-- an offered handover: receiver and cycle of the offer -/
  offer : Option (Bool × Nat)
  deriving DecidableEq, Repr

/-- A gated clock domain: whether its clock runs, and the management cycle in which a request takes effect that changes it
(R26). -/
structure Gate where
  on : Bool
  change : Option Nat
  deriving DecidableEq, Repr

/-- The 235 gated clock domains of Table ORG-3. -/
structure Gates where
  cores : Vector Gate 64
  stores : Vector Gate 64
  movers : Vector Gate 64
  slices : Vector Gate 16
  ports : Vector Gate 8
  drams : Vector Gate 16
  host : Gate
  holms : Vector Gate 2
  /-- Isles whose ISL_SKCTL.STEP was written while gated: the step begins after the next ungating (R27) -/
  stepOwed : List IsleIdx
  /-- Isles whose ISL_SKCTL.HALT was written while gated: the Skerry stops or runs after the next ungating (R27) -/
  haltOwed : List IsleIdx
  /-- the management cycle from which the host block fetches and publishes again (R449, R450) -/
  resumeAt : Nat
  deriving DecidableEq, Repr

/-- What the module shows to the outside, newest first in `State.out`. -/
inductive Out where
  /-- a reply, at its place in the status queue in host memory -/
  | reply (cyc : Nat) (fn : Fn) (q : Fin 8) (addr : DWord) (r : Reply)
  /-- the read of a command entry in host memory -/
  | fetch (fn : Fn) (addr : DWord) (len : Nat)
  | msix (cyc : Nat) (fn : Fn) (vector : BitVec 8)
  | dma (fn : Fn) (addr : DWord) (data : List Byte)
  | completion (fn : Fn) (data : List Byte) (poisoned : Bool)
  | completerAbort (fn : Fn)
  /-- bytes 0–113 of a frame: alignment pattern and status codeword (R290) -/
  | frame (port : RowIdx) (head : List Byte)
  /-- a flit in its slot, numbered across frames -/
  | flit (port : RowIdx) (slot : Nat) (wire : List Byte)
  | adm (ok : Bool) (time : BitVec 28)
  | smb (word : BitVec 16)
  /-- a mesh flit at its stop, at port `port`: its circulation tag (zero but in the first flit of a chunk) and its payload -/
  | deliver (stop : IsleIdx) (port : Nat) (tag payload : List Byte)
  deriving DecidableEq, Repr

/-- The module. -/
structure State where
  /-- commands that wait, first in, first out -/
  pending : List Instr
  /-- management cycles since the timeline origin; 0 before it -/
  now : Nat
  /-- management cycles since the deassertion of PERST_N -/
  sinceReset : Nat
  /-- the model's own counter: each open value takes the next number -/
  free : Nat
  /-- next identifier of jobs, loads and occupancies -/
  nextId : Nat
  big512 : Bool
  power : Power
  boot : Boot
  auth : Authority
  gates : Gates
  rows : Vector RowState 8
  ownerNo : Vector (Option (BitVec 16)) 8
  rfLevel : Vector (BitVec 24) 8
  rfBit : Vector (BitVec 40) 8
  /-- refreshes of the commits of the present cycle, which HLM_RFCNT counts from the next one on: VF, level and bit (R125) -/
  rfDue : List (RowIdx × Nat × Nat)
  compat : Bool
  fns : Vector FnState 9
  /-- packets passed to the authority holder and not yet interpreted, and the queue last served (R342) -/
  fetched : List Packet
  lastServed : Nat
  psets : Vector (Option ParamSet) 16
  keysets : List KeySet
  images : List Image
  jobs : List Job
  progLoads : List ProgLoad
  keyLoads : List KeyLoad
  heldLoads : List HeldLoad
  /-- releases latched: function, queue packet and cycle of the latch (R360) -/
  releases : List (Packet × Nat)
  /-- ABORT_JOB packets, the cycle of the latch (R358), and the DETAIL where the job's end was found before it (R359) -/
  aborts : List (Packet × Nat × Option Nat)
  occs : List Occ
  wipes : List Wipe
  slices : List Slice
  depots : List Depot
  retires : List Retire
  adm : Adm
  reef : Reef
  evr : Recorder
  atl : Atoll
  devid : BitVec 20
  winSel : BitVec 14
  digPort : BitVec 3
  digSlot : BitVec 2
  digAge : BitVec 4
  ports : Vector Port 8
  chans : Vector Channel 64
  drams : Vector DramCtrl 16
  /-- per row: hot, and the cycle since which its DRAMs have been clean -/
  hot : Vector Bool 8
  cleanSince : Vector Nat 8
  lagoons : Vector Lagoon 16
  isles : Vector Isle 64
  bstPeriod : BitVec 16
  bstNext : Nat
  bstDepotFail : Bool
  bstLastIsle : BitVec 6
  bstLastResult : BitVec 2
  bstFail : DWord
  /-- PERST_N is asserted -/
  perst : Bool
  pwrGood : Bool
  pwrfailN : Bool
  lasers : Bool
  mon : Monitor
  out : List Out
  deriving DecidableEq, Repr

/-- Faults of the model: none. Every fault the spec describes is an effect on the state (a report to the Reef, a refused
reply), so no command stops the model with one. -/
inductive Fault where
  deriving DecidableEq, Repr

/-- Refusals of the model. -/
inductive Refusal where
  /-- raised only by an arm of `exec` whose command has no meaning yet; safe: nothing is claimed of that command -/
  | notModelled (mnemonic : String)
  deriving DecidableEq, Repr

/-! ## The state after reset

PERST_N is asserted, input power is good and the module is in RESET (Table EL-3). Every field stands at the reset value of
its register table; where the spec gives none, at the value INVENTORY.md names with its log entry. -/

def SetConsts.none : SetConsts := { limbs := [], up := [], down := { pre := [], mat := [] }, pInv := [] }

def AddrGen.reset : AddrGen :=
  { base := 0, oreg := 0, omask := 0, counts := Vector.replicate 6 0, strides := Vector.replicate 6 0,
    rotmask := 0, rotlog := 0 }

def Chain.none : Chain :=
  { gen := 0, header := 0, link2 := false, agp := .none, age := .none, ags := .none, sx := 0, sy := 0, sz := 0 }

def ImBank.reset : ImBank := { valid := false, fn := 8, image := 0, page := 0, words := [] }

def Skerry.reset : Skerry :=
  { s := Vector.replicate 32 0, scr := Vector.replicate 4 0, pc := 0, loops := [], st := .halted, cause := 0,
    halt := true, cyc := 0, cycHi := 0, runFirst := 0, runRows := 0, owner := 0x8, jobtag := 0, run := none, held := none,
    heldWait := 0, ended := false, bank0 := ImBank.reset, bank1 := ImBank.reset, active := false, imload := none,
    imSync := Sync.none,
    ags := Vector.replicate 16 AddrGen.reset, agw := [], chain := Chain.none }

def WeightSet.reset : WeightSet := { mode := 0, wf := false, rows := [], primes := [], badParity := false }

def Matrix.reset : Matrix :=
  { tiles := [], tileErrs := [], tileInj := none, latchInj := false, wA := WeightSet.reset, wB := WeightSet.reset, active := false, mode := 0, corr := 0,
    wpar := false, sat := false, ovf := false, nan := false, stats := [], statGen := 0, closed := 0, norm := none }

def Vec.reset : Vec :=
  { v := Vector.replicate 32 0, primes := Vector.replicate 64 0, sat := false, ovf := false, nan := false }

def Store.reset : Store :=
  { mem := [], errs := [], inj := none, eccCnt := 0, eccLog := 0, nan := false, ovf := false, bankConf := false, slotSel := 0,
    slots := [], tags := [] }

def Mover.reset : Mover :=
  { ra := 0, rd := 0, rs := 0, batch := [], unread := 0, fetchAt := 0, fetchIdx := 0, batchWv := none, rwait := 0, staged := [], arrivals := [], fwds := [], dindex := 0, errLog := 0,
    stopped := false, bytes := 0 }

/-- No unit is at work. -/
def Units.none : Units :=
  { arith := .none, vread := .none, vwrite := .none, vseq := 0, feed := .none, rows := [], load := .none, chainDue := 0, chZ := .none,
    chK := .none, chE := .none, flight := [], regs := [], idle := 0 }

def Isle.reset : Isle :=
  { sk := Skerry.reset, me := Matrix.reset, ve := Vec.reset, sto := Store.reset, mov := Mover.reset, mq := [], vq := [],
    dq := [], bq := [], slack := 0, tokOvr := false, tokSlot := 0, tokMax := 0, laneE := [], lanePos := 0,
    un := Units.none }

def Queue.reset : Queue :=
  { sqBase := 0, cqBase := 0, en := false, sqlog := 0, cqlog := 0, vector := 0, version := 0, err := false,
    stall := false, sqHead := 0, sqTail := 0, cqTail := 0, cqHead := 0, phase := true, compatAtEn := false, clamp := 0 }

def ResultSlot.reset : ResultSlot :=
  { st := .free, since := 0, jobid := 0, status := 0, info := 0, time := 0, results := [], rows := 0 }

def FnState.reset : FnState :=
  { queues := Vector.replicate 8 Queue.reset, clamp8 := 0, d3hot := false, slots := Vector.replicate 64 ResultSlot.reset,
    deferred := [] }

def Adm.reset : Adm :=
  { en := false, ignored := 0, admitted := 0, lastGrid := 0xFFFFFFFF, lastVf := 0x8, lastTime := 0, lastCls := 0,
    lastSlot := 0, sel := 0, clsmap := Vector.replicate 256 0x8, gen := 0, table := [], past := [], copy := 0, lockout := none }

def Reef.reset : Reef :=
  { irqen := true, vector := 0, fatal := false, alive := false, aliveOn := false, pwrfail := false, fchk := 0,
    evovf := false, events := [], owedIrq := false, corr := 0, cont := 0, injArmed := false, injMode := 0, injChk := 0,
    rowCorr := Vector.replicate 8 0, rowCont := Vector.replicate 8 0, corrWin := [], early := [] }

def Recorder.reset : Recorder :=
  { flash := [], buf := [], next := 0, clears := 0, lost := 0, full := false, flushing := false, clearing := [],
    bootCount := 0, captures := [] }

/-- P-384 of NIST SP 800-186, the curve of slot 0 (R391). -/
def Curve.p384 : Curve :=
  { wp := 6, wn := 6,
    p := 2 ^ 384 - 2 ^ 128 - 2 ^ 96 + 2 ^ 32 - 1,
    a := 2 ^ 384 - 2 ^ 128 - 2 ^ 96 + 2 ^ 32 - 4,
    b := 0xb3312fa7e23ee7e4988e056be3f82d19181d9c6efe8141120314088f5013875ac656398d8a2ed19d2a85c8edd3ec2aef,
    gx := 0xaa87ca22be8b05378eb1c71ef320ad746e1d3b628ba79b9859f741e082542a385502f25dbf55296c3a545e3872760ab7,
    gy := 0x3617de4a96262c6f5d9e98bf9292dc29f8f41dbd289a147ce9da3113b5f0b8c00a60b1ce1d7e819d7a431d7c90ea0e5f,
    n := 0xffffffffffffffffffffffffffffffffffffffffffffffffc7634d81f4372ddf581a0db248b0a77aecec196accc52973,
    h := 1 }

def Atoll.reset : Atoll :=
  { queue := [], waiting := [], running := none, entfail := false, rejects := 0, done := 0, keysel := 0, devown := none,
    seal0 := none, seal1 := none, owners := Vector.replicate 8 none,
    curves := (Vector.replicate 16 none).set 0 (some Curve.p384), sessions := Vector.replicate 8 none,
    pendingD := Vector.replicate 8 none }

def Port.reset : Port :=
  { up := false, dupid := false, rxpeer := 0xFFFFF, fecUnc := 0, fecCorr := 0, windrop := 0, nacklate := 0, reddrop := 0,
    downs := 0, msgs := 0, kcEn := false, kcRsize := 0, kcRindex := 0, kcSucc := 0, kcdrop := 0, windows := [],
    mirror := [], fwdMsgs := [], nackMsgs := [], wstateMsgs := [], nackAcc := [], repeatAt := 0, frame := 0, egress := [],
    redBuf := [], inj := none, digests := Vector.replicate 4 [],
    keyRx := none, keySeen := [], redBases := [], redSent := [], redBlocks := [], groups := [], groupAt := 0 }

def Channel.reset : Channel :=
  { mem := [], errs := [], chk := [], inj := none, retired := [], retireFull := false, prot := [], trained := false, patrol := 0, slots := 0,
    refreshes := 0, windows := [] }

def DramCtrl.reset : DramCtrl :=
  { logValid := false, logUnc := false, logRetreq := false, logCh := 0, logPage := 0, logBlock := 0, logSymbol := 0,
    pcount := 0, expired := 0, rank := 0, maxwait := 0, tooHot := false }

def Lagoon.reset : Lagoon :=
  { mode := 0, corr := 0, hits := 0, misses := 0, mem := [], junk := none, errs := [], inj := none, lines := [], windows := [] }

def MonSample.reset : MonSample := { vin := 4800, cur := 0, pow := 0, die := 250, dram := 250, cool := 250 }

def Boot.reset : Boot :=
  { genCompat := false, holmPref := false, mode := 0, tsyncEn := false, pll := false, l0 := false, fw := false,
    dram := false, fwslot := false, fallback := false, nosync := false, trainFail := 0, readyAt := 0, fwver := 0, recovLen := 0,
    recovResult := 0, recovImage := [], recovOk := false, slot0 := { image := [], version := 0, count := 1, valid := true },
    slot1 := { image := [], version := 0, count := 0, valid := false } }

def Authority.reset : Authority :=
  { claimN := false, claimS := false, renewN := 0, renewS := 0, lastS := false, noneSince := none, dispute := none, disputes := 0,
    hofail := false, offer := none }

/-- Every domain with its clock running, or stopped. -/
def Gates.all (b : Bool) : Gates :=
  let g : Gate := { on := b, change := none }
  { cores := Vector.replicate 64 g, stores := Vector.replicate 64 g, movers := Vector.replicate 64 g, slices := Vector.replicate 16 g,
    ports := Vector.replicate 8 g, drams := Vector.replicate 16 g, host := g, holms := Vector.replicate 2 g, stepOwed := [], haltOwed := [],
    resumeAt := 0 }

/-- No derived clock runs in RESET (Table EL-3). -/
def Gates.reset : Gates := Gates.all false

def State.reset : State :=
  { pending := [], now := 0, sinceReset := 0, free := 0, nextId := 0, big512 := true, power := .reset,
    boot := Boot.reset, auth := Authority.reset, gates := Gates.reset, rows := Vector.replicate 8 { owner := none, wiping := false },
    ownerNo := Vector.replicate 8 none, rfLevel := Vector.replicate 8 0, rfBit := Vector.replicate 8 0, rfDue := [], compat := false,
    fns := Vector.replicate 9 FnState.reset, fetched := [], lastServed := 71, psets := Vector.replicate 16 none,
    keysets := [], images := [], jobs := [], progLoads := [], keyLoads := [], heldLoads := [], releases := [],
    aborts := [], occs := [], wipes := [], slices := [], depots := [], retires := [], adm := Adm.reset,
    reef := Reef.reset, evr := Recorder.reset, atl := Atoll.reset, devid := 0xFFFFF, winSel := 0, digPort := 0,
    digSlot := 0, digAge := 0, ports := Vector.replicate 8 Port.reset, chans := Vector.replicate 64 Channel.reset,
    drams := Vector.replicate 16 DramCtrl.reset, hot := Vector.replicate 8 false, cleanSince := Vector.replicate 8 0,
    lagoons := Vector.replicate 16 Lagoon.reset, isles := Vector.replicate 64 Isle.reset, bstPeriod := 1000, bstNext := 1,
    bstDepotFail := false, bstLastIsle := 0, bstLastResult := 0, bstFail := 0, perst := true, pwrGood := true, pwrfailN := true,
    lasers := false, mon := { now := MonSample.reset, sources := 0, alert := false }, out := [] }

end Sys2Proof.Machine
end

