-- ==== Sys2Proof/Machine/Ops.lean ====
section
/-! DEFINITION. The named operations over memories, coded words, vectors of state and the fields of `State` that every
family of commands shares. -/

namespace Sys2Proof.Machine

/-! ## Memories -/

/-- The byte at an address; 0 where nothing is listed. -/
def memRead : Mem → Nat → Byte
  | [], _ => 0
  | (a, b) :: t, x => if a = x then b else memRead t x

/-- Writes one byte and keeps the canonical form: writing 0 removes the entry. -/
def memWrite : Mem → Nat → Byte → Mem
  | [], x, v => if v = 0 then [] else [(x, v)]
  | (a, b) :: t, x, v =>
    if x < a then (if v = 0 then (a, b) :: t else (x, v) :: (a, b) :: t)
    else if x = a then (if v = 0 then t else (x, v) :: t)
    else (a, b) :: memWrite t x v

/-- Addresses strictly rise above `lo` and no entry is 0. -/
def memWfFrom : Nat → Mem → Bool
  | _, [] => true
  | lo, (a, b) :: t => decide (lo ≤ a) && decide (b ≠ 0) && memWfFrom (a + 1) t

/-- The canonical form of a memory. -/
def Memory.wf (m : Mem) : Bool := memWfFrom 0 m

/-- `n` bytes from an address upward. -/
def memReadN (m : Mem) : Nat → Nat → List Byte
  | _, 0 => []
  | x, n + 1 => memRead m x :: memReadN m (x + 1) n

/-- Writes a byte list from an address upward. -/
def memWriteN : Mem → Nat → List Byte → Mem
  | m, _, [] => m
  | m, x, b :: t => memWriteN (memWrite m x b) (x + 1) t

/-! ## Error marks of coded words -/

def marksOf (e : ErrMarks) (w : Nat) : List (Nat × Byte) := (e.find? (fun p => p.1 == w)).elim [] (·.2)
/-- A word written with fresh check bytes carries no error. -/
def marksClear (e : ErrMarks) (w : Nat) : ErrMarks := e.filter (fun p => p.1 != w)
/-- Writes an injected error: C0 inverted, and C1 as well when `two` (R228, R408). -/
def marksInject (e : ErrMarks) (w : Nat) (two : Bool) : ErrMarks :=
  (w, if two then [(0, 0xFF), (1, 0xFF)] else [(0, 0xFF)]) :: marksClear e w

/-- The words [addr / unit, …] that a write of `n` bytes touches. -/
def wordsOf (unit addr n : Nat) : List Nat :=
  if n = 0 then [] else (List.range ((addr + n - 1) / unit - addr / unit + 1)).map (· + addr / unit)

/-- Marks and armed injection after a write of `n` bytes at `addr` in words of `unit` bytes: every word touched gets
fresh check bytes, the first one the injected error. -/
def marksWrite (unit : Nat) (e : ErrMarks) (inj : Option Bool) (addr n : Nat) : ErrMarks × Option Bool :=
  let ws := wordsOf unit addr n
  let e' := if e.isEmpty then e else ws.foldl marksClear e
  match inj, ws with
  | some two, w :: _ => (marksInject e' w two, none)
  | _, _ => (e', inj)

/-! ## Vectors -/

/-- A vector with one element replaced. -/
def vset {α : Type} {n : Nat} (v : Vector α n) (i : Fin n) (x : α) : Vector α n := v.set i.val x i.isLt

/-- A vector with `f` applied to one element. -/
def vmod {α : Type} {n : Nat} (v : Vector α n) (i : Fin n) (f : α → α) : Vector α n := vset v i (f v[i])

/-- A vector with `f` applied at every index that `p` names. -/
def vmodAll {α : Type} {n : Nat} (v : Vector α n) (p : Fin n → Bool) (f : Fin n → α → α) : Vector α n :=
  Vector.ofFn (fun i => if p i then f i v[i] else v[i])

/-! ## Parts of the state -/

def State.isle (s : State) (i : IsleIdx) : Isle := s.isles[i]
def State.setIsle (s : State) (i : IsleIdx) (x : Isle) : State := { s with isles := vset s.isles i x }
def State.fnOf (s : State) (f : Fn) : FnState := s.fns[f]
def State.setFn (s : State) (f : Fn) (x : FnState) : State := { s with fns := vset s.fns f x }
def State.queue (s : State) (f : Fn) (q : Fin 8) : Queue := (s.fns[f]).queues[q]
def State.setQueue (s : State) (f : Fn) (q : Fin 8) (x : Queue) : State :=
  s.setFn f { s.fnOf f with queues := vset (s.fnOf f).queues q x }
def State.modQueue (s : State) (f : Fn) (q : Fin 8) (g : Queue → Queue) : State := s.setQueue f q (g (s.queue f q))
def State.port (s : State) (y : RowIdx) : Port := s.ports[y]
def State.setPort (s : State) (y : RowIdx) (x : Port) : State := { s with ports := vset s.ports y x }
def State.chan (s : State) (c : ChanIdx) : Channel := s.chans[c]
def State.setChan (s : State) (c : ChanIdx) (x : Channel) : State := { s with chans := vset s.chans c x }
def State.dram (s : State) (d : Fin 16) : DramCtrl := s.drams[d]
def State.setDram (s : State) (d : Fin 16) (x : DramCtrl) : State := { s with drams := vset s.drams d x }
def State.lagoon (s : State) (l : SliceIdx) : Lagoon := s.lagoons[l]
def State.setLagoon (s : State) (l : SliceIdx) (x : Lagoon) : State := { s with lagoons := vset s.lagoons l x }
def State.slotOf (s : State) (f : Fn) (k : Fin 64) : ResultSlot := (s.fns[f]).slots[k]
def State.setSlot (s : State) (f : Fn) (k : Fin 64) (x : ResultSlot) : State :=
  s.setFn f { s.fnOf f with slots := vset (s.fnOf f).slots k x }

/-- Shows something to the outside. -/
def State.emit (s : State) (o : Out) : State := { s with out := o :: s.out }

/-- The next open value (a fresh number of `Config.freeNat`) and the state with the counter advanced. -/
def State.openNat (s : State) : Nat × State := (Config.freeNat s.free, { s with free := s.free + 1 })

/-- A fresh identifier. -/
def State.fresh (s : State) : Nat × State := (s.nextId, { s with nextId := s.nextId + 1 })

/-- Counts `n` clamps in HBR_CLAMPCNT of a queue (R348); the counter saturates. -/
def State.clampQ (s : State) (f : Fn) (q : Fin 8) (n : Nat) : State :=
  s.modQueue f q (fun x => { x with clamp := satAdd x.clamp n })

/-- Counts one discarded or clamped access in HBR_CLAMPCNT(8) of a function (R348). -/
def State.clamp8 (s : State) (f : Fn) (n : Nat) : State :=
  s.setFn f { s.fnOf f with clamp8 := satAdd (s.fnOf f).clamp8 n }

/-- The modes of MODESEL: 1 bring-up, 2 test (R426); 0 service, 3 recovery. -/
def State.bringUp (s : State) : Bool := s.boot.mode == 1
def State.service (s : State) : Bool := s.boot.mode == 0

/-- The rows of a run mask. -/
def rowMask (first n : Nat) : BitVec 8 := BitVec.ofNat 8 ((2 ^ n - 1) <<< first)
def inRows (m : BitVec 8) (y : RowIdx) : Bool := m.toNat.testBit y.val
def isleIn (m : BitVec 8) (i : IsleIdx) : Bool := inRows m i.row

/-- Isles of a run mask, ascending. -/
def islesOf (m : BitVec 8) : List IsleIdx := (List.finRange 64).filter (isleIn m)

/-- A contained or corrected report of a checker with nothing else to log. -/
def Report.of (checker : Nat) : Report :=
  { checker := BitVec.ofNat 16 checker, rowOverride := none, page := 0, block := 0, symbol := 0, overrun := false,
    nack := false, detail := 0 }

/-- OP of Table AT-2. -/
def AtollOp.code : AtollOp → Nat
  | .modexp => 1 | .ecmul => 2 | .verify => 3 | .sign => 4 | .kaStart => 5 | .kaFinish => 6 | .ownkey => 7 | .curveload => 8
  | .anchor => 9

end Sys2Proof.Machine
end

