-- ==== Sys2Proof/Machine/Host.lean ====
section
/-! DEFINITION. What every host-facing family shares: authority (R21, R430), HLM_TOPO and HLM_ROWOWNER (R31, R32), status
replies (R343, R349), the event recorder's records (R409 to R414), and the gate every packet passes (R342, R347, R405). -/

namespace Sys2Proof.Machine

/-! ## Time -/

/-- Management cycles as microseconds, rounded up: 20/3 ns each (R365). -/
def usOf (cycles : Nat) : Nat := ceilDiv cycles 150
/-- The reported promise of a job that is promised cycle `cp` at admission cycle `c0` (R365). -/
def promiseOf (cp c0 : Nat) : Nat := usOf (cp + 2 - c0)
/-- The largest promise TIME can carry (R223, R371). -/
def maxPromise : Nat := 268435454
def noPromise : BitVec 28 := 0xFFFFFFF

/-- The origin has come and power is good (R425). -/
def State.running (s : State) : Bool := s.power == .running
/-- The management clock runs: from the start of a start-up on. -/
def State.clocked (s : State) : Bool :=
  match s.power with
  | .starting | .ready | .running => true
  | _ => false

/-! ## Authority and owners -/

/-- A single claim bit is set and no dispute stands: a controller holds the token (R21, R430). -/
def State.hasHolder (s : State) : Bool := (s.auth.claimN != s.auth.claimS) && s.auth.dispute.isNone

/-- HLM_TOPO.AUTH. -/
def Authority.bits (a : Authority) : Nat := b2n a.claimN + 2 * b2n a.claimS

/-- HLM_TOPO (R31). -/
def State.topo (s : State) : Word :=
  BitVec.ofNat 32 (2 * 2 ^ 28 + (if s.big512 then 2 else 1) * 2 ^ 26 + b2n s.boot.genCompat * 2 ^ 25 +
    b2n s.boot.holmPref * 2 ^ 24 + s.auth.bits * 2 ^ 22 + 0x40 * 2 ^ 8 + 0x8 * 2 ^ 4)

/-- The owner field of a row: a VF index, 8 unowned, 9 wipe in progress (R32). -/
def RowState.code (r : RowState) : Nat := if r.wiping then 9 else r.owner.elim 8 (·.val)

/-- HLM_ROWOWNER (R32). -/
def State.rowOwner (s : State) : Word :=
  BitVec.ofNat 32 ((List.finRange 8).foldl (fun n y => n + (s.rows[y]).code * 16 ^ y.val) 0)

/-- Row y is held by function f: a VF that owns it while no wipe runs there. -/
def State.holds (s : State) (f : Fn) (y : RowIdx) : Bool :=
  !(s.rows[y]).wiping && (s.rows[y]).owner == (if h : f.val < 8 then some ⟨f.val, h⟩ else none)

/-- A wipe placed and unfinished covers the row. -/
def State.wipePending (s : State) (y : RowIdx) : Bool := s.wipes.any (fun w => inRows w.rows y)

/-- The row counts as held by f for admission: from the interpretation of a SET_OWNER on it no longer does (R435). -/
def State.holdsForAdmission (s : State) (f : Fn) (y : RowIdx) : Bool := s.holds f y && !s.wipePending y

/-- VF v of a function index. -/
def vfOf (f : Fn) : Option RowIdx := if h : f.val < 8 then some ⟨f.val, h⟩ else none
def fnOfVf (v : RowIdx) : Fn := ⟨v.val, by omega⟩

/-- Rows of a run as indices. -/
def rowsOf (m : BitVec 8) : List RowIdx := (List.finRange 8).filter (inRows m)
def overlaps (a b : BitVec 8) : Bool := (a &&& b) != 0

/-! ## Status replies -/

/-- Status codes (R350, Table HC-8). -/
def stOk : BitVec 16 := 0x0000
def stAccepted : BitVec 16 := 0x0001
def stNotReady : BitVec 16 := 0x0010
def stAborted : BitVec 16 := 0x0020
def stFaulted : BitVec 16 := 0x0030
def stExhausted : BitVec 16 := 0x0040
def stKeyMismatch : BitVec 16 := 0x0041
def stWindowClosed : BitVec 16 := 0x0050
def stRefused : BitVec 16 := 0x0070
def stVerifier : BitVec 16 := 0x0080
def stParamset : BitVec 16 := 0x0081
def stAtoll : BitVec 16 := 0x00A0
def stDispute : BitVec 16 := 0x00F0

/-- The fields of a reply that its packet and opcode fix. -/
structure Answer where
  status : BitVec 16
  detail : Nat
  result0 : Nat
  result1 : Nat
  time : Nat
  deriving DecidableEq, Repr

/-- A plain answer: a status and a DETAIL. -/
def Answer.of (status : BitVec 16) (detail : Nat) : Answer := ⟨status, detail, 0, 0, 0⟩

/-- Entries of a status queue. -/
def Queue.cqSize (q : Queue) : Nat := 2 ^ q.cqlog.toNat
def Queue.sqSize (q : Queue) : Nat := 2 ^ q.sqlog.toNat

/-- Entry `i` of a status queue lies at its BASE + 32 · i (R339). -/
def Queue.replyAddr (x : Queue) (i : Nat) : DWord := x.cqBase + BitVec.ofNat 64 (32 * i)

/-- The 32 bytes of a status reply (R349, Table HC-7). -/
def Reply.bytes (r : Reply) : List Byte :=
  leBytes 2 r.status.toNat ++ leBytes 2 (b2n r.abortLate + 2 * b2n r.ruleSub) ++ leBytes 2 r.cid.toNat ++ leBytes 2 r.sqhd.toNat ++
  [byteOf (16 * r.version.toNat + 2 * r.qid.toNat + b2n r.phase), r.detail] ++ leBytes 2 r.opcode.toNat ++ leBytes 4 r.result0.toNat ++
  leBytes 8 r.result1.toNat ++ leBytes 4 (r.time.toNat + r.kind.toNat * 2 ^ 28) ++ leBytes 4 0

/-- What an output writes into host memory, at its bus address. -/
def Out.hostWrite : Out → Option (DWord × List Byte)
  | .reply _ _ _ a r => some (a, r.bytes)
  | .dma _ a d => some (a, d)
  | _ => none

/-- Writes a reply into its status queue in cycle `at'` and sends the queue's vector unless NOIRQ; a disabled queue gets
nothing (R343). -/
def State.writeReply (s : State) (f : Fn) (q : Fin 8) (noirq : Bool) (cyc : Nat) (r : Reply) : State :=
  let x := s.queue f q
  if !x.en then s
  else
    let r := { r with sqhd := BitVec.ofNat 16 x.sqHead, version := x.version, qid := BitVec.ofNat 3 q.val, phase := x.phase }
    let s := s.emit (.reply cyc f q (x.replyAddr x.cqTail) r)
    let wrap := x.cqTail + 1 ≥ x.cqSize
    let s := s.setQueue f q { x with cqTail := if wrap then 0 else x.cqTail + 1, phase := if wrap then !x.phase else x.phase }
    if noirq then s else s.emit (.msix cyc f x.vector)

/-- The interpretation reply of a packet (R343). -/
def State.answerAt (s : State) (p : Packet) (cyc : Nat) (a : Answer) : State :=
  s.writeReply p.fn p.q p.noirq cyc
    { status := a.status, abortLate := false, ruleSub := false, cid := p.cid, sqhd := 0, version := 0, qid := 0,
      phase := false, detail := byteOf a.detail, opcode := p.opcode, result0 := BitVec.ofNat 32 a.result0,
      result1 := BitVec.ofNat 64 a.result1, time := BitVec.ofNat 28 a.time, kind := 0 }

def State.answer (s : State) (p : Packet) (a : Answer) : State := s.answerAt p s.now a
/-- RESULT1 that the opcode itself fixes: the JOBID of a SUBMIT_JOB or ABORT_JOB (Table HC-7). -/
def result1Of (p : Packet) : Nat := if p.opcode = 0x0020 ∨ p.opcode = 0x0021 then p.jobid.toNat else 0

def State.refuse (s : State) (p : Packet) (detail : Nat) : State :=
  s.answer p { Answer.of stRefused detail with result1 := result1Of p }

/-! ## Records (R409, R410, R412, R414) -/

def padded4 (l : List Byte) : List Byte := l ++ List.replicate ((4 - l.length % 4) % 4) 0

/-- Bytes of a record: header, padded payload, CRC and trailer. -/
def Record.size (r : Record) : Nat := 24 + (padded4 r.payload).length

/-- A record's bytes (Table FL-4). -/
def Record.bytes (r : Record) : List Byte :=
  let body := leBytes 2 r.size ++ leBytes 2 r.ty.toNat ++ leBytes 4 r.seq.toNat ++ leBytes 8 r.time.toNat ++ padded4 r.payload
  body ++ leBytes 4 (crc32 body) ++ leBytes 4 r.seq.toNat

def sizeOf' (l : List Record) : Nat := l.foldl (fun n r => n + r.size) 0

/-- Capacity of the flash region and of the volatile buffer, in bytes. -/
def flashBytes : Nat := 268435456
def bufBytes : Nat := 524288

/-- Appends one record that fits; a flush starts when 256 KiB await copying (R412). -/
def Recorder.put (e : Recorder) (now : Nat) (ty : Nat) (payload : List Byte) : Recorder :=
  let r : Record := { ty := BitVec.ofNat 16 ty, seq := e.next, time := BitVec.ofNat 64 now, payload := payload }
  let b := e.buf ++ [r]
  { e with buf := b, next := e.next + 1, flushing := e.flushing || decide (sizeOf' b ≥ 262144) }

/-- Writes a record and answers its SEQ, 0xFFFF_FFFF when it was not written. -/
def Recorder.write (e : Recorder) (now : Nat) (ty : Nat) (payload : List Byte) : Recorder × Word :=
  let size := 24 + (padded4 payload).length
  let lost := { e with lost := satInc32 e.lost }
  if e.full then (lost, 0xFFFFFFFF)
  else if sizeOf' e.buf + size > bufBytes then (lost, 0xFFFFFFFF)
  else if sizeOf' e.flash + sizeOf' e.buf + size + 28 > flashBytes then
    let x := e.put now 0x0003 (leBytes 4 e.next.toNat)
    ({ x with full := true, lost := satInc32 e.lost }, 0xFFFFFFFF)
  else (e.put now ty payload, e.next)

/-- A record at the current cycle. -/
def State.record (s : State) (ty : Nat) (payload : List Byte) : State × Word :=
  let r := s.evr.write s.now ty payload
  ({ s with evr := r.1 }, r.2)

def State.recordS (s : State) (ty : Nat) (payload : List Byte) : State := (s.record ty payload).1

/-- A flush starts; one that runs is extended (R412). -/
def State.flush (s : State) : State := { s with evr := { s.evr with flushing := true } }

/-! ## Interpretation of packets -/

/-- A reply of an earlier packet of the queue is still to be written (R342). -/
def State.repliesDue (s : State) (f : Fn) (q : Fin 8) : Bool :=
  let me := fun (p : Packet) => p.fn == f && p.q == q
  s.jobs.any (fun j => j.fn == f && j.q == q) || (s.fnOf f).deferred.any (fun d => d.q == q) || s.progLoads.any (fun l => me l.p) || s.keyLoads.any (fun l => me l.p)
    || s.heldLoads.any (fun l => me l.p) || s.wipes.any (fun w => me w.p) || s.retires.any (fun r => me r.p)
    || s.slices.any (fun x => x.p.any me) || s.depots.any (fun d => me d.p) || s.releases.any (fun r => me r.1)
    || s.aborts.any (fun a => me a.1) || s.evr.clearing.any (fun c => me c.1)
    || s.ports.any (fun x => (x.fwdMsgs ++ x.nackMsgs ++ x.wstateMsgs).any (fun m => m.openPkt.any me) ||
        x.windows.any (fun w => w.closers.any me || w.reopen.any (fun r => me r.1)))
    || (s.atl.queue ++ s.atl.waiting ++ (s.atl.running.map (·.work)).toList).any (fun w => match w with
        | .op _ p _ => me p
        | .checkAuth p _ => me p
        | _ => false)

/-- A FENCE waits for every earlier reply of its queue (R342). -/
def State.fenced (s : State) (p : Packet) : Bool := p.fence && s.repliesDue p.fn p.q

/-- The packet that is interpreted next of those fetched, `done` being the queues whose first packet waits: queues are served in the
order of the fetches, each in index order (R342). -/
def State.nextOf (s : State) : List (Fn × Fin 8) → List Packet → Option Packet
  | _, [] => none
  | wait, p :: t =>
    if wait.contains (p.fn, p.q) then s.nextOf wait t
    else if s.fenced p then s.nextOf ((p.fn, p.q) :: wait) t
    else some p

/-- The authority holder can interpret the packet now: the origin has come, a controller holds the token, the PF is in D0
(R423, R430, R449), and it is the next of the packets fetched (R342). A packet of a queue that holds none fetched is taken as fetched
for the command. -/
def State.canInterpret (s : State) (p : Packet) : Bool :=
  s.running && s.hasHolder && s.auth.offer.isNone && !(s.fnOf Fn.pf).d3hot && !s.fenced p &&
    (match s.nextOf [] s.fetched with
      | some x => x == p
      | none => !s.fetched.any (fun x => x.fn == p.fn && x.q == p.q))

/-- A packet leaves the fetched ones. -/
def State.takePacket (s : State) (p : Packet) : State := { s with fetched := eraseFirst (· == p) s.fetched }

/-- The queue's version in force for a packet; a differing VERSION field is read as it and counted (R348). -/
def State.versionClamp (s : State) (p : Packet) : State :=
  if (s.queue p.fn p.q).version = p.version then s else s.clampQ p.fn p.q 1

/-- The gate every packet but HELLO passes: nothing while no holder interprets, or for a packet whose OPCODE is not the command's own,
`op` (R346); after a fatal fault only LOG_READ and QUERY_HEALTH from the PF (`health`); before HELLO, or from a function Table HC-6 does
not allow, DETAIL 0xFF (R9, R347, R405). -/
def State.interpret (s : State) (p : Packet) (op : BitVec 16) (pf vf health : Bool) (k : State → State) : State :=
  if !s.canInterpret p || p.opcode != op then s
  else
    let s := s.takePacket p
    let isPf := p.fn == Fn.pf
    if s.reef.fatal && !(health && isPf) then s.refuse p 0xFE
    else if (s.queue p.fn p.q).version = 0 then s.refuse p 0xFF
    else if !(if isPf then pf else vf) then s.refuse p 0xFF
    else k (s.versionClamp p)

/-! ## Packet fields: `body` is bytes 16–47, `ext` bytes 48–63 -/

/-- Bytes [lo, lo + n) of the packet, numbered as in the packet; the extension reads as 0 under version 1 (R345). -/
def pktBytes (p : Packet) (lo n : Nat) : Nat :=
  if lo < 48 then field p.body.toNat (8 * (lo - 16)) (8 * n) else field p.ext.toNat (8 * (lo - 48)) (8 * n)

/-- The H1 rules apply to the packet: its queue's version is 1 (R460). -/
def State.h1 (s : State) (p : Packet) : Bool := (s.queue p.fn p.q).version == 1

/-- Extension bytes as the queue's version reads them. -/
def State.extAt (s : State) (p : Packet) (lo n : Nat) : Nat := if s.h1 p then 0 else pktBytes p lo n

end Sys2Proof.Machine
end

