-- ==== Sys2Proof/Machine/Float.lean ====
section
/-! DEFINITION. The numeric formats of Table ME-4 and exact arithmetic on their values, rounded once to nearest with ties
to even (R134, R176), the conversions of R159 and R176, and the four transcendental functions of R158. -/

namespace Sys2Proof.Machine

/-- A binary floating-point format: exponent and fraction widths and bias; `noInf` for E4M3 (R133, Table ME-4). -/
structure FFmt where
  ebits : Nat
  mbits : Nat
  bias : Nat
  noInf : Bool
  deriving DecidableEq, Repr

def fp32 : FFmt := { ebits := 8, mbits := 23, bias := 127, noInf := false }
def bf16 : FFmt := { ebits := 8, mbits := 7, bias := 127, noInf := false }
def binary16 : FFmt := { ebits := 5, mbits := 10, bias := 15, noInf := false }
def e4m3 : FFmt := { ebits := 4, mbits := 3, bias := 7, noInf := true }
def e5m2 : FFmt := { ebits := 5, mbits := 2, bias := 15, noInf := false }
/-- The internal format of a fused epilogue: 1 sign bit, a 10-bit exponent, a 40-bit significand (R163). -/
def fused50 : FFmt := { ebits := 10, mbits := 39, bias := 511, noInf := false }

/-- A float value, exact: ±m · 2^e, an infinity, or NaN with the sign it was read with. -/
inductive FV where
  | nan (neg : Bool)
  | inf (neg : Bool)
  | num (neg : Bool) (m : Nat) (e : Int)
  deriving DecidableEq, Repr

/-- A rounded result: its bits, and whether it was NaN or a finite value beyond the largest. -/
structure FRes where
  bits : Nat
  nan : Bool
  ovf : Bool
  deriving DecidableEq, Repr

/-- Width in bits of a format. -/
def FFmt.width (f : FFmt) : Nat := 1 + f.ebits + f.mbits
/-- The bits of +Inf; for E4M3 those of NaN, its first encoding beyond the largest finite value. -/
def FFmt.infBits (f : FFmt) : Nat := if f.noInf then 0x7F else (2 ^ f.ebits - 1) * 2 ^ f.mbits
/-- The canonical NaN (R176); 0x7F for E4M3 and E5M2 (R159). -/
def FFmt.nanBits (f : FFmt) : Nat :=
  if f.noInf then 0x7F else if f.mbits = 2 then 0x7F else (2 ^ f.ebits - 1) * 2 ^ f.mbits + 2 ^ (f.mbits - 1)
def FFmt.signBit (f : FFmt) : Nat := 2 ^ (f.ebits + f.mbits)

/-- The value of an encoding (Table ME-4). -/
def FV.ofBits (f : FFmt) (w : Nat) : FV :=
  let neg := w.testBit (f.ebits + f.mbits)
  let e := w / 2 ^ f.mbits % 2 ^ f.ebits
  let m := w % 2 ^ f.mbits
  if f.noInf && e == 15 && m == 7 then .nan neg
  else if !f.noInf && e == 2 ^ f.ebits - 1 then (if m == 0 then .inf neg else .nan neg)
  else if e == 0 then .num neg m (1 - (f.bias : Int) - f.mbits)
  else .num neg (m + 2 ^ f.mbits) ((e : Int) - f.bias - f.mbits)

/-- m / 2^k rounded to nearest with ties to even. -/
def rneShift (m k : Nat) : Nat :=
  let q := m >>> k
  let r := m % 2 ^ k
  if 2 * r > 2 ^ k || (2 * r == 2 ^ k && q % 2 == 1) then q + 1 else q

/-- Magnitude bits of m · 2^e rounded to the format with unbounded exponent range above. -/
def roundMag (f : FFmt) (m : Nat) (e : Int) : Nat :=
  if m = 0 then 0
  else
    let emin : Int := 1 - (f.bias : Int) - f.mbits
    let e' := max (e + bitLen m - (f.mbits + 1)) emin
    let q := if e' ≤ e then m <<< (e - e').toNat else rneShift m (e' - e).toNat
    if q < 2 ^ f.mbits then q else (e' - emin + 1).toNat * 2 ^ f.mbits + (q - 2 ^ f.mbits)

/-- Rounds once to the format; a finite value beyond the largest becomes ±Inf, or the largest finite value for E4M3. -/
def FV.round (f : FFmt) : FV → FRes
  | .nan _ => ⟨f.nanBits, true, false⟩
  | .inf neg => ⟨b2n neg * f.signBit + (if f.noInf then 0x7E else f.infBits), false, false⟩
  | .num neg m e =>
    let g := roundMag f m e
    if g ≥ f.infBits then ⟨b2n neg * f.signBit + (if f.noInf then 0x7E else f.infBits), false, true⟩
    else ⟨b2n neg * f.signBit + g, false, false⟩

/-- A value rounded to the format and read back. -/
def FV.via (f : FFmt) (v : FV) : FV :=
  match v with
  | .nan n => .nan n
  | v => FV.ofBits f (v.round f).bits

def FV.neg : FV → FV
  | .nan n => .nan n
  | .inf n => .inf (!n)
  | .num n m e => .num (!n) m e

/-- Exact sum; an exact zero is +0 unless both terms are −0. -/
def FV.add : FV → FV → FV
  | .nan n, _ => .nan n
  | _, .nan n => .nan n
  | .inf a, .inf b => if a == b then .inf a else .nan false
  | .inf a, _ => .inf a
  | _, .inf b => .inf b
  | .num a m e, .num b k g =>
    let lo := min e g
    let x : Int := (m <<< (e - lo).toNat : Nat)
    let y : Int := (k <<< (g - lo).toNat : Nat)
    let s := (if a then -x else x) + (if b then -y else y)
    if s = 0 then .num (a && b) 0 0 else .num (decide (s < 0)) s.natAbs lo

def FV.sub (a b : FV) : FV := a.add b.neg

/-- Exact product; zero times infinity is NaN (R134). -/
def FV.mul : FV → FV → FV
  | .nan n, _ => .nan n
  | _, .nan n => .nan n
  | .inf a, .inf b => .inf (a != b)
  | .inf a, .num b m _ => if m = 0 then .nan false else .inf (a != b)
  | .num b m _, .inf a => if m = 0 then .nan false else .inf (a != b)
  | .num a m e, .num b k g => .num (a != b) (m * k) (e + g)

/-- num / den as a value whose rounding to any format of the model equals that of the exact quotient: at least 64
quotient bits and a last bit that is set when the division leaves a remainder. -/
def quotFV (neg : Bool) (m k : Nat) (e : Int) : FV :=
  let s := 66 + bitLen k
  let q := (m <<< s) / k
  let r := (m <<< s) % k
  .num neg (2 * q + b2n (r != 0)) (e - s - 1)

/-- Exact quotient; 0 / 0 and Inf / Inf are NaN, x / 0 is infinite. -/
def FV.div : FV → FV → FV
  | .nan n, _ => .nan n
  | _, .nan n => .nan n
  | .inf a, .inf _ => .nan a
  | .inf a, .num b _ _ => .inf (a != b)
  | .num a _ _, .inf b => .num (a != b) 0 0
  | .num a m e, .num b k g =>
    if k = 0 then (if m = 0 then .nan false else .inf (a != b))
    else quotFV (a != b) m k (e - g)

/-- Integer square root by bits, from bit `i` down. -/
def isqrtAux (n : Nat) : Nat → Nat → Nat
  | 0, r => r
  | i + 1, r => let c := r + 2 ^ i; isqrtAux n i (if c * c ≤ n then c else r)

def isqrt (n : Nat) : Nat := isqrtAux n (bitLen n / 2 + 1) 0

/-- Square root; of a negative nonzero value NaN, of −0 −0. -/
def FV.sqrt : FV → FV
  | .nan n => .nan n
  | .inf true => .nan false
  | .inf false => .inf false
  | .num neg m e =>
    if m = 0 then .num neg 0 0
    else if neg then .nan false
    else
      let odd := (e % 2).toNat
      let n := m <<< (odd + 128)
      let r := isqrt n
      .num false (2 * r + b2n (r * r != n)) ((e - odd - 128) / 2 - 1)

/-- a < b on values that are not NaN; −0 and +0 compare equal unless `zeros`, which orders −0 below +0 (R176). -/
def FV.lt (zeros : Bool) (a b : FV) : Bool :=
  match a, b with
  | .nan _, _ | _, .nan _ => false
  | .inf x, .inf y => x && !y
  | .inf x, _ => x
  | _, .inf y => !y
  | .num x m e, .num y k g =>
    if m = 0 && k = 0 then zeros && x && !y
    else
      let lo := min e g
      let p : Int := (m <<< (e - lo).toNat : Nat)
      let q : Int := (k <<< (g - lo).toNat : Nat)
      (if x then -p else p) < (if y then -q else q)

def FV.isNan : FV → Bool
  | .nan _ => true
  | _ => false

/-- VFMAX (`mx`) and VFMIN: NaN when either operand is NaN (R176). -/
def FV.maxMin (mx : Bool) (a b : FV) : FV :=
  if a.isNan || b.isNan then .nan false
  else if FV.lt true a b == mx then b else a

/-- Conditions of VFCMP: EQ, NE, LT, LE; every comparison with NaN is false except NE (R176). -/
def FV.cmp (cond : Nat) (a b : FV) : Bool :=
  if a.isNan || b.isNan then cond == 1
  else match cond with
    | 0 => !FV.lt false a b && !FV.lt false b a
    | 1 => FV.lt false a b || FV.lt false b a
    | 2 => FV.lt false a b
    | _ => !FV.lt false b a

/-- The integer nearest to a value, ties to even; infinities at a magnitude beyond every format. -/
def FV.toIntRne : FV → Int
  | .nan _ => 0
  | .inf n => if n then -(2 ^ 200 : Nat) else (2 ^ 200 : Nat)
  | .num n m e =>
    let q := if e ≥ 0 then m <<< e.toNat else rneShift m (-e).toNat
    if n then -(q : Int) else q

def FV.ofInt (x : Int) : FV := .num (decide (x < 0)) x.natAbs 0

/-- An integer conversion: the value saturated to `w` bits, signed or unsigned, and whether a finite value saturated. -/
def FV.toIntSat (w : Nat) (signed : Bool) (v : FV) (zp : Int) : Nat × Bool :=
  match v with
  | .nan _ => (0, false)
  | v =>
    let x := v.toIntRne + zp
    let lo : Int := if signed then -(2 ^ (w - 1) : Nat) else 0
    let hi : Int := if signed then (2 ^ (w - 1) : Nat) - 1 else (2 ^ w : Nat) - 1
    let fin := match v with | .num .. => true | _ => false
    if x > hi then (wrapOf w hi, fin) else if x < lo then (wrapOf w lo, fin) else (wrapOf w x, false)

/-- The conversion to E4M3 or E5M2 of R159: finite values beyond the largest saturate; NaN gives 0x7F, or 0xFF by its
sign in E4M3; an infinity saturates in E4M3 and stays in E5M2. A value beyond the largest finite one that rounds back to it sets no
SAT (DESIGN CHOICE, notes/assumptions/98.md). -/
def FV.toF8 (f : FFmt) (v : FV) : Nat × Bool :=
  match v with
  | .nan n => (if f.noInf && n then 0xFF else 0x7F, false)
  | .inf n => (b2n n * 0x80 + (if f.noInf then 0x7E else 0x7C), false)
  | .num n m e =>
    let g := roundMag f m e
    let big := if f.noInf then 0x7E else 0x7B
    if g > big then (b2n n * 0x80 + big, true) else (b2n n * 0x80 + g, false)

/-! ## fp32 operations on words -/

def f32 (w : Word) : FV := FV.ofBits fp32 w.toNat
def f32r (v : FV) : Word := BitVec.ofNat 32 (v.round fp32).bits

def f32add (a b : Word) : Word := f32r ((f32 a).add (f32 b))
def f32sub (a b : Word) : Word := f32r ((f32 a).sub (f32 b))
def f32mul (a b : Word) : Word := f32r ((f32 a).mul (f32 b))
def f32fma (a b c : Word) : Word := f32r (((f32 a).mul (f32 b)).add (f32 c))
def f32div (a b : Word) : Word := f32r ((f32 a).div (f32 b))
def f32sqrt (a : Word) : Word := f32r (f32 a).sqrt
/-- FCVTWS: fp32 to int32, saturating, NaN to 0 (R176). -/
def f32toInt (a : Word) : Word := BitVec.ofNat 32 ((f32 a).toIntSat 32 true 0).1
def f32ofInt (a : Word) : Word := f32r (FV.ofInt (sgn a))

/-! ## GELU, SILU, TANH, EXP (R158)

Each is evaluated in fixed point with 512 fraction bits and the result is one of the fp32 values within 2 units in the
last place of the exact one; `Config.ulpChoice` says which. -/

/-- ln 2 and 1 / √(2π), times 2^512. -/
def ln2Fix : Nat := 0xb17217f7d1cf79abc9e3b39803f2f6af40f343267298b62d8a0d175b8baafa2be7b876206debac98559552fb4afa1b10ed2eae35c138214427573b291169b825
def invSqrt2Pi : Nat := 0x662114cf50d942343f2cf1402eae38bfd3829f30512706d8c0471b4802639d2e9df8ac55447d3db723f5d3abb374e88deb14277970be1513278e993445f08cff

/-- x as a fixed-point number with 512 fraction bits. -/
def toFix (m : Nat) (e : Int) : Nat := if e + 512 ≥ 0 then m <<< (e + 512).toNat else m >>> (-(e + 512)).toNat

/-- Σ x^n / n! for a fixed-point x in [0, 1). -/
def expSeries (x : Nat) : Nat → Nat → Nat → Nat → Nat
  | 0, _, _, acc => acc
  | fuel + 1, n, t, acc => let t' := t * x / 2 ^ 512 / n; expSeries x fuel (n + 1) t' (acc + t')

/-- e^x for a fixed-point x ≥ 0. -/
def expFix (x : Nat) : Nat :=
  let k := x / ln2Fix
  expSeries (x % ln2Fix) 110 1 (2 ^ 512) (2 ^ 512) <<< k

/-- Σ x^(2n+1) / (1·3·5···(2n+1)) for a fixed-point x ≥ 0. -/
def phiSeries (x2 : Nat) : Nat → Nat → Nat → Nat → Nat
  | 0, _, _, acc => acc
  | fuel + 1, n, t, acc => let t' := t * x2 / 2 ^ 512 / (2 * n + 1); phiSeries x2 fuel (n + 1) t' (acc + t')

/-- Φ(x) − 1/2 for a fixed-point 0 ≤ x < 16. -/
def phiFix (x : Nat) : Nat :=
  let x2 := x * x / 2 ^ 512
  let dens := 2 ^ 1024 / expFix (x2 / 2) * invSqrt2Pi / 2 ^ 512
  dens * phiSeries x2 700 1 x x / 2 ^ 512

/-- A positive value too small for any format, and the same below 1. -/
def tinyFV (neg : Bool) : FV := .num neg 1 (-400)

/-- The exact value of operation `op` (0 GELU, 1 SILU, 2 TANH, 3 EXP) at a finite input, to far below an ulp. -/
def transFV (op : Nat) (neg : Bool) (m : Nat) (e : Int) : FV :=
  let x := toFix m e
  let one := 2 ^ 512
  let big := x ≥ 256 * one
  match op with
  | 0 =>
    if m = 0 then .num neg 0 0
    else if x ≥ 16 * one then (if neg then tinyFV true else (FV.num false m e).sub (tinyFV false))
    else
      let p := if neg then one / 2 - phiFix x else one / 2 + phiFix x
      (FV.num neg m e).mul (.num false p (-512))
  | 1 =>
    if m = 0 then .num neg 0 0
    else if big then (if neg then tinyFV true else (FV.num false m e).sub (tinyFV false))
    else
      let ex := expFix x
      -- x / (1 + e^(−x)): e^x / (e^x + 1) above 0, 1 / (1 + e^|x|) below
      if neg then quotFV true m (one + ex) (e + 512) else (FV.num false m e).mul (quotFV false ex (one + ex) 0)
  | 2 =>
    if m = 0 then .num neg 0 0
    else if big then (FV.num neg 1 0).add (tinyFV (!neg))
    else if e + bitLen m < -100 then (FV.num neg m e).add (.num (!neg) m (e - 150))
    else let ex := expFix (2 * x); quotFV neg (ex - one) (ex + one) 0
  | _ =>
    if m = 0 then .num false 1 0
    else if big then (if neg then tinyFV false else .num false 1 400)
    else if neg then quotFV false one (expFix x) 0 else .num false (expFix x) (-512)

/-- Position of an fp32 encoding on the number line. -/
def f32ord (b : Nat) : Int := if b < 2 ^ 31 then b else -((b - 2 ^ 31 : Nat) : Int)
def f32unord (x : Int) : Nat := if x < 0 then 2 ^ 31 + x.natAbs else x.toNat

/-- |candidate − exact| ≤ 2 ulp, the ulp being that of the candidate nearest to the exact value. -/
def within2ulp (near cand : Nat) (v : FV) : Bool :=
  match (FV.ofBits fp32 cand).sub v with
  | .num _ m e =>
    let u : Int := max ((near / 2 ^ 23 % 256 : Nat) : Int) 1 - 150
    !FV.lt false (.num false 2 u) (.num false m e)
  | _ => false

/-- GELU, SILU, TANH and EXP of an fp32 word (R158). -/
def transf (op : Nat) (w : Word) : FRes :=
  match f32 w with
  | .nan _ => ⟨fp32.nanBits, true, false⟩
  | .inf neg =>
    match op, neg with
    | 2, n => ⟨b2n n * 2 ^ 31 + 0x3F800000, false, false⟩
    | 3, true => ⟨0, false, false⟩
    | _, true =>
      -- GELU and SILU of −Inf are products of 0 and −Inf: the spec states no value
      let b := Config.ulpChoice op w % 2 ^ 32
      ⟨b, (FV.ofBits fp32 b).isNan, false⟩
    | _, false => ⟨fp32.infBits, false, false⟩
  | .num neg m e =>
    let v := transFV op neg m e
    let r := v.round fp32
    if r.ovf then r
    else
      let d : Int := (Config.ulpChoice op w % 5 : Nat) - 2
      let c := f32unord (f32ord r.bits + d)
      if d = 0 then r else if within2ulp r.bits c v then ⟨c, false, false⟩ else r

end Sys2Proof.Machine
end

