-- ==== Sys2Proof/Machine/Operands.lean ====
section
/-! DEFINITION. The operand forms of the Isle: scalar registers (R184), immediate forms (R191), Isle-store and
tile-register words with their code (R131, R227), slots and tokens (R205), address generators (R209 to R213), and the
vector lanes (R171). -/

namespace Sys2Proof.Machine

/-! ## Scalar registers -/

/-- s_r; s0 reads 0 (R184). -/
def Isle.reg (is : Isle) (r : Fin 32) : Word := if r = 0 then 0 else is.sk.s[r]

/-- Writes s_r; a write to s0 is discarded (R184). -/
def Isle.setReg (is : Isle) (r : Fin 32) (v : Word) : Isle :=
  if r = 0 then is else { is with sk := { is.sk with s := vset is.sk.s r v } }

/-- The second operand of an integer operation: IMM32 in the immediate form, else s_sb (R191). -/
def Isle.opB (is : Isle) (f : SFields) : Word := if f.useImm then f.imm else is.reg f.sb

/-! ## Isle store -/

/-- Bytes of the visible Isle store: 3 MiB, or 2 MiB in H1-compatible mode (R185). -/
def visibleStore (compat : Bool) : Nat := if compat then 0x200000 else 0x300000

/-- The bank of a store word (R224); words w and w + 49,152 lie in one bank (R225). -/
def bankOf (w : Nat) : Nat := w % 48

/-- Counts, logs and reports the error in one store word that a read meets (R227). -/
def Isle.storeCheck1 (i : IsleIdx) (is : Isle) (w : Nat) : Isle × List Report :=
  match rsMarks 3 35 (marksOf is.sto.errs w) with
  | .clean => (is, [])
  | .corrected sym _ =>
    let log := if is.sto.eccLog.getMsbD 0 then is.sto.eccLog
      else BitVec.ofNat 32 (2 ^ 31 + sym * 2 ^ 24 + w * 32)
    ({ is with sto := { is.sto with eccCnt := satInc32 is.sto.eccCnt, eccLog := log } },
     [{ Report.of (0x2000 + i.val) with page := w, symbol := sym }])
  | .bad =>
    ({ is with sto := { is.sto with eccLog := BitVec.ofNat 32 (2 ^ 31 + 2 ^ 30 + 0x3F * 2 ^ 24 + w * 32) } },
     [{ Report.of (0x2000 + i.val) with page := w, symbol := 0x3F, detail := 1 }])

/-- The checks of the store words of a read (R227). A report with `detail` 1 is uncorrectable. -/
def Isle.storeCheck (i : IsleIdx) (is : Isle) (ws : List Nat) : Isle × List Report :=
  if is.sto.errs.isEmpty then (is, [])
  else ws.foldl (fun r w => let x := Isle.storeCheck1 i r.1 w; (x.1, r.2 ++ x.2)) (is, [])

/-- A byte of the store; beyond it an open value. -/
def Isle.storeByte (is : Isle) (a : Nat) : Byte :=
  if a < 0x300000 then memRead is.sto.mem a else (Config.isleWord 0 a).setWidth 8

def Isle.storeRead (is : Isle) (a n : Nat) : List Byte := (List.range n).map (fun k => is.storeByte (a + k))

/-- A 32-bit word of the store at a byte address. -/
def Isle.storeW (is : Isle) (a : Nat) : Word := BitVec.ofNat 32 (leNat (is.storeRead a 4))

/-- Writes bytes to the store with fresh check bytes and any armed injection (R228, R229); bytes beyond it are lost. -/
def Isle.storeWrite (is : Isle) (a : Nat) (l : List Byte) : Isle :=
  let l' := l.take (0x300000 - a)
  let m := marksWrite 32 is.sto.errs is.sto.inj a l'.length
  { is with sto := { is.sto with mem := memWriteN is.sto.mem a l', errs := m.1, inj := m.2 } }

/-- Puts a write among those of one Isle cycle, lowest-numbered bank first and otherwise in the order given. -/
def insertBank (x : Nat × List Byte) : List (Nat × List Byte) → List (Nat × List Byte)
  | [] => [x]
  | y :: t => if bankOf (x.1 / 32) < bankOf (y.1 / 32) then x :: y :: t else y :: insertBank x t

/-- Words written in one Isle cycle: an armed injection acts on the lowest-numbered bank (R228, R408). -/
def Isle.storeWrites (is : Isle) (l : List (Nat × List Byte)) : Isle :=
  (l.foldl (fun t x => insertBank x t) []).foldl (fun s p => s.storeWrite p.1 p.2) is

/-! ## Circulation tags in the store (R83) -/

/-- The tag of the chunk that begins at an address. -/
def Isle.tagAt (is : Isle) (a : Nat) : Option KeyChunk := (is.sto.tags.find? (fun t => t.1 == a)).map (·.2)

/-- The mover has written `n` bytes at `a`: a tag goes with the first byte of its chunk. -/
def Isle.setTags (is : Isle) (a n : Nat) (l : List (Nat × KeyChunk)) : Isle :=
  if is.sto.tags.isEmpty && l.isEmpty then is
  else { is with sto := { is.sto with
    tags := l ++ is.sto.tags.filter (fun t => !(decide (a ≤ t.1) && decide (t.1 < a + n))) } }

/-! ## Tile registers -/

/-- Counts and reports the errors of the tile words a read meets (R131). -/
def Isle.tileCheck1 (i : IsleIdx) (is : Isle) (w : Nat) : Isle × List Report :=
  match rsMarks 3 35 (marksOf is.me.tileErrs w) with
  | .clean => (is, [])
  | .corrected sym _ =>
    ({ is with me := { is.me with corr := satAdd is.me.corr 1 } },
     [{ Report.of (0x1000 + i.val) with page := w, symbol := sym }])
  | .bad => (is, [{ Report.of (0x1000 + i.val) with page := w, symbol := 0x3F, detail := 1 }])

def Isle.tileCheck (i : IsleIdx) (is : Isle) (ws : List Nat) : Isle × List Report :=
  if is.me.tileErrs.isEmpty then (is, [])
  else ws.foldl (fun r w => let x := Isle.tileCheck1 i r.1 w; (x.1, r.2 ++ x.2)) (is, [])

def Isle.tileByte (is : Isle) (a : Nat) : Byte := memRead is.me.tiles (a % 131072)
def Isle.tileRead (is : Isle) (a n : Nat) : List Byte := (List.range n).map (fun k => is.tileByte (a + k))

/-- Writes bytes to the tile-register space of 8 × 16 KiB. -/
def Isle.tileWrite (is : Isle) (a : Nat) (l : List Byte) : Isle :=
  let a := a % 131072
  let l' := l.take (131072 - a)
  let m := marksWrite 32 is.me.tileErrs is.me.tileInj a l'.length
  { is with me := { is.me with tiles := memWriteN is.me.tiles a l', tileErrs := m.1, tileInj := m.2 } }

/-- Byte offset of element (r, c) in shape B, H or W, by element bytes 1, 2 or 4 (R128, Table ME-2). -/
def shapeOff (bytes r c : Nat) : Nat := if bytes = 4 then 256 * r + 4 * c else 128 * r + bytes * c

/-- Element (r, c) of the registers from t upward, in the shape of its size. -/
def Isle.tileElem (is : Isle) (t bytes r c : Nat) : Nat := leNat (is.tileRead (16384 * t + shapeOff bytes r c) bytes)

/-! ## Address generators -/

/-- The six levels in force: in H1-compatible mode the last two count 1 with stride 0 (R213). -/
def AgCap.levels (compat : Bool) (g : AgCap) : List (Nat × Int) :=
  (List.finRange 6).map (fun k =>
    if compat && decide (4 ≤ k.val) then (1, 0) else ((g.ag.counts[k]).toNat, (g.ag.strides[k]).toInt))

/-- Elements of the sequence: the product of the counts, 0 when any is 0 (R211). -/
def AgCap.size (compat : Bool) (g : AgCap) : Nat := (g.levels compat).foldl (fun n l => n * l.1) 1

/-- Σ ik · STRIDEk for the k-th tuple, i0 varying fastest. -/
def agOffset : List (Nat × Int) → Nat → Int
  | [], _ => 0
  | (n, d) :: t, k => (k % n : Nat) * d + agOffset t (k / n)

/-- The k-th element address, modulo 2^32 (R210). -/
def AgCap.elem (compat : Bool) (g : AgCap) (k : Nat) : Nat :=
  wrapOf 32 ((g.ag.base.toNat + (g.off &&& g.ag.omask.setWidth 32).toNat : Nat) + agOffset (g.levels compat) k)

/-- The register a rotated field names in execution j; `bit` 0 vd, 1 va, 2 vb, 3 vc (R201). -/
def AgCap.rot (g : AgCap) (bit : Nat) (j : Nat) (r : Fin 32) : Fin 32 :=
  if g.ag.rotmask.toNat.testBit bit then finOf 31 (r.val + j % 2 ^ g.ag.rotlog.toNat) else r


/-- A generator from its 64-byte descriptor (Table ISA-8). -/
def agOfBytes (l : List Byte) : AddrGen :=
  { base := BitVec.ofNat 22 (leAt l 0 4)
    oreg := finOf 31 (leAt l 4 4 / 2 ^ 27)
    omask := BitVec.ofNat 22 (leAt l 4 4)
    counts := Vector.ofFn (fun k => BitVec.ofNat 24 (leAt l (8 + 7 * k.val) 3))
    strides := Vector.ofFn (fun k => BitVec.ofNat 32 (leAt l (11 + 7 * k.val) 4))
    rotmask := BitVec.ofNat 4 (leAt l 50 1 / 8)
    rotlog := BitVec.ofNat 3 (leAt l 50 1) }

/-- AGW: writes one field of a generator; other FIELD values name none (R209). -/
def agSetField (g : AddrGen) (fld : Nat) (v : Word) : AddrGen :=
  if fld = 0 then { g with base := v.setWidth 22 }
  else if fld = 1 then { g with oreg := finOf 31 (v.toNat / 2 ^ 27), omask := v.setWidth 22 }
  else if h : fld - 2 < 6 ∧ 2 ≤ fld then { g with counts := g.counts.set (fld - 2) (v.setWidth 24) h.1 }
  else if h : fld - 8 < 6 ∧ 8 ≤ fld then { g with strides := g.strides.set (fld - 8) v h.1 }
  else if fld = 14 then { g with rotmask := BitVec.ofNat 4 (v.toNat / 8), rotlog := v.setWidth 3 }
  else g

def AgSet.apply (g : AddrGen) : AgSet → AddrGen
  | .whole x => x
  | .field k v => agSetField g k v

/-- Adds a write behind those that land no later. -/
def agwInsert (w : AgWrite) : List AgWrite → List AgWrite
  | [] => [w]
  | x :: t => if w.land < x.land then w :: x :: t else x :: agwInsert w t

/-- The generators with the writes of a list made. -/
def agApply (ags : Vector AddrGen 16) (l : List AgWrite) : Vector AddrGen 16 :=
  l.foldl (fun v w => vmod v w.ag (fun g => w.set.apply g)) ags

/-- The contents of generator `k` that an instruction issued in Isle cycle `c` captures: those of the writes landed by then
(R212). -/
def Skerry.agAt (x : Skerry) (k : Fin 16) (c : Nat) : AddrGen :=
  (x.agw.filter (fun w => w.ag == k && decide (w.land ≤ c))).foldl (fun g w => w.set.apply g) x.ags[k]

/-- A write to a generator made in the present Isle cycle, to land `n` cycles later. -/
def Skerry.agPut (x : Skerry) (k : Fin 16) (n : Nat) (set : AgSet) : Skerry :=
  { x with
    ags := agApply x.ags (x.agw.filter (fun w => decide (w.land ≤ x.cyc)))
    agw := agwInsert { ag := k, land := x.cyc + n, set := set } (x.agw.filter (fun w => !decide (w.land ≤ x.cyc))) }

/-- Every write to a generator has landed. -/
def Skerry.agSettle (x : Skerry) : Skerry := { x with ags := agApply x.ags x.agw, agw := [] }

/-- What an instruction captures of a generator at issue (R203, R212). -/
def Isle.cap (is : Isle) (k : Fin 16) : AgCap :=
  let g := is.sk.agAt k is.sk.cyc
  { ag := g, off := is.reg g.oreg }

/-- The capture of an optional generator field: 0xF names none (R199, R201). -/
def Isle.capOpt (is : Isle) (k : Fin 16) : Option AgCap := if k = 15 then none else some (is.cap k)

/-! ## Slots and tokens -/

/-- A slot the image does not declare: never FULL, so a reader waits for ever. -/
def Slot.absent : Slot :=
  { kind := 0, init := false, readers := 1, len := 0, base := 0, full := false, drain := 0, rounds := 0, got := 0 }

def Isle.slot (is : Isle) (k : Fin 128) : Slot := is.sto.slots.getD k.val Slot.absent
def Isle.setSlot (is : Isle) (k : Fin 128) (x : Slot) : Isle :=
  { is with sto := { is.sto with slots := is.sto.slots.set k.val x } }

/-- The key or landing slot of the Isle that holds a store address (R205, R246). -/
def Isle.slotAt (is : Isle) (addr : Nat) : Option (Fin 128) :=
  (List.finRange 128).find? (fun k =>
    let x := is.slot k
    x.kind.toNat ≥ 2 && decide (x.base ≤ addr) && decide (addr < x.base + 32 * x.len))

/-- A slot from its table entry at the job's start (Table ISA-7, R204). -/
def slotOfEntry (w : DWord) : Slot :=
  { kind := w.extractLsb' 62 2, init := w.getLsbD 61, readers := (w.extractLsb' 57 4).toNat,
    len := (w.extractLsb' 36 17).toNat, base := (w.extractLsb' 0 22).toNat, full := w.getLsbD 61, drain := 0, rounds := 0,
    got := 0 }

/-- The waits of a sync field are over: RSLOT is FULL and WSLOT is EMPTY (R205). -/
def Isle.ready (is : Isle) (y : Sync) : Bool :=
  (!y.rv || (is.slot y.rslot).full) && (!y.wv || !(is.slot y.wslot).full)

/-- A reader completes: the drain count rises, and at READERS the slot becomes EMPTY and the round ends (R205). -/
def Slot.drained (x : Slot) : Slot :=
  if x.drain + 1 ≥ x.readers then
    { x with full := false, drain := 0, rounds := min (x.rounds + 1) 0xFFFFFF, got := 0 }
  else { x with drain := x.drain + 1 }

/-- A writer's last write has landed (R205). -/
def Slot.filled (x : Slot) : Slot := { x with full := true }

/-- The token changes at the end of an instruction's accesses (R205). -/
def Isle.syncRead (is : Isle) (y : Sync) : Isle := if y.rv then is.setSlot y.rslot (is.slot y.rslot).drained else is
def Isle.syncWrite (is : Isle) (y : Sync) : Isle := if y.wv then is.setSlot y.wslot (is.slot y.wslot).filled else is
def Isle.syncDone (is : Isle) (y : Sync) : Isle := (is.syncRead y).syncWrite y

/-! ## Vector lanes -/

/-- Lane i of width w (R171). -/
def lane (w : Nat) (v : BitVec 2048) (i : Nat) : Nat := field v.toNat (w * i) w
/-- λ(w). -/
def laneCount (w : Nat) : Nat := 2048 / w
def lanes (w : Nat) (v : BitVec 2048) : List Nat := (List.range (laneCount w)).map (lane w v)

def packNat (w : Nat) : List Nat → Nat
  | [] => 0
  | x :: t => x % 2 ^ w + 2 ^ w * packNat w t

/-- A register from its lanes, lane 0 first. -/
def packLanes (w : Nat) (l : List Nat) : BitVec 2048 := BitVec.ofNat 2048 (packNat w l)

def Isle.setV (is : Isle) (r : Fin 32) (v : BitVec 2048) : Isle := { is with ve := { is.ve with v := vset is.ve.v r v } }

/-- Lane width of a TYPE, and its float format when it has one (R200). -/
def typeWidth (ty : BitVec 3) : Nat := if ty = 0 then 8 else if ty = 1 ∨ ty = 4 ∨ ty = 5 then 16 else 32
def typeFmt (ty : BitVec 3) : FFmt := if ty = 4 then bf16 else if ty = 5 then binary16 else fp32

end Sys2Proof.Machine
end

