-- ==== Sys2Proof/Machine/Timeline.lean ====
section
/-! DEFINITION. The timeline: occupancies and placement (R370 to R372, R437), a job's preparation (R371), and the end of a
job on every path (R80, R357, R372, R381). -/

namespace Sys2Proof.Machine

/-! ## Occupancies -/

/-- The first cycle after an occupancy. -/
def Occ.stop (o : Occ) : Nat := o.start + o.len

/-- [a, a + len) overlaps no occupancy on any row of `rows`. -/
def clearOf (occs : List Occ) (rows : BitVec 8) (a len : Nat) : Bool :=
  occs.all (fun o => !overlaps o.rows rows || decide (o.stop ≤ a) || decide (a + len ≤ o.start))

/-- The least of the candidates that passes. -/
def firstFit (cands : List Nat) (ok : Nat → Bool) : Option Nat :=
  (cands.filter ok).foldl (fun m x => some (match m with | none => x | some y => min x y)) none

/-- The only places where an earliest interval can begin: `lo` and the ends of the occupancies after it. -/
def beginnings (occs : List Occ) (lo : Nat) : List Nat := lo :: (occs.map Occ.stop).filter (fun e => lo < e)

/-- The earliest start at or after `lo` of an interval that overlaps no occupancy on its rows (R370). -/
def earliest (occs : List Occ) (rows : BitVec 8) (lo len : Nat) : Nat :=
  (firstFit (beginnings occs lo) (fun a => clearOf occs rows a len)).getD lo

/-- Length of a self-test slice, a wipe, a retirement window, a held load and a depot test (Table AD-2, R442). -/
def sliceLen : Nat := 60000
def wipeLen : Nat := 435000
def retireLen : Nat := 3000
def heldLen : Nat := 342
def depotLen : Nat := 2250000000

def Occ.isSlice (o : Occ) : Bool := o.kind == .slice

/-- At most one other slice runs at any moment of [a, a + sliceLen) (R437). -/
def slicesOk (occs : List Occ) (a : Nat) : Bool :=
  let sl := occs.filter Occ.isSlice
  let at' := fun t => (sl.filter (fun o => decide (o.start ≤ t) && decide (t < o.stop))).length
  (a :: (sl.map (·.start)).filter (fun t => decide (a ≤ t) && decide (t < a + sliceLen))).all (fun t => decide (at' t ≤ 1))

/-- The earliest place of a slice (R437). -/
def earliestSlice (occs : List Occ) (rows : BitVec 8) (lo : Nat) : Nat :=
  (firstFit (beginnings occs lo) (fun a => clearOf occs rows a sliceLen && slicesOk occs a)).getD lo

/-- The least multiple of the start grid at or after t (R379). -/
def gridUp (t : Nat) : Nat := ceilDiv t 131072 * 131072

/-- The start boundary S of R371. -/
def placeJob (occs : List Occ) (rows : BitVec 8) (c0 p J : Nat) (grid : Bool) : Nat :=
  let up := fun a => if grid then gridUp (a + p) else a + p
  (firstFit ((beginnings occs c0).map up) (fun S => clearOf occs rows (S - p) (p + J))).getD (up c0)

/-- Adds an occupancy and answers its identifier. -/
def State.occupy (s : State) (rows : BitVec 8) (start len : Nat) (kind : OccKind) : Nat × State :=
  let f := s.fresh
  (f.1, { f.2 with occs := f.2.occs ++ [{ id := f.1, rows := rows, start := start, len := len, kind := kind }] })

/-- What is left of an occupancy that ends in cycle `now`: it stands to the end of that cycle, and is removed from the next one on
(R370, R372, Table AD-7). -/
def Occ.cut (now : Nat) (o : Occ) : Option Occ :=
  if o.start ≤ now ∧ now < o.stop then some { o with len := now + 1 - o.start, kind := .ended } else none

/-- The occupancies after those that `p` names have ended. -/
def endOccs (now : Nat) (p : Occ → Bool) (l : List Occ) : List Occ := l.filterMap (fun o => if p o then o.cut now else some o)

/-- Ends an occupancy. -/
def State.vacate (s : State) (id : Nat) : State := { s with occs := endOccs s.now (fun o => o.id == id) s.occs }
def State.vacateJob (s : State) (id : Nat) : State := { s with occs := endOccs s.now (fun o => o.kind == .job id) s.occs }

/-- Ended occupancies whose last cycle is over are gone. -/
def State.pastOccs (s : State) : State := { s with occs := s.occs.filter (fun o => o.kind != .ended || decide (s.now < o.stop)) }

/-! ## Images and jobs -/

/-- The rows of an image's run. -/
def Image.run (m : Image) : BitVec 8 := rowMask m.firstRow.val m.hdr.rows
/-- The Isles of a run, position 0 first. -/
def Image.isles (m : Image) : List IsleIdx := islesOf m.run
/-- J of R371. -/
def Image.J (m : Image) : Nat := m.hdr.wcd / 6

/-- The image is bound, its seal verified: it has a valid duration (R2, R353). -/
def State.imageOf (s : State) (f : Fn) (h : BitVec 16) : Option Image := s.images.find? (fun m => m.fn == f && m.handle == h)

/-- p of R371. -/
def State.prepOf (s : State) (m : Image) (adm : Bool) : Nat :=
  let north := rowsOf m.run |>.any (fun y => decide (y.val < 4))
  let south := rowsOf m.run |>.any (fun y => decide (4 ≤ y.val))
  let far := !s.hasHolder || (if s.auth.claimN then south else north)
  let cache := m.sections.lagoonPlan.any (· == 2)
  8 + 3 * b2n far + 32 * b2n cache + 32 * b2n adm

def Job.run (j : Job) : BitVec 8 := j.img.run
/-- Admitted and not ended: the jobs whose rows, handles and sets R47, R217, R353 and R372 protect. -/
def Job.isOpen (j : Job) : Bool := j.phase != .armed && j.ending.isNone
def Job.isRunning (j : Job) : Bool := j.phase == .started && j.ending.isNone

/-- The job running on a row. -/
def State.runningOn (s : State) (y : RowIdx) : Option Job := s.jobs.find? (fun j => j.isRunning && inRows j.run y)

/-- The job that answers to a function and JOBID until its completion reply is written (R359). -/
def State.jobNamed (s : State) (f : Fn) (id : DWord) : Option Job := s.jobs.find? (fun j => j.fn == f && j.jobid == id)

def State.jobById (s : State) (id : Nat) : Option Job := s.jobs.find? (fun j => j.id == id)
def State.modJob (s : State) (id : Nat) (f : Job → Job) : State := { s with jobs := mapWhere (fun j => j.id == id) f s.jobs }

/-! ## The end of a job -/

/-- The end fill of one Isle: tile registers, weight latches, vector and Skerry state and the mover's buffers read zero,
OWNER reads none and the Skerry is halted (R132, R188, R267). The MODE of the last WLOAD into each set stays (R148), and the fill of
the tile registers takes an armed injection (R408). -/
def Isle.endFill (is : Isle) : Isle :=
  let m := is.me
  let k := is.sk
  { is with
    me := { m with
      tiles := [], tileErrs := m.tileInj.elim [] (marksInject [] 0), tileInj := none
      wA := { WeightSet.reset with mode := m.wA.mode }, wB := { WeightSet.reset with mode := m.wB.mode }
      stats := [], closed := 0, norm := none }
    ve := { is.ve with v := Vector.replicate 32 0, primes := Vector.replicate 64 0 }
    sk := { k with
      s := Vector.replicate 32 0, scr := Vector.replicate 4 0, owner := 8, halt := true, loops := [],
      held := none, heldWait := 0, run := none, imload := none, imSync := Sync.none, chain := Chain.none,
      ags := agApply k.ags k.agw, agw := [],
      st := if k.st == .trapped then .trapped else .halted }
    mov := { is.mov with batch := [], unread := 0, batchWv := none, rwait := 0, staged := [], arrivals := [], fwds := [] }
    mq := [], vq := [], dq := [], bq := [], laneE := [], lanePos := 0
    un := Units.none }

/-- The Isles of a run stop and are filled (R80, R132, R403). -/
def State.fillRun (s : State) (rows : BitVec 8) : State :=
  let acted := (islesOf rows).any (fun i => (s.isle i).me.tileInj.isSome)
  { s with
    isles := vmodAll s.isles (isleIn rows) (fun _ is => is.endFill)
    reef := if acted then { s.reef with injArmed := false } else s.reef }

/-- A digest entry of a step that a discarded job had open carries PARTIAL (R333). -/
def Digest.broken (step : Word) (d : Digest) : Digest := if d.step = step then { d with partialStep := true } else d

/-- A port leaves its ring (R102). -/
def Port.quiet (p : Port) : Port :=
  { p with kcEn := false, kcRsize := 0, kcRindex := 0, kcSucc := 0, keyRx := none, keySeen := [], redBuf := [] }

/-- The digests of a port after a discard: in each reduction slot of the job, the entry of that slot's own step is partial (R333). -/
def Port.breakDigests (p : Port) (l : List (RowIdx × Nat × Word)) (y : RowIdx) : Vector (List Digest) 4 :=
  l.foldl (fun v x => if x.1 = y then vmod v (finOf 3 x.2.1) (·.map (Digest.broken x.2.2)) else v) p.digests

/-- The ports of a run leave their ring; on a discard the egress drops its work too (R403), and the digests of the steps under way are
partial: (port, slot, step) each. -/
def State.quietPorts (s : State) (rows : BitVec 8) (discard : Option (List (RowIdx × Nat × Word))) : State :=
  { s with ports := vmodAll s.ports (inRows rows) (fun y p =>
      match discard with
      | none => p.quiet
      | some l => { p.quiet with egress := [], digests := p.breakDigests l y }) }

/-- Reductions of a job: port, slot at the port and step of each. -/
def Job.steps (j : Job) : List (RowIdx × Nat × Word) :=
  let d := j.img.sections.strait.elim [] (·.reductions)
  (d.zip j.configs).zipIdx.map (fun x =>
    (x.1.1.port, (((d.take x.2).filter (fun e => e.port == x.1.1.port)).length), x.1.2.2.2.1))

/-- A slot becomes FREE. -/
def State.freeSlot (s : State) (f : Fn) (k : Fin 64) : State := s.setSlot f k ResultSlot.reset

/-- TIME of a completion reply: microseconds from interpretation, or from C0 of the ADM admission, to the end (R357,
R365). -/
def Job.elapsed (j : Job) (cyc : Nat) : BitVec 28 := BitVec.ofNat 28 (usOf (cyc - j.c0))

/-- An unfinished job is discarded with a final status: its work stops, its slot returns to FREE and its reservation
leaves the timeline; the reply is written from the next cycle on (R80, R266, R357, R359, R372). -/
def State.discard (s : State) (j : Job) (status : BitVec 16) (result0 : Word) : State :=
  let s := s.modJob j.id (fun j => { j with
    ending := some { cyc := s.now, status := status, result0 := result0, time := j.elapsed s.now, done := false } })
  let s := (s.vacateJob j.id).freeSlot j.fn j.slot
  if j.phase == .started then (s.fillRun j.run).quietPorts j.run (some j.steps) else s

/-- A job leaves without a reply: Function Level Reset, fatal fault, power (R363, R381). -/
def State.removeJob (s : State) (j : Job) : State :=
  let s := { s with jobs := s.jobs.filter (fun x => x.id != j.id) }
  let s := s.vacateJob j.id
  if j.isRunning then (s.fillRun j.run).quietPorts j.run (some j.steps) else s

/-- Writes the completion reply of an ended job and drops the job; a VF in D3hot gets it on its return to D0 (R343, R449).
-/
def State.complete (s : State) (j : Job) (e : Ending) (cyc : Nat) : State :=
  let s := { s with jobs := s.jobs.filter (fun x => x.id != j.id) }
  let r : Reply := {
    status := e.status, abortLate := j.abortLate, ruleSub := j.ruleSub, cid := j.cid, sqhd := 0,
    version := 0, qid := 0, phase := false, detail := 0, opcode := 0x0020, result0 := e.result0, result1 := j.jobid,
    time := e.time, kind := 1 }
  if (s.fnOf j.fn).d3hot then
    s.setFn j.fn { s.fnOf j.fn with deferred := (s.fnOf j.fn).deferred ++ [{ q := j.q, noirq := j.noirq, r := r }] }
  else s.writeReply j.fn j.q j.noirq cyc r

/-- Refreshes of the commits of the cycle that has ended, saturating, are in HLM_RFCNT (R125). -/
def State.rfSettle (s : State) : State :=
  { s.rfDue.foldl (fun (s : State) x => { s with
      rfLevel := vmod s.rfLevel x.1 (fun c => satAdd c x.2.1), rfBit := vmod s.rfBit x.1 (fun c => satAdd c x.2.2) }) s with rfDue := [] }

/-- Every completion reply due: of jobs that ended before the current cycle. -/
def State.completeDue (s : State) : State :=
  s.jobs.foldl (fun s j => match j.ending with
    | some e => if e.cyc < s.now then s.complete j e s.now else s
    | none => s) s

/-! ## Aborts and releases (R358 to R360) -/

/-- A committed job whose abort is late: INFO ABORT_LATE in its reply and in its slot header (R359, R361). -/
def State.noteLate (s : State) (j : Job) : State :=
  let s := s.modJob j.id (fun j => { j with abortLate := true })
  let x := s.slotOf j.fn j.slot
  if x.st == .ready && x.jobid == j.jobid then s.setSlot j.fn j.slot { x with info := x.info ||| 1 } else s

/-- Aborts latched in cycle `l` meet their jobs at the end of it; each answers its DETAIL. -/
def State.meetAbort (s : State) (a : Packet × Nat × Option Nat) : State × Nat :=
  match a.2.2 with
  | some d => (s, d)
  | none => match s.jobNamed a.1.fn a.1.jobid with
    | none => (s, 2)
    | some j =>
      match j.ending with
      | some e =>
        if e.done then (s.noteLate j, 1)
        else if e.status == stWindowClosed && e.cyc == s.now then
          -- ABORTED outranks a WINDOW_CLOSED of the same cycle (R351)
          (s.modJob j.id (fun j => { j with ending := some { e with status := stAborted, result0 := 0 } }), 0)
        else (s, 0)
      | none => (s.discard j stAborted 0, 0)

/-- The aborts latched in the cycle in which their job's reply begins to be written: late for a committed job; for one that was
discarded uncommitted the abort stands before the commit, and the job keeps its earlier status (R351, R359, DEDUCED). -/
def State.markLate (s : State) (l : Nat) : State :=
  s.aborts.foldl (fun s a =>
    if a.2.1 = l then
      match s.jobNamed a.1.fn a.1.jobid with
      | some j =>
        let mark := fun (s : State) (d : Nat) => { s with aborts := s.aborts.map (fun b => if b == a then (b.1, b.2.1, some d) else b) }
        match j.ending with
        | some e => if e.done then mark (s.noteLate j) 1 else mark s 0
        | none => s
      | none => s
    else s) s

/-- Jobs whose promised cycle ends without a commit: they end FAULTED, so that their reply, too, begins in C_p + 1 (R364). The
verifier's WCD lets no job come here; that it ends so is a DESIGN CHOICE (notes/assumptions/34.md). -/
def State.latePromises (s : State) : State :=
  (s.jobs.filter (fun j => j.isOpen && decide (j.cp ≤ s.now))).foldl (fun s j => s.discard j stFaulted 0x00B0) s

/-- A release latched in cycle `l` (R360): DETAIL 0 when its slot was READY in that cycle. -/
def State.meetRelease (s : State) (p : Packet) (l : Nat) : State × Nat :=
  let k := finOf 63 (pktBytes p 16 1 % 64)
  let x := s.slotOf p.fn k
  if x.st == .ready && decide (x.since ≤ l) then (s.freeSlot p.fn k, 0) else (s, 1)

def abortAnswer (p : Packet) (d : Nat) : Answer := { Answer.of stOk d with result1 := p.jobid.toNat }

/-- The end of management cycle `l` (= now) and the first acts of the next one: latched aborts and releases take effect,
completion replies begin, and the replies of those packets follow. -/
def State.latches (s : State) : State :=
  let l := s.now
  let due := s.aborts.filter (fun a => decide (a.2.1 ≤ l))
  let s := { s with aborts := s.aborts.filter (fun a => !decide (a.2.1 ≤ l)) }
  let r := due.foldl (fun (x : State × List (Packet × Nat)) a => let y := x.1.meetAbort a; (y.1, x.2 ++ [(a.1, y.2)])) (s, [])
  let rel := r.1.releases.filter (fun x => decide (x.2 ≤ l))
  let s := { r.1 with releases := r.1.releases.filter (fun x => !decide (x.2 ≤ l)) }
  let s := s.latePromises
  let q := rel.foldl (fun (x : State × List (Packet × Nat)) a => let y := x.1.meetRelease a.1 a.2; (y.1, x.2 ++ [(a.1, y.2)])) (s, [])
  let s := q.1.markLate (l + 1)
  let s := ({ s.rfSettle with now := l + 1 }).pastOccs.completeDue
  let s := r.2.foldl (fun s x => s.answer x.1 (abortAnswer x.1 x.2)) s
  q.2.foldl (fun s x => s.answer x.1 (Answer.of stOk x.2)) s

end Sys2Proof.Machine
end

