-- ==== Sys2Proof/Machine/Reef.lean ====
section
/-! DEFINITION. The Reef (R400 to R408, R464): who is charged, what a report stops, the events, the interrupts and the
fault records. -/

namespace Sys2Proof.Machine

/-! ## Registers a fault record copies (Table FL-6) -/

/-- ISL_MESTAT (R148). -/
def Isle.mestat (is : Isle) : Nat :=
  is.me.corr.toNat * 2 ^ 16 + 8 * b2n is.me.wpar + 4 * b2n is.me.sat + 2 * b2n is.me.ovf + b2n is.me.nan

/-- ISL_SKSTAT.STATE (R188). -/
def SkState.code : SkState → Nat
  | .halted => 0 | .running => 1 | .stalled => 2 | .trapped => 3

/-- ISL_SKSTAT. -/
def Isle.skstat (is : Isle) : Nat :=
  is.sk.st.code * 2 ^ 30 + is.sk.cause.toNat * 2 ^ 24 + b2n is.sk.active * 2 ^ 15 + is.sk.pc % 2 ^ 15

/-- ISL_TOKSTAT. -/
def Isle.tokstat (is : Isle) : Nat := b2n is.tokOvr * 2 ^ 31 + is.tokSlot.toNat * 2 ^ 24 + is.tokMax.toNat

/-- DRC_ECCLOG. -/
def DramCtrl.eccLog (d : DramCtrl) : Nat :=
  b2n d.logValid * 2 ^ 63 + b2n d.logUnc * 2 ^ 62 + b2n d.logRetreq * 2 ^ 61 + d.logCh.toNat * 2 ^ 56 +
    d.logPage.toNat * 2 ^ 37 + d.logBlock.toNat * 2 ^ 29 + d.logSymbol.toNat * 2 ^ 22 + d.pcount.toNat * 2 ^ 8

/-! ## Checkers (Tables FL-1, FL-2) -/

def repKind (r : Report) : Nat := r.checker.toNat / 4096
def repInst (r : Report) : Nat := r.checker.toNat % 4096

/-- The row charged: the sending or writing row when the report names it, else by Table FL-2. -/
def repRow (r : Report) : Option RowIdx :=
  if r.rowOverride.isSome then r.rowOverride
  else
    let n := (repInst r)
    match (repKind r) with
    | 1 | 2 | 3 | 4 | 6 | 9 => some (finOf 7 (n / 8))
    | 5 | 10 => some (finOf 7 (n / 2))
    | 7 | 8 => some (finOf 7 n)
    | _ => none

/-- The controller of a channel. -/
def ctrlOf (c : Nat) : Fin 16 := finOf 15 (c / 4)

/-- DETAIL of a fault record: the checker's log register where Table FL-6 names one; none gives an open value. -/
def State.faultDetail (s : State) (r : Report) : Option Nat :=
  let is := s.isle (finOf 63 (repInst r))
  match (repKind r) with
  | 1 | 3 => some is.mestat
  | 2 => some is.sto.eccLog.toNat
  | 6 => some ((s.dram (ctrlOf (repInst r))).eccLog % 2 ^ 32)
  | 7 => some (s.port (finOf 7 (repInst r))).fecCorr.toNat
  | 9 => some (if r.overrun then is.tokstat else is.skstat)
  | 11 => if (repInst r) < 64 then some ((s.dram (ctrlOf (repInst r))).eccLog % 2 ^ 32) else none
  | _ => none

/-- DETAIL of a corrected record: the checker's corrected count. -/
def State.corrDetail (s : State) (r : Report) : Option Nat :=
  let is := s.isle (finOf 63 (repInst r))
  match (repKind r) with
  | 1 => some is.me.corr.toNat
  | 2 => some is.sto.eccCnt.toNat
  | 5 => some (s.lagoon (finOf 15 (repInst r))).corr.toNat
  | 6 => some (s.dram (ctrlOf (repInst r))).pcount.toNat
  | 7 => some (s.port (finOf 7 (repInst r))).fecCorr.toNat
  | _ => none

/-- An optional number, open where there is none. -/
def State.orOpen (s : State) : Option Nat → Nat × State
  | some n => (n, s)
  | none => s.openNat

/-! ## Records, events, interrupts -/

/-- The VF of a row's owner, 8 for none. -/
def State.ownerVf (s : State) : Option RowIdx → Nat
  | some y => (s.rows[y]).owner.elim 8 (·.val)
  | none => 8

/-- The 24-byte payload of Table FL-6. -/
def faultPayload (checker cls : Nat) (row : Option RowIdx) (cause jobid detail vf : Nat) : List Byte :=
  leBytes 2 checker ++ [byteOf cls, byteOf (row.elim 0xFF (·.val))] ++ leBytes 4 cause ++ leBytes 8 jobid ++
    leBytes 4 detail ++ [byteOf vf, 0, 0, 0]

/-- The PF's Reef vector, held back while the PF is in D3hot (R407). -/
def State.reefIrq (s : State) : State :=
  if !s.reef.irqen then s
  else if (s.fnOf Fn.pf).d3hot then { s with reef := { s.reef with owedIrq := true } }
  else s.emit (.msix s.now Fn.pf (s.reef.vector.setWidth 8))

/-- An event joins the queue of 64, or is dropped and sets EVOVF (R407). -/
def State.event (s : State) (checker : BitVec 16) (cls : BitVec 2) (row : Option RowIdx) (seq : Word) : State :=
  if s.reef.events.length ≥ 64 then { s with reef := { s.reef with evovf := true } }
  else
    let e : ReefEvent := { checker := checker, cls := cls, row := row, seq := seq }
    ({ s with reef := { s.reef with events := s.reef.events ++ [e] } }).reefIrq

/-- Writes a fault record and queues its event (classes 1, 2 and 3). -/
def State.logFault (s : State) (ty : Nat) (cls : BitVec 2) (r : Report) (row : Option RowIdx) (cause jobid : Nat) : State :=
  let d := s.orOpen (s.faultDetail r)
  let w := d.2.record ty (faultPayload r.checker.toNat cls.toNat row cause jobid d.1 (s.ownerVf row))
  w.1.event r.checker cls row w.2

/-- The Reef and the recorder run and see the checkers: after start-up began and before power goes (R423, R446, R448). -/
def State.reefSees (s : State) : Bool := s.power == .running
def State.beforeOrigin (s : State) : Bool := s.power == .starting || s.power == .ready

def State.early (s : State) (cls : BitVec 2) (r : Report) (row : Option RowIdx) : State :=
  { s with reef := { s.reef with early := s.reef.early ++ [(cls, r, row)] } }

/-- A report waits for BOOT before the origin (R423), is taken by `k` from the origin on, and meets nothing otherwise. -/
def State.whenSeen (s : State) (cls : BitVec 2) (r : Report) (row : Option RowIdx) (k : State → State) : State :=
  if s.reefSees then k s else if s.beforeOrigin then s.early cls r row else s

/-! ## Corrected faults -/

/-- Counts and, once per checker and second, records a corrected fault (R400, Table FL-5). -/
def State.corrected (s : State) (r : Report) : State :=
  s.whenSeen 0 r (repRow r) fun s =>
    let f := s.reef
    let f := { f with corr := if f.corr = 0xFFFFFFFFFFFFFFFF then f.corr else f.corr + 1 }
    let f := match (repRow r) with
      | some y => { f with rowCorr := vmod f.rowCorr y satInc32 }
      | none => f
    let win := s.now / 150000000
    let seen := f.corrWin.any (fun w => w.1 == r.checker && w.2 == win)
    let s := { s with reef := f }
    if seen then s
    else
      let s := { s with reef := { f with corrWin := (r.checker, win) :: f.corrWin.filter (fun w => w.1 != r.checker) } }
      let d := s.orOpen (s.corrDetail r)
      d.2.recordS 0x0010 (faultPayload r.checker.toNat 0 (repRow r) 0 0 d.1 (s.ownerVf (repRow r)))

/-! ## Contained faults -/

/-- The status and RESULT0 of a job that a contained report ends (R310, R357). -/
def repOutcome (r : Report) : BitVec 16 × Word :=
  if r.nack then (stWindowClosed, 0) else (stFaulted, if r.overrun then 0x00B0 else 0x0030)

/-- CAUSE of the record of a discarded job (Table FL-6). -/
def repCause (r : Report) : Nat := if r.nack then 0x0050 else if r.overrun then 0x00B0 else 0x0030

/-- The job a contained report finds: one that runs on the row, or one that another contained report discarded in this
very cycle (R404). -/
def State.chargedJob (s : State) (y : RowIdx) : Option Job :=
  s.jobs.find? (fun j => inRows j.run y && j.phase == .started && match j.ending with
    | none => true
    | some e => !e.done && e.cyc == s.now && (e.status == stFaulted || e.status == stWindowClosed))

/-- Merges a further report of the same cycle: FAULTED outranks WINDOW_CLOSED, and RESULT0 is 0x0030 unless every report
is SCHEDULE_OVERRUN (R351, R404). -/
def Ending.merge (e : Ending) (r : Report) : Ending :=
  if r.nack then e
  else if e.status == stWindowClosed then { e with status := stFaulted, result0 := (repOutcome r).2 }
  else if r.overrun then e
  else { e with result0 := 0x0030 }

/-- Stops the job that a contained report finds, and answers CAUSE and JOBID of its record. -/
def State.stopFor (s : State) (r : Report) (row : Option RowIdx) : State × Nat × Nat :=
  match row.bind s.chargedJob with
  | none => (s, 0, 0)
  | some j =>
    match j.ending with
    | none => (s.discard j (repOutcome r).1 (repOutcome r).2, (repCause r), j.jobid.toNat)
    | some e => (s.modJob j.id (fun j => { j with ending := some (e.merge r) }), (repCause r), j.jobid.toNat)

/-- A contained fault, latched in the current cycle and charged to `row` (R403, R404). -/
def State.containedTo (s : State) (r : Report) (row : Option RowIdx) : State :=
  s.whenSeen 1 r row fun s =>
    let x := s.stopFor r row
    let f := x.1.reef
    let f := { f with
      cont := satInc32 f.cont
      rowCont := match row with
        | some y => vmod f.rowCont y satInc32
        | none => f.rowCont }
    (({ x.1 with reef := f }).logFault 0x0011 1 r row x.2.1 x.2.2).flush

def State.contained (s : State) (r : Report) : State := s.containedTo r (repRow r)

/-- An Isle raises SCHEDULE_OVERRUN (R207, R208). -/
def State.overrunOn (s : State) (i : IsleIdx) : State :=
  (s.setIsle i { s.isle i with tokOvr := true }).contained { Report.of (0x9000 + i.val) with overrun := true }

/-- An error on host traffic: recorded as contained, charged to no partition (R402). -/
def State.containedHost (s : State) (r : Report) : State := s.containedTo r none

/-- A report that is counted and recorded only (R464). -/
def State.recordedOnly (s : State) (checker : Nat) (y : RowIdx) (detail : Nat) : State :=
  if !s.reefSees then s else s.recordS 0x0011 (faultPayload checker 1 (some y) 0 0 detail 8)

/-! ## Driver action and fatal faults -/

def State.driver (s : State) (r : Report) : State := s.whenSeen 2 r none fun s => s.logFault 0x0013 2 r none 0 0

/-- Every job goes without a reply and every Isle stops (R405). -/
def State.stopAll (s : State) : State :=
  let s := (s.fillRun 0xFF).quietPorts 0xFF (some ((s.jobs.filter Job.isRunning).flatMap Job.steps))
  { s with jobs := [], occs := s.occs.filter (fun o => match o.kind with
    | .job _ => false
    | .tentative _ => false
    | _ => true) }

/-- REEF_STAT keeps the first fatal checker. -/
def State.latchFatal (s : State) (c : BitVec 16) : State :=
  if s.reef.fatal then s else { s with reef := { s.reef with fatal := true, fchk := c } }

def State.fatal (s : State) (r : Report) : State :=
  (s.latchFatal r.checker).whenSeen 3 r none fun s => (s.stopAll.logFault 0x0012 3 r none 0 0).flush

/-- Carries out the reports of one access: uncorrectable ones have `detail` 1. -/
def State.reports (s : State) (l : List Report) : State :=
  l.foldl (fun s r => if (repKind r) == 9 || r.detail == 1 then s.contained r else s.corrected r) s

end Sys2Proof.Machine
end

