-- ==== Sys2Proof/Machine/Dram.lean ====
section
/-! DEFINITION. LPDDR5X channels and Lagoon slices: device addresses (R269 to R272), inline ECC and its log (R273, R274,
R287, R463), retired pages (R286), protected ranges (R354), SCRATCH and CACHE slices (R279 to R281). -/

namespace Sys2Proof.Machine

/-! ## Device addresses -/

/-- Usable bytes of a channel: 7.5 GiB or 3.75 GiB (R269). -/
def chanCap (big : Bool) : Nat := if big then 8053063680 else 4026531840

/-- P_top (R286). -/
def pageTop (big : Bool) : Nat := chanCap big / 16384 - 1

def devMode1 (a : Nat) : Bool := bitAt a 39

/-- The row of a device address: ROW, or CH div 8; both are bits [38:36]. -/
def devRow (a : Nat) : RowIdx := finOf 7 (field a 36 3)

/-- Channel and channel offset of byte k of a range that starts at device address `a` (R270): every byte's offset is reduced
modulo the usable capacity, ROW or CH unchanged. -/
def devByte (big : Bool) (a k : Nat) : ChanIdx × Nat :=
  if devMode1 a then (finOf 63 (field a 33 6), (field a 0 33 + k) % chanCap big)
  else
    let o := (field a 0 36 + k) % (8 * chanCap big)
    let u := o / 16384
    (finOf 63 (8 * field a 36 3 + u % 8), u / 8 * 16384 + o % 16384)

/-- The device address `n` bytes on: n is added to the offset alone, which is reduced modulo the usable capacity (R270, R271). -/
def devAdd (big : Bool) (a n : Nat) : Nat :=
  if devMode1 a then (a / 2 ^ 33) * 2 ^ 33 + (field a 0 33 + n) % chanCap big
  else (a / 2 ^ 36) * 2 ^ 36 + (field a 0 36 + n) % (8 * chanCap big)

/-- The channel offset an access reaches: a retired page P_i goes to S_i (R286). -/
def Channel.home (top : Nat) (c : Channel) (x : Nat) : Nat :=
  match c.retired.findIdx? (· == x / 16384) with
  | some i => (top - i) * 16384 + x % 16384
  | none => x

/-- Where a byte of a range is stored. -/
def State.devHome (s : State) (a k : Nat) : ChanIdx × Nat :=
  let r := devByte s.big512 a k
  (r.1, (s.chan r.1).home (pageTop s.big512) r.2)

def State.devByteAt (s : State) (a k : Nat) : Byte :=
  let h := s.devHome a k
  memRead (s.chan h.1).mem h.2

/-- Offsets within a range of `n` bytes from `a` at which it enters a 64-byte block. -/
def blockStarts (a n : Nat) : List Nat :=
  if n = 0 then []
  else (List.range ((a % 64 + n + 63) / 64)).map (fun j => if j = 0 then 0 else 64 * j - a % 64)

/-! ## The inline code and its log (R274, R287) -/

/-- Logs a corrected error; true when it is the sixteenth on the logged page. A log of another page is overwritten only while
VALID is 0. -/
def DramCtrl.logCorr (d : DramCtrl) (ch : BitVec 2) (page : BitVec 19) (block : BitVec 8) (sym : BitVec 7) :
    DramCtrl × Bool :=
  if !d.logValid then
    ({ d with
      logValid := true, logUnc := false, logRetreq := false, logCh := ch, logPage := page, logBlock := block,
      logSymbol := sym, pcount := 1 }, false)
  else if d.logCh == ch && d.logPage == page then
    let hit := d.pcount == 15
    let d := { d with pcount := satAdd d.pcount 1, logRetreq := d.logRetreq || hit }
    (if d.logUnc then d else { d with logBlock := block, logSymbol := sym }, hit)
  else (d, false)

/-- Logs an uncorrectable error, always, and requests retirement. -/
def DramCtrl.logBad (d : DramCtrl) (ch : BitVec 2) (page : BitVec 19) (block : BitVec 8) : DramCtrl :=
  let same := d.logValid && d.logCh == ch && d.logPage == page
  { d with
    logValid := true, logUnc := true, logRetreq := true, logCh := ch, logPage := page, logBlock := block,
    logSymbol := 0x7F, pcount := if same then d.pcount else 0 }

/-- Who reads: a job's mover, the host, or a self-test patrol. -/
inductive Traffic where
  | job | host | patrol
  deriving DecidableEq, Repr

/-- A page-retirement request reaches the Reef (R287). -/
def State.requestRetire (s : State) (c : ChanIdx) : State := s.driver (Report.of (0xB000 + c.val))

/-- A corrected symbol of a block, data or check, logged and reported (R274, R287). -/
def State.dramCorrected (s : State) (c : ChanIdx) (b sym : Nat) : State :=
  let l := (s.dram (ctrlOf c.val)).logCorr (BitVec.ofNat 2 c.val) (BitVec.ofNat 19 (b / 256)) (BitVec.ofNat 8 b) (BitVec.ofNat 7 sym)
  let s := (s.setDram (ctrlOf c.val) l.1).corrected
    { Report.of (0x6000 + c.val) with page := b / 256, block := b % 256, symbol := sym }
  if l.2 then s.requestRetire c else s

/-- The wrong symbols of a data block's codeword as the controller reads it: those of the block, and those of its check bytes when
the check block that holds them cannot be corrected (R273). -/
def Channel.marksAt (c : Channel) (b : Nat) : List (Nat × Byte) :=
  let own := marksOf c.errs b
  let g := marksOf c.chk (b / 15)
  match rsMarks 4 64 g with
  | .bad =>
    let four := g.filterMap (fun m => if 4 + 4 * (b % 15) ≤ m.1 ∧ m.1 < 8 + 4 * (b % 15) then some (m.1 - 4 - 4 * (b % 15), m.2) else none)
    own.map (fun m => (m.1, m.2 ^^^ ((four.find? (fun x => x.1 == m.1)).elim 0 (·.2)))) ++ four.filter (fun x => own.all (fun m => m.1 != x.1))
  | _ => own

/-- The check block of a data block's group is decoded with it: a wrong symbol of its own codeword is corrected and reported under
the block read (R274; under which block is a DESIGN CHOICE, notes/assumptions/100.md). -/
def State.checkGroup (s : State) (c : ChanIdx) (b : Nat) : State :=
  match rsMarks 4 64 (marksOf (s.chan c).chk (b / 15)) with
  | .corrected sym _ => s.dramCorrected c b sym
  | _ => s

/-- The read-modify-write of the check block that every data-block write causes (R463): fresh check bytes, or C0 and C1 of its own
codeword inverted when it reads as uncorrectable. -/
def State.rewriteCheck (s : State) (c : ChanIdx) (b : Nat) : State :=
  if (s.chan c).chk.isEmpty then s
  else
    let g := b / 15
    let put := fun (s : State) (e : ErrMarks) => s.setChan c { s.chan c with chk := e }
    match rsMarks 4 64 (marksOf (s.chan c).chk g) with
    | .clean => s
    | .corrected sym _ => put (s.dramCorrected c b sym) (marksClear (s.chan c).chk g)
    | .bad => put s (marksInject (s.chan c).chk g true)

/-- Decodes one stored block that a read meets, with its log, reports and capture request; true when it is uncorrectable
(R274, R402, R411, R439). -/
def State.checkBlock (s : State) (tr : Traffic) (c : ChanIdx) (b : Nat) : State × Bool :=
  let x := s.chan c
  if x.errs.isEmpty && x.chk.isEmpty then (s, false)
  else
    let s := s.checkGroup c b
    let page := b / 256
    let ch := BitVec.ofNat 2 c.val
    let pg := BitVec.ofNat 19 page
    let bl := BitVec.ofNat 8 b
    match rsMarks 4 68 (x.marksAt b) with
    | .clean => (s, false)
    | .corrected sym _ => (s.dramCorrected c b sym, false)
    | .bad =>
      let s := s.setDram (ctrlOf c.val) ((s.dram (ctrlOf c.val)).logBad ch pg bl)
      let r := { Report.of (0x6000 + c.val) with page := page, block := b % 256, symbol := 0x7F, detail := 1 }
      let s := match tr with
        | .job => s.contained r
        | .host => s.containedHost r
        | .patrol => s
      let s := { s with evr := { s.evr with captures := s.evr.captures ++ [(c, page, b % 256, s.now)] } }
      (s.requestRetire c, true)

/-- The stored bytes and check bytes of a block, errors included. -/
def Channel.codeword (c : Channel) (b : Nat) : List Byte × List Byte :=
  let d := memReadN c.mem (64 * b) 64
  let cw := rsCheck 4 d ++ d
  let cw := (marksOf c.errs b).foldl (fun l m => l.set m.1 (l.getD m.1 0 ^^^ m.2)) cw
  (cw.drop 4, cw.take 4)

/-- The check block of group g as stored: the check bytes of its 15 data blocks, then those of its own first 60 bytes (R273). -/
def Channel.checkBlock (c : Channel) (g : Nat) : List Byte :=
  let d := (List.range 15).flatMap (fun i => (c.codeword (15 * g + i)).2)
  let cw := (marksOf c.chk g).foldl (fun l m => l.set m.1 (l.getD m.1 0 ^^^ m.2)) (rsCheck 4 d ++ d)
  cw.drop 4 ++ cw.take 4

/-- The raw address of a channel offset (R273). -/
def rawAddr (x : Nat) : Nat := x / 960 * 1024 + x % 960

/-- `n` bytes of raw space within one block. -/
def Channel.raw (c : Channel) (r n : Nat) : List Byte :=
  let k := r % 1024 / 64
  slice (if k = 15 then c.checkBlock (r / 1024) else (c.codeword (15 * (r / 1024) + k)).1) (r % 64) n

/-- A data block and its check bytes as they stand in raw space. -/
def Channel.rawBlock (c : Channel) (b : Nat) : List Byte × List Byte :=
  (c.raw (rawAddr (64 * b)) 64, c.raw (b / 15 * 1024 + 960 + 4 * (b % 15)) 4)

/-- Checks every block of a range of channel bytes; true when one is uncorrectable. -/
def State.checkRange (s : State) (tr : Traffic) (a n : Nat) : State × Bool :=
  (blockStarts a n).foldl (fun (r : State × Bool) k =>
    let h := r.1.devHome a k
    let x := r.1.checkBlock tr h.1 (h.2 / 64)
    (x.1, r.2 || x.2)) (s, false)

/-- Reads `n` bytes from device address `a` at the channels. -/
def State.devRead (s : State) (tr : Traffic) (a n : Nat) : State × List Byte × Bool :=
  let c := s.checkRange tr a n
  (c.1, (List.range n).map (s.devByteAt a), c.2)

/-! ## Writes -/

/-- An armed injection that acted disarms (R408). -/
def State.injActed (s : State) (before after : Option Bool) : State :=
  if before.isSome && after.isNone then { s with reef := { s.reef with injArmed := false } } else s

/-- Stores bytes within one block of a channel with fresh check bytes; the injection, when armed, acts on it. -/
def State.putBlock (s : State) (c : ChanIdx) (x : Nat) (data : List Byte) : State :=
  let ch := s.chan c
  let m := marksWrite 64 ch.errs ch.inj x data.length
  ((s.setChan c { ch with mem := memWriteN ch.mem x data, errs := m.1, inj := m.2 }).injActed ch.inj m.2).rewriteCheck c (x / 64)

/-- The block that holds channel offset x lies in a protected range (R354). -/
def Channel.isProtected (c : Channel) (x : Nat) : Bool :=
  let lo := x / 64 * 64
  c.prot.any (fun r => decide (lo < r.hi) && decide (r.lo < lo + 64))

/-- A CACHE slice of a channel's row (R281). -/
def cacheSlice (c : Nat) : SliceIdx := finOf 15 (c / 4)

/-- The open byte at an offset of a slice; 0 unless the slice changed from CACHE to SCRATCH (R280). -/
def Lagoon.mask (l : Lagoon) (x : Nat) : Byte := l.junk.elim 0 (fun n => Config.lagoonByte n x)

/-- Stores bytes of a slice at an offset. -/
def Lagoon.store (l : Lagoon) (x : Nat) (data : List Byte) : Mem :=
  memWriteN l.mem x (data.zipIdx.map (fun e => e.1 ^^^ l.mask (x + e.2)))

/-- A byte of a slice. -/
def Lagoon.byte (l : Lagoon) (x : Nat) : Byte := memRead l.mem x ^^^ l.mask x

/-- Writes bytes of a slice with fresh check bytes; an armed injection acts on the first word (R279, R408). -/
def Lagoon.put (l : Lagoon) (x : Nat) (data : List Byte) : Lagoon :=
  let m := marksWrite 32 l.errs l.inj x data.length
  { l with mem := l.store x data, errs := m.1, inj := m.2 }

/-- A MODE 0 write also updates a line that is present (R281). -/
def Lagoon.update (l : Lagoon) (c x : Nat) (data : List Byte) : Lagoon :=
  match l.lines.find? (fun e => e.1 == c && e.2.1 == x / 16384) with
  | some e => l.put (e.2.2 * 16384 + x % 16384) data
  | none => l

def State.cacheWrite (s : State) (a : Nat) (c : ChanIdx) (x : Nat) (data : List Byte) : State :=
  let sl := cacheSlice c.val
  if devMode1 a || (s.lagoon sl).mode != 2 then s
  else
    let l := (s.lagoon sl).update c.val x data
    (s.setLagoon sl l).injActed (s.lagoon sl).inj l.inj

/-- One block of a mover's write: discarded with a contained fault against the writing row in a protected range. -/
def State.moverBlock (s : State) (row : RowIdx) (a k : Nat) (data : List Byte) : State :=
  let p := devByte s.big512 a k
  if (s.chan p.1).isProtected p.2 then
    s.contained { Report.of (0x6000 + p.1.val) with rowOverride := some row, page := p.2 / 16384, block := p.2 / 64 % 256 }
  else
    let h := s.devHome a k
    (s.putBlock h.1 h.2 data).cacheWrite a p.1 p.2 data

/-- A mover's write of whole blocks (R463). -/
def State.moverWrite (s : State) (row : RowIdx) (a : Nat) (data : List Byte) : State :=
  (blockStarts a data.length).foldl (fun s k => s.moverBlock row a k (slice data k (64 - (a + k) % 64))) s

/-- One block of a host write (R338, R354, R402, R463); true in the answer when a protected block was touched. -/
def State.hostBlock (s : State) (f : Fn) (a k : Nat) (data : List Byte) : State × Bool :=
  let p := devByte s.big512 a k
  if (s.chan p.1).isProtected p.2 then (s, true)
  else
    let h := s.devHome a k
    let chk := if data.length = 64 then (s, false) else s.checkBlock .host h.1 (h.2 / 64)
    if chk.2 then (chk.1.clamp8 f 1, false) else ((chk.1.putBlock h.1 h.2 data).cacheWrite a p.1 p.2 data, false)

/-- A host write through a tap. -/
def State.hostWrite (s : State) (f : Fn) (a : Nat) (data : List Byte) : State :=
  let r := (blockStarts a data.length).foldl (fun (r : State × Bool) k =>
    let x := r.1.hostBlock f a k (slice data k (64 - (a + k) % 64))
    (x.1, r.2 || x.2)) (s, false)
  if r.2 then r.1.clamp8 f 1 else r.1

/-! ## Lagoon slices -/

/-- Decodes one slice word that a read meets (R227, R279). -/
def State.checkSliceWord (s : State) (l : SliceIdx) (w : Nat) : State :=
  match rsMarks 3 35 (marksOf (s.lagoon l).errs w) with
  | .clean => s
  | .corrected sym _ =>
    (s.setLagoon l { s.lagoon l with corr := satAdd (s.lagoon l).corr 1 }).corrected
      { Report.of (0x5000 + l.val) with page := w, symbol := sym }
  | .bad => s.contained { Report.of (0x5000 + l.val) with page := w, symbol := 0x3F, detail := 1 }

def sliceBytes : Nat := 0x600000

/-- Reads a slice; an offset wraps at 6 MiB (R279). -/
def State.sliceRead (s : State) (l : SliceIdx) (off n : Nat) : State × List Byte :=
  let x := s.lagoon l
  let s := if x.errs.isEmpty then s
    else (wordsOf 32 off n).foldl (fun s w => s.checkSliceWord l (w % (sliceBytes / 32))) s
  (s, (List.range n).map (fun k => x.byte ((off + k) % sliceBytes)))

/-- Writes a slice with fresh check bytes; an offset wraps at 6 MiB (R279). -/
def State.sliceWrite (s : State) (l : SliceIdx) (off : Nat) (data : List Byte) : State :=
  let o := off % sliceBytes
  let x := ((s.lagoon l).put o (data.take (sliceBytes - o))).put 0 (data.drop (sliceBytes - o))
  (s.setLagoon l x).injActed (s.lagoon l).inj x.inj

/-- Zero-fills a slice, check bytes included; an injection acts on its first word (R280, R408). -/
def Lagoon.zeroFill (l : Lagoon) : Lagoon :=
  match l.inj with
  | some two => { l with mem := [], junk := none, errs := marksInject [] 0 two, inj := none, lines := [] }
  | none => { l with mem := [], junk := none, errs := [], lines := [] }

/-- The line of a slice that a miss takes: a free one, else the least recently used (R281). -/
def Lagoon.victim (l : Lagoon) : Nat :=
  if l.lines.length < 384 then
    ((List.range 384).find? (fun i => l.lines.all (fun e => e.2.2 != i))).getD 0
  else (l.lines.getLast?.map (·.2.2)).getD 0

/-- Moves a present unit to the front. -/
def Lagoon.touch (l : Lagoon) (c u : Nat) : Option (Nat × Lagoon) :=
  (l.lines.find? (fun e => e.1 == c && e.2.1 == u)).map (fun e =>
    (e.2.2, { l with lines := e :: l.lines.filter (· != e), hits := satInc32 l.hits }))

/-- Brings one unit of a channel into its CACHE slice (or finds it) and answers its line. -/
def State.cacheLine (s : State) (a k : Nat) : State × SliceIdx × Nat :=
  let p := devByte s.big512 a k
  let sl := cacheSlice p.1.val
  let u := p.2 / 16384
  match (s.lagoon sl).touch p.1.val u with
  | some r => (s.setLagoon sl r.2, sl, r.1)
  | none =>
    let unit := 2 ^ 39 + p.1.val * 2 ^ 33 + u * 16384
    let r := s.devRead .job unit 16384
    let l := r.1.lagoon sl
    let v := l.victim
    let l := { l with lines := ((p.1.val, u, v) :: l.lines.filter (fun e => e.2.2 != v)), misses := satInc32 l.misses }
    ((r.1.setLagoon sl l).sliceWrite sl (v * 16384) r.2.1, sl, v)

/-- Offsets within a range at which it enters a 16 KiB interleave unit. -/
def unitStarts (a n : Nat) : List Nat :=
  if n = 0 then []
  else (List.range ((a % 16384 + n + 16383) / 16384)).map (fun j => if j = 0 then 0 else 16384 * j - a % 16384)

/-- A mover's read from DEVICE: MODE 0 reads pass through a CACHE slice (R281). -/
def State.moverRead (s : State) (a n : Nat) : State × List Byte :=
  let row := devRow a
  let cached := !devMode1 a && ((s.lagoon (finOf 15 (2 * row.val))).mode == 2 || (s.lagoon (finOf 15 (2 * row.val + 1))).mode == 2)
  if !cached then let r := s.devRead .job a n; (r.1, r.2.1)
  else
    (unitStarts a n).foldl (fun (r : State × List Byte) k =>
      let len := min (16384 - (a + k) % 16384) (n - k)
      let p := devByte r.1.big512 a k
      if (r.1.lagoon (cacheSlice p.1.val)).mode == 2 then
        let c := r.1.cacheLine a k
        let d := c.1.sliceRead c.2.1 (c.2.2 * 16384 + p.2 % 16384) len
        (d.1, r.2 ++ d.2)
      else
        let d := r.1.devRead .job (devAdd r.1.big512 a k) len
        (d.1, r.2 ++ d.2.1)) (s, [])

/-! ## Host accesses (R272, R285, R338) -/

/-- The PCI Express endpoint answers: from ready on, unless the host block's own checker was the first fatal one (R405). -/
def State.busServes (s : State) : Bool :=
  (s.power == .ready || s.power == .running) && !(s.reef.fatal && s.reef.fchk == 0xE051)

/-- The function reaches the row's tap: a VF the rows it holds, the PF the unowned ones. -/
def State.reaches (s : State) (f : Fn) (y : RowIdx) : Bool :=
  if f == Fn.pf then (s.rows[y]).code == 8 else s.holds f y

/-- A row some channel of which failed training carries no traffic (R422). -/
def State.rowDead (s : State) (y : RowIdx) : Bool := s.boot.trainFail.toNat.testBit y.val

def execHostDramRead (fn : Fn) (addr : BitVec 40) (len : Nat) (s : State) : Host.Outcome State Fault Refusal :=
  .next <|
    let a := addr.toNat
    if !s.busServes then s
    else if !s.reaches fn (devRow a) then (s.clamp8 fn 1).emit (.completion fn (List.replicate len 0) false)
    else if s.rowDead (devRow a) then s
    else
      let r := s.devRead .host a len
      r.1.emit (.completion fn r.2.1 r.2.2)

def execHostDramWrite (fn : Fn) (addr : BitVec 40) (data : List Byte) (s : State) : Host.Outcome State Fault Refusal :=
  .next <|
    let a := addr.toNat
    if !s.busServes then s
    else if !s.reaches fn (devRow a) then s.clamp8 fn 1
    else if s.rowDead (devRow a) then s
    else s.hostWrite fn a data

/-- A host read that waited 1 ms ends with Completer Abort (R285). -/
def execHostReadExpired (fn : Fn) (chan : ChanIdx) (waited : Nat) (s : State) : Host.Outcome State Fault Refusal :=
  .next <|
    if !s.busServes || waited < 150000 then s
    else
      let d := s.dram (ctrlOf chan.val)
      let longer := decide (d.maxwait.toNat < waited)
      let d := { d with
        expired := satInc32 d.expired
        maxwait := if longer then satAdd 0 waited else d.maxwait
        rank := if longer then 1 else d.rank }
      (s.setDram (ctrlOf chan.val) d).emit (.completerAbort fn)

/-! ## Hot rows (R276) and refresh (R275, R424) -/

/-- A DRAM of a package asks for more than twice the base rate. The row becomes hot, before the origin too; the
controllers watch from the end of DRAM training. -/
def execDramHot (package : Fin 16) (s : State) : Host.Outcome State Fault Refusal :=
  .next <|
    if !(s.reefSees || (s.beforeOrigin && s.boot.dram)) then s
    else
      let y : RowIdx := finOf 7 (package.val / 2)
      let s := s.setDram package { s.dram package with tooHot := true }
      let s := { s with hot := vset s.hot y true, cleanSince := vset s.cleanSince y s.now }
      s.contained (Report.of (0xA000 + package.val))

/-- The DRAMs of a hot row have asked for at most twice the base rate for 15,000,000 cycles without a break. -/
def execDramHotClear (row : RowIdx) (s : State) : Host.Outcome State Fault Refusal :=
  .next <|
    if s.power == .running && s.hot[row] && decide (s.cleanSince[row] + 15000000 ≤ s.now) then
      { s with
        hot := vset s.hot row false
        drams := vmodAll s.drams (fun p => p.val / 2 == row.val) (fun _ d => { d with tooHot := false }) }
    else s

/-- All-bank refresh commands of one slot: two while more than twice the base rate is asked for or the row is hot; else one,
and a second when the temperature register asks for it, which is open (R275, R276). -/
def State.refreshCount (s : State) (d : Fin 16) : Nat × State :=
  if (s.dram d).tooHot || s.hot[(finOf 7 (d.val / 2) : RowIdx)] then (2, s)
  else let r := s.openNat; (1 + r.1 % 2, r.2)

/-- A refresh slot of a channel begins at 585 k + 36 (c mod 16) (R275). -/
def execRefreshSlot (chan : ChanIdx) (s : State) : Host.Outcome State Fault Refusal :=
  .next <|
    let at' := 36 * (chan.val % 16)
    if s.power == .running && decide (at' ≤ s.now) && (s.now - at') % 585 == 0 then
      let r := s.refreshCount (ctrlOf chan.val)
      r.2.setChan chan { r.2.chan chan with
        slots := (r.2.chan chan).slots + 1, refreshes := (r.2.chan chan).refreshes + r.1 }
    else s

/-- Before the origin a controller refreshes its four channels on its own timing (R424). -/
def execPreOriginRefresh (ctrl : Fin 16) (s : State) : Host.Outcome State Fault Refusal :=
  .next <|
    if s.beforeOrigin && s.boot.dram then
      let r := s.refreshCount ctrl
      { r.2 with chans := vmodAll r.2.chans (fun c => c.val / 4 == ctrl.val) (fun _ c =>
          { c with refreshes := c.refreshes + r.1 }) }
    else s

end Sys2Proof.Machine
end

