-- ==== Sys2Proof/Machine/Queues.lean ====
section
/-! DEFINITION. Queue pairs: configuration and doorbells (R339 to R341), command fetch (R342 to R345), HELLO and versions
(R6, R9, R352) and packets that do nothing (R347). -/

namespace Sys2Proof.Machine

/-! ## Which registers a function reaches -/

/-- A register write is served: after a fatal fault only the REEF_ and EVR_ blocks take writes (R405). -/
def State.takesWrite (s : State) : Bool := s.busServes && !s.reef.fatal

/-- Each VF has queue pairs 0–7 and the PF has queue pair 0 (R339). -/
def hasQueue (f : Fn) (q : Fin 8) : Bool := f != Fn.pf || q == 0

/-- A value clamped to [lo, hi], and 1 when it moved (R348). -/
def clampNat (lo hi n : Nat) : Nat × Nat := if n < lo then (lo, 1) else if hi < n then (hi, 1) else (n, 0)

/-- The device runs in H1-compatible mode, with the behaviour of Table SC-3 (R6, R8). -/
def State.h1Mode (s : State) : Bool := s.boot.genCompat || s.compat

/-! ## Configuration and doorbells -/

/-- EN goes from 0 to 1: SQHEAD, CQTAIL, the phase and VERSION are reset and ERR ends (R339, R343). -/
def Queue.enable (x : Queue) (h1 : Bool) : Queue :=
  { x with
    en := true, sqHead := 0, cqTail := 0, phase := true, version := 0, err := false, stall := false, compatAtEn := h1 }

/-- HBR_QCFG. While EN is 1 only EN changes, and a write that would change more counts (R339). -/
def execHbrQcfgWrite (fn : Fn) (q : Fin 8) (v : Word) (s : State) : Host.Outcome State Fault Refusal :=
  .next <|
    if !s.takesWrite then s
    else if !hasQueue fn q then s.clamp8 fn 1
    else
      let x := s.queue fn q
      let n := v.toNat
      let en := v.getLsbD 31
      let sq := clampNat 1 12 (field n 24 4)
      let cq := clampNat 1 12 (field n 20 4)
      let ve := clampNat 0 (if fn == Fn.pf then 31 else 27) (field n 8 8)
      if x.en then
        let same := field n 24 4 == x.sqlog.toNat && field n 20 4 == x.cqlog.toNat && field n 8 8 == x.vector.toNat
        (s.setQueue fn q { x with en := en }).clamp8 fn (b2n !same)
      else
        let y := { x with
          sqlog := BitVec.ofNat 4 sq.1, cqlog := BitVec.ofNat 4 cq.1, vector := BitVec.ofNat 8 ve.1 }
        let y := if en then y.enable s.h1Mode else y
        (s.setQueue fn q y).clamp8 fn (sq.2 + cq.2 + ve.2)

/-- HBR_SQDB: TAIL, clamped to the queue size minus 1 (R341). Between ready and the origin it is kept (R423), and after a fatal
fault the PF still queues LOG_READ and QUERY_HEALTH with it (R405, Table FL-3). -/
def execSqDoorbell (fn : Fn) (q : Fin 8) (v : Word) (s : State) : Host.Outcome State Fault Refusal :=
  .next <|
    if !s.busServes then s
    else if !hasQueue fn q then s.clamp8 fn 1
    else
      let c := clampNat 0 ((s.queue fn q).sqSize - 1) (field v.toNat 0 12)
      (s.modQueue fn q (fun x => { x with sqTail := c.1 })).clamp8 fn c.2

/-- HBR_CQDB: HEAD, clamped to the queue size minus 1 (R341). -/
def execCqDoorbell (fn : Fn) (q : Fin 8) (v : Word) (s : State) : Host.Outcome State Fault Refusal :=
  .next <|
    if !s.busServes then s
    else if !hasQueue fn q then s.clamp8 fn 1
    else
      let c := clampNat 0 ((s.queue fn q).cqSize - 1) (field v.toNat 0 12)
      (s.modQueue fn q (fun x => { x with cqHead := c.1 })).clamp8 fn c.2

/-- HBR_CTRL.COMPAT, ignored while GEN_COMPAT is strapped high; it takes effect at the next HELLO of each queue (R6, R7). -/
def execHbrCtrlWrite (v : Word) (s : State) : Host.Outcome State Fault Refusal :=
  .next <| if s.takesWrite && !s.boot.genCompat then { s with compat := v.getLsbD 0 } else s

/-! ## Fetch -/

/-- Service order: PF, then VF 0–7, each by queue number (R342). -/
def serveRank (f : Fn) (q : Fin 8) : Nat := (if f == Fn.pf then 0 else f.val + 1) * 8 + q.val

/-- Entries of 48 bytes: version 1, or before the first HELLO when COMPAT was in force as EN was set (R340). -/
def Queue.short (x : Queue) : Bool := x.version == 1 || (x.version == 0 && x.compatAtEn)

/-- Bytes of a command entry, and where entry `i` lies in host memory: BASE + i · stride (R340). -/
def Queue.stride (x : Queue) : Nat := if x.short then 48 else 64
def Queue.entryAddr (x : Queue) (i : Nat) : DWord := x.sqBase + BitVec.ofNat 64 (x.stride * i)

/-- Completion replies a queue still owes (R343). -/
def State.owes (s : State) (f : Fn) (q : Fin 8) : Nat :=
  s.jobs.countP (fun j => j.fn == f && j.q == q) + (s.fnOf f).deferred.countP (fun d => d.q == q)

/-- Free entries of a status queue; one stays empty so that HEAD and TAIL tell full from empty. -/
def Queue.room (x : Queue) : Nat := x.cqSize - 1 - (x.cqTail + x.cqSize - x.cqHead) % x.cqSize

/-- A queue with an entry to fetch, for which nothing but room can be missing. -/
def State.wantsFetch (s : State) (f : Fn) (q : Fin 8) : Bool :=
  let x := s.queue f q
  x.en && !x.err && x.sqHead != x.sqTail && !(s.fnOf f).d3hot

def State.hasRoom (s : State) (f : Fn) (q : Fin 8) : Bool := decide (1 + s.owes f q ≤ (s.queue f q).room)

/-- No queue that comes earlier after the one last served could be fetched from instead (R342). -/
def State.isNext (s : State) (f : Fn) (q : Fin 8) : Bool :=
  let dist := fun (f : Fn) (q : Fin 8) => (serveRank f q + 71 - s.lastServed) % 72
  (List.finRange 9).all (fun g => (List.finRange 8).all (fun r =>
    !(decide (dist g r < dist f q) && hasQueue g r && s.wantsFetch g r && s.hasRoom g r)))

/-- Fetching goes on at all: the origin has come, a holder serves, the PF is in D0 (R357, R423, R431, R449),
and the host block has resumed after it (R449, R450). -/
def State.fetching (s : State) : Bool :=
  s.running && s.hasHolder && !(s.fnOf Fn.pf).d3hot && decide (s.gates.resumeAt ≤ s.now)

/-- A command entry as a packet (Table HC-5); under a 48-byte stride the extension reads 0 (R345). -/
def packetOf (f : Fn) (q : Fin 8) (idx : Nat) (short : Bool) (l : List Byte) : Packet :=
  { fn := f, q := q, idx := idx, version := BitVec.ofNat 4 (leAt l 0 1 / 16), noirq := bitAt (leAt l 1 1) 0,
    fence := bitAt (leAt l 1 1) 1, arm := bitAt (leAt l 1 1) 2, opcode := BitVec.ofNat 16 (leAt l 2 2),
    cid := BitVec.ofNat 16 (leAt l 4 2), jobid := BitVec.ofNat 64 (leAt l 8 8), body := BitVec.ofNat 256 (leAt l 16 32),
    ext := if short then 0 else BitVec.ofNat 128 (leAt l 48 16) }

/-- The next entry of a queue goes to the authority holder, in round robin and with room for its replies; without room the
queue stalls (R342, R343). -/
def execCommandFetch (fn : Fn) (q : Fin 8) (entry : List Byte) (s : State) : Host.Outcome State Fault Refusal :=
  .next <|
    let x := s.queue fn q
    if !(s.fetching && hasQueue fn q && s.wantsFetch fn q) then s
    else if !s.hasRoom fn q then s.setQueue fn q { x with stall := true }
    else if !s.isNext fn q then s
    else
      let p := packetOf fn q x.sqHead x.short entry
      let s := s.emit (.fetch fn (x.entryAddr x.sqHead) x.stride)
      let s := s.setQueue fn q { x with sqHead := (x.sqHead + 1) % x.sqSize, stall := false }
      { s with fetched := s.fetched ++ [p], lastServed := serveRank fn q }

/-- A fetch that ends with an error: the packet is not interpreted, ERR is set and nothing more is fetched (R343). -/
def execFetchError (fn : Fn) (q : Fin 8) (s : State) : Host.Outcome State Fault Refusal :=
  .next <|
    if s.fetching && hasQueue fn q && s.wantsFetch fn q && s.hasRoom fn q then
      s.modQueue fn q (fun x => { x with err := true })
    else s

/-! ## HELLO and packets that do nothing -/

/-- D of R352. -/
def State.highVersion (s : State) : Nat := if s.h1Mode then 1 else 2

/-- HELLO: the lower of the offered and the device's version; a changed stride resets SQHEAD (R340, R352). -/
def execHello (p : Packet) (s : State) : Host.Outcome State Fault Refusal :=
  .next <|
    if !s.canInterpret p || p.opcode != 0x0001 then s
    else
      let s := s.takePacket p
      if s.reef.fatal then s.refuse p 0xFE
      else
        let offer := clampNat 1 15 p.version.toNat
        let v := min offer.1 s.highVersion
        let x := s.queue p.fn p.q
        let y := { x with version := BitVec.ofNat 4 v }
        let y := if y.short == x.short then y else { y with sqHead := 0 }
        let s := (s.setQueue p.fn p.q y).clampQ p.fn p.q offer.2
        s.answer p { Answer.of stOk 0 with result0 := v + 16 * s.highVersion, result1 := s.topo.toNat }

/-- A packet whose opcode Table HC-6 lists for its function. -/
def opcodeOk (f : Fn) (op : Nat) : Bool :=
  if f == Fn.pf then [0x01, 0x40, 0x50, 0x60, 0x61, 0x70, 0x80, 0x90].contains op
  else [0x01, 0x10, 0x11, 0x12, 0x20, 0x21, 0x22, 0x30, 0x31, 0x40, 0x90].contains op

/-- An unknown opcode, a function not allowed to issue it, or a packet before HELLO: nothing happens and the reply carries
ADMISSION_REFUSED with DETAIL 0xFF (R347). -/
def execInvalidOpcode (p : Packet) (s : State) : Host.Outcome State Fault Refusal :=
  .next <|
    let known := opcodeOk p.fn p.opcode.toNat && (p.opcode == 1 || (s.queue p.fn p.q).version != 0)
    if !s.canInterpret p || known then s
    else
      let s := s.takePacket p
      s.refuse p (if s.reef.fatal then 0xFE else 0xFF)

end Sys2Proof.Machine
end

