-- ==== Sys2Proof/Machine/Admission.lean ====
section
/-! DEFINITION. What every load and submission asks of the timeline: protected tentative placements (R376, R378), the jobs
that count as admitted (R47, R353), the placement of a job (R371), and the checks of a submission (R356). -/

namespace Sys2Proof.Machine

/-! ## Protected placements (R376, R378) -/

/-- The job of a published entry while it waits in its arm queue. -/
def State.entryJob (s : State) (e : AdmEntry) : Option Job :=
  s.jobs.find? (fun j => j.id == e.job && j.phase == .armed && j.ending.isNone)

/-- The tentative occupancy of an entry with OK 1: from its preparation start to C_p. It stands for its 32 cycles whatever becomes of
the job (R376). -/
def AdmEntry.occ (e : AdmEntry) : Option Occ :=
  if e.ok then
    some { id := 0, rows := e.rows, start := e.start - e.prep, len := e.cp + 1 + e.prep - e.start, kind := .tentative e.cls }
  else none

/-- Entries still protected: 32 management cycles from their publication (R376). -/
def State.protectedEntries (s : State) : List AdmEntry :=
  (s.adm.past.filter (fun g => decide (s.now ≤ g.1 + 32))).flatMap (·.2)

/-- Their occupancies, without those of class `skip`. -/
def State.tentatives (s : State) (skip : Option Nat) : List Occ :=
  (s.protectedEntries.filter (fun e => skip != some e.cls)).filterMap AdmEntry.occ

/-- The timeline as every command of the holder sees it (R378). -/
def State.timeline (s : State) : List Occ := s.occs ++ s.tentatives none

/-- Admitted, unfinished jobs, and the armed ones for which a protected placement stands (R47, R353, R378, R42 check 10). -/
def State.engaged (s : State) : List Job :=
  let ids := (s.protectedEntries.filter (·.ok)).map (·.job)
  s.jobs.filter (fun j => j.ending.isNone && (j.phase != .armed || ids.contains j.id))

/-- The run is wholly held by f, no SET_OWNER on it pending (R30, R435). -/
def State.holdsRun (s : State) (f : Fn) (rows : BitVec 8) : Bool := (rowsOf rows).all (s.holdsForAdmission f)

/-! ## Placement -/

/-- (S, C_p, p) of R371 for an image admitted in cycle c0; none when T would exceed 268,435,454 µs. -/
def State.place (s : State) (occs : List Occ) (m : Image) (c0 : Nat) (adm : Bool) : Option (Nat × Nat × Nat) :=
  let p := s.prepOf m adm
  let S := placeJob occs m.run c0 p m.J m.hdr.featStrait
  let cp := S + m.J - 1
  if promiseOf cp c0 ≤ maxPromise then some (S, cp, p) else none

/-- RESULT0 of an ACCEPTED reply and ADM_LAST.GRID (R380). -/
def gridIndex (m : Image) (S : Nat) : Word := if m.hdr.featStrait then BitVec.ofNat 32 (S / 131072) else 0xFFFFFFFF

/-! ## The checks of a submission (R356) -/

/-- The key-set tag that a function's image names (R46, R79). -/
def State.tagOf (s : State) (f : Fn) (m : Image) : Option Word :=
  match m.sections.keySerial, vfOf f with
  | some k, some v => some (BitVec.ofNat 32 (((s.ownerNo[v]).elim 0 (·.toNat)) * 65536 + k.toNat))
  | _, _ => none

/-- R220, beside the seal: version, H1 limits and rows held. -/
def State.imageFits (s : State) (f : Fn) (m : Image) (ver : BitVec 4) : Bool :=
  decide (m.hdr.version.toNat ≤ ver.toNat) &&
  (ver != 1 || (decide (m.hdr.loopDepth ≤ 4) && decide (m.hdr.agLevels ≤ 4) && decide (m.hdr.storeUse ≤ 0x200000) &&
    !m.hdr.featBit)) &&
  decide (m.hdr.rows ≤ ((List.finRange 8).filter (s.holds f)).length)

/-- R44: every index the image uses holds the record it was compiled against, bound to f. -/
def State.psetsFit (s : State) (f : Fn) (m : Image) : Bool :=
  m.sections.fingerprints.all (fun e => (s.psets[e.1]).any (fun p => p.fn == f && p.fp == e.2))

/-- R151: on a queue of version 1 no index of the image may hold a prime at or above 2^30. -/
def State.primesFit (s : State) (m : Image) (ver : BitVec 4) : Bool :=
  ver != 1 || m.sections.fingerprints.all (fun e => (s.psets[e.1]).all (fun p => p.primes.all (fun x => decide (x < 2 ^ 30))))

/-- R79, R87, R88: the key set is loaded, holds every record the image lists (ROT(1), a copy, needs none: R78), its holding run lies in the image's run, and
a ring's share count is the ring size. -/
def State.keysFit (s : State) (f : Fn) (m : Image) : Bool :=
  match s.tagOf f m with
  | none => m.sections.keyKinds.isEmpty
  | some t =>
    match s.keysets.find? (fun k => k.tag == t && k.fn == f) with
    | none => false
    | some k =>
      m.sections.keyKinds.all (fun e => (e.1 == 2 && e.2 == 1) ||
        k.records.any (fun r => r.kind == e.1 && (e.1 != 2 || r.galois == e.2))) &&
      (rowsOf (rowMask k.firstRow.val k.nrows)).all (inRows m.run) &&
      (!(m.sections.strait.any (fun p => p.groups.any (fun g => g.2.contains 1))) || k.mTotal == m.hdr.ringSize)

/-- Page 0 of the image is present in a bank of every Isle of the run (R214). -/
def Isle.hasPage0 (is : Isle) (m : Image) : Bool :=
  let ok := fun (b : ImBank) => b.valid && b.fn == m.fn && b.image == m.handle && b.page == 0
  ok is.sk.bank0 || ok is.sk.bank1

def State.pagesFit (s : State) (m : Image) : Bool := m.isles.all (fun i => (s.isle i).hasPage0 m)

/-- The plan uses the port (R100). -/
def planUses (p : StraitPlan) (y : RowIdx) : Bool :=
  (p.classes y).any (· != 0) || p.topo.any (fun t => t.port == y)

/-- The members of an image's ring: the first RINGSIZE of the list (DESIGN CHOICE, notes/assumptions/29.md). -/
def ringOf (m : Image) (members : List (BitVec 20)) : List (BitVec 20) := members.take m.hdr.ringSize

/-- Rank of a device identifier among the members, ascending (R98). -/
def rankOf (members : List (BitVec 20)) (me : BitVec 20) : Nat := members.countP (fun x => x.toNat < me.toNat)

/-- The member of a ring of that rank. -/
def ofRank (members : List (BitVec 20)) (k : Nat) : Option (BitVec 20) := members.find? (fun x => rankOf members x == k)

/-- The next lower-ranked member of a ring, from rank 0 to rank M − 1; none for a module outside it (R302). -/
def ringPrev (members : List (BitVec 20)) (me : BitVec 20) : Option (BitVec 20) :=
  if members.contains me then ofRank members ((rankOf members me + members.length - 1) % max members.length 1) else none

/-- The receive peer that a topology names (R302). -/
def topoPeer (m : Image) (members : List (BitVec 20)) (me : BitVec 20) (t : TopoDecl) : Option (BitVec 20) :=
  if t.ring then ringPrev (ringOf m members) me else members[t.peer]?

/-- R302: every port the plan uses is UP, DUPID clear, and receives from the module its topology names. -/
def State.portsFit (s : State) (m : Image) (members : List (BitVec 20)) : Bool :=
  match m.sections.strait with
  | none => true
  | some p =>
    !m.hdr.featStrait || (rowsOf m.run).all (fun y =>
      !planUses p y || ((s.port y).up && !(s.port y).dupid &&
        p.topo.all (fun t => t.port != y || topoPeer m members s.devid t == some (s.port y).rxpeer)))

/-- A refusal: status and DETAIL. -/
abbrev Refused := BitVec 16 × Nat

/-- The checks of R356 in order; `self` is the job itself when an armed one is judged again. -/
def State.refusal (s : State) (f : Fn) (m : Option Image) (ver : BitVec 4) (slot : Fin 64) (jobid : DWord)
    (rcfg members : DWord) (list : List (BitVec 20)) (self : Option Nat) : Option Refused :=
  match m with
  | none => some (stVerifier, 0)
  | some m =>
    if !m.valid || !s.imageFits f m ver then some (stVerifier, 0)
    else if !s.psetsFit f m then some (stParamset, 0)
    else if !s.primesFit m ver then some (stParamset, 4)
    else if (self.isNone && (s.slotOf f slot).st != .free) ||
        s.jobs.any (fun j => j.fn == f && j.jobid == jobid && self != some j.id) ||
        !s.holdsRun f m.run || !s.keysFit f m || !s.pagesFit m || !s.portsFit m list ||
        (m.sections.strait.any (fun p => !p.reductions.isEmpty) && rcfg == 0) ||
        (m.sections.strait.any (fun p => !p.topo.isEmpty) && members == 0) then some (stRefused, 0)
    else none

/-- A row of the run already holds 16 admitted, unfinished jobs, those with a protected placement among them (R372, R378), and those
that `more` names; `self` is not counted. -/
def State.rowsFull (s : State) (m : Image) (more : List Nat) (self : Option Nat) : Bool :=
  let ids := ((s.protectedEntries.filter (·.ok)).map (·.job)) ++ more
  (rowsOf m.run).any (fun y => decide (16 ≤ (s.jobs.filter (fun j =>
    j.ending.isNone && (j.phase != .armed || ids.contains j.id) && self != some j.id && inRows j.run y)).length))

/-- DETAIL of a refusal that only an admission meets, not an arming: 16 jobs on a row (R372), an Isle that failed its
self-test (R440), a hot row (R276). -/
def State.timelyRefusal (s : State) (m : Image) (more : List Nat) (self : Option Nat) : Option Nat :=
  if s.rowsFull m more self then some 7
  else if m.isles.any (fun i => s.bstFail.getLsbD i.val) then some 11
  else if (rowsOf m.run).any (fun y => s.hot[y]) then some 13
  else none

end Sys2Proof.Machine
end

