-- ==== Sys2Proof/Machine/Layout.lean ====
section
/-! DEFINITION. Layouts and the in-flight transformations of the data mover: blocked layouts (R254), transpose (R255),
window expansion (R256), Galois permutation and digit reversal (R39, R257). -/

namespace Sys2Proof.Machine

/-- Byte runs: (offset, bytes). -/
abbrev Runs := List (Nat × List Byte)

/-- Joins runs that follow one another. -/
def coalesce (l : Runs) : Runs :=
  l.foldr (fun r acc => match acc with
    | [] => [r]
    | h :: t => if r.1 + r.2.length = h.1 then (r.1, r.2 ++ h.2) :: t else r :: acc) []

/-! ## Layout words (R254) -/

def lwCols (lw : Nat) : Nat := field lw 8 24
def lwBlocked (lw : Nat) : Bool := bitAt lw 7
def lwSC (lw : Nat) : Nat := 2 ^ field lw 2 2
def lwSR (lw : Nat) : Nat := 2 ^ field lw 0 2

/-- Element bytes of ESIZE. -/
def esizeOf (e : BitVec 2) : Nat := if e = 0 then 1 else if e = 1 then 2 else 4

def tileRows (e : Nat) : Nat := if e = 4 then 64 else 128
def tileCols (e : Nat) : Nat := if e = 1 then 128 else 64

/-- CT: tile columns, padded to whole super-tiles. -/
def lwTiles (e lw : Nat) : Nat := ceilDiv (lwCols lw) (tileCols e * lwSC lw) * lwSC lw

/-- Byte offset of element (r, c). -/
def elemOffset (e lw r c : Nat) : Nat :=
  if lwBlocked lw then
    let tr := tileRows e
    let tc := tileCols e
    let sr := r / (tr * lwSR lw)
    let sc := c / (tc * lwSC lw)
    let ti := r / tr % lwSR lw
    let tj := c / tc % lwSC lw
    (((sr * (lwTiles e lw / lwSC lw) + sc) * lwSR lw + ti) * lwSC lw + tj) * 16384 + (r % tr * tc + c % tc) * e
  else (r * lwCols lw + c) * e

/-- Byte offset of element k in row-major order of a range with layout word `lw`; 0 names a plain byte range. -/
def rangeOffset (e lw k : Nat) : Nat :=
  if lw = 0 then k * e else elemOffset e lw (k / lwCols lw) (k % lwCols lw)

/-- Rows padded up to whole super-tiles. -/
def padRows (e lw rows : Nat) : Nat := ceilDiv rows (tileRows e * lwSR lw) * (tileRows e * lwSR lw)

/-- Bytes that a range of `rows` rows and `n` elements spans. -/
def extent (e lw rows n : Nat) : Nat :=
  if lw != 0 && lwBlocked lw then padRows e lw rows / tileRows e * lwTiles e lw * 16384 else n * e

/-- Rows of a range of n elements. -/
def rowsIn (lw n : Nat) : Nat := ceilDiv n (max (lwCols lw) 1)

/-- The pad elements of a blocked destination, written as zero under ZPAD. -/
def padRuns (e lw rows : Nat) : Runs :=
  if lw = 0 || !lwBlocked lw then []
  else (List.range (padRows e lw rows)).flatMap (fun r =>
    (List.range (lwTiles e lw * tileCols e)).filterMap (fun c =>
      if r < rows && c < lwCols lw then none else some (elemOffset e lw r c, List.replicate e 0)))

def padIf (z : Bool) (e lw rows : Nat) : Runs := if z then padRuns e lw rows else []

/-- COPY between layouts: element k of the source becomes element k of the destination. -/
def copyRuns (e slay dlay : Nat) (zpad : Bool) (n : Nat) (src : List Byte) : Runs :=
  if slay = 0 && dlay = 0 then [(0, src)]
  else coalesce ((List.range n).map (fun k => (rangeOffset e dlay k, slice src (rangeOffset e slay k) e)) ++
    padIf zpad e dlay (rowsIn dlay n))

/-- TRANSPOSE: element (r, c) of a source of `rows` × `cols` becomes element (c, r) (R255). A plain range has rows as long as
the matrix. -/
def transposeRuns (e slay dlay : Nat) (zpad : Bool) (rows cols : Nat) (src : List Byte) : Runs :=
  let so := fun r c => if slay = 0 then (r * cols + c) * e else elemOffset e slay r c
  let do' := fun r c => if dlay = 0 then (r * rows + c) * e else elemOffset e dlay r c
  coalesce ((List.range cols).flatMap (fun r => (List.range rows).map (fun c => (do' r c, slice src (so c r) e))) ++
    padIf zpad e dlay cols)

/-- The parameters of WINDOWX (Table DM-4). -/
structure WindowParams where
  wIn : Nat
  hIn : Nat
  c : Nat
  kh : Nat
  kw : Nat
  sh : Nat
  sw : Nat
  pad : Nat
  dlay : Nat
  deriving DecidableEq, Repr

def windowOf (p : Nat) : WindowParams :=
  { wIn := field p 0 16, hIn := field p 16 16, c := field p 32 12, kh := field p 44 4 + 1, kw := field p 48 4 + 1,
    sh := field p 52 3 + 1, sw := field p 55 3 + 1, pad := field p 58 3, dlay := field p 64 32 }

/-- Output extent of one axis; none when the window does not fit. -/
def windowOut (inp k st pad : Nat) : Nat := if inp + 2 * pad < k then 0 else (inp + 2 * pad - k) / st + 1

/-- Row (oy, ox) of the expansion: KH · KW segments of C bytes (R256). -/
def windowRow (w : WindowParams) (src : List Byte) (oy ox : Nat) : List Byte :=
  (List.range (w.kh * w.kw)).flatMap (fun q =>
    let y := oy * w.sh + q / w.kw
    let x := ox * w.sw + q % w.kw
    if w.pad ≤ y ∧ y < w.hIn + w.pad ∧ w.pad ≤ x ∧ x < w.wIn + w.pad then
      slice src (((y - w.pad) * w.wIn + (x - w.pad)) * w.c) w.c
    else List.replicate w.c 0)

/-- WINDOWX: each row zero-filled to COLS · e bytes and written in the layout of DLAY. -/
def windowRuns (e : Nat) (zpad : Bool) (w : WindowParams) (src : List Byte) : Runs :=
  let wo := windowOut w.wIn w.kw w.sw w.pad
  let ho := windowOut w.hIn w.kh w.sh w.pad
  let len := if w.dlay = 0 then w.kh * w.kw * w.c else lwCols w.dlay * e
  coalesce ((List.range (ho * wo)).flatMap (fun r =>
    let row := (windowRow w src (r / wo) (r % wo))
    let row := (row ++ List.replicate (len - row.length) 0).take len
    if w.dlay = 0 then [(r * len, row)]
    else (List.range (lwCols w.dlay)).map (fun c => (elemOffset e w.dlay r c, slice row (c * e) e))) ++
    padIf zpad e w.dlay (ho * wo))

/-! ## Index maps (R39, R257) -/

def revDigits : Nat → Nat → Nat → Nat
  | 0, _, acc => acc
  | m + 1, n, acc => revDigits m (n / 16) (acc * 16 + n % 16)

/-- ρ of R39 for N = 2^logn. -/
def rho (logn k : Nat) : Nat :=
  let m := logn / 4
  let e := logn % 4
  revDigits m (k / 2 ^ e) 0 + 16 ^ m * (k % 2 ^ e)

/-- The inverse of ρ. -/
def rhoInv (logn v : Nat) : Nat :=
  let m := logn / 4
  let e := logn % 4
  v / 16 ^ m + 2 ^ e * revDigits m (v % 16 ^ m) 0

/-- The input index k′ of output index k under the Galois element g (R77, R257). -/
def galoisIndex (logn g k : Nat) : Nat := rhoInv logn (((g * (2 * rho logn k + 1)) % 2 ^ (logn + 1) - 1) / 2)

/-- One limb of N words with its indices mapped: output word k is input word f k. -/
def permuteLimb (n : Nat) (f : Nat → Nat) (limb : List Byte) : List Byte :=
  (List.range n).flatMap (fun k => slice limb (4 * f k) 4)

/-- AUTOMORPH of one limb. -/
def automorphLimb (logn g : Nat) (limb : List Byte) : List Byte := permuteLimb (2 ^ logn) (galoisIndex logn g) limb

/-- REVERSE of one limb: DIR = 0 writes index ρ(k) from k, DIR = 1 writes k from ρ(k). -/
def reverseLimb (logn : Nat) (dir : Bool) (limb : List Byte) : List Byte :=
  permuteLimb (2 ^ logn) (if dir then rho logn else rhoInv logn) limb

end Sys2Proof.Machine
end

