-- ==== Sys2Proof/Machine/Flags.lean ====
section
/-! DEFINITION. The flags the engines compute: ISL_VESTAT (R177), ISL_MESTAT (R149) and STO_BSSTAT (R234). All are sticky
and diagnostic; a result only ever sets them. -/

namespace Sys2Proof.Machine

/-- What a computation adds to the sticky flags. -/
structure FlagSet where
  sat : Bool
  ovf : Bool
  nan : Bool
  deriving DecidableEq, Repr

def FlagSet.none : FlagSet := ⟨false, false, false⟩
def FlagSet.or (a b : FlagSet) : FlagSet := ⟨a.sat || b.sat, a.ovf || b.ovf, a.nan || b.nan⟩
/-- The flags of a rounded float result (R134, R176). -/
def FRes.flags (r : FRes) : FlagSet := ⟨false, r.ovf, r.nan⟩

/-- Sets ISL_VESTAT flags (R177). -/
def Isle.veFlags (is : Isle) (f : FlagSet) : Isle :=
  { is with ve := { is.ve with sat := is.ve.sat || f.sat, ovf := is.ve.ovf || f.ovf, nan := is.ve.nan || f.nan } }

/-- Sets ISL_MESTAT flags (R149). -/
def Isle.meFlags (is : Isle) (f : FlagSet) : Isle :=
  { is with me := { is.me with sat := is.me.sat || f.sat, ovf := is.me.ovf || f.ovf, nan := is.me.nan || f.nan } }

/-- Sets STO_BSSTAT.NAN and OVF (R234). -/
def Isle.bsFlags (is : Isle) (f : FlagSet) : Isle :=
  { is with sto := { is.sto with ovf := is.sto.ovf || f.ovf, nan := is.sto.nan || f.nan } }

/-! ## Writes that land later -/

/-- Carries out a write that lands. -/
def Isle.landOp (is : Isle) (op : LandOp) (g : FlagSet) : Isle :=
  match op with
  | .vreg r v => (is.setV r v).veFlags g
  | .primes v => { is with ve := { is.ve with primes := v } }
  | .sreg r v => (is.setReg r v).veFlags g
  | .store l => is.storeWrites l
  | .step a l => (is.storeWrite a l).bsFlags g
  | .vtst a l | .mtile a l => is.tileWrite a l
  | .sync y => is.syncDone y

/-- A write that lands at once (`lag` 0), or at the end of the `lag`-th Isle cycle from this one on. -/
def Isle.put (is : Isle) (lag : Nat) (op : LandOp) (g : FlagSet) : Isle :=
  if lag = 0 then is.landOp op g
  else { is with un := { is.un with
    flight := is.un.flight ++ [{ left := lag, op := op, sat := g.sat, ovf := g.ovf, nan := g.nan, seq := 0 }] } }

end Sys2Proof.Machine
end

