-- ==== Sys2Proof/Machine/Vector.lean ====
section
/-! DEFINITION. The vector engine: what each instruction of Table VS-1 writes (R174 to R176, R179, R182, R183), on captured
operands (R181, R203), with repetition (R201). -/

namespace Sys2Proof.Machine

/-! ## Which encodings execute -/

/-- The lane types each operation supports (Table VS-1, Table ISA-5); any other executes as a no-operation (R171). -/
def vecTypeOk (op : VOp) (ty : BitVec 3) : Bool :=
  let n := ty.toNat
  match op with
  | .vadd | .vsub | .vadds | .vsubs | .vmullo | .vmax | .vmin | .vand | .vor | .vxor | .vnot | .vshl | .vshr | .vsra
  | .vcmp | .vsel | .vbcast | .vslide | .vrsum | .vrmax | .vrmin | .vrmaxi | .vrcnt | .vmovs => n ≤ 2
  | .vprime | .vmadd | .vmsub | .vmneg | .vmmul | .vmred | .vmreds | .vmctr => n == 2
  | .vfadd | .vfsub | .vfmul | .vfma | .vfmax | .vfmin | .vfcmp | .vrfsum | .vrfmax | .vrfmin => 3 ≤ n && n ≤ 5
  | .vfdiv | .vfsqrt | .vgelu | .vsilu | .vtanh | .vexp => n == 3
  | .vperm => n == 0
  | .vcvt | .vld | .vst | .vtld | .vtst => n ≤ 5

/-- VCVT's fields, which overlay vb and vc: source format [33:30], part [35:34]; the destination is AUX (Table ISA-5). -/
def cvtSrc (f : VFields) : Nat := f.vc.val / 2
def cvtPart (f : VFields) : Nat := f.vb.val % 4
/-- VMOVS's lane index [38:31]. -/
def movsLane (f : VFields) : Nat := f.vb.val * 8 + f.vc.val / 4

/-- No reserved code or width: otherwise a no-operation of one Isle cycle, passed to no queue (R171, R190). -/
def vecOk (op : VOp) (f : VFields) : Bool :=
  vecTypeOk op f.ty && (op != .vcvt || (cvtSrc f ≤ 8 && f.aux.toNat ≤ 8))

/-! ## Lane results -/

def allOnes (w : Nat) (b : Bool) : Nat := if b then 2 ^ w - 1 else 0

/-- Integer lanes (R174). -/
def intLane (op : VOp) (w : Nat) (uns : Bool) (a b : Nat) : Nat × Bool :=
  let sa := signedOf w a
  let sb := signedOf w b
  match op with
  | .vadd => ((a + b) % 2 ^ w, false)
  | .vsub => ((a + 2 ^ w - b) % 2 ^ w, false)
  | .vadds => let r := satSigned w (sa + sb); (wrapOf w r.1, r.2)
  | .vsubs => let r := satSigned w (sa - sb); (wrapOf w r.1, r.2)
  | .vmullo => (a * b % 2 ^ w, false)
  | .vmax => (if (if uns then decide (a < b) else decide (sa < sb)) then b else a, false)
  | .vmin => (if (if uns then decide (b < a) else decide (sb < sa)) then b else a, false)
  | .vand => (a &&& b, false)
  | .vor => (a ||| b, false)
  | .vxor => (a ^^^ b, false)
  | .vnot => (2 ^ w - 1 - a, false)
  | .vshl => (a * 2 ^ (b % w) % 2 ^ w, false)
  | .vshr => (a / 2 ^ (b % w), false)
  | .vsra => (wrapOf w (sa / (2 ^ (b % w) : Nat)), false)
  | _ => (a, false)

/-- VCMP conditions EQ, NE, LT, LE (Table ISA-5). -/
def intCmp (cond w : Nat) (uns : Bool) (a b : Nat) : Bool :=
  let x : Int := if uns then a else signedOf w a
  let y : Int := if uns then b else signedOf w b
  match cond with
  | 0 => x = y
  | 1 => x ≠ y
  | 2 => x < y
  | _ => x ≤ y

/-- The prime a word names: bits [30:0] with bit 0 forced to 1 (R136, R175, R234). -/
def primeOf (w : Word) : Nat := (w.toNat % 2 ^ 31) ||| 1

/-- The centred value of x mod p as an int32 (R175). -/
def centred (p x : Nat) : Nat :=
  let r := x % p
  if r ≤ (p - 1) / 2 then r else wrapOf 32 ((r : Int) - p)

/-- Modular lanes (R175): every operand is read modulo p and the result lies in [0, p). -/
def modLane (op : VOp) (p a b : Nat) : Nat :=
  match op with
  | .vmadd => (a % p + b % p) % p
  | .vmsub => (a % p + (p - b % p)) % p
  | .vmneg => (p - a % p) % p
  | .vmmul => (a % p) * (b % p) % p
  | .vmred => a % p
  | .vmreds => (signedOf 32 a % (p : Int)).toNat
  | .vmctr => centred p a
  | _ => a

/-- Float lanes (R176). -/
def floatLane (op : VOp) (f : FFmt) (a b c : Nat) : FRes :=
  let x := FV.ofBits f a
  let y := FV.ofBits f b
  match op with
  | .vfadd => (x.add y).round f
  | .vfsub => (x.sub y).round f
  | .vfmul => (x.mul y).round f
  | .vfma => ((x.mul y).add (FV.ofBits f c)).round f
  | .vfmax => (FV.maxMin true x y).round f
  | .vfmin => (FV.maxMin false x y).round f
  | .vfdiv => (x.div y).round f
  | .vfsqrt => x.sqrt.round f
  | .vgelu => transf 0 (BitVec.ofNat 32 a)
  | .vsilu => transf 1 (BitVec.ofNat 32 a)
  | .vtanh => transf 2 (BitVec.ofNat 32 a)
  | .vexp => transf 3 (BitVec.ofNat 32 a)
  | _ => ⟨a, false, false⟩

/-- Width in bits of a VCVT format code. -/
def cvtWidth (c : Nat) : Nat := if c = 2 ∨ c = 6 ∨ c = 7 then 16 else if c = 3 ∨ c = 8 then 32 else 8

/-- The value a VCVT source element has. -/
def cvtValue (c x : Nat) : FV :=
  match c with
  | 0 => FV.ofInt (signedOf 8 x)
  | 1 => FV.ofInt x
  | 2 => FV.ofInt (signedOf 16 x)
  | 3 => FV.ofInt (signedOf 32 x)
  | 4 => FV.ofBits e4m3 x
  | 5 => FV.ofBits e5m2 x
  | 6 => FV.ofBits bf16 x
  | 7 => FV.ofBits binary16 x
  | _ => FV.ofBits fp32 x

/-- A value converted to a VCVT format (R159, R176). -/
def cvtTo (c : Nat) (v : FV) : Nat × FlagSet :=
  let ofInt := fun (r : Nat × Bool) => (r.1, FlagSet.mk r.2 false false)
  let ofF := fun (f : FFmt) => let r := v.round f; (r.bits, r.flags)
  match c with
  | 0 => ofInt (v.toIntSat 8 true 0)
  | 1 => ofInt (v.toIntSat 8 false 0)
  | 2 => ofInt (v.toIntSat 16 true 0)
  | 3 => ofInt (v.toIntSat 32 true 0)
  | 4 => let r := v.toF8 e4m3; (r.1, ⟨r.2, false, v.isNan⟩)
  | 5 => let r := v.toF8 e5m2; (r.1, ⟨r.2, false, v.isNan⟩)
  | 6 => ofF bf16
  | 7 => ofF binary16
  | _ => ofF fp32

/-- VCVT: λ of the wider width elements, the narrower side being part `k` of its register (R176). -/
def cvtReg (src dst k : Nat) (a old : BitVec 2048) : BitVec 2048 × FlagSet :=
  let ws := cvtWidth src
  let wd := cvtWidth dst
  let n := laneCount (max ws wd)
  let soff := if ws < wd then n * (k % (wd / ws)) else 0
  let doff := if wd < ws then n * (k % (ws / wd)) else 0
  let r := (List.range n).map (fun i => cvtTo dst (cvtValue src (lane ws a (soff + i))))
  let fl := r.foldl (fun f x => f.or x.2) FlagSet.none
  let keep := (lanes wd old)
  (packLanes wd (keep.take doff ++ r.map (·.1) ++ keep.drop (doff + n)), fl)

/-! ## Summaries (R179) -/

/-- One level of the pairwise tree. -/
def pairAdd : List (Word × FlagSet) → List (Word × FlagSet)
  | a :: b :: t =>
    let r := ((f32 a.1).add (f32 b.1)).round fp32
    (BitVec.ofNat 32 r.bits, (a.2.or b.2).or r.flags) :: pairAdd t
  | l => l

def treeSum : Nat → List (Word × FlagSet) → Word × FlagSet
  | 0, l => l.headD (0, FlagSet.none)
  | k + 1, l => treeSum k (pairAdd l)

/-- Position of the first element that `better` prefers to every earlier one. -/
def bestIdx (better : Nat → Nat → Bool) (l : List Nat) : Nat :=
  ((l.zipIdx).foldl (fun b x => if better x.1 b.1 then x else b) (l.headD 0, 0)).2

/-- Sign- or zero-extension of a lane to a word. -/
def extLane (w : Nat) (uns : Bool) (x : Nat) : Word := BitVec.ofNat 32 (if uns then x else wrapOf 32 (signedOf w x))

def summary (op : VOp) (f : VFields) (a : BitVec 2048) : Word × FlagSet :=
  let w := typeWidth f.ty
  let l := lanes w a
  let uns := f.aux.getLsbD 2
  let key : Nat → Int := fun x => if uns then (x : Int) else signedOf w x
  let fm := typeFmt f.ty
  let none := FlagSet.none
  match op with
  | .vrsum =>
    let r := satSigned 32 (l.foldl (fun s x => s + signedOf w x) 0)
    (BitVec.ofNat 32 (wrapOf 32 r.1), ⟨r.2, false, false⟩)
  | .vrmax => (extLane w uns (l.getD (bestIdx (fun x b => decide (key b < key x)) l) 0), none)
  | .vrmin => (extLane w uns (l.getD (bestIdx (fun x b => decide (key x < key b)) l) 0), none)
  | .vrmaxi => (BitVec.ofNat 32 (bestIdx (fun x b => decide (key b < key x)) l), none)
  | .vrcnt => (BitVec.ofNat 32 (l.countP (· != 0)), none)
  | .vrfsum => treeSum 8 (l.map (fun x => (f32r (FV.ofBits fm x), none)))
  | .vrfmax | .vrfmin =>
    let v := (l.drop 1).foldl (fun m x => FV.maxMin (op == .vrfmax) m (FV.ofBits fm x)) (FV.ofBits fm (l.headD 0))
    let r := v.round fp32
    (BitVec.ofNat 32 r.bits, r.flags)
  | _ =>
    -- a lane index beyond the register's lanes: the spec states no value
    (if movsLane f < laneCount w then extLane w uns (lane w a (movsLane f)) else Config.isleWord 5 (movsLane f), none)

/-- The Skerry register a summary will write, if the operation is one. -/
def isSummary : VOp → Bool
  | .vrsum | .vrmax | .vrmin | .vrmaxi | .vrcnt | .vrfsum | .vrfmax | .vrfmin | .vmovs => true
  | _ => false

/-! ## One execution -/

/-- The operation's AUX selects s_n as its scalar operand, or it always takes one (Table ISA-5). -/
def takesScalar (op : VOp) (aux : BitVec 4) : Bool :=
  match op with
  | .vcmp | .vfcmp => aux.getLsbD 3
  | .vadd | .vsub | .vadds | .vsubs | .vmullo | .vmax | .vmin | .vand | .vor | .vxor | .vshl | .vshr | .vsra
  | .vfadd | .vfsub | .vfmul | .vfma | .vfmax | .vfmin => aux.getLsbD 0
  | .vbcast | .vslide => true
  | _ => false

/-- The b operand: register vb, or the captured scalar in every lane when the operation's AUX bit selects it. VCMP and
VFCMP select it by AUX[3], the others by AUX[0] (Table ISA-5). -/
def bLanes (op : VOp) (f : VFields) (w : Nat) (sc : Word) (vb : BitVec 2048) : List Nat :=
  if takesScalar op f.aux then List.replicate (laneCount w) (sc.toNat % 2 ^ w) else lanes w vb

/-- The vector a lane-wise or lane-moving operation writes to vd, and its flags. -/
def vecResult (op : VOp) (f : VFields) (sc : Word) (primes : Vector Word 64) (a b c old : BitVec 2048) :
    BitVec 2048 × FlagSet :=
  let w := typeWidth f.ty
  let la := lanes w a
  let lb := bLanes op f w sc b
  let n := laneCount w
  match op with
  | .vcmp => (packLanes w ((la.zip lb).map (fun p =>
      allOnes w (intCmp (f.aux.toNat % 4) w (f.aux.getLsbD 2) p.1 p.2))), FlagSet.none)
  | .vfcmp => (packLanes w ((la.zip lb).map (fun p =>
      allOnes w (FV.cmp (f.aux.toNat % 4) (FV.ofBits (typeFmt f.ty) p.1) (FV.ofBits (typeFmt f.ty) p.2)))), FlagSet.none)
  | .vsel => (packLanes w ((List.range n).map (fun i => if lane w c i != 0 then lane w b i else lane w a i)), FlagSet.none)
  | .vmadd | .vmsub | .vmneg | .vmmul | .vmred | .vmreds | .vmctr =>
    (packLanes 32 ((List.range 64).map (fun i =>
      modLane op (primeOf (vget primes i)) (lane 32 a i) (lane 32 b i))), FlagSet.none)
  | .vfadd | .vfsub | .vfmul | .vfma | .vfmax | .vfmin | .vfdiv | .vfsqrt | .vgelu | .vsilu | .vtanh | .vexp =>
    let r := ((la.zip lb).zip (lanes w c)).map (fun p => floatLane op (typeFmt f.ty) p.1.1 p.1.2 p.2)
    (packLanes w (r.map (·.bits)), r.foldl (fun g x => g.or x.flags) FlagSet.none)
  | .vcvt => cvtReg (cvtSrc f) f.aux.toNat (cvtPart f) a old
  | .vbcast => (packLanes w (List.replicate n (sc.toNat % 2 ^ w)), FlagSet.none)
  | .vslide =>
    let k := sc.toNat % 256
    (packLanes w ((List.range n).map (fun i =>
      if f.aux.getLsbD 0 then (if i + k < n then lane w a (i + k) else 0)
      else (if k ≤ i then lane w a (i - k) else 0))), FlagSet.none)
  | .vperm => (packLanes 8 ((List.range 256).map (fun i => lane 8 a (lane 8 b i % 256))), FlagSet.none)
  | _ =>
    let r := (la.zip lb).map (fun p => intLane op w (f.aux.getLsbD 2) p.1 p.2)
    (packLanes w (r.map (·.1)), ⟨r.any (·.2), false, false⟩)

/-- Raises BANKCONF: two port accesses reach one bank slot (R231). -/
def Isle.bankConflict (i : IsleIdx) (is : Isle) : Isle × List Report :=
  ({ is with sto := { is.sto with bankConf := true } }, [{ Report.of (0x9000 + i.val) with detail := 1 }])

/-- The distinct-bank rule of one VLD or VST (R182). -/
def banksDistinct (addrs : List Nat) : Bool := (addrs.map (fun a => bankOf (a / 32))).Nodup

/-- Isle cycles for which an execution takes its slot (Table VS-1). -/
def vecCost : VOp → Nat
  | .vfdiv | .vfsqrt => 4
  | .vgelu | .vsilu | .vtanh | .vexp => 2
  | _ => 1

/-- Latency L (Table VS-1); of VST, whose words are seen by every access in a later bank slot (R230), one Isle cycle. -/
def vecLatency : VOp → Nat
  | .vmullo | .vfmul | .vcvt | .vperm | .vmovs => 3
  | .vmax | .vmin | .vand | .vor | .vxor | .vnot | .vshl | .vshr | .vsra | .vcmp | .vsel | .vfmax | .vfmin | .vfcmp | .vbcast | .vst => 1
  | .vmmul | .vfma => 4
  | .vfdiv | .vfsqrt | .vrfsum | .vrfmax | .vrfmin => 12
  | .vgelu | .vsilu | .vtanh | .vexp | .vrsum | .vrmax | .vrmin | .vrmaxi | .vrcnt => 8
  | .vld => 6
  | _ => 2

/-- The eight store addresses of execution `j` of VLD or VST (R182). -/
def vecAddrs (compat : Bool) (ag : Option AgCap) (j : Nat) : List Nat :=
  (List.range 8).map (fun k => ag.elim 0 (fun g => g.elem compat (8 * j + k)))

/-- Execution `j` of a vector instruction (R201) on the Isle's registers, store and tiles. Its result lands at once, or with `clk`
after its latency (R173). -/
def Isle.vecStep (clk : Bool) (i : IsleIdx) (compat : Bool) (op : VOp) (f : VFields) (sc : Word) (ag : Option AgCap) (j : Nat)
    (is : Isle) : Isle × List Report :=
  let lag := if clk then vecLatency op else 0
  let r := fun bit x => ag.elim x (fun g => g.rot bit j x)
  let vd := r 0 f.vd
  let va := is.ve.v[r 1 f.va]
  let vb := is.ve.v[r 2 f.vb]
  let vc := is.ve.v[r 3 f.vc]
  let addr := fun k => ag.elim 0 (fun g => g.elem compat k)
  let eight := vecAddrs compat ag j
  match op with
  | .vld =>
    let c := is.storeCheck i (eight.map (· / 32))
    let x := c.1.put lag (.vreg vd (BitVec.ofNat 2048 (leNat (eight.flatMap (fun a => is.storeRead a 32))))) FlagSet.none
    if banksDistinct eight then (x, c.2) else let b := x.bankConflict i; (b.1, c.2 ++ b.2)
  | .vst =>
    let bytes := leBytes 256 va.toNat
    let x := is.put lag (.store ((eight.zipIdx).map (fun p => (p.1, slice bytes (32 * p.2) 32)))) FlagSet.none
    if banksDistinct eight then (x, []) else x.bankConflict i
  | .vtld =>
    let a := addr j % 131072
    let c := is.tileCheck i (wordsOf 32 a 256)
    (c.1.put lag (.vreg vd (BitVec.ofNat 2048 (leNat (is.tileRead a 256)))) FlagSet.none, c.2)
  | .vtst => (is.put lag (.vtst (addr j) (leBytes 256 va.toNat)) FlagSet.none, [])
  | .vprime =>
    (is.put lag (.primes (Vector.ofFn (fun k => BitVec.ofNat 32 (primeOf (BitVec.ofNat 32 (lane 32 va k.val)))))) FlagSet.none, [])
  | op =>
    if isSummary op then
      let x := summary op f va
      (is.put lag (.sreg f.sn x.1) x.2, [])
    else
      let x := vecResult op f sc is.ve.primes va vb vc is.ve.v[vd]
      (is.put lag (.vreg vd x.1) x.2, [])

/-- Executions of an instruction: one without a generator; with one, an execution per element, or per eight elements
for VLD and VST (R201). A transfer without a generator has no address and performs none. -/
def vecCount (compat : Bool) (op : VOp) (ag : Option AgCap) : Nat :=
  match op, ag with
  | .vld, none | .vst, none | .vtld, none | .vtst, none => 0
  | _, none => 1
  | .vld, some g | .vst, some g => g.size compat / 8
  | _, some g => g.size compat

/-- Runs every execution in order. -/
def Isle.vecRun (i : IsleIdx) (compat : Bool) (op : VOp) (f : VFields) (sc : Word) (ag : Option AgCap) (is : Isle) :
    Isle × List Report :=
  (List.range (vecCount compat op ag)).foldl (fun x j =>
    let y := Isle.vecStep false i compat op f sc ag j x.1; (y.1, x.2 ++ y.2)) (is, [])

end Sys2Proof.Machine
end

