-- ==== Sys2Proof/Machine/Bank.lean ====
section
/-! DEFINITION. The bank-side units: the steps of Table ST-3 on captured generators and scalars (R232 to R235), the
stream lanes K and E (R85, R238). -/

namespace Sys2Proof.Machine

/-- A 32-bit lane result of a bank-side step: d destination, b operand, x the stream word or scalar (Table ST-3). -/
def bankLane (op : BOp) (p : Nat) (d b x : Nat) : FRes :=
  let int := fun v => FRes.mk v false false
  match op with
  | .zfill => int 0
  | .iadd => int ((d + b) % 2 ^ 32)
  | .madd => int ((d % p + b % p) % p)
  | .msub => int ((d % p + (p - b % p)) % p)
  | .fadd32 => ((FV.ofBits fp32 d).add (FV.ofBits fp32 b)).round fp32
  | .mmuls => int ((d % p) * (x % p) % p)
  | .mmult => int ((d % p) * (b % p) % p)
  | .madds | .mmack | .mmace => int ((d % p + (x % p) * (b % p)) % p)
  | _ => int d

/-- Lanes of a word that a CC operation counts at threshold t (Table ST-3). -/
def ccCount (op : BOp) (t : Word) (bytes : List Byte) : Nat :=
  match op with
  | .ccb16 => (chunks 2 bytes).countP (fun l =>
      let x := leNat l % 2 ^ 15
      decide (t.toNat % 2 ^ 15 ≤ x) && !(decide (0x7F80 < x)))
  | .ccf32 => (chunks 4 bytes).countP (fun l =>
      let x := leNat l % 2 ^ 31
      decide (t.toNat % 2 ^ 31 ≤ x) && !(decide (0x7F800000 < x)))
  | .cci32 => (chunks 4 bytes).countP (fun l => decide (t.toNat ≤ (signedOf 32 (leNat l)).natAbs))
  | _ => (chunks 4 bytes).countP (fun l => decide (t.toNat ≤ leNat l))

def isCount : BOp → Bool
  | .ccf32 | .ccb16 | .cci32 | .ccu32 => true
  | _ => false

/-- Operations that read an operand word (Table ST-3). -/
def hasOperand : BOp → Bool
  | .iadd | .madd | .msub | .fadd32 | .madds | .mmult | .mmack | .mmace => true
  | _ => false

/-- Seeded words of a chunk: element e of the stream that pairs with the chunk's stored words (R48, Table CT-6, R85). -/
def chunkWord (k : KeyChunk) (e : Nat) : Nat :=
  if k.kind = 4 then
    let g := 4096 * k.chunk + e
    let row := g / max k.nr 1
    (seedBlock k.seed 4 (row / max (2 * k.digits) 1) (row % max (2 * k.digits) 1) 0 k.nr (k.primes.headD 1)).getD
      (g % max k.nr 1) 0
  else if k.kind = 5 then
    let row := 4096 * k.chunk + e / max k.lweDim 1
    (seedBlock k.seed 5 (row / max k.digits 1) (row % max k.digits 1) 0 k.lweDim (k.primes.headD 1)).getD
      (e % max k.lweDim 1) 0
  else
    let t := k.chunk % max k.tiles 1
    let j := k.chunk / max k.tiles 1 % max k.limbs 1
    let d := k.chunk / max k.tiles 1 / max k.limbs 1
    (seedBlock k.seed k.kind d j t 4096 (k.primes.getD j 1)).getD e 0

/-- 32-bit words that the seed expander produces for a chunk (R48, R85): as many as the chunk stores, LWEDIM for each of a BITKS
record's. -/
def chunkLen (k : KeyChunk) : Nat := if k.kind = 5 then 4096 * max k.lweDim 1 else 4096

/-- 32-bit words that lane E still has to supply. -/
def laneLeft (l : List KeyChunk) (pos : Nat) : Nat := l.foldl (fun n k => n + chunkLen k) 0 - pos

/-- Word `e` ahead on lane E. -/
def laneWord : List KeyChunk → Nat → Nat
  | [], e => (Config.isleWord 2 e).toNat
  | k :: t, e => if e < chunkLen k then chunkWord k e else laneWord t (e - chunkLen k)

/-- `n` more words have left lane E. -/
def laneAdvance : List KeyChunk → Nat → List KeyChunk × Nat
  | [], _ => ([], 0)
  | k :: t, n => if n < chunkLen k then (k :: t, n) else laneAdvance t (n - chunkLen k)

/-- The lane words an operation's elements may use: those of the key slot RSLOT for lane K, those of the chunks consumed and not yet
paired for lane E. Without RV no slot feeds lane K, and its words never arrive (R237, R238). -/
def Isle.laneWords (is : Isle) (r : BankRun) : Nat :=
  if r.op = .mmack then (if r.f.sync.rv then (is.slot r.f.sync.rslot).len else 0)
  else r.next + laneLeft is.laneE is.lanePos / 8

/-- Lane K: the words of the key slot RSLOT in ascending address (R238). -/
def Isle.laneKWord (is : Isle) (y : Sync) (e : Nat) : Nat := (is.storeW ((is.slot y.rslot).base + 4 * e)).toNat

/-- The key-slot word that element j of an MMACK takes (R238). -/
def laneKAddr (is : Isle) (op : BOp) (f : BFields) (j : Nat) : List Nat :=
  if op = .mmack then [((is.slot f.sync.rslot).base + 32 * j) / 32] else []

/-- Λ (Table ST-3). -/
def stepLatency : BOp → Nat
  | .zfill => 1
  | .iadd | .madd | .msub | .fadd32 => 3
  | _ => 5

/-- One bank-side step on element j (R229, R232); with `clk` its write-back lands Λ Isle cycles later (R230). Of lane E, it takes
the first eight words. -/
def Isle.bankStep (clk : Bool) (i : IsleIdx) (compat : Bool) (op : BOp) (f : BFields) (a b : AgCap) (pw c : Word) (j : Nat) (is : Isle) :
    Isle × List Report :=
  let da := a.elem compat j
  let ba := b.elem compat j
  let p := primeOf pw
  let chk := is.storeCheck i ((if hasOperand op then [da / 32, ba / 32] else if op = .zfill then [] else [da / 32]) ++
    laneKAddr is op f j)
  let is := chk.1
  let r := (List.range 8).map (fun k =>
    let x := match op with
      | .mmack => is.laneKWord f.sync (8 * j + k)
      | .mmace => laneWord is.laneE (is.lanePos + k)
      | _ => c.toNat % p
    bankLane op p (is.storeW (da + 4 * k)).toNat (is.storeW (ba + 4 * k)).toNat x)
  let g := if op = .fadd32 then r.foldl (fun g x => g.or x.flags) FlagSet.none else FlagSet.none
  let is := is.put (if clk then stepLatency op else 0) (.step da (r.flatMap (fun x => leBytes 4 x.bits))) g
  let q := laneAdvance is.laneE (is.lanePos + 8)
  (if op = .mmace then { is with laneE := q.1, lanePos := q.2 } else is, chk.2)

/-- Elements of a BSOP: those of AGA; an operand sequence of another length is refused by the verifier. -/
def bankCount (compat : Bool) (op : BOp) (a b : AgCap) : Nat :=
  if hasOperand op then min (a.size compat) (b.size compat) else a.size compat

/-- Channels K and E issue on stream lanes; every other operation goes to channel Z (Table ST-3). -/
def onLane (op : BOp) : Bool := op == .mmack || op == .mmace

/-- The count of a CC operation over all its words (R235). -/
def Isle.ccRun (i : IsleIdx) (compat : Bool) (op : BOp) (f : BFields) (a : AgCap) (pw : Word) (is : Isle) : Isle × List Report :=
  let ws := (List.range (a.size compat)).map (fun j => a.elem compat j)
  let chk := is.storeCheck i (ws.map (· / 32))
  let total := ws.foldl (fun t w => t + ccCount op pw (chk.1.storeRead w 32)) 0
  (chk.1.setReg (finOf 31 (f.sn.val + 1)) (BitVec.ofNat 32 total), chk.2)

/-- A BSOP of channel Z from its first element to its last. A CC operation writes nothing back and its total into s_(sN+1)
(R235). -/
def Isle.bankRun (i : IsleIdx) (compat : Bool) (op : BOp) (f : BFields) (a b : AgCap) (pw c : Word) (is : Isle) :
    Isle × List Report :=
  if isCount op then is.ccRun i compat op f a pw
  else (List.range (bankCount compat op a b)).foldl (fun x j =>
    let y := Isle.bankStep false i compat op f a b pw c j x.1; (y.1, x.2 ++ y.2)) (is, [])

/-- A BSOP as its channel takes it up (R236). An MMACK's slot gives lane E the chunk whose seeded words follow those of the chunks
before it (R85, R238). -/
def Isle.bankBegin (is : Isle) (op : BOp) (f : BFields) (a b : AgCap) (p c : Word) : Isle :=
  let r : BankRun := { op := op, f := f, a := a, b := b, p := p, c := c, next := 0, total := 0, age := 0 }
  if op = .mmack then
    let k := if f.sync.rv then (is.tagAt (is.slot f.sync.rslot).base).toList else []
    { is with un := { is.un with chK := some r }, laneE := is.laneE ++ k }
  else { is with un := { is.un with chE := some r } }

/-- The run of a channel on a stream lane, and the state with another in its place. -/
def Isle.laneRun (is : Isle) (k : Bool) : Option BankRun := if k then is.un.chK else is.un.chE
def Isle.setLane (is : Isle) (k : Bool) (r : Option BankRun) : Isle :=
  { is with un := if k then { is.un with chK := r } else { is.un with chE := r } }

/-- Lane K has read the last word of its slot: the drain of R205 counts (R238). -/
def Isle.laneDrain (is : Isle) (r : BankRun) : Isle × BankRun :=
  if r.op = .mmack ∧ r.total = 0 then (is.syncRead r.f.sync, { r with total := 1 }) else (is, r)

/-- A lane operation has issued its last element. -/
def Isle.laneEnd (is : Isle) (k : Bool) (r : BankRun) : Isle :=
  let x := is.setLane k none
  if r.total = 0 then x.syncDone r.f.sync else x.syncWrite r.f.sync

/-- Channel K or E issues every element whose lane word is there, and ends with its last element; none when it can do neither
(R237). -/
def Isle.laneProgress (i : IsleIdx) (compat : Bool) (is : Isle) (k : Bool) : Option (Isle × List Report) :=
  match is.laneRun k with
  | none => none
  | some r =>
    let n := bankCount compat r.op r.a r.b
    let m := min n (is.laneWords r)
    if n ≤ r.next then some (is.laneEnd k r, [])
    else if m ≤ r.next then none
    else
      let x := (List.range (m - r.next)).foldl (fun x d =>
        let y := Isle.bankStep false i compat r.op r.f r.a r.b r.p r.c (r.next + d) x.1; (y.1, x.2 ++ y.2)) (is, [])
      let d := x.1.laneDrain { r with next := m }
      some (d.1.setLane k (some d.2), x.2)

end Sys2Proof.Machine
end

