-- ==== Sys2Proof/Machine/Matrix.lean ====
section
/-! DEFINITION. The matrix engine: weight loads and swaps (R141, R142), products in every mode (R127, R134 to R140), and
the prologue and epilogue stages of fused chains (R152 to R166). -/

namespace Sys2Proof.Machine

/-! ## Weights -/

/-- Bytes of a feed or weight element as it lies in its tile register: shapes B, H and W (Table ME-2). -/
def modeBytes (mode : Nat) : Nat := if mode ≤ 2 then 1 else if mode ≤ 4 then 2 else 4

/-- Logical rows of the weights: 128, 64 or 16 (Table ME-1). -/
def modeRows (mode : Nat) : Nat := if mode ≤ 2 then 128 else if mode ≤ 4 then 64 else 16

/-- Result elements of one feed row: 128, 64, 64 or 256 (Table ME-1). -/
def modeCols (mode : Nat) : Nat := if mode ≤ 2 then 128 else if mode = 6 then 256 else 64

/-- Tile rows that a WLOAD reads, one an Isle cycle (Table ME-6); in the modular modes the last one holds the primes. -/
def wloadRows (mode : Nat) : Nat := if mode ≥ 5 then 17 else modeRows mode

/-- The tile-register words of row `r` of a WLOAD's extent (R141). -/
def wloadWords (f : WloadFields) (r : Nat) : List Nat :=
  let m := f.mode.toNat
  wordsOf 32 (16384 * f.st.val + shapeOff (modeBytes m) (f.wrow.toNat + r) (if m ≥ 5 then f.wcol.toNat else 0))
    (if m ≥ 5 then 64 else 128)

/-- Row `r` of a WLOAD's extent as it lies in the tile registers. -/
def Isle.wloadRow (is : Isle) (f : WloadFields) (r : Nat) : List Word :=
  let m := f.mode.toNat
  (List.range (if m ≥ 5 then 16 else modeRows m)).map (fun c =>
    BitVec.ofNat 32 (is.tileElem f.st.val (modeBytes m) (f.wrow.toNat + r) ((if m ≥ 5 then f.wcol.toNat else 0) + c)))

/-- The weights that the rows of an extent make: modular ones reduced modulo their column's prime, which stands in the last row
(R136, R137, R141). -/
def weightsOf (f : WloadFields) (badParity : Bool) (rows : List (List Word)) : WeightSet :=
  let m := f.mode.toNat
  let primes := if m ≥ 5 then (rows.getD 16 []).map primeOf else []
  { mode := f.mode, wf := f.wf, badParity := badParity, primes := primes.map (BitVec.ofNat 32)
    rows := (rows.take (modeRows m)).map (fun l => (l.zipIdx).map (fun t =>
      if m ≥ 5 then BitVec.ofNat 32 (t.1.toNat % primes.getD t.2 1) else t.1)) }

/-- The standby set takes the loaded weights (R141). An armed latch injection inverts the parity of the first latch written
(R408). -/
def Isle.latch (is : Isle) (f : WloadFields) (rows : List (List Word)) : Isle :=
  let set := weightsOf f is.me.latchInj rows
  let me := { is.me with latchInj := false }
  { is with me := if is.me.active then { me with wA := set } else { me with wB := set } }

/-- WLOAD: the standby set takes the weights of the named extent (R141). -/
def Isle.wload (i : IsleIdx) (f : WloadFields) (is : Isle) : Isle × List Report :=
  let rs := List.range (wloadRows f.mode.toNat)
  let chk := is.tileCheck i (rs.flatMap (wloadWords f))
  (chk.1.latch f (rs.map (is.wloadRow f)), chk.2)

/-- WSWAP exchanges the active and standby sets (R142). -/
def Isle.wswap (is : Isle) : Isle := { is with me := { is.me with active := !is.me.active } }

def Matrix.activeSet (m : Matrix) : WeightSet := if m.active then m.wB else m.wA

/-- Modes whose cells hold a weight alike: one cell of 8 bits in modes 0 to 2, a 2 × 2 group in modes 3 and 4 (Table ME-1). -/
def cellKind (mode : Nat) : Nat := if mode ≤ 2 then 0 else if mode ≤ 4 then 3 else mode

/-- Weight (k, n) as an MMUL of `mode` reads it (R144): 0 from zero-filled latches (R132); the latched bits where the load's
mode has the same cells; else an open value. -/
def WeightSet.weight (w : WeightSet) (mode : BitVec 3) (k n : Nat) : Nat :=
  if w.rows.isEmpty then 0
  else if cellKind w.mode.toNat = cellKind mode.toNat then ((w.rows.getD k []).getD n 0).toNat
  else (Config.foreignWeight w.mode.toNat mode.toNat k n).toNat

/-- The prime of column b (R136); zero-filled latches force bit 0 alone. -/
def WeightSet.prime (w : WeightSet) (mode : BitVec 3) (b : Nat) : Nat :=
  if w.rows.isEmpty then 1
  else if w.mode = mode then (w.primes.getD b 1).toNat
  else primeOf (Config.foreignWeight w.mode.toNat mode.toNat 16 b)

/-! ## Products of one feed row -/

/-- Float format of a feed or weight operand. -/
def feedFmt (mode : Nat) (e5 : Bool) : FFmt :=
  if mode = 2 then (if e5 then e5m2 else e4m3) else if mode = 3 then bf16 else binary16

/-- A column chain: exact products added to a running fp32 value in ascending k, one rounding each (R134). -/
def floatDot (ff wf : FFmt) (start : Word) : List (Nat × Nat) → Word × FlagSet
  | l =>
    let r := l.foldl (fun (acc : Word × Bool) p =>
      let x := ((f32 acc.1).add ((FV.ofBits ff p.1).mul (FV.ofBits wf p.2))).round fp32
      (BitVec.ofNat 32 x.bits, acc.2 || x.ovf)) (start, false)
    (r.1, ⟨false, r.2, (f32 r.1).isNan⟩)

/-- p' = −p^(−1) mod 2^32 by Newton's iteration (R136). -/
def montInv (p : Nat) : Nat :=
  let x := (List.range 5).foldl (fun x _ => x * (2 ^ 33 + 2 - p * x % 2 ^ 32) % 2 ^ 32) 1
  (2 ^ 32 - x) % 2 ^ 32

/-- The MOD32 accumulator over the 16 feed elements (R138). -/
def modAcc (p : Nat) (l : List (Nat × Nat)) : Nat :=
  l.foldl (fun a t => let a := a + t.1 * t.2; if a ≥ p * 2 ^ 32 then a - p * 2 ^ 32 else a) 0

/-- The MODN8 accumulator: the exact signed sum plus 2^11 · p (R139). -/
def modnAcc (p : Nat) (l : List (Nat × Nat)) : Nat :=
  (l.foldl (fun (a : Int) t => a + signedOf 8 t.1 * t.2) ((2 ^ 11 * p : Nat) : Int)).toNat

/-- The Montgomery output stage (R140). -/
def montOut (p a : Nat) (acc red : Bool) (d : Nat) : Nat :=
  let m := a % 2 ^ 32 * montInv p % 2 ^ 32
  let u := (a + m * p) / 2 ^ 32
  let v := u + (if acc then d % p else 0)
  if red then (if v ≥ 2 * p then v - 2 * p else if v ≥ p then v - p else v)
  else (if v ≥ 2 * p then v - p else v)

/-- One result element: column n of the product of a feed row with the active weights, added to d when ACC is 1. -/
def productElem (f : MmulFields) (w : WeightSet) (feed : List Nat) (n : Nat) (d : Nat) : Nat × FlagSet :=
  let mode := f.mode.toNat
  if mode ≤ 1 then
    let s : Int := (feed.zipIdx).foldl (fun a t =>
      a + (if mode = 0 then signedOf 8 t.1 else (t.1 : Int)) * signedOf 8 (w.weight f.mode t.2 n)) 0
    let r := satSigned 32 (s + (if f.acc then signedOf 32 d else 0))
    (wrapOf 32 r.1, ⟨r.2, false, false⟩)
  else if mode ≤ 4 then
    let r := floatDot (feedFmt mode f.ff) (feedFmt mode w.wf) (if f.acc then BitVec.ofNat 32 d else 0)
      ((feed.zipIdx).map (fun t => (t.1, w.weight f.mode t.2 n)))
    (r.1.toNat, r.2)
  else
    let p := w.prime f.mode (n % 16)
    let l := ((slice feed (n / 16 * 16) 16).zipIdx).map (fun t => (t.1, w.weight f.mode t.2 (n % 16)))
    (montOut p (if mode = 5 then modAcc p l else modnAcc p l) f.acc f.red d, FlagSet.none)

/-! ## Chains -/

/-- Fields of the chain header (Table FC-1). -/
def hdrExact (h : DWord) : Bool := h.getLsbD 63
def hdrIfmt (h : DWord) : Nat := field h.toNat 60 3
def hdrOfmt (h : DWord) : Nat := field h.toNat 57 3
def hdrSink (h : DWord) : Nat := field h.toNat 55 2
def hdrPro (h : DWord) : List Nat := [field h.toNat 40 8, field h.toNat 32 8]
def hdrEpi (h : DWord) : List Nat := [field h.toNat 24 8, field h.toNat 16 8, field h.toNat 8 8, field h.toNat 0 8]

/-- Bytes of an output element by OFMT. -/
def ofmtBytes (o : Nat) : Nat := if o = 1 ∨ o = 2 then 2 else if o = 3 ∨ o = 4 ∨ o = 5 then 1 else 4

/-- Lane `c` of the 32-byte words a generator addresses, from word `base` on. -/
def Isle.agWord (is : Isle) (compat : Bool) (g : Option AgCap) (base c : Nat) : Word :=
  g.elim (Config.isleWord 4 c) (fun g => is.storeW (g.elem compat (base + c / 8) + 4 * (c % 8)))

/-- The store words of `n` elements of a generator from element `base` on. -/
def agWords (compat : Bool) (g : Option AgCap) (base n : Nat) : List Nat :=
  g.elim [] (fun g => (List.range n).map (fun q => g.elem compat (base + q) / 32))

/-- Feed elements of row j before the prologue: from register FT, or from the store words the feed generator names, each
moved by its tap offset under WINDOW (R129, R157, R198). With FSRC = 1 the generator starts at its first element whatever FROW
is, and FROW names the first result row alone (DESIGN CHOICE, notes/assumptions/98.md). -/
def Isle.feedRaw (is : Isle) (compat : Bool) (f : MmulFields) (ch : Chain) (feed : AgCap) (j : Nat) : List Nat × List Nat :=
  let m := f.mode.toNat
  let r := f.frow.toNat + j
  if !f.fsrc then
    if m = 6 then
      ((List.range 256).map (fun c => is.tileElem f.ft.val 1 (2 * r + c / 128) (c % 128)), [])
    else
      let n := if m ≤ 2 then 128 else 64
      ((List.range n).map (fun c => is.tileElem f.ft.val (modeBytes m) r c), [])
  else
    let n := if m ≥ 5 then 8 else 4
    -- without an AGP the tap offsets are open words, as every stage operand without a generator
    let tap := fun q => if (hdrPro ch.header).headD 0 = 3 then
        ch.agp.elim (Config.isleWord 4 q).toNat (fun g => g.elem compat q) else 0
    let addrs := (List.range n).map (fun q => (feed.elem compat (n * j + q) + tap q) % 2 ^ 32)
    let bytes := addrs.flatMap (fun a => is.storeRead a 32)
    let k := if m = 6 then 1 else modeBytes m
    ((chunks k bytes).map leNat, addrs.map (· / 32))

/-- Feed rows available: N, or as many as the generator's words supply (R211). -/
def feedRows (compat : Bool) (f : MmulFields) (feed : AgCap) : Nat :=
  let n := f.n1.toNat + 1
  if f.fsrc then min n (feed.size compat / (if f.mode.toNat ≥ 5 then 8 else 4)) else n

/-- One prologue stage on the elements of row j (R156). A float SCALE takes the feed-width bits of its scalar (Table FC-2,
R181). Element c of a MOD32 row takes the prime of column c mod 16 (DESIGN CHOICE, notes/assumptions/98.md). -/
def Isle.prologue (is : Isle) (compat : Bool) (f : MmulFields) (ch : Chain) (w : WeightSet) (j : Nat) (code : Nat)
    (l : List Nat) : List Nat :=
  let m := f.mode.toNat
  let modMul := fun (t : Nat × Nat) (x : Word) => t.1 * x.toNat % w.prime f.mode (t.2 % 16)
  if code = 1 ∧ m = 5 then (l.zipIdx).map (fun t => modMul t (is.agWord compat ch.agp (8 * j) t.2))
  else if code = 2 ∧ m = 5 then (l.zipIdx).map (fun t => modMul t ch.sx)
  else if code = 2 ∧ 2 ≤ m ∧ m ≤ 4 then
    let ff := feedFmt m f.ff
    l.map (fun x => (((FV.ofBits ff x).mul (FV.ofBits ff (ch.sx.toNat % 2 ^ (8 * modeBytes m)))).round ff).bits)
  else l

/-- The store words that the prologue of row j reads besides the feed: the table words of TWID. -/
def prologueWords (compat : Bool) (f : MmulFields) (ch : Chain) (j : Nat) : List Nat :=
  if f.mode = 5 ∧ (hdrPro ch.header).contains 1 then agWords compat ch.agp (8 * j) 8 else []

/-- Row r's statistics: n, μ, M, m and l start at 0, 0, 0, −∞ and +0 (R165, R166). -/
def statInit : RowStat := { n := 0, mu := 0, m2 := 0, mx := 0xFF800000, l := 0, gammas := [], applied := [] }
def Matrix.stat (m : Matrix) (r : Nat) : RowStat := m.stats.getD r statInit
def Matrix.setStat (m : Matrix) (r : Nat) (x : RowStat) : Matrix :=
  let l := if m.stats.length ≤ r then m.stats ++ List.replicate (r + 1 - m.stats.length) statInit else m.stats
  { m with stats := l.set r x }

/-- NORMSTAT of one closing tile row, every operation rounded to fp32 (R165). -/
def normStat (st : RowStat) (xs : List Word) : RowStat :=
  let c := f32ofInt (BitVec.ofNat 32 xs.length)
  let mt := f32div (xs.foldl f32add 0) c
  let dt := xs.foldl (fun s x => let d := f32sub x mt; f32add s (f32mul d d)) 0
  let delta := f32sub mt st.mu
  let n' := f32add st.n c
  { st with
    mu := f32add st.mu (f32mul delta (f32div c n'))
    m2 := f32add (f32add st.m2 dt) (f32mul (f32mul delta delta) (f32div (f32mul st.n c) n'))
    n := n' }

/-- SOFTSTAT of one closing score tile row: the new statistics and the p values in the feed format of link 2 (R166). -/
def softStat (st : RowStat) (ff : FFmt) (xs : List Word) : RowStat × List Nat :=
  let m' := xs.foldl (fun m x => BitVec.ofNat 32 ((FV.maxMin true (f32 m) (f32 x)).round fp32).bits) st.mx
  let p := xs.map (fun x => ((f32 (BitVec.ofNat 32 (transf 3 (f32sub x m')).bits)).round ff).bits)
  let g : Word := if st.gammas.isEmpty then 0 else BitVec.ofNat 32 (transf 3 (f32sub st.mx m')).bits
  let sum := p.foldl (fun s x => f32add s (f32r (FV.ofBits ff x))) 0
  ({ st with mx := m', l := f32add (f32mul g st.l) sum, gammas := st.gammas ++ [g] }, p)

/-- Rounds a stage's value: in the internal format, or with FUSE_EXACT to IFMT (R163, R164). -/
def stageRound (h : DWord) (v : FV) : FV × FlagSet :=
  if hdrExact h then
    match hdrIfmt h with
    | 1 => let r := v.round bf16; (FV.ofBits bf16 r.bits, r.flags)
    | 2 => let r := v.round binary16; (FV.ofBits binary16 r.bits, r.flags)
    | 3 => let r := v.toIntSat 32 true 0; (FV.ofInt (signedOf 32 r.1), ⟨r.2, false, v.isNan⟩)
    | _ => let r := v.round fp32; (FV.ofBits fp32 r.bits, r.flags)
  else (v.via fused50, ⟨false, false, v.isNan⟩)

/-- RELU: −0 and every negative value give +0 (R158). -/
def FV.relu : FV → FV
  | .nan n => .nan n
  | .inf n => if n then .num false 0 0 else .inf n
  | .num n m e => if n then .num false 0 0 else .num n m e

/-- What the stages carry along a row. -/
structure EpiRow where
  vals : List FV
  flags : FlagSet
  /-- groups of per-column words the row's stages have taken from AGE -/
  used : Nat
  stat : RowStat
  /-- REQUANT has run -/
  requant : Bool
  /-- p values of SOFTSTAT, in the output format -/
  p : Option (List Nat)
  deriving DecidableEq, Repr

/-- One float epilogue stage on a row (R158, R159, R165, R166); a reserved code acts as 0x00 (R154). With FUSE_EXACT a stage
reads the stored value as fp32, an int32 one converted first (R164). Otherwise the values keep the internal format between the
stages, and GELU, SILU, TANH, EXP and the statistics, functions of fp32 bits, read them rounded to fp32, and stages
that share AGE take one group of per-column words after another (DESIGN CHOICE, notes/assumptions/98.md).
-/
def Isle.epiStage (is : Isle) (compat : Bool) (ch : Chain) (e : EpiRow) (code : Nat) : EpiRow :=
  let cols := e.vals.length
  let word := fun c => is.agWord compat ch.age (e.used * (cols / 8)) c
  let vals := if hdrExact ch.header then e.vals.map (fun v => v.via fp32) else e.vals
  let each := fun (g : FV × Nat → FV) (used : Nat) =>
    let r := (vals.zipIdx).map (fun t => stageRound ch.header (g t))
    { e with vals := r.map (·.1), flags := r.foldl (fun f x => f.or x.2) e.flags, used := e.used + used }
  let act := fun op => each (fun t => FV.ofBits fp32 (transf op (f32r t.1)).bits) 0
  let xs := vals.map f32r
  match code with
  | 0x10 => each (fun t => t.1.add (f32 (word t.2))) 1
  | 0x11 => each (fun t => t.1.relu) 0
  | 0x12 => each (fun t => FV.maxMin false (FV.maxMin true t.1 (f32 ch.sx)) (f32 ch.sy)) 0
  | 0x13 => act 0
  | 0x14 => act 1
  | 0x15 => act 2
  | 0x16 => act 3
  | 0x18 => { each (fun t => match t.1 with | .nan n => .nan n | v => v.mul (f32 (word t.2))) 1 with requant := true }
  | 0x30 => { e with stat := normStat e.stat xs }
  | 0x31 =>
    let ff := match hdrOfmt ch.header with | 1 => bf16 | 2 => binary16 | 3 => e4m3 | 4 => e5m2 | _ => fp32
    let r := softStat e.stat ff xs
    { e with stat := r.1, p := some r.2 }
  | _ => e

/-- The int32 epilogue of INT8 and UINT8 links that hold only BIAS, RELU and CLAMP with OFMT int32 (R158). -/
def Isle.intStage (is : Isle) (compat : Bool) (ch : Chain) (e : List Int × Bool × Nat) (code : Nat) : List Int × Bool × Nat :=
  let cols := e.1.length
  match code with
  | 0x10 =>
    let r := (e.1.zipIdx).map (fun t => satSigned 32 (t.1 + sgn (is.agWord compat ch.age (e.2.2 * (cols / 8)) t.2)))
    (r.map (·.1), e.2.1 || r.any (·.2), e.2.2 + 1)
  | 0x11 => (e.1.map (fun x => max x 0), e.2)
  | 0x12 => (e.1.map (fun x => min (max x (sgn ch.sx)) (sgn ch.sy)), e.2)
  | _ => e

/-- Codes of the float stages that an int32 epilogue does not hold; 0x17 is reserved and acts as 0x00 (Table FC-2, R154). -/
def floatOnly : List Nat := [0x13, 0x14, 0x15, 0x16, 0x18, 0x30, 0x31]

def intOnly (mode : Nat) (h : DWord) : Bool :=
  decide (mode ≤ 1) && hdrOfmt h == 6 && (hdrEpi h).all (fun c => !floatOnly.contains c)

/-- A modular epilogue stage: MADD adds and MMULC multiplies by the column's word modulo its prime (R160). -/
def Isle.modStage (is : Isle) (compat : Bool) (ch : Chain) (prime : Nat → Nat) (e : List Nat × Nat) (code : Nat) :
    List Nat × Nat :=
  let cols := e.1.length
  let word := fun c => (is.agWord compat ch.age (e.2 * (cols / 8)) c).toNat
  match code with
  | 0x20 => ((e.1.zipIdx).map (fun t => (t.1 % prime t.2 + word t.2 % prime t.2) % prime t.2), e.2 + 1)
  | 0x21 => ((e.1.zipIdx).map (fun t => (t.1 % prime t.2) * (word t.2 % prime t.2) % prime t.2), e.2 + 1)
  | _ => e

/-- The conversion at the sink (R159). -/
def sinkConv (ofmt : Nat) (requant : Bool) (zp : Int) (v : FV) : Nat × FlagSet :=
  match ofmt with
  | 1 => let r := v.round bf16; (r.bits, r.flags)
  | 2 => let r := v.round binary16; (r.bits, r.flags)
  | 3 => let r := v.toF8 e4m3; (r.1, ⟨r.2, false, v.isNan⟩)
  | 4 => let r := v.toF8 e5m2; (r.1, ⟨r.2, false, v.isNan⟩)
  | 5 => let r := v.toIntSat 8 true (if requant then zp else 0); (r.1, ⟨r.2, false, v.isNan⟩)
  | 6 => let r := v.toIntSat 32 true 0; (r.1, ⟨r.2, false, v.isNan⟩)
  | _ => let r := v.round fp32; (r.bits, r.flags)

/-- Stage codes that take a group of per-column words from AGE, in the float, int32 and modular epilogues. -/
def ageCodes (mode : Nat) (h : DWord) : List Nat :=
  if mode ≥ 5 then [0x20, 0x21] else if intOnly mode h then [0x10] else [0x10, 0x18]

/-- The store words that the epilogue of a closing row reads from AGE (R199). -/
def epilogueWords (compat : Bool) (mode : Nat) (ch : Chain) : List Nat :=
  let n := (hdrEpi ch.header).countP (fun c => (ageCodes mode ch.header).contains c)
  agWords compat ch.age 0 (n * (modeCols mode / 8))

/-- Tile-register address of result element (r, c) of an MMUL: 32-bit results as Table ME-3. Narrower outputs of a chain lie in
shape B or H from DT on, columns 64 and up of shape H in the next register: Table ME-3 places 32-bit results only (DESIGN
CHOICE, notes/assumptions/98.md). -/
def resultAddr (mode dt bytes r c : Nat) : Nat :=
  if bytes = 4 then
    let reg := if mode ≤ 2 then 2 * (r / 64) + c / 64 else if mode ≤ 4 then r / 64 else if mode = 5 then 0 else c / 64
    16384 * (dt + reg) + 256 * (r % 64) + 4 * (c % 64)
  else if bytes = 2 then 16384 * (dt + c / 64) + 128 * r + 2 * (c % 64)
  else 16384 * dt + 128 * r + c

/-- Writes a result row to the tile registers. -/
def Isle.putRow (is : Isle) (mode dt bytes r : Nat) (l : List Nat) : Isle :=
  ((chunks 64 l).zipIdx).foldl (fun s t =>
    s.tileWrite (resultAddr mode dt bytes r (64 * t.2)) (t.1.flatMap (leBytes bytes))) is

/-- Byte address of word `n` of the closing MMUL under way, for a chain whose sink is the Isle store. The spec names no generator
for it (log 15). -/
def Isle.sinkAddr (is : Isle) (ch : Chain) (n : Nat) : Nat := 32 * (Config.sinkWord ch.header is.me.closed n % 98304)

/-- The store words that STMUL reads for a row of `words` result words: the destinations and the table words (R160). The table's
sequence starts anew in each MMUL, at the row's own words (DESIGN CHOICE, notes/assumptions/98.md). -/
def Isle.stmulWords (is : Isle) (compat : Bool) (ch : Chain) (words r : Nat) : List Nat :=
  (List.range words).map (fun t => is.sinkAddr ch (r * words + t) / 32) ++ agWords compat ch.ags (r * words) words

/-- Writes a result row to the Isle-store words of the sink (R153, R160); `st` adds each word's product with its STMUL
table word to the word in place. With `clk` the writes land as those of a port or of a step do (R230). -/
def Isle.sinkRow (is : Isle) (clk : Bool) (compat : Bool) (ch : Chain) (prime : Nat → Nat) (stmul : Bool) (bytes r : Nat)
    (l : List Nat) : Isle :=
  let words := chunks 32 (l.flatMap (leBytes bytes))
  (words.zipIdx).foldl (fun s t =>
    let n := r * words.length + t.2
    let a := s.sinkAddr ch n
    if stmul then
      let out := (List.range 8).flatMap (fun k =>
        let p := prime (8 * t.2 + k)
        let d := (s.storeW (a + 4 * k)).toNat % p
        let x := leAt t.1 (4 * k) 4 % p
        leBytes 4 ((d + x * ((s.agWord compat ch.ags n k).toNat % p)) % p))
      s.put (if clk then 5 else 0) (.step a out) FlagSet.none
    else s.put (if clk then 1 else 0) (.store [(a, t.1)]) FlagSet.none) is

/-- The destination word an accumulating row starts from. In the second link of a SOFTSTAT chain the held row is first
rescaled by the tile's γ, and starts at +0 with the first tile (R166). -/
def softScale (st : RowStat) (link2 : Bool) (dt : Nat) (d : Nat) : Nat :=
  if link2 && !st.gammas.isEmpty then
    let k := (st.applied.find? (fun p => p.1 == dt)).elim 0 (·.2)
    if k = 0 then 0
    else match st.gammas[k]? with
      | some g => (f32mul g (BitVec.ofNat 32 d)).toNat
      | none => d
  else d

def softApplied (st : RowStat) (link2 : Bool) (dt : Nat) : RowStat :=
  if link2 && !st.gammas.isEmpty then
    let k := (st.applied.find? (fun p => p.1 == dt)).elim 0 (·.2)
    { st with applied := (dt, k + 1) :: st.applied.filter (fun p => p.1 != dt) }
  else st

/-- The values the float stages start from: the accumulator, divided by l in the second link of a SOFTSTAT chain (R166), then
rounded to IFMT with FUSE_EXACT, else with an int32 accumulator converted to fp32 (R158, R163, R164). -/
def epiFirst (mode : Nat) (ch : Chain) (st : RowStat) (x : Nat) : FV × FlagSet :=
  let v := if mode ≤ 1 then FV.ofInt (signedOf 32 x) else FV.ofBits fp32 x
  let v := if ch.link2 && !st.gammas.isEmpty then (v.div (f32 st.l)).via fp32 else v
  if hdrExact ch.header then stageRound ch.header v
  else (if mode ≤ 1 then v.via fp32 else v, FlagSet.none)

/-- The epilogue and sink of one closing result row (R152, R158 to R166). Row statistics belong to the row number FROW + j,
whichever feed block of the chain closes it, and wait for the chain's end to be written (DESIGN CHOICE,
notes/assumptions/98.md). -/
def Isle.closeRow (is : Isle) (clk : Bool) (compat : Bool) (f : MmulFields) (ch : Chain) (w : WeightSet) (r : Nat) (l : List Nat) : Isle :=
  let m := f.mode.toNat
  let h := ch.header
  let prime := fun n => w.prime f.mode (n % 16)
  let codes := hdrEpi h
  let put := fun (s : Isle) (bytes : Nat) (stmul : Bool) (x : List Nat) =>
    if hdrSink h = 1 then s.sinkRow clk compat ch prime stmul bytes r x else s.putRow m f.dt.val bytes r x
  if m ≥ 5 then
    let e := codes.foldl (Isle.modStage is compat ch prime) (l, 0)
    put is 4 (codes.contains 0x22) e.1
  else if intOnly m h then
    let e := codes.foldl (Isle.intStage is compat ch) (l.map (signedOf 32), false, 0)
    put (is.meFlags ⟨e.2.1, false, false⟩) 4 false (e.1.map (wrapOf 32))
  else
    let st := is.me.stat r
    let first := l.map (epiFirst m ch st)
    let e := codes.foldl (Isle.epiStage is compat ch)
      { vals := first.map (·.1), flags := first.foldl (fun g x => g.or x.2) FlagSet.none, used := 0, stat := st,
        requant := false, p := none }
    let me := is.me.setStat r e.stat
    let is := { is with me := if codes.contains 0x30 then { me with norm := ch.ags } else me }
    match e.p with
    | some p => put (is.meFlags e.flags) (ofmtBytes (hdrOfmt h)) false p
    | none =>
      let o := e.vals.map (sinkConv (hdrOfmt h) e.requant (sgn ch.sz))
      put (is.meFlags (o.foldl (fun f x => f.or x.2) e.flags)) (ofmtBytes (hdrOfmt h)) false (o.map (·.1))

/-- The chain has ended: each row's μ and M / n go to the store, 4 bytes each from the AGS element of the row's number on
(R165; their layout is a DESIGN CHOICE, notes/assumptions/98.md). -/
def Isle.normWrite (compat : Bool) (is : Isle) : Isle :=
  match is.me.norm with
  | none => is
  | some g =>
    let x := (is.me.stats.zipIdx).foldl (fun (s : Isle) (t : RowStat × Nat) =>
      if t.1.n = 0 then s
      else s.storeWrite (g.elem compat t.2) (leBytes 4 t.1.mu.toNat ++ leBytes 4 (f32div t.1.m2 t.1.n).toNat)) is
    { x with me := { x.me with norm := none } }

/-- Reads the store words of one Isle cycle of feed: two of them in one bank are BANKCONF (R157, R231). -/
def Isle.feedCheck (i : IsleIdx) (is : Isle) (ws : List Nat) : Isle × List Report :=
  let c := is.storeCheck i ws
  if (ws.map bankOf).Nodup then c else let b := c.1.bankConflict i; (b.1, c.2 ++ b.2)

/-- A read met a contained fault: an uncorrectable word, or two accesses in one bank slot. -/
def contains1 (l : List Report) : Bool := l.any (fun r => r.detail == 1)

/-- The feed of row j enters the array (R127, R156, R198): its words are read and checked, then the prologue runs. -/
def Isle.mmulFeed (i : IsleIdx) (compat : Bool) (f : MmulFields) (ch : Chain) (w : WeightSet) (feed : AgCap) (j : Nat) (is : Isle) :
    Isle × List Report × List Nat :=
  let m := f.mode.toNat
  let raw := is.feedRaw compat f ch feed j
  let c1 := if f.fsrc then is.feedCheck i raw.2
    else is.tileCheck i (wordsOf 32 (16384 * f.ft.val + (if m = 5 ∨ m = 6 then 256 else 128) * (f.frow.toNat + j))
      (if m ≥ 5 then 256 else 128))
  let c2 := c1.1.storeCheck i (prologueWords compat f ch j)
  (c2.1, c1.2 ++ c2.2, (hdrPro ch.header).foldl (fun l code => c2.1.prologue compat f ch w j code l) raw.1)

/-- Tile words that the accumulate read of result row r covers (R130). -/
def accWords (f : MmulFields) (r : Nat) : List Nat :=
  let m := f.mode.toNat
  (List.range (modeCols m / 64)).flatMap (fun q => wordsOf 32 (resultAddr m f.dt.val 4 r (64 * q)) 256)

/-- The words that finishing a row reads: its destination when ACC is 1 (R131), and the operands of its stages (R227). -/
def Isle.finishCheck (i : IsleIdx) (compat : Bool) (f : MmulFields) (ch : Chain) (r : Nat) (is : Isle) : Isle × List Report :=
  let m := f.mode.toNat
  let a := if f.acc then is.tileCheck i (accWords f r) else (is, [])
  if f.close && ch.header != 0 then
    let b := a.1.storeCheck i (epilogueWords compat m ch ++
      (if m ≥ 5 && hdrSink ch.header == 1 && (hdrEpi ch.header).contains 0x22 then a.1.stmulWords compat ch (modeCols m / 8) r else []))
    (b.1, a.2 ++ b.2)
  else a

/-- The row with number r leaves the array with the feed `x`: product, epilogue and write (R127, R152). A row whose reads meet a
contained fault is not written (R150). -/
def Isle.mmulFinish (clk : Bool) (i : IsleIdx) (compat : Bool) (f : MmulFields) (ch : Chain) (w : WeightSet) (r : Nat) (x : List Nat) (is : Isle) :
    Isle × List Report :=
  let m := f.mode.toNat
  let c := is.finishCheck i compat f ch r
  let is := c.1
  if contains1 c.2 then c
  else
    let st := is.me.stat r
    let res := (List.range (modeCols m)).map (fun n =>
      let d := if f.acc then leNat (is.tileRead (resultAddr m f.dt.val 4 r n) 4) else 0
      productElem f w x n (if 2 ≤ m ∧ m ≤ 4 then softScale st ch.link2 f.dt.val d else d))
    let is := is.meFlags (res.foldl (fun g y => g.or y.2) FlagSet.none)
    let is := if 2 ≤ m ∧ m ≤ 4 ∧ ch.link2 then { is with me := is.me.setStat r (softApplied st ch.link2 f.dt.val) } else is
    let l := res.map (·.1)
    let is := if f.close && ch.header != 0 then is.closeRow clk compat f ch w r l else is.putRow m f.dt.val 4 r l
    (is, c.2)

/-- The fill latency F of Table ME-7, longer by 8 Isle cycles for a feed from the store and by 2 for a result to it (R146). -/
def fillLatency (mode : Nat) (fsrc sink : Bool) : Nat :=
  (if mode ≤ 1 then 136 else if mode = 2 then 140 else if mode ≤ 4 then 76 else 38) + (if fsrc then 8 else 0) + (if sink then 2 else 0)

/-- Rows in the array, oldest first, as an MMUL's Isle cycles go by; `dead` once a contained fault has discarded them (R150). -/
structure MmulRun where
  is : Isle
  reports : List Report
  flight : List (List Nat)
  dead : Bool
  deriving DecidableEq, Repr

/-- Isle cycle t of an MMUL of n rows: the row fed F cycles ago is written, after row t has been read (R130, R145). -/
def MmulRun.cycle (i : IsleIdx) (compat : Bool) (f : MmulFields) (ch : Chain) (feed : AgCap) (n F : Nat) (x : MmulRun) (t : Nat) :
    MmulRun :=
  if x.dead then x
  else
    let w := x.is.me.activeSet
    let x := if t < n then
        let c := Isle.mmulFeed i compat f ch w feed t x.is
        { is := c.1, reports := x.reports ++ c.2.1, flight := x.flight ++ [c.2.2], dead := contains1 c.2.1 }
      else x
    if x.dead || t < F then x
    else match x.flight with
      | [] => x
      | y :: rest =>
        let c := Isle.mmulFinish false i compat f ch w (f.frow.toNat + (t - F)) y x.is
        { is := c.1, reports := x.reports ++ c.2, flight := rest, dead := contains1 c.2 }

/-- A chain whose first MMUL this is starts its row statistics anew (R165, R166). -/
def Isle.chainFor (is : Isle) (ch : Chain) : Isle :=
  if is.me.statGen = ch.gen then is
  else { is with me := { is.me with stats := [], norm := none, closed := 0, statGen := ch.gen } }

/-- An MMUL has written its last row. -/
def Isle.mmulClosed (is : Isle) (f : MmulFields) (ch : Chain) : Isle :=
  if f.close && ch.header != 0 then { is with me := { is.me with closed := is.me.closed + 1 } } else is

/-- The first multiply with a latch of wrong parity (R150). -/
def Isle.parityFault (i : IsleIdx) (is : Isle) : Isle × List Report :=
  ({ is with me := { is.me with wpar := true } }, [{ Report.of (0x3000 + i.val) with detail := 1 }])

/-- MMUL: issues its feed rows, one an Isle cycle, and writes each F cycles later. The first multiply that uses a latch of wrong
parity discards every row and is reported; a corrected error of the same cycle's feed is still counted (R150). -/
def Isle.mmul (i : IsleIdx) (compat : Bool) (f : MmulFields) (ch : Chain) (feed : AgCap) (is : Isle) : Isle × List Report :=
  let n := feedRows compat f feed
  let is := Isle.chainFor { is with me := { is.me with mode := f.mode } } ch
  if is.me.activeSet.badParity && n ≠ 0 then
    let c := Isle.mmulFeed i compat f ch is.me.activeSet feed 0 is
    let p := c.1.parityFault i
    (p.1, c.2.1 ++ p.2)
  else
    let F := fillLatency f.mode.toNat f.fsrc (f.close && hdrSink ch.header == 1)
    let r := (List.range (n + F)).foldl (MmulRun.cycle i compat f ch feed n F) { is := is, reports := [], flight := [], dead := false }
    (r.is.mmulClosed f ch, r.reports)

end Sys2Proof.Machine
end

