-- ==== Sys2Proof/Machine/Skerry.lean ====
section
/-! DEFINITION. The Skerry: scalar and control instructions, the issue of engine instructions into their queues with what
they capture, hardware loops, traps, tokens at queue heads, and the drain of the queues of one Isle
(R184 to R197, R203 to R216). -/

namespace Sys2Proof.Machine

/-- Queue depths (Table ISA-1). -/
def mqDepth : Nat := 16
def vqDepth : Nat := 64
def dqDepth : Nat := 16
def bqDepth : Nat := 32

/-! ## Program counter, loops and time -/

/-- Leaves or repeats the loops whose body ends at `pc` (R194). -/
def settleLoops : List LoopFrame → Nat → List LoopFrame × Nat
  | [], pc => ([], pc)
  | f :: t, pc =>
    if pc = f.past then
      if f.idx + 1 < f.count then ({ f with idx := f.idx + 1 } :: t, f.first) else settleLoops t pc
    else (f :: t, pc)

/-- Continues fetch at `pc`, loops settled. -/
def Isle.goto (is : Isle) (pc : Nat) : Isle :=
  let r := settleLoops is.sk.loops pc
  { is with sk := { is.sk with loops := r.1, pc := r.2 } }

/-- The longest token wait seen, with its slot (ISL_TOKSTAT). -/
def Isle.noteWait (is : Isle) (w : Nat) (slot : Nat) : Isle :=
  if w > is.tokMax.toNat then { is with tokMax := BitVec.ofNat 24 (min w 0xFFFFFF), tokSlot := BitVec.ofNat 7 slot } else is

/-- The slot a waiting sync field waits for: RSLOT while it is not FULL, else WSLOT. -/
def Isle.waitSlot (is : Isle) (y : Sync) : Nat :=
  if y.rv && !(is.slot y.rslot).full then y.rslot.val else y.wslot.val

/-- An MVISSUE waits only for its RSLOT: WSLOT acts at the batch's first write (R243). -/
def headSync (e : QEntry) : Sync :=
  match e.op with
  | .mvissue _ _ => { e.sync with wv := false }
  | _ => e.sync

/-- Adds `n` Isle cycles to the wait of a queue's head when a token holds it (R207). -/
def Isle.bumpQ (is : Isle) (n : Nat) : List QEntry → Isle × List QEntry
  | [] => (is, [])
  | e :: t =>
    if is.ready (headSync e) then (is, { e with wait := 0 } :: t)
    else (is.noteWait (e.wait + n) (is.waitSlot (headSync e)), { e with wait := e.wait + n } :: t)

/-- The slot that ISL_TOKSTAT names for a token wait on no slot of the Isle: SWAP for its page, a delivery credit. An open
value (R208, R216, R253). -/
def noSlot (k : Nat) : Nat := (Config.isleWord 6 k).toNat % 128

/-- Instructions of the Skerry's own issue stage that wait as a token wait, with the slot: TTAKE and TPUT with SK, and SWAP
(R202, R216). -/
def Isle.heldSlot (is : Isle) : Option Nat :=
  match is.sk.held with
  | some (.ttake f) | some (.tput f) => if f.sk then some (is.waitSlot f.sync) else none
  | some (.swap _ _) => some (noSlot 0)
  | _ => none

/-- A read phase is under way: blocks of the source are still to be brought in (R252). -/
def Mover.reading (m : Mover) : Bool := m.staged.any (fun g => decide (g.inn < g.blocks))

/-- Waits of the mover: the batch's head for its RSLOT unless `go`, the oldest write phase, arrivals, and standing forwards for a
delivery credit (R207, R252, R253). -/
def Mover.pass (m : Mover) (n : Nat) (go : Bool) : Mover :=
  { m with
    rwait := if go then 0 else m.rwait + n
    staged := (match m.staged with
      | [] => []
      | g :: t => { g with wait := g.wait + n } :: t)
    arrivals := m.arrivals.map (fun a => { a with wait := a.wait + n })
    fwds := m.fwds.map (fun f => if f.pend.isEmpty then f else { f with wait := f.wait + n }) }

/-- The slot for which the oldest write phase waits: its own, its batch's, or that of a delivery credit (R243, R252, R253). -/
def Isle.writeSlot (is : Isle) (g : Staged) : Nat :=
  if g.d.sync.wv && (is.slot g.d.sync.wslot).full then g.d.sync.wslot.val
  else match g.bwv with
    | some k => if g.first && (is.slot k).full then k.val else noSlot 1
    | none => noSlot 1

/-- The token waits of the mover under way, each with its length and its slot. -/
def Isle.moverWaits (is : Isle) : List (Nat × Nat) :=
  (match is.mov.batch with
    | [] => []
    | b :: _ => if is.mov.rwait = 0 then [] else [(is.mov.rwait, b.2.1.sync.rslot.val)]) ++
  (match is.mov.staged with
    | [] => []
    | g :: _ => [(g.wait, is.writeSlot g)]) ++
  is.mov.arrivals.map (fun a => (a.wait, (is.slotAt a.addr).elim (noSlot 2) (·.val))) ++
  (is.mov.fwds.filter (fun f => !f.pend.isEmpty)).map (fun f => (f.wait, noSlot 1))

/-- The token waits under way outside the queues: the Skerry's own and the mover's (R207, R208). -/
def Isle.otherWaits (is : Isle) : List (Nat × Nat) :=
  (is.heldSlot.map (fun k => (is.sk.heldWait, k))).toList ++ is.moverWaits

def Isle.noteWaits (is : Isle) : Isle := is.otherWaits.foldl (fun x w => x.noteWait w.1 w.2) is

/-- Isle cycles pass: CYC advances and every token wait grows (R186, R207). -/
def Isle.pass (is : Isle) (n : Nat) : Isle :=
  let a := is.bumpQ n is.mq
  let b := a.1.bumpQ n is.vq
  let c := b.1.bumpQ n is.dq
  let d := c.1.bumpQ n is.bq
  let x := { d.1 with mq := a.2, vq := b.2, dq := c.2, bq := d.2 }
  let x := { x with mov := x.mov.pass n (match x.mov.batch with
    | [] => true
    | b :: _ => x.mov.reading || x.ready { b.2.1.sync with wv := false }) }
  let x := if x.heldSlot.isSome then { x with sk := { x.sk with heldWait := x.sk.heldWait + n } } else x
  let x := x.noteWaits
  { x with sk := { x.sk with cyc := x.sk.cyc + n } }

/-- A token wait longer than ISL_SLACK (R207). -/
def Isle.overdue (is : Isle) : Bool :=
  decide (is.slack.toNat < is.tokMax.toNat) || is.otherWaits.any (fun w => decide (is.slack.toNat < w.1)) ||
  [is.mq, is.vq, is.dq, is.bq].any (fun q => q.head?.any (fun e => decide (is.slack.toNat < e.wait)))

/-- An instruction that has issued: the Isle it leaves, the Isle cycles until the next one can issue, and its reports. -/
structure Issued where
  is : Isle
  cycles : Nat
  reports : List Report
  deriving DecidableEq, Repr

/-- The instruction's own Isle cycles pass. Those for which WAITCYC holds the issue count for CYC alone here: what waits then is
counted as the clock brings those cycles (DESIGN CHOICE, notes/assumptions/99.md). -/
def Issued.run (x : Issued) : Isle × List Report :=
  let is := if x.cycles = 0 then x.is else x.is.pass (min x.cycles 3)
  ({ is with sk := { is.sk with cyc := is.sk.cyc + (x.cycles - 3) } }, x.reports)

/-- The instruction at PC is done: the next one in program order, `n` Isle cycles later. -/
def Isle.after (is : Isle) (n : Nat) (l : List Report) : Issued := { is := is.goto (is.sk.pc + 8), cycles := n, reports := l }
def Isle.retire (is : Isle) (n : Nat) : Isle := (is.goto (is.sk.pc + 8)).pass n

/-- Fetch goes on where the instruction has put PC. -/
def Isle.from (is : Isle) (n : Nat) : Issued := { is := is, cycles := n, reports := [] }

/-- A taken branch to PC + IMM32: 2 idle Isle cycles (R193). -/
def Isle.jump (is : Isle) (imm : Word) : Issued :=
  Isle.from { is with sk := { is.sk with pc := wrapOf 32 (is.sk.pc + sgn imm) } } 3

/-- A trap stops the Skerry at the instruction and reports a contained fault (R185, R187). -/
def Isle.trap (i : IsleIdx) (is : Isle) (cause : Nat) : Isle × List Report :=
  ({ is with sk := { is.sk with st := .trapped, cause := BitVec.ofNat 6 cause } },
   [{ Report.of (0x9000 + i.val) with detail := BitVec.ofNat 32 (256 + cause % 64) }])

/-- A trap at issue. -/
def Isle.trapped (i : IsleIdx) (is : Isle) (cause : Nat) : Issued :=
  let t := is.trap i cause
  { is := t.1, cycles := 0, reports := t.2 }

/-! ## Scalar results -/

/-- The result of an integer or float operation of Table ISA-2 (R184, R185, R191). -/
def scalarResult (op : SOp) (a b c : Word) : Word :=
  match op with
  | .add => a + b
  | .sub => a - b
  | .and => a &&& b
  | .or => a ||| b
  | .xor => a ^^^ b
  | .sll => a <<< (b.toNat % 32)
  | .srl => a >>> (b.toNat % 32)
  | .sra => a.sshiftRight (b.toNat % 32)
  | .slt => if a.slt b then 1 else 0
  | .sltu => if a.ult b then 1 else 0
  | .seq => if a = b then 1 else 0
  | .sne => if a ≠ b then 1 else 0
  | .mul => a * b
  | .mulh => BitVec.ofInt 32 (a.toInt * b.toInt / 2 ^ 32)
  | .mulhu => BitVec.ofNat 32 (a.toNat * b.toNat / 2 ^ 32)
  | .div => if b = 0 then 0xFFFFFFFF else a.sdiv b
  | .divu => if b = 0 then 0xFFFFFFFF else a / b
  | .rem => if b = 0 then a else a.srem b
  | .remu => if b = 0 then a else a % b
  | .fadd => f32add a b
  | .fsub => f32sub a b
  | .fmul => f32mul a b
  | .fma => f32fma a b c
  | .fdiv => f32div a b
  | .fsqrt => f32sqrt a
  | .fcvtws => f32toInt a
  | .fcvtsw => f32ofInt a
  | _ => 0

/-- Bytes of a scalar access; 0 for other operations. -/
def accessBytes : SOp → Nat
  | .ld8 | .ld8u | .st8 => 1
  | .ld16 | .ld16u | .st16 => 2
  | .ld32 | .st32 => 4
  | _ => 0

def isStore : SOp → Bool
  | .st8 | .st16 | .st32 => true
  | _ => false

/-- The value a load writes, sign- or zero-extended (Table ISA-2). -/
def loadExt (op : SOp) (x : Nat) : Word :=
  match op with
  | .ld8 => BitVec.ofNat 32 (wrapOf 32 (signedOf 8 x))
  | .ld16 => BitVec.ofNat 32 (wrapOf 32 (signedOf 16 x))
  | _ => BitVec.ofNat 32 x

/-- The byte address s_sa + IMM32, modulo 2^32 (R192). -/
def Isle.scalarAddr (is : Isle) (f : SFields) : Nat := (is.reg f.sa + f.imm).toNat

/-- A scalar load or store with the traps of R185; an access beyond the visible store is cause 1, a misaligned one 2. -/
def Isle.scalarMem (i : IsleIdx) (compat : Bool) (op : SOp) (f : SFields) (is : Isle) : Issued :=
  let a := is.scalarAddr f
  let n := accessBytes op
  if a + n > visibleStore compat then is.trapped i 1
  else if a % n ≠ 0 then is.trapped i 2
  else if isStore op then (is.storeWrite a (leBytes n (is.reg f.sb).toNat)).after 1 []
  else
    let c := is.storeCheck i [a / 32]
    (c.1.setReg f.sd (loadExt op (leNat (is.storeRead a n)))).after 1 c.2

/-- A scalar instruction at the Skerry (R191, R192). -/
def Isle.scalar (i : IsleIdx) (compat : Bool) (op : SOp) (f : SFields) (is : Isle) : Issued :=
  if accessBytes op ≠ 0 then is.scalarMem i compat op f
  else (is.setReg f.sd (scalarResult op (is.reg f.sa) (is.opB f) (is.reg f.sc))).after 1 []

/-- The condition of a branch (Table ISA-3). -/
def branchTaken (op : BrOp) (a b : Word) : Bool :=
  match op with
  | .beq => a == b
  | .bne => a != b
  | .blt => a.slt b
  | .bge => !a.slt b
  | .bltu => a.ult b
  | .bgeu => !a.ult b

def Isle.branch (op : BrOp) (f : BrFields) (is : Isle) : Issued :=
  if branchTaken op (is.reg f.sa) (is.reg f.sb) then is.jump f.imm else is.after 1 []

/-- LOOP (R194): the count is latched; a count of 0 skips the body. -/
def Isle.loopOpen (sa : Fin 32) (ci : Bool) (maxcnt : BitVec 24) (body : BitVec 16) (is : Isle) : Issued :=
  let count := if ci then maxcnt.toNat else min ((is.reg sa).toNat % 2 ^ 24) maxcnt.toNat
  let first := is.sk.pc + 8
  let past := first + 8 * body.toNat
  if count = 0 ∨ body = 0 then (is.goto past).from (if count = 0 then 3 else 1)
  else Isle.from { is with sk := { is.sk with
    loops := { first := first, past := past, count := count, idx := 0 } :: is.sk.loops, pc := first } } 1

/-- LEXIT (R195). -/
def Isle.loopExit (sa : Fin 32) (is : Isle) : Issued :=
  match is.sk.loops with
  | [] => is.after 1 []
  | l :: t =>
    if is.reg sa = 0 then is.after 1 []
    else (({ is with sk := { is.sk with loops := t } }).goto l.past).from 3

/-- LIDX; the index of a loop that is not open is an open value. -/
def Isle.loopIndex (sd : Fin 32) (k : Fin 8) (is : Isle) : Issued :=
  (is.setReg sd (match is.sk.loops[k.val]? with
    | some l => BitVec.ofNat 32 l.idx
    | none => Config.isleWord 1 k.val)).after 1 []

/-- WAITCYC in Isle cycle c: the next instruction issues in max(c + 1, TARGET); a lateness beyond ISL_SLACK raises
SCHEDULE_OVERRUN (R196). -/
def Isle.waitCycle (i : IsleIdx) (target : BitVec 48) (is : Isle) : Issued :=
  let c1 := is.sk.cyc + 1
  let late := c1 - target.toNat
  let x := is.noteWait late 0x7F
  let n := max c1 target.toNat - is.sk.cyc
  if late > is.slack.toNat then Isle.after { x with tokOvr := true } n [{ Report.of (0x9000 + i.val) with overrun := true }]
  else x.after n []

/-! ## Control registers (Table VS-3) -/

/-- ISL_VESTAT (R188). -/
def Isle.vestat (is : Isle) : Nat := 4 * b2n is.ve.sat + 2 * b2n is.ve.ovf + b2n is.ve.nan

def Isle.csr (i : IsleIdx) (is : Isle) (n : Nat) : Option Word :=
  match n with
  | 0x000 => some (BitVec.ofNat 32 i.val)
  | 0x001 => some (BitVec.ofNat 32 (is.sk.runFirst.toNat * 256 + is.sk.runRows.toNat))
  | 0x002 => some (is.sk.owner.setWidth 32)
  | 0x003 => some is.sk.jobtag
  | 0x004 => some (BitVec.ofNat 32 is.sk.cyc)
  | 0x005 => some is.sk.cycHi
  | 0x006 => some (if is.sk.active then 1 else 0)
  | 0x007 => some (BitVec.ofNat 32 is.vestat)
  | 0x010 => some is.sk.scr[0]
  | 0x011 => some is.sk.scr[1]
  | 0x012 => some is.sk.scr[2]
  | 0x013 => some is.sk.scr[3]
  | _ => none

/-- CSRR: reading CYC_LO latches CYC_HI; a number that names no register writes nothing. -/
def Isle.csrRead (i : IsleIdx) (sd : Fin 32) (num : BitVec 12) (is : Isle) : Issued :=
  let x := match is.csr i num.toNat with
    | some v => is.setReg sd v
    | none => is
  let x := if num = 4 then { x with sk := { x.sk with cycHi := BitVec.ofNat 32 (is.sk.cyc / 2 ^ 32) } } else x
  x.after 1 []

/-- CSRW: only SCR0 to SCR3 are written (R186). -/
def Isle.csrWrite (sa : Fin 32) (num : BitVec 12) (is : Isle) : Issued :=
  let n := num.toNat
  (if n / 4 = 4 then { is with sk := { is.sk with scr := vset is.sk.scr (finOf 3 n) (is.reg sa) } } else is).after 1 []

/-- AGLD: loads a generator from 64 bytes of the store, usable 7 Isle cycles later (R209, R212); beyond the visible store it traps
as a scalar access. -/
def Isle.agLoad (i : IsleIdx) (compat : Bool) (ag : Fin 16) (sa : Fin 32) (imm : Word) (is : Isle) : Issued :=
  let a := (is.reg sa + imm).toNat
  if a + 64 > visibleStore compat then is.trapped i 1
  else
    let c := is.storeCheck i (wordsOf 32 a 64)
    Isle.after { c.1 with sk := c.1.sk.agPut ag 7 (.whole (agOfBytes (is.storeRead a 64))) } 1 c.2

/-- AGW: writes one field, with the latency of a control-register write, 2 Isle cycles (R209, R212). -/
def Isle.agWrite (ag : Fin 16) (fld : BitVec 6) (sb : Fin 32) (is : Isle) : Issued :=
  Isle.after { is with sk := is.sk.agPut ag 2 (.field fld.toNat (is.reg sb)) } 1 []

/-- CHAINH latches the header s_sb:s_sa when it issues; a header of all zeros ends the chain (R199). -/
def Isle.chainHead (sa sb : Fin 32) (link2 : Bool) (is : Isle) : Issued :=
  let h : DWord := BitVec.ofNat 64 ((is.reg sb).toNat * 2 ^ 32 + (is.reg sa).toNat)
  let g := is.sk.chain.gen
  let c := if h = 0 then { Chain.none with gen := g + 1 } else { is.sk.chain with header := h, link2 := link2 }
  Isle.after { is with sk := { is.sk with chain := c } } 1 []

/-- CHAINA binds the stage operands; scalars are captured at issue (R199). -/
def Isle.chainArgs (f : ChainaFields) (is : Isle) : Issued :=
  Isle.after { is with sk := { is.sk with chain := { is.sk.chain with
    agp := is.capOpt f.agp, age := is.capOpt f.age, ags := is.capOpt f.ags,
    sx := is.reg f.sx, sy := is.reg f.sy, sz := is.reg f.sz } } } 1 []

/-! ## Queues -/

/-- The mover has no descriptor of an earlier batch still to complete. -/
def Mover.idle (m : Mover) : Bool := m.batch.isEmpty && m.unread == 0 && m.staged.isEmpty && m.batchWv.isNone

/-- No feed row and no weight row is in the array (ISL_MECFG.BUSY). -/
def Units.matrixIdle (u : Units) : Bool := u.feed.isNone && u.rows.isEmpty && u.load.isNone
def Units.vectorIdle (u : Units) : Bool := u.arith.isNone && u.vread.isNone && u.vwrite.isNone
def Units.bankIdle (u : Units) : Bool := u.chZ.isNone && u.chK.isNone && u.chE.isNone

/-- The queues that QMASK names are empty and their last instructions have completed (FENCE, END). -/
def Isle.quiet (is : Isle) (mask : Nat) : Bool :=
  (!mask.testBit 0 || (is.mq.isEmpty && is.un.matrixIdle)) && (!mask.testBit 1 || (is.vq.isEmpty && is.un.vectorIdle)) &&
  (!mask.testBit 2 || (is.dq.isEmpty && is.mov.idle && is.sk.imload.isNone)) && (!mask.testBit 3 || (is.bq.isEmpty && is.un.bankIdle)) &&
  is.un.flight.isEmpty

def entry (op : QOp) (y : Sync) : QEntry := { op := op, sync := y, wait := 0 }

/-- Passes an instruction to queue MQ, VQ, DQ or BQ (0–3); none while that queue is full (R203). -/
def Isle.push (is : Isle) (q : Fin 4) (e : QEntry) : Option Isle :=
  if q = 0 then (if is.mq.length < mqDepth then some { is with mq := is.mq ++ [e] } else none)
  else if q = 1 then (if is.vq.length < vqDepth then some { is with vq := is.vq ++ [e] } else none)
  else if q = 2 then (if is.dq.length < dqDepth then some { is with dq := is.dq ++ [e] } else none)
  else (if is.bq.length < bqDepth then some { is with bq := is.bq ++ [e] } else none)

/-- A push followed by the retirement of the instruction. -/
def Isle.pushed (is : Isle) (q : Fin 4) (e : QEntry) : Option Issued := (is.push q e).map (fun x => x.after 1 [])

/-- TTAKE and TPUT: at a queue's head, or with SK = 1 in the issue stage (R202). -/
def Isle.tokenOp (f : TFields) (is : Isle) : Option Issued :=
  if f.sk then (if is.ready f.sync then some ((is.syncDone f.sync).after 1 []) else none)
  else is.pushed f.q (entry .token f.sync)

/-- The shadow bank. -/
def Skerry.shadow (k : Skerry) : ImBank := if k.active then k.bank0 else k.bank1
def Skerry.activeBank (k : Skerry) : ImBank := if k.active then k.bank1 else k.bank0
def Skerry.setShadow (k : Skerry) (b : ImBank) : Skerry := if k.active then { k with bank0 := b } else { k with bank1 := b }

/-- A bank's valid tag names page `page` of the running image (R216). -/
def Skerry.hasPage (k : Skerry) (b : ImBank) (page : Nat) : Bool :=
  match k.run with
  | some (fn, h) => b.valid && b.fn == fn && b.image == h && b.page.toNat == page
  | none => false

/-- SWAP (R216): none while the shadow bank does not hold the page. -/
def Isle.swapBank (page : Fin 16) (imm : Word) (is : Isle) : Option Issued :=
  if is.sk.imload.isNone && is.sk.hasPage is.sk.shadow page.val then
    some (Isle.from { is with sk := { is.sk with active := !is.sk.active, pc := imm.toNat } } 3)
  else none

/-! ## Interlock on summaries (R180, R235) -/

/-- Scalar registers that an instruction in VQ or BQ will still write, and those of results on their way. -/
def Isle.pendingRegs (is : Isle) : List (Fin 32) :=
  is.vq.filterMap (fun e => match e.op with
    | .vec op f _ _ => if isSummary op then some f.sn else none
    | _ => none) ++
  is.bq.filterMap (fun e => match e.op with
    | .bank op f _ _ _ _ => if isCount op then some (finOf 31 (f.sn.val + 1)) else none
    | _ => none) ++
  (is.un.arith.filter (fun r => isSummary r.op)).toList.map (fun r => r.f.sn) ++
  (is.un.chZ.filter (fun r => isCount r.op)).toList.map (fun r => finOf 31 (r.f.sn.val + 1)) ++
  is.un.flight.filterMap (fun l => match l.op with
    | .sreg r _ => some r
    | _ => none) ++
  is.un.regs.map (·.1)

/-- Offset registers of the generators an instruction captures. -/
def Isle.oregs (is : Isle) (l : List (Fin 16)) : List (Fin 32) :=
  (l.filter (· != 15)).map (fun k => (is.cap k).ag.oreg)

/-- Scalar registers an instruction reads or writes when it issues. -/
def Isle.uses (is : Isle) : IsleInstr → List (Fin 32)
  | .scalar op f =>
    match op with
    | .fma => [f.sd, f.sa, f.sb, f.sc]
    | .fsqrt | .fcvtws | .fcvtsw | .ld8 | .ld8u | .ld16 | .ld16u | .ld32 => [f.sd, f.sa]
    | .st8 | .st16 | .st32 => [f.sa, f.sb]
    | _ => if f.useImm then [f.sd, f.sa] else [f.sd, f.sa, f.sb]
  | .branch _ f => [f.sa, f.sb]
  | .loop sa ci _ _ => if ci then [] else [sa]
  | .lexit sa => [sa]
  | .lidx sd _ => [sd]
  | .csrr sd _ => [sd]
  | .csrw sa _ => [sa]
  | .agld _ sa _ => [sa]
  | .agw _ _ sb => [sb]
  | .chainh sa sb _ => [sa, sb]
  | .chaina f => [f.sx, f.sy, f.sz] ++ is.oregs [f.agp, f.age, f.ags]
  | .mmul f => if f.fsrc then [(is.cap f.ag).ag.oreg] else []
  | .vec op f => (if takesScalar op f.aux then [f.sn] else []) ++ is.oregs [f.ag]
  | .bank _ f => [f.sn, finOf 31 (f.sn.val + 1), (is.cap f.aga).ag.oreg, (is.cap f.agb).ag.oreg]
  | _ => []

def Isle.interlocked (is : Isle) (ins : IsleInstr) : Bool :=
  let p := is.pendingRegs
  !p.isEmpty && (is.uses ins).any (fun r => r != 0 && p.contains r)

/-! ## Issue -/

/-- Issues one instruction; none when it must wait (a full queue, a token, FENCE, SWAP or END). -/
def Isle.begin (i : IsleIdx) (compat : Bool) (is : Isle) (ins : IsleInstr) : Option Issued :=
  if is.interlocked ins then none
  else match ins with
  | .scalar op f => some (is.scalar i compat op f)
  | .branch op f => some (is.branch op f)
  | .j imm => some (is.jump imm)
  | .loop sa ci m b => some (is.loopOpen sa ci m b)
  | .lexit sa => some (is.loopExit sa)
  | .lidx sd k => some (is.loopIndex sd k)
  | .swap page imm => is.swapBank page imm
  | .waitcyc t => some (is.waitCycle i t)
  | .csrr sd n => some (is.csrRead i sd n)
  | .csrw sa n => some (is.csrWrite sa n)
  | .agld ag sa imm => some (is.agLoad i compat ag sa imm)
  | .agw ag fld sb => some (is.agWrite ag fld sb)
  | .fence q => if is.quiet q.toNat then some (is.after 1 []) else none
  | .iend => if is.quiet 15 then
      -- no MMUL follows: the last tile of a NORMSTAT link is behind (R165)
      some (Isle.from (Isle.normWrite compat { is with sk := { is.sk with ended := true, st := .halted } }) 0)
    else none
  | .wload f => if f.mode = 7 then some (is.after 1 []) else is.pushed 0 (entry (.wload f) f.sync)
  | .wswap y => is.pushed 0 (entry .wswap y)
  | .mmul f => if f.mode = 7 then some (is.after 1 [])
    else is.pushed 0 (entry (.mmul f is.sk.chain (is.cap f.ag)) f.sync)
  | .chainh sa sb f =>
    (is.push 0 (entry (.chainh (is.reg sa == 0 && is.reg sb == 0)) f.sync)).map (fun x => x.chainHead sa sb f.link2)
  | .chaina f => (is.push 0 (entry .token f.sync)).map (fun x => x.chainArgs f)
  | .vec op f => if vecOk op f then is.pushed 1 (entry (.vec op f (is.reg f.sn) (is.capOpt f.ag)) f.sync)
    else some (is.after 1 [])
  | .mvissue c a y => if c = 0 then some (is.after 1 []) else is.pushed 2 (entry (.mvissue c.toNat a.toNat) y)
  | .imload page f => is.pushed 2 (entry (.imload page) f.sync)
  | .bank op f => is.pushed 3 (entry (.bank op f (is.cap f.aga) (is.cap f.agb) (is.reg f.sn)
      (is.reg (finOf 31 (f.sn.val + 1)))) f.sync)
  | .ttake f => is.tokenOp f
  | .tput f => is.tokenOp f
  | .nop => some (is.after 1 [])

/-- An instruction that issues, its Isle cycles past. -/
def Isle.tryIssue (i : IsleIdx) (compat : Bool) (is : Isle) (ins : IsleInstr) : Option (Isle × List Report) :=
  (is.begin i compat ins).map Issued.run

/-- The Skerry can issue: it runs and nothing is held at issue. -/
def Isle.canIssue (is : Isle) : Bool := is.sk.st == .running && is.sk.held.isNone

/-- Issues an instruction, or holds it at issue (R203). -/
def Isle.issue (i : IsleIdx) (compat : Bool) (is : Isle) (ins : IsleInstr) : Isle × List Report :=
  match is.tryIssue i compat ins with
  | some r => r
  | none => ({ is with sk := { is.sk with held := some ins, heldWait := 0, st := .stalled } }, [])

/-! ## Queue heads -/

/-- What a reserved OP leaves of a descriptor: it moves nothing and waits for nothing. -/
def DescFields.idle : DescFields :=
  { version := 0, srcsp := 15, dstsp := 15, esize := 0, peer := 0, zpad := false, sref := 0, dref := 0, length := 0, src := 0, dst := 0,
    sync := Sync.none, target := 0, param := 0 }

/-- The next burst of up to 16 descriptors of the batch, with the checks of the 32 words it reads (R242). -/
def Isle.fetchBurst (i : IsleIdx) (is : Isle) : Isle × List Report :=
  let m := is.mov
  let n := min 16 m.unread
  let chk := is.storeCheck i (wordsOf 32 m.fetchAt (64 * n))
  let l := (List.range n).map (fun k =>
    let d := (descOf (is.storeRead (m.fetchAt + 64 * k) 64)).getD (.copy, DescFields.idle)
    (d.1, d.2, m.fetchIdx + k))
  ({ chk.1 with mov := { m with
    batch := m.batch ++ l, unread := m.unread - n, fetchAt := m.fetchAt + 64 * n, fetchIdx := m.fetchIdx + n } }, chk.2)

/-- The next burst is fetched while 16 or fewer fetched descriptors are not begun (R242). -/
def Isle.refetch (i : IsleIdx) (is : Isle) : Option (Isle × List Report) :=
  if decide (0 < is.mov.unread) && decide (is.mov.batch.length ≤ 16) then some (is.fetchBurst i) else none

/-- Carries out the instruction at a queue's head; none when the unit itself must wait. -/
def Isle.runEntry (i : IsleIdx) (compat : Bool) (e : QEntry) (is : Isle) : Option (Isle × List Report) :=
  match e.op with
  | .wload f => let r := is.wload i f; some (r.1.syncDone e.sync, r.2)
  | .wswap => some (is.wswap.syncDone e.sync, [])
  | .mmul f ch feed => let r := is.mmul i compat f ch feed; some (r.1.syncDone e.sync, r.2)
  | .vec op f sc ag => let r := is.vecRun i compat op f sc ag; some (r.1.syncDone e.sync, r.2)
  | .bank op f a b p c =>
    if onLane op then (if (is.laneRun (op == .mmack)).isNone then some (is.bankBegin op f a b p c, []) else none)
    else let r := is.bankRun i compat op f a b p c; some (r.1.syncDone e.sync, r.2)
  | .mvissue count addr =>
    -- the next batch starts when the last descriptor of the current one has begun its read phase (R242)
    if is.mov.batch.isEmpty && is.mov.unread == 0 then
      let r := Isle.fetchBurst i { is with mov := { is.mov with
        unread := count, fetchAt := addr / 64 * 64, fetchIdx := 0, batchWv := if e.sync.wv then some e.sync.wslot else none } }
      some (r.1.syncRead e.sync, r.2)
    else none
  | .imload page =>
    if is.sk.imload.isNone then
      -- the shadow bank is being written: its tag is not valid until the last word has landed (R215)
      some ({ is with sk := { is.sk.setShadow { is.sk.shadow with valid := false } with
        imload := some (BitVec.ofNat 4 page.val), imSync := e.sync } }, [])
    else none
  | .token => some (is.syncDone e.sync, [])
  | .chainh ends => some ((if ends then is.normWrite compat else is).syncDone e.sync, [])

/-- Runs the head of a queue, if its tokens are ready. -/
def Isle.runHead (i : IsleIdx) (compat : Bool) (is : Isle) (q : List QEntry) (put : Isle → List QEntry → Isle) :
    Option (Isle × List Report) :=
  match q with
  | [] => none
  | e :: t => if is.ready (headSync e) then (put is t).runEntry i compat e else none

/-- One step of progress inside the Isle: a queue head in the order MQ, VQ, BQ, DQ, else the held instruction. -/
def Isle.progress (i : IsleIdx) (compat : Bool) (is : Isle) : Option (Isle × List Report) :=
  (is.runHead i compat is.mq (fun s t => { s with mq := t })).orElse fun _ =>
  (is.runHead i compat is.vq (fun s t => { s with vq := t })).orElse fun _ =>
  (is.laneProgress i compat true).orElse fun _ =>
  (is.laneProgress i compat false).orElse fun _ =>
  (is.runHead i compat is.bq (fun s t => { s with bq := t })).orElse fun _ =>
  (is.runHead i compat is.dq (fun s t => { s with dq := t })).orElse fun _ =>
  (is.refetch i).orElse fun _ =>
  match is.sk.held with
  | some ins =>
    if is.sk.st == .stalled then
      (Isle.tryIssue i compat { is with sk := { is.sk with held := none, heldWait := 0, st := .running } } ins)
    else none
  | none => none

/-- Progress until nothing moves, at most `fuel` steps. -/
def Isle.drain (i : IsleIdx) (compat : Bool) : Nat → Isle → Isle × List Report
  | 0, is => (is, [])
  | fuel + 1, is =>
    match is.progress i compat with
    | none => (is, [])
    | some r => let d := Isle.drain i compat fuel r.1; (d.1, r.2 ++ d.2)

/-- More steps of progress than the queues of an Isle can ever hold. -/
def drainFuel : Nat := 160

/-- Issue and drain: what one instruction does inside its Isle. -/
def Isle.issueDrain (i : IsleIdx) (compat : Bool) (is : Isle) (ins : IsleInstr) : Isle × List Report :=
  let a := is.issue i compat ins
  let b := Isle.drain i compat drainFuel a.1
  (b.1, a.2 ++ b.2)

/-- The word the Skerry fetches at PC from the active bank; none beyond the loaded image (R185, R214). -/
def Isle.fetch (is : Isle) : Option IsleInstr :=
  let b := is.sk.activeBank
  if b.valid && decide (is.sk.pc < 32768) && is.sk.pc % 8 == 0 then (b.words[is.sk.pc / 8]?).map decodeIsle else none

/-- Fetches and issues the next instruction, or traps on a fetch beyond the image. -/
def Isle.step (i : IsleIdx) (compat : Bool) (is : Isle) : Isle × List Report :=
  match is.fetch with
  | some ins => is.issueDrain i compat ins
  | none => is.trap i 3

end Sys2Proof.Machine
end

