-- ==== Sys2Proof/Machine/Units.lean ====
section
/-! DEFINITION. One Isle cycle of the units: the array row by row (R130, R145), the three slots of the vector engine (R172, R173),
the channels of the bank-side units with their lanes (R236 to R238), the Skerry with its latencies (R184), and the writes that land at
the end of the cycle (R183, R230, R246). -/

namespace Sys2Proof.Machine

/-- An Isle cycle under way. -/
structure Cycle where
  is : Isle
  reports : List Report
  /-- banks that port accesses take, and whether two of different units met in one (R231) -/
  ports : List Nat
  clash : Bool
  /-- 128-byte units of the tile registers that the matrix engine has written (R183, R246) -/
  rows : List Nat
  deriving DecidableEq, Repr

def Cycle.start (is : Isle) : Cycle := { is := is, reports := [], ports := [], clash := false, rows := [] }

/-- One more part of the cycle. -/
def Cycle.next (c : Cycle) (r : Isle × List Report) : Cycle := { c with is := r.1, reports := c.reports ++ r.2 }

/-- A unit's port accesses to store words, two units in one bank being BANKCONF (R229, R231). -/
def Cycle.access (c : Cycle) (words : List Nat) : Cycle :=
  let b := words.map bankOf
  { c with ports := c.ports ++ b, clash := c.clash || b.any (fun x => c.ports.contains x) }

/-! ## The array -/

/-- Cost c of Table FC-2 in quarters, for the elements of one feed row or one result row: 4 · c · elements / λ. -/
def stageCost (mode code : Nat) : Nat :=
  match code with
  | 0x01 => if mode = 5 then 4 else 0
  | 0x02 => if mode = 5 then 4 else if 2 ≤ mode ∧ mode ≤ 4 then 2 else 0
  | 0x10 | 0x11 | 0x12 | 0x18 | 0x20 | 0x21 => modeCols mode / 16
  | 0x13 | 0x14 | 0x15 | 0x16 => modeCols mode / 8
  | 0x30 => 3 * (modeCols mode / 16)
  | 0x31 => modeCols mode / 4
  | _ => 0

/-- The latency that a stage adds (Table FC-2). -/
def stageLatency (mode code : Nat) : Nat :=
  match code with
  | 0x01 | 0x21 => 4
  | 0x02 => if mode = 5 then 4 else 3
  | 0x10 | 0x20 => 2
  | 0x11 | 0x12 => 1
  | 0x13 | 0x14 | 0x15 | 0x16 => 8
  | 0x18 => 3
  | 0x30 => 6
  | 0x31 => 12
  | _ => 0

/-- The loads P and E of an MMUL in quarters of an Isle cycle (R161). -/
def feedLoad (f : MmulFields) (ch : Chain) : Nat :=
  if ch.header = 0 then 0 else ((hdrPro ch.header).map (stageCost f.mode.toNat)).sum
def closeLoad (f : MmulFields) (ch : Chain) : Nat :=
  if f.close && ch.header != 0 then ((hdrEpi ch.header).map (stageCost f.mode.toNat)).sum else 0

/-- Quarters of an Isle cycle that each feed row takes: max(1, P), or max(1, P + E) with a closing mark (R161). -/
def rowCost (f : MmulFields) (ch : Chain) : Nat := max 4 (feedLoad f ch + closeLoad f ch)

/-- Isle cycles from a row's issue to its write: F of R145 and R146 and Λ of R162. -/
def rowLatency (f : MmulFields) (ch : Chain) : Nat :=
  let m := f.mode.toNat
  let pro := if ch.header = 0 then [] else (hdrPro ch.header).filter (· != 0)
  fillLatency m f.fsrc (f.close && hdrSink ch.header == 1) + ((pro.drop 1).map (stageLatency m)).sum +
    (if f.close && ch.header != 0 then ((hdrEpi ch.header).map (stageLatency m)).sum else 0)

/-- The rows in the array come an Isle cycle nearer to their write, and those that close bring their stages to the arithmetic slot. -/
def Units.advance (u : Units) : Units :=
  let rows := u.rows.map (fun r => { r with left := r.left - 1 })
  { u with
    rows := rows
    chainDue := u.chainDue + ((rows.filter (fun r => r.left == 0)).map (fun r => closeLoad r.f r.ch)).sum }

/-- The 128-byte units that a finished row writes to the tile registers. -/
def rowUnits (f : MmulFields) (ch : Chain) (r : Nat) : List Nat :=
  let m := f.mode.toNat
  let close := f.close && ch.header != 0
  let bytes := if !close || decide (m ≥ 5) || intOnly m ch.header then 4 else ofmtBytes (hdrOfmt ch.header)
  if close && hdrSink ch.header == 1 then []
  else (List.range (modeCols m / 64)).flatMap (fun q => wordsOf 128 (resultAddr m f.dt.val bytes r (64 * q)) (64 * bytes))

/-- Every row in flight is discarded and no later one is written (R150). -/
def Isle.dropRows (is : Isle) : Isle := { is with un := { is.un with feed := none, rows := [] } }

/-- Rows that have reached the end of the array are written (R145). -/
def Cycle.finish (i : IsleIdx) (compat : Bool) (c : Cycle) (r : MatRow) : Cycle :=
  if c.is.un.rows.isEmpty then c
  else
    let is := Isle.chainFor { c.is with un := { c.is.un with rows := c.is.un.rows.drop 1 } } r.ch
    let x := is.mmulFinish true i compat r.f r.ch r.w r.row r.x
    let y := match r.done with
      | some s => (x.1.mmulClosed r.f r.ch).syncWrite s
      | none => x.1
    let c := c.next (if contains1 x.2 then y.dropRows else y, x.2)
    { c with rows := c.rows ++ (if contains1 x.2 then [] else rowUnits r.f r.ch r.row) }

/-- The next feed row enters the array when its Isle cycle has come (R145, R161). -/
def Cycle.feed (i : IsleIdx) (compat : Bool) (c : Cycle) : Cycle :=
  match c.is.un.feed with
  | none => c
  | some g =>
    let n := feedRows compat g.f g.ag
    let cost := rowCost g.f g.ch
    if 4 * g.age < g.next * cost ∨ n ≤ g.next then
      let g' := { g with age := g.age + 1 }
      { c with is := { c.is with un := { c.is.un with feed := if n * cost ≤ 4 * (g.age + 1) then none else some g' } } }
    else
      let w := c.is.me.activeSet
      let raw := c.is.feedRaw compat g.f g.ch g.ag g.next
      let x := Isle.mmulFeed i compat g.f g.ch w g.ag g.next c.is
      let c := (c.access (if g.f.fsrc then raw.2 else [])).next (x.1, x.2.1)
      if w.badParity then c.next (let p := c.is.parityFault i; (p.1.dropRows, p.2))
      else if contains1 x.2.1 then c.next (c.is.dropRows, [])
      else
        let last := n ≤ g.next + 1
        let row : MatRow := { f := g.f, ch := g.ch, w := w, row := g.f.frow.toNat + g.next, x := x.2.2, left := rowLatency g.f g.ch,
                              done := if last then some g.sync else none }
        let is := if last then c.is.syncRead g.sync else c.is
        let g' := { g with next := g.next + 1, age := g.age + 1 }
        { c with is := { is with un := { is.un with
            rows := is.un.rows ++ [row], chainDue := is.un.chainDue + feedLoad g.f g.ch
            feed := if last && decide (n * cost ≤ 4 * (g.age + 1)) then none else some g' } } }

/-- A WLOAD latches a row an Isle cycle, as it stood before this cycle's writes (R130, R141, R144): `old` is the Isle as the cycle
began. -/
def Cycle.load (i : IsleIdx) (old : Isle) (c : Cycle) : Cycle :=
  match c.is.un.load with
  | none => c
  | some l =>
    let r := l.rows.length
    let chk := c.is.tileCheck i (wloadWords l.f r)
    let rows := l.rows ++ [old.wloadRow l.f r]
    if rows.length < wloadRows l.f.mode.toNat then
      c.next ({ chk.1 with un := { chk.1.un with load := some { l with rows := rows } } }, chk.2)
    else c.next ((Isle.latch { chk.1 with un := { chk.1.un with load := none } } l.f rows).syncDone l.sync, chk.2)

/-- MQ's head enters the engine: a WLOAD and a WSWAP once no earlier WLOAD is under way (R143), a WSWAP once the feed of every MMUL
before it is in (R142), an MMUL once the one before has issued its rows, or, with another mode, has written them (R145). -/
def Isle.matrixHead (i : IsleIdx) (compat : Bool) (is : Isle) : Option (Isle × List Report) :=
  match is.mq with
  | [] => none
  | e :: t =>
    let x := { is with mq := t }
    if !is.ready e.sync then none
    else match e.op with
    | .wload f => if is.un.load.isNone then some ({ x with un := { x.un with load := some { f := f, sync := e.sync, rows := [] } } }, []) else none
    | .wswap => if is.un.load.isNone && is.un.feed.isNone then x.runEntry i compat e else none
    | .mmul f ch ag =>
      if is.un.feed.isSome || is.un.rows.any (fun r => r.f.mode != f.mode) then none
      else
        let x := { x with me := { x.me with mode := f.mode } }
        if feedRows compat f ag = 0 then some (x.syncDone e.sync, [])
        else some ({ x with un := { x.un with feed := some { f := f, ch := ch, ag := ag, sync := e.sync, next := 0, age := 0 } } }, [])
    | .chainh ends => if ends && !is.un.matrixIdle then none else x.runEntry i compat e
    | _ => x.runEntry i compat e

/-! ## The vector engine -/

/-- The slot of an operation: arithmetic, read transfer or write transfer (R172). -/
def vecSlot : VOp → Fin 3
  | .vld | .vtld => 1
  | .vst | .vtst => 2
  | _ => 0

def Units.slot (u : Units) (k : Fin 3) : Option VecRun := if k = 0 then u.arith else if k = 1 then u.vread else u.vwrite
def Units.setVec (u : Units) (k : Fin 3) (r : Option VecRun) : Units :=
  if k = 0 then { u with arith := r } else if k = 1 then { u with vread := r } else { u with vwrite := r }

/-- VQ's head enters its slot, in the order of issue (R172). One that performs no execution is done at once. -/
def Isle.vectorHead (i : IsleIdx) (compat : Bool) (is : Isle) : Option (Isle × List Report) :=
  match is.vq with
  | [] => none
  | e :: t =>
    let x := { is with vq := t }
    if !is.ready e.sync then none
    else match e.op with
    | .vec op f sc ag =>
      if (is.un.slot (vecSlot op)).isSome then none
      else if vecCount compat op ag = 0 then some (x.syncDone e.sync, [])
      else
        let r : VecRun := { op := op, f := f, scalar := sc, ag := ag, sync := e.sync, next := 0, busy := 0, seq := x.un.vseq }
        some ({ x with un := { x.un.setVec (vecSlot op) (some r) with vseq := x.un.vseq + 1 } }, [])
    | _ => x.runEntry i compat e

/-- Vector registers that an operation reads: its fields va, vb, vc, vd as they apply (Table VS-1, Table ISA-5). -/
def vecReads (op : VOp) (f : VFields) : List (Nat × Fin 32) :=
  let a := (1, f.va)
  let b := (2, f.vb)
  match op with
  | .vld | .vtld | .vbcast => []
  | .vcvt => [a, (0, f.vd)]
  | .vfma | .vsel => [a, b, (3, f.vc)]
  | .vadd | .vsub | .vadds | .vsubs | .vmullo | .vmax | .vmin | .vand | .vor | .vxor | .vshl | .vshr | .vsra | .vcmp | .vfadd | .vfsub
  | .vfmul | .vfmax | .vfmin | .vfcmp => if takesScalar op f.aux then [a] else [a, b]
  | .vmadd | .vmsub | .vmmul | .vfdiv | .vperm => [a, b]
  | _ => [a]

/-- The operation reads the lane primes (R175). -/
def readsPrimes : VOp → Bool
  | .vmadd | .vmsub | .vmneg | .vmmul | .vmred | .vmreds | .vmctr => true
  | _ => false

/-- The operation writes vector register vd. -/
def writesVec (op : VOp) : Bool :=
  match op with
  | .vst | .vtst | .vprime => false
  | _ => !isSummary op

def VecRun.reg (r : VecRun) (bit j : Nat) (x : Fin 32) : Fin 32 := r.ag.elim x (fun g => g.rot bit j x)

/-- Executions of an earlier instruction whose result execution j needs: the first j + 1, or all where one of the two does not
repeat. -/
def VecRun.before (compat : Bool) (p r : VecRun) (j : Nat) : Nat :=
  let n := vecCount compat p.op p.ag
  if r.ag.isSome then min n (j + 1) else n

/-- Execution j of run r waits: an operand's result of an earlier instruction is still to begin or to land (R173). -/
def Isle.vecWaits (compat : Bool) (is : Isle) (r : VecRun) (j : Nat) : Bool :=
  let regs := (vecReads r.op r.f).map (fun x => r.reg x.1 j x.2)
  let primes := readsPrimes r.op
  let runs := [is.un.arith, is.un.vread, is.un.vwrite].filterMap id
  is.un.flight.any (fun l => decide (l.seq < r.seq) && (match l.op with
    | .vreg q _ => regs.contains q
    | .primes _ => primes
    | _ => false)) ||
  (runs.filter (fun p => decide (p.seq < r.seq))).any (fun p =>
    let n := VecRun.before compat p r j
    (p.op == .vprime && primes && decide (p.next < n)) ||
    (writesVec p.op && ((List.range n).drop p.next).any (fun k => regs.contains (p.reg 0 k p.f.vd))))

/-- The chain leaves the arithmetic slot free for the next `n` Isle cycles (R178). -/
def Units.slotFree (u : Units) (n : Nat) : Bool :=
  let feed := u.feed.elim 0 (fun g => n * feedLoad g.f g.ch)
  let rows := ((u.rows.filter (fun r => decide (r.left < n))).map (fun r => closeLoad r.f r.ch)).sum
  decide (u.chainDue + feed + rows < 4)

/-- One Isle cycle of a slot: the execution under way goes on, or the next begins once its operands have landed. Its results
land L cycles later; the tokens change with the last of them (R172, R173, R205). -/
def Cycle.vecSlot (i : IsleIdx) (compat : Bool) (c : Cycle) (k : Fin 3) : Cycle :=
  match c.is.un.slot k with
  | none => c
  | some r =>
    let put := fun (is : Isle) (r : Option VecRun) => { is with un := is.un.setVec k r }
    if 0 < r.busy then
      { c with is := put c.is (if r.busy = 1 ∧ vecCount compat r.op r.ag ≤ r.next then none else some { r with busy := r.busy - 1 }) }
    else if c.is.vecWaits compat r r.next || (k == 0 && !c.is.un.slotFree (vecCost r.op)) then c
    else
      let n := c.is.un.flight.length
      let x := Isle.vecStep true i compat r.op r.f r.scalar r.ag r.next c.is
      let fl := x.1.un.flight.take n ++ (x.1.un.flight.drop n).map (fun l => { l with seq := r.seq })
      let is := { x.1 with un := { x.1.un with flight := fl } }
      let c := (if r.op == .vld || r.op == .vst then c.access ((vecAddrs compat r.ag r.next).map (· / 32)) else c).next (is, x.2)
      if r.next + 1 < vecCount compat r.op r.ag then
        { c with is := put c.is (some { r with next := r.next + 1, busy := vecCost r.op - 1 }) }
      else
        let is := (c.is.syncRead r.sync).put (vecLatency r.op) (.sync { r.sync with rv := false }) FlagSet.none
        { c with is := put is (if vecCost r.op = 1 then none else some { r with next := r.next + 1, busy := vecCost r.op - 1 }) }

/-! ## The bank-side units -/

/-- BQ's head enters its channel, once that has issued the last element of its instruction before (R236). -/
def Isle.bankHead (i : IsleIdx) (compat : Bool) (is : Isle) : Option (Isle × List Report) :=
  match is.bq with
  | [] => none
  | e :: t =>
    let x := { is with bq := t }
    if !is.ready e.sync then none
    else match e.op with
    | .bank op f a b p c =>
      if onLane op then x.runEntry i compat e |>.filter (fun _ => (is.laneRun (op == .mmack)).isNone)
      else if is.un.chZ.isSome then none
      else some ({ x with un := { x.un with
        chZ := some { op := op, f := f, a := a, b := b, p := p, c := c, next := 0, total := 0, age := 0 } } }, [])
    | _ => x.runEntry i compat e

/-- Lane-K words read after `n` Isle cycles, 16 in every 3 (R238). -/
def laneKRead (n : Nat) : Nat := 16 * n / 3

/-- Elements of a channel's run whose lane word may be used in its present cycle: a lane word 5 Isle cycles after it was read
(R237, R238). -/
def Isle.elements (compat : Bool) (is : Isle) (r : BankRun) : Nat :=
  let n := bankCount compat r.op r.a r.b
  if r.op = .mmack then min n (min (is.laneWords r) (laneKRead (r.age - 4)))
  else if r.op = .mmace then
    min n (min (is.laneWords r) (r.next + (if is.un.chK.isSome then 6 else 10)))
  else if isCount r.op then r.a.size compat else n

/-- A channel issuing in an Isle cycle: the banks taken so far, its own among them. -/
structure Issuing where
  is : Isle
  reports : List Report
  r : BankRun
  taken : List Nat
  spent : Bool
  deriving DecidableEq, Repr

/-- The next element, unless it has no lane word or its bank's slot is taken (R237). -/
def Issuing.element (i : IsleIdx) (compat : Bool) (n : Nat) (x : Issuing) : Issuing :=
  let a := x.r.a.elem compat x.r.next
  let b := bankOf (a / 32)
  if x.spent || decide (n ≤ x.r.next) || x.taken.contains b then { x with spent := true }
  else
    let next := { x.r with next := x.r.next + 1 }
    if isCount x.r.op then
      let chk := x.is.storeCheck i [a / 32]
      { x with
        is := chk.1, reports := x.reports ++ chk.2, taken := b :: x.taken
        r := { next with total := x.r.total + ccCount x.r.op x.r.p (chk.1.storeRead a 32) } }
    else
      let s := Isle.bankStep true i compat x.r.op x.r.f x.r.a x.r.b x.r.p x.r.c x.r.next x.is
      { x with is := s.1, reports := x.reports ++ s.2, taken := b :: x.taken, r := next }

/-- The last element has issued: its write-back lands Λ Isle cycles later, a count 8 after its slot (R230, R235). -/
def Isle.channelEnd (is : Isle) (r : BankRun) : Isle :=
  let read := if r.op = .mmack ∧ r.total = 1 then is else is.syncRead r.f.sync
  let x := if isCount r.op then read.put 9 (.sreg (finOf 31 (r.f.sn.val + 1)) (BitVec.ofNat 32 r.total)) FlagSet.none else read
  x.put (stepLatency r.op) (.sync { r.f.sync with rv := false }) FlagSet.none

/-- Lane K's drain counts when the last word of its slot has been read (R238). -/
def Isle.laneKDrain (is : Isle) (r : BankRun) : Isle × BankRun :=
  if r.op = .mmack ∧ decide ((is.slot r.f.sync.rslot).len ≤ laneKRead (r.age + 1)) then is.laneDrain r else (is, r)

/-- One Isle cycle of a channel, with the state that holds its run after it; `taken` are the banks of the ports and of the higher
channels. -/
def Cycle.channel (i : IsleIdx) (compat : Bool) (get : Units → Option BankRun) (set : Units → Option BankRun → Units)
    (c : Cycle × List Nat) : Cycle × List Nat :=
  match get c.1.is.un with
  | none => c
  | some r =>
    let n := c.1.is.elements compat r
    let x := (List.range 48).foldl (fun x _ => Issuing.element i compat n x)
      { is := c.1.is, reports := [], r := r, taken := c.2, spent := false }
    let all := if isCount r.op then r.a.size compat else bankCount compat r.op r.a r.b
    let d := x.is.laneKDrain x.r
    let r' := { d.2 with age := d.2.age + 1 }
    let spent := decide (all ≤ r'.next) && (r.op != .mmack || r'.total == 1 || !r.f.sync.rv)
    let is := if spent then d.1.channelEnd r' else d.1
    ((c.1.next ({ is with un := set is.un (if spent then none else some r') }, x.reports)), x.taken)

/-- The port reads of lane K in this cycle (R238). -/
def Isle.laneKReads (is : Isle) : List Nat :=
  match is.un.chK with
  | none => []
  | some r =>
    let x := is.slot r.f.sync.rslot
    if r.f.sync.rv then
      ((List.range (min x.len (laneKRead (r.age + 1)))).drop (laneKRead r.age)).map (fun k => x.base / 32 + k)
    else []

/-- The channels in the order of their ranks: K, E, then Z; channel M issues with the rows that the array writes (R236, R237). -/
def Cycle.channels (i : IsleIdx) (compat : Bool) (c : Cycle) : Cycle :=
  let k := Cycle.channel i compat Units.chK (fun u r => { u with chK := r }) (c, c.ports)
  let e := Cycle.channel i compat Units.chE (fun u r => { u with chE := r }) k
  (Cycle.channel i compat Units.chZ (fun u r => { u with chZ := r }) e).1

/-! ## The Skerry -/

/-- Isle cycles until a scalar result is usable (Table VS-2). -/
def scalarLatency : SOp → Nat
  | .mul | .mulh | .mulhu | .fcvtws | .fcvtsw => 3
  | .div | .divu | .rem | .remu => 34
  | .fadd | .fsub | .fmul | .fma => 4
  | .fdiv | .fsqrt => 12
  | .ld8 | .ld8u | .ld16 | .ld16u | .ld32 => 6
  | _ => 1

/-- The register an instruction writes at the Skerry, and when it is usable. -/
def resultOf : IsleInstr → List (Fin 32 × Nat)
  | .scalar op f => if isStore op then [] else [(f.sd, scalarLatency op)]
  | .csrr sd _ => [(sd, 2)]
  | _ => []

/-- Store words that an instruction of the Skerry itself reaches. -/
def Isle.scalarWords (is : Isle) : IsleInstr → List Nat
  | .scalar op f => if accessBytes op = 0 then [] else [is.scalarAddr f / 32]
  | .agld _ sa imm => wordsOf 32 ((is.reg sa + imm).toNat) 64
  | _ => []

/-- One Isle cycle of the Skerry: it issues the held or the next instruction when its turn has come, or holds it (R184, R203). -/
def Cycle.skerry (i : IsleIdx) (compat : Bool) (c : Cycle) : Cycle :=
  let is := c.is
  if is.sk.st != .running && is.sk.st != .stalled then c
  else if 0 < is.un.idle then { c with is := { is with un := { is.un with idle := is.un.idle - 1 } } }
  else
    match is.sk.held.orElse (fun _ => is.fetch) with
    | none => c.next (is.trap i 3)
    | some ins =>
      let free := { is with sk := { is.sk with held := none, st := .running } }
      match free.begin i compat ins with
      | some x =>
        let regs := (resultOf ins).filter (fun r => r.1 != 0 && decide (1 < r.2))
        let y := { x.is with
          sk := { x.is.sk with heldWait := 0 }
          un := { x.is.un with idle := x.cycles - 1, regs := regs ++ x.is.un.regs } }
        (c.access (is.scalarWords ins)).next (y, x.reports)
      | none =>
        { c with is := { is with sk := { is.sk with
            held := some ins, heldWait := if is.sk.held.isSome then is.sk.heldWait else 0, st := .stalled } } }

/-! ## The end of the cycle -/

/-- Adds a landing behind those issued no later. -/
def landInsert (l : Landing) : List Landing → List Landing
  | [] => [l]
  | x :: t => if l.seq < x.seq then l :: x :: t else x :: landInsert l t

/-- A write to the tile registers without the 128-byte units that another engine writes in the same Isle cycle. -/
def tilePieces (taken : List Nat) (a : Nat) (l : List Byte) : List (Nat × List Byte) :=
  ((wordsOf 128 a l.length).filter (fun u => !taken.contains u)).map (fun u =>
    let lo := max a (128 * u)
    (lo, slice l (lo - a) (128 * u + 128 - lo)))

/-- Rank of a landing in its cycle: port writes, step write-backs, the mover's tile writes, the vector engine's, registers,
tokens. -/
def LandOp.rank : LandOp → Nat
  | .store _ => 0
  | .step _ _ => 1
  | .mtile _ _ => 2
  | .vtst _ _ => 3
  | .vreg _ _ | .primes _ | .sreg _ _ => 4
  | .sync _ => 5

/-- The tile units that the mover writes. -/
def moverUnits (l : List Landing) : List Nat :=
  l.flatMap (fun x => match x.op with
    | .mtile a d => wordsOf 128 a d.length
    | _ => [])

/-- A landing that is not a port write of the store. `rows` are the tile units of the matrix engine, whose write lands before the
mover's, and the mover's before the vector engine's (R130, R183, R246). -/
def Isle.landing (rows mover : List Nat) (is : Isle) (x : Landing) : Isle :=
  match x.op with
  | .store _ => is
  | .mtile a d => (tilePieces rows a d).foldl (fun s p => s.tileWrite p.1 p.2) is
  | .vtst a d => (tilePieces (rows ++ mover) a d).foldl (fun s p => s.tileWrite p.1 p.2) is
  | op => is.landOp op ⟨x.sat, x.ovf, x.nan⟩

/-- The writes whose time has come land: all port writes of the cycle in the order of their banks (R228), then the others. -/
def Isle.landAll (rows : List Nat) (is : Isle) : Isle :=
  let fl := is.un.flight.map (fun l => { l with left := l.left - 1 })
  let now := (fl.filter (fun l => l.left == 0)).foldl (fun t l => landInsert l t) []
  let is := { is with un := { is.un with flight := fl.filter (fun l => l.left != 0) } }
  let is := is.storeWrites (now.flatMap (fun l => match l.op with
    | .store w => w
    | _ => []))
  (List.range 6).foldl (fun is k => (now.filter (fun l => l.op.rank == k)).foldl (Isle.landing rows (moverUnits now)) is) is

/-- What an Isle cycle leaves of the chain's claim on the arithmetic slot and of the scalar registers' waits (R178, R184). -/
def Units.close (u : Units) : Units :=
  { u with
    chainDue := if 4 ≤ u.chainDue then u.chainDue - 4 else if u.feed.isNone && u.rows.isEmpty then 0 else u.chainDue
    regs := (u.regs.map (fun r => (r.1, r.2 - 1))).filter (fun r => decide (0 < r.2)) }

/-- The work of an optional step. -/
def Cycle.try (c : Cycle) (r : Option (Isle × List Report)) : Cycle := r.elim c c.next

/-- One Isle cycle of the units, without the Skerry: the array, the heads of the queues, the slots and the channels, then the
landings. -/
def Isle.unitCycle (i : IsleIdx) (compat : Bool) (is : Isle) (skerry : Bool) : Isle × List Report :=
  let old := is
  let c := Cycle.start { is with un := is.un.advance }
  let c := c.access (is.un.flight.flatMap (fun l => match l.op with
    | .store w => if l.left = 1 then w.flatMap (fun p => wordsOf 32 p.1 p.2.length) else []
    | _ => []))
  let c := c.try (c.is.matrixHead i compat)
  let c := (List.range 3).foldl (fun c _ => c.try (c.is.vectorHead i compat)) c
  let c := c.try (c.is.bankHead i compat)
  let c := c.try (c.is.runHead i compat c.is.dq (fun s t => { s with dq := t }))
  let c := c.try (c.is.refetch i)
  let done := c.is.un.rows.filter (fun r => r.left == 0)
  let c := c.load i old
  let c := c.feed i compat
  let c := [0, 1, 2].foldl (Cycle.vecSlot i compat) c
  let c := if skerry then c.skerry i compat else c
  let c := c.access c.is.laneKReads
  let c := c.channels i compat
  let c := done.foldl (Cycle.finish i compat) c
  let c := if c.clash then c.next (c.is.bankConflict i) else c
  let is := c.is.landAll c.rows
  ({ is with un := is.un.close }, c.reports)

/-- The units hold work that goes on by itself as Isle cycles pass. -/
def Units.busy (u : Units) : Bool :=
  !u.matrixIdle || !u.vectorIdle || u.chZ.isSome || !u.flight.isEmpty || !u.regs.isEmpty

end Sys2Proof.Machine
end

