-- ==== Sys2Proof/Machine/Mover.lean ====
section
/-! DEFINITION. The data mover: payload references and relative rows (R271), alignment (R248 to R250), read and write phases
with run-ahead and delivery credits (R251 to R253), the transformations, deliveries into key and landing slots, standing
forwards (R264), and the progress of an Isle with its mover. -/

namespace Sys2Proof.Machine

/-! ## Jobs and key chunks seen from an Isle -/

def State.jobAt (s : State) (i : IsleIdx) : Option Job := s.runningOn i.row

/-- The H1 rules apply to the Isle: the running job's negotiated version is 1 (R7, R460); an Isle without a job follows the
native rules, since the device's mode decides nothing else (DEDUCED, notes/assumptions/90.md). -/
def State.isleCompat (s : State) (i : IsleIdx) : Bool :=
  match s.jobAt i with
  | some j => j.version == 1
  | none => false

/-- First row of the run. -/
def State.firstRow (s : State) (i : IsleIdx) : Nat :=
  match s.jobAt i with
  | some j => j.img.firstRow.val
  | none => (s.isle i).sk.runFirst.toNat

/-- A descriptor's reference: the PAYLOAD of an input or result declaration and its ALIGN16 flag (Table DM-1). -/
def State.refOf (s : State) (i : IsleIdx) (ref : BitVec 16) : Option (Nat × Bool) :=
  if ref.getLsbD 15 then
    let k := ref.toNat % 2 ^ 14
    match s.jobAt i with
    | none => some (0, false)
    | some j =>
      if ref.getLsbD 14 then
        some ((j.payloads.getD k 0).toNat, ((j.img.sections.results[k]?).map (·.align16)).getD false)
      else some (((j.inputs[k]?).map (·.payload.toNat)).getD 0, ((j.img.sections.inputs[k]?).map (·.align16)).getD false)
  else none

/-- A key set's near-channel share: (record, chunk) in the order stored at position `pos` of H holders (R86, R355). -/
def KeySet.shard (k : KeySet) (pos : Nat) : List (Nat × Nat) :=
  let h := 8 * k.nrows
  (k.records.zipIdx).flatMap (fun r =>
    let c := ceilDiv r.1.bodyLen 16384
    ((List.range c).filter (fun x =>
      if r.1.kind = 4 ∨ r.1.kind = 5 then x % h = pos else x % k.mTotal = k.m ∧ x / k.mTotal % h = pos)).map (fun x => (r.2, x)))

/-- Where this module keeps chunk c of record r: position in the holding run; none when another module keeps it (R86). -/
def KeySet.holder (k : KeySet) (r c : Nat) : Option Nat :=
  let h := 8 * k.nrows
  if (k.records[r]?).any (fun x => x.kind == 4 || x.kind == 5) then some (c % h)
  else if c % k.mTotal = k.m then some (c / k.mTotal % h) else none

/-- The circulation order of r rows from y0 on: a line within one row, else the cycle of R90. -/
def circulation (y0 r : Nat) : List IsleIdx :=
  let up := (List.range (r - 1)).map (fun k => y0 + 1 + k)
  let cells := if r ≤ 1 then (List.range 8).map (fun x => (x, y0))
    else (List.range r).map (fun k => (0, y0 + k)) ++
      (List.range 7).flatMap (fun k => (if k % 2 = 0 then up.reverse else up).map (fun y => (k + 1, y))) ++
      (List.range 7).map (fun k => (7 - k, y0))
  cells.map (fun e => finOf 63 (8 * e.2 + e.1))

/-- The Isle and the store offset of chunk c of a record resident for a job: ring position h holds ⌈C/H⌉ chunks (Table KC-2, R118). -/
def Job.residentAt (j : Job) (k : KeySet) (r c : Nat) : Option (IsleIdx × Nat) :=
  match j.img.sections.residents.find? (·.1 == r), k.records[r]? with
  | some e, some x =>
    let l := circulation j.img.firstRow.val j.img.hdr.rows
    let per := ceilDiv (ceilDiv x.bodyLen 16384) (max l.length 1)
    (l[c / max per 1]?).map (fun i => (i, e.2 + 16384 * (c % max per 1)))
  | _, _ => none

/-- The device address of a chunk that this module keeps (R86, R355): the n-th chunk of its holder lies 16 KiB × n behind KOFF. -/
def KeySet.address (k : KeySet) (r c : Nat) : Option Nat :=
  (k.holder r c).bind (fun pos => ((k.shard pos).findIdx? (· == (r, c))).map (fun n =>
    2 ^ 39 + (8 * k.firstRow.val + pos) * 2 ^ 33 + k.koff + 16384 * n))

/-- The key set of a job (R46, R79). -/
def State.jobKeySet (s : State) (j : Job) : Option KeySet :=
  (s.tagOf j.fn j.img).bind (fun t => s.keysets.find? (fun k => k.tag == t && k.fn == j.fn))

/-- What travels with chunk `c` of record `r` of a set (R83, R85). -/
def State.chunkOf (s : State) (k : KeySet) (r c : Nat) : Option KeyChunk :=
  match k.records[r]? with
  | none => none
  | some rec =>
    match s.psets[rec.pset] with
    | none => none
    | some p => some { keyset := rec.keyset, mfp := k.mfp, record := r, seed := rec.seed, kind := rec.kind, chunk := c,
                       limbs := p.limbs + p.special, tiles := 2 ^ p.logn / 4096, nr := 2 ^ p.logn, digits := rec.digits,
                       lweDim := p.lweDim, primes := p.primes }

/-- Loads the shards of a job's resident records into the Isle stores of the run, with their tags (R89, R118). -/
def State.loadResidents (s : State) (j : Job) : State :=
  match s.jobKeySet j with
  | none => s
  | some k =>
    let all := j.img.sections.residents.flatMap (fun e =>
      (List.range (((k.records[e.1]?).map (fun x => ceilDiv x.bodyLen 16384)).getD 0)).map (fun c => (e.1, c)))
    all.foldl (fun (s : State) e =>
      match j.residentAt k e.1 e.2, k.address e.1 e.2 with
      | some p, some a =>
        let r := s.devRead .job a 16384
        r.1.setIsle p.1 (((r.1.isle p.1).storeWrite p.2 r.2.1).setTags p.2 16384 (((s.chunkOf k e.1 e.2).map (fun c => (p.2, c))).toList))
      | _, _ => s) s

/-- The chunk that begins at an offset of a channel, when a loaded set of the row's owner keeps one there. -/
def State.chunkAt (s : State) (c : ChanIdx) (x : Nat) : Option KeyChunk :=
  s.keysets.findSome? (fun k =>
    let pos := c.val - 8 * k.firstRow.val
    if 8 * k.firstRow.val ≤ c.val ∧ pos < 8 * k.nrows ∧ k.koff ≤ x ∧ (x - k.koff) % 16384 = 0 then
      ((k.shard pos)[(x - k.koff) / 16384]?).bind (fun r => s.chunkOf k r.1 r.2)
    else none)

/-! ## Addresses -/

/-- A DEVICE address of a descriptor: absolute through a payload reference, else with ROW or CH div 8 relative to the run
(R271). Bits [5:0] are not yet dropped. -/
def State.devAddr (s : State) (i : IsleIdx) (a : DWord) (ref : BitVec 16) : Nat :=
  match s.refOf i ref with
  | some p => devAdd s.big512 p.1 (a.toNat % 2 ^ 40)
  | none =>
    let n := a.toNat % 2 ^ 40
    let r := field n 36 3
    n - r * 2 ^ 36 + (r + s.firstRow i) % 8 * 2 ^ 36

/-- A LAGOON address: slice relative to the run, offset below 6 MiB; a reference adds to the offset only (R278, R279). -/
def State.lagAddr (s : State) (i : IsleIdx) (a : DWord) (ref : BitVec 16) : SliceIdx × Nat :=
  let add := match s.refOf i ref with
    | some p => p.1
    | none => 0
  (finOf 15 (field a.toNat 23 4 + 2 * s.firstRow i), (field a.toNat 0 23 + add) % sliceBytes)

/-- The offset within its space that R248 asks to be a multiple of 16 KiB. -/
def State.alignPos (s : State) (i : IsleIdx) (sp : BitVec 4) (a : DWord) (ref : BitVec 16) : Nat :=
  if sp = 2 then s.devAddr i a ref else if sp = 3 then (s.lagAddr i a ref).2 else 0

/-- The address that R250 refuses in bring-up, test and recovery modes: a DEVICE or LAGOON address, or an ALIGN16 payload,
that is not on a 16 KiB boundary; bits [5:0] of an address are ignored (Table DM-2). -/
def State.misaligned (s : State) (i : IsleIdx) (d : DescFields) : Option Nat :=
  if s.service then none
  else
    let pay := fun (ref : BitVec 16) => match s.refOf i ref with
      | some (p, true) => p
      | _ => 0
    [s.alignPos i d.srcsp d.src d.sref, s.alignPos i d.dstsp d.dst d.dref, pay d.sref, pay d.dref].find?
      (fun a => a % 16384 / 64 != 0)

/-! ## The mesh between two Isles (R29, R408) -/

/-- The next stop on the way from stop a to stop b: along the row first, then along the column (R16). -/
def nextStop (a b : IsleIdx) : IsleIdx :=
  if a.col < b.col then finOf 63 (a.val + 1) else if b.col < a.col then finOf 63 (a.val - 1)
  else if a.val < b.val then finOf 63 (a.val + 8) else if b.val < a.val then finOf 63 (a.val - 8) else a

/-- The stop of a Lagoon slice: slice 2y at the west end of row y, slice 2y + 1 at the east end (R17). -/
def sliceStop (l : SliceIdx) : IsleIdx := finOf 63 (8 * l.row.val + 7 * (l.val % 2))

/-- The sideband header of a mesh flit: destination stop and delivery, owner slot, sending stop, and the circulation tag in the
first flit of a chunk (R15). -/
def meshHeader (dst : IsleIdx) (delivery slot : Nat) (src : IsleIdx) (tag : Nat) : List Byte :=
  [byteOf dst.val, byteOf delivery, byteOf slot, byteOf src.val] ++ leBytes 16 tag ++ List.replicate 4 0

/-- The stop's partition is held by the owner in the flit's slot (R29). -/
def State.accepts (s : State) (hdr : List Byte) : Bool :=
  let stop : IsleIdx := finOf 63 (leAt hdr 0 1 % 64)
  (s.rows[stop.row]).code == leAt hdr 2 1 % 8

/-- A flit dropped at a stop whose partition the sender's owner does not hold: a contained fault against the sender (R29). -/
def State.dropFlit (s : State) (stop : IsleIdx) (sender : RowIdx) : State :=
  s.contained { Report.of (0x4000 + stop.val) with rowOverride := some sender }

/-- An injection armed at a stop acts on the next flit it injects: the next stop corrects it, or drops it (R15, R408). The
answer tells whether the flit went on. -/
def State.injectFlit (s : State) (a b : IsleIdx) : State × Bool :=
  if a == b || !(s.reef.injArmed && s.reef.injChk.toNat == 0x4000 + a.val) then (s, true)
  else
    let two := s.reef.injMode == 2
    let s := { s with reef := { s.reef with injArmed := false } }
    let r := Report.of (0x4000 + (nextStop a b).val)
    if two then (s.contained { r with detail := 1 }, false) else (s.corrected r, true)

/-- A flit that Isle i sends to the local port of `stop`, to its Lagoon slice (1) or to its near channel (3): its own near channel and
store take no mesh. A sending partition that no VF holds has no owner slot to send (R29). True when the flit is delivered. -/
def State.meshWrite (s : State) (i stop : IsleIdx) (delivery tag : Nat) : State × Bool :=
  if i == stop && delivery != 1 then (s, true)
  else
    let slot := (s.rows[i.row]).code
    if 8 ≤ slot || !s.accepts (meshHeader stop delivery slot i tag) then (s.dropFlit stop i.row, false) else s.injectFlit i stop

/-- A read that Isle i asks of a stop: the request as in `meshWrite`, the data back from the stop. -/
def State.meshRead (s : State) (i stop : IsleIdx) (delivery : Nat) : State × Bool :=
  if i == stop && delivery != 1 then (s, true)
  else
    let slot := (s.rows[i.row]).code
    if 8 ≤ slot || !s.accepts (meshHeader stop delivery slot i 0) then (s.dropFlit stop i.row, false) else s.injectFlit stop i

/-- The stops of the near channels that a DEVICE range of `n` bytes at `a` reaches, unit by unit (R18, R270). -/
def State.devStops (s : State) (a n : Nat) : List IsleIdx := (unitStarts a (max n 1)).map (fun k => finOf 63 (devByte s.big512 a k).1.val)

/-- The first of the stops, Isle i's own left out: one owner holds the whole row of a range. -/
def farStop (i : IsleIdx) (l : List IsleIdx) : IsleIdx := (l.find? (· != i)).getD i

/-- Stores an Isle and disarms the Reef's injection when it acted there (R408). -/
def State.putIsle (s : State) (i : IsleIdx) (is : Isle) : State :=
  let o := s.isle i
  let acted := (o.sto.inj.isSome && is.sto.inj.isNone) || (o.me.tileInj.isSome && is.me.tileInj.isNone) ||
    (o.me.latchInj && !is.me.latchInj)
  let s := s.setIsle i is
  if acted then { s with reef := { s.reef with injArmed := false } } else s

/-! ## Strait egress -/

/-- A flit before coding: 20 header bytes with F3 = 0, and 256 payload bytes (Table SD-2). -/
def rawFlit (cls : Nat) (idx : Nat) (fields : Nat) (payload : List Byte) : List Byte :=
  [byteOf (0x20 + 4 * cls + 2 * b2n (idx == 0)), 0] ++ leBytes 2 idx ++ leBytes 16 fields ++
    (payload ++ List.replicate (256 - payload.length) 0).take 256

/-- Hands flits to a port's egress; a port that is DOWN discards them (R299). -/
def State.egressPut (s : State) (y : RowIdx) (l : List (List Byte)) : State :=
  if (s.port y).up then s.setPort y { s.port y with egress := (s.port y).egress ++ l } else s

/-- WIN flits of a window write (R306); the epoch is filled in as they leave. -/
def State.winFlits (s : State) (handle : BitVec 16) (off : Nat) (data : List Byte) : List (List Byte) :=
  (List.range (ceilDiv data.length 256)).map (fun k =>
    let d := slice data (256 * k) 256
    let o := off + 256 * k
    rawFlit 2 (o / 256 % 64) (s.devid.toNat + (handle.toNat % 1024) * 2 ^ 20 + (o / 32) % 2 ^ 32 * 2 ^ 52 +
      (ceilDiv d.length 32 - 1) * 2 ^ 84) d)

/-- The tag of a chunk with HOPS (Table KC-1). -/
def chunkTag (k : KeyChunk) (hops : Nat) : Nat :=
  k.keyset.toNat + k.mfp.toNat * 2 ^ 32 + k.record % 2 ^ 16 * 2 ^ 64 + k.kind % 16 * 2 ^ 80 + hops % 2 ^ 20 * 2 ^ 84 +
    k.chunk % 2 ^ 24 * 2 ^ 104

/-- KEY flits of a 16 KiB chunk (R99): the tag rides in the first. -/
def keyFlits (k : KeyChunk) (hops : Nat) (data : List Byte) : List (List Byte) :=
  (List.range 64).map (fun n => rawFlit 1 n (if n = 0 then chunkTag k hops else 0) (slice data (256 * n) 256))

/-! ## Deliveries and forwards -/

/-- Bytes of a standing forward that have arrived. -/
def Fwd.came (f : Fwd) : Nat := f.d.length.toNat - f.left

/-- Words arrive in an Isle's DELIVERY blocks; its standing forwards for their slot take a copy to send on (R264). Key words that came
round the ring are sent on by the port alone (R99). -/
def State.deliver (s : State) (p : IsleIdx) (a : Arrival) : State :=
  let is := s.isle p
  let slot := is.slotAt a.addr
  let take := fun (f : Fwd) =>
    if slot == some f.slot && decide (0 < f.left) then
      let pend := if a.ring && f.d.dstsp == 5 then f.pend
        else f.pend ++ [(f.d.dst.toNat + f.came, a.bytes.take f.left, a.key)]
      { f with left := f.left - a.bytes.length, pend := pend }
    else f
  s.setIsle p { is with mov := { is.mov with arrivals := is.mov.arrivals ++ [a], fwds := is.mov.fwds.map take } }

/-- DELIVERY blocks of 16 KiB that waiting arrivals take, slot by slot (R253). -/
def Isle.deliveryBlocks (is : Isle) : Nat :=
  let l := is.mov.arrivals.foldl (fun (m : List (Option (Fin 128) × Nat)) a =>
    let k := is.slotAt a.addr
    (k, a.bytes.length + (m.find? (fun x => x.1 == k)).elim 0 (·.2)) :: m.filter (fun x => x.1 != k)) []
  l.foldl (fun n x => n + ceilDiv x.2 16384) 0

/-- The receiving mover has a DELIVERY block free, for which it grants a credit (R253). -/
def State.deliveryFree (s : State) (p : IsleIdx) : Bool := decide ((s.isle p).deliveryBlocks < (s.isle p).mov.rd.toNat)

/-- A block for the store of Isle `p`. -/
def State.sendBlock (s : State) (i p : IsleIdx) (addr : Nat) (bytes : List Byte) (key : Option KeyChunk) : State :=
  let f := s.meshWrite i p 0 (key.elim 0 (fun k => chunkTag k 0))
  if f.2 then f.1.deliver p { addr := addr, bytes := bytes, key := key, ring := false, wait := 0 } else f.1

/-- Bytes for the row's port: a key chunk as KEY flits with HOPS = M − 1, else a window write (R99, R306). -/
def State.sendStrait (s : State) (i : IsleIdx) (handle : BitVec 16) (off : Nat) (bytes : List Byte) (key : Option KeyChunk) : State :=
  match key with
  | some k => s.egressPut i.row (keyFlits k (s.port i.row).kcRsize.toNat bytes)
  | none => s.egressPut i.row (s.winFlits handle off bytes)

/-- The first waiting words of a standing forward of Isle i go on: to the row's port, or to PEER once it grants a delivery credit
(R253, R264). A forward whose bytes have all gone ends. -/
def State.forwardStep (s : State) (i : IsleIdx) : Option State :=
  let go := fun (f : Fwd) => !f.pend.isEmpty && (f.d.dstsp == 5 || i == f.d.peer || s.deliveryFree f.d.peer)
  match (s.isle i).mov.fwds.find? go with
  | none => none
  | some f =>
    match f.pend with
    | [] => none
    | x :: rest =>
      let is := s.isle i
      let fwds := (is.mov.fwds.map (fun g => if g == f then { g with pend := rest, wait := 0 } else g)).filter
        (fun g => decide (0 < g.left) || !g.pend.isEmpty)
      let s := s.setIsle i { is with mov := { is.mov with fwds := fwds, bytes := is.mov.bytes + BitVec.ofNat 64 x.2.1.length } }
      some (if f.d.dstsp = 5 then s.sendStrait i f.d.target x.1 x.2.1 x.2.2 else s.sendBlock i f.d.peer x.1 x.2.1 x.2.2)

/-- Writes landed words into their slot, with the tag of a chunk that begins there: the slot becomes FULL when a round's bytes are all
there (R205, R240). -/
def Isle.landed (is : Isle) (a : Arrival) : Isle :=
  let is := (is.storeWrite a.addr a.bytes).setTags a.addr a.bytes.length (a.key.toList.map (fun k => (a.addr, k)))
  match is.slotAt a.addr with
  | none => is
  | some k =>
    let x := is.slot k
    let got := x.got + a.bytes.length
    is.setSlot k { x with got := got, full := decide (32 * x.len ≤ got) }

/-- The first arrival whose slot is drained (R240). -/
def Isle.nextLanding (is : Isle) : Option Arrival :=
  is.mov.arrivals.find? (fun a => match is.slotAt a.addr with
    | some k => !(is.slot k).full
    | none => true)

/-- It lands; none when all wait. -/
def Isle.land (is : Isle) : Option Isle :=
  is.nextLanding.map (fun a => ({ is with mov := { is.mov with arrivals := eraseFirst (· == a) is.mov.arrivals } }).landed a)

/-- The landing of a job's plan whose slots at Isle i hold slot k. -/
def landingAt (j : Job) (i : IsleIdx) (k : Fin 128) : Option KeyLanding :=
  (j.img.sections.strait.elim [] (·.keyLandings)).find? (fun l =>
    l.consumer == i && decide (l.slot0.val ≤ k.val) && decide (k.val < l.slot0.val + l.kslots))

/-- The record that a chunk's place expects, and whether its tag agrees: KEYSET with the record's, MFP with the module's own, RECORD
and CHUNK with the plan's (R84). Where the plan names no landing for the slot, the chunk's own RECORD is the one expected. -/
def State.keyAgrees (s : State) (j : Job) (i : IsleIdx) (k : Fin 128) (c : KeyChunk) : Nat × Bool :=
  let x := (s.isle i).slot k
  let plan := landingAt j i k
  let record := plan.elim c.record (·.record)
  (record, (s.jobKeySet j).any (fun y => y.mfp == c.mfp && (y.records[record]?).any (fun r => r.keyset == c.keyset)) &&
    plan.all (fun l => l.record == c.record && l.chunks[k.val - l.slot0.val + x.rounds * l.kslots]? == some c.chunk))

/-- Before an Isle takes a chunk into a key slot its tag is compared; a difference is a mismatch of that key stream (R84). -/
def State.judgeKey (s : State) (i : IsleIdx) (a : Arrival) : State :=
  match s.jobAt i, a.key, (s.isle i).slotAt a.addr with
  | some j, some c, some k =>
    let x := (s.isle i).slot k
    if x.kind = 2 ∧ x.base = a.addr then
      let r := s.keyAgrees j i k c
      if r.2 then s else s.modJob j.id (fun j => { j with badRecords := j.badRecords ++ [(r.1, i)] })
    else s
  | _, _, _ => s

/-- One delivery lands in its slot. -/
def State.landStep (s : State) (i : IsleIdx) : Option State :=
  (s.isle i).land.map (fun x => (((s.isle i).nextLanding.elim s (s.judgeKey i)).putIsle i x))

/-! ## Sources -/

/-- The tags of the chunks that begin in `n` bytes of an Isle's store from `a`, by offset. -/
def Isle.tagsIn (is : Isle) (a n : Nat) : List (Nat × KeyChunk) :=
  is.sto.tags.filterMap (fun t => if a ≤ t.1 ∧ t.1 < a + n then some (t.1 - a, t.2) else none)

/-- The tags of the chunks that begin in a DEVICE range. A retired page keeps the chunks of its own address (R286). -/
def State.devTags (s : State) (a n : Nat) : List (Nat × KeyChunk) :=
  (unitStarts a n).filterMap (fun k => let h := devByte s.big512 a k; (s.chunkAt h.1 h.2).map (fun c => (k, c)))

/-- Reads `n` bytes of a descriptor's source space, with every code on the way; a partition that the owner does not hold
yields a dropped flit (R29). The answer also names the key chunks that begin there (R83). -/
def State.readSpace (s : State) (i : IsleIdx) (d : DescFields) (n : Nat) : State × List Byte × List (Nat × KeyChunk) :=
  let is := s.isle i
  let lost := fun (s : State) => (s, List.replicate n (0 : Byte), ([] : List (Nat × KeyChunk)))
  if d.srcsp = 0 then
    let a := d.src.toNat % 2 ^ 22
    let c := is.storeCheck i (wordsOf 32 a n)
    ((s.putIsle i c.1).reports c.2, is.storeRead a n, is.tagsIn a n)
  else if d.srcsp = 1 then
    let a := d.src.toNat % 131072
    let c := is.tileCheck i (wordsOf 32 a n)
    ((s.putIsle i c.1).reports c.2, is.tileRead a n, [])
  else if d.srcsp = 2 then
    let a := s.devAddr i d.src d.sref / 64 * 64
    let f := s.meshRead i (farStop i (s.devStops a n)) 3
    if f.2 then let r := f.1.moverRead a n; (r.1, r.2, s.devTags a n) else lost f.1
  else if d.srcsp = 3 then
    let a := s.lagAddr i d.src d.sref
    let f := s.meshRead i (sliceStop a.1) 1
    if f.2 then let r := f.1.sliceRead a.1 (a.2 / 64 * 64) n; (r.1, r.2, []) else lost f.1
  else if d.srcsp = 4 then
    let f := s.meshRead i d.peer 0
    if !f.2 then lost f.1
    else
      let a := d.src.toNat % 2 ^ 22
      let c := (f.1.isle d.peer).storeCheck d.peer (wordsOf 32 a n)
      ((f.1.putIsle d.peer c.1).reports c.2, (s.isle d.peer).storeRead a n, (s.isle d.peer).tagsIn a n)
  else lost s

/-- Brings limbs that do not lie in STORE into the alternating scratch regions first (R257). -/
def State.scratchLimb (s : State) (i : IsleIdx) (d : DescFields) (scratch l : Nat) (limb : List Byte) : State :=
  if d.srcsp = 0 then s else s.putIsle i ((s.isle i).storeWrite (scratch + l % 2 * limb.length) limb)

/-- The seeded tiles of SEEDX (R50, R259): limbs FIRSTLIMB to FIRSTLIMB + LIMBS − 1 of c1. -/
def seedTiles (p : ParamSet) (seed : List Byte) (first limbs : Nat) : List Byte :=
  (List.range limbs).flatMap (fun l =>
    (List.range (2 ^ p.logn / 4096)).flatMap (fun t =>
      (seedBlock seed 0x10 0 (first + l) t 4096 (p.primes.getD (first + l) 1)).flatMap (leBytes 4)))

/-- What the read phase of a descriptor brings in: the source bytes it takes, the runs to write, and the key chunks in them. -/
structure Fetched where
  s : State
  len : Nat
  runs : Runs
  keys : List (Nat × KeyChunk)

/-- The read phase of one descriptor: its whole source, transformed into the runs to write (R252, R261). -/
def State.transform (s : State) (i : IsleIdx) (op : DOp) (d : DescFields) : Fetched :=
  let e := esizeOf d.esize
  let p := d.param.toNat
  let len := d.length.toNat
  let whole := fun (n : Nat) (f : List Byte → Runs) =>
    let r := s.readSpace i d n
    Fetched.mk r.1 n (f r.2.1) []
  let limbs := fun (f : List Byte → List Byte) =>
    let n := 4 * 2 ^ field p 32 8
    let r := s.readSpace i d (field p 40 8 * n)
    let ls := chunks n r.2.1
    Fetched.mk ((ls.zipIdx).foldl (fun s l => s.scratchLimb i d (field p 48 22) l.2 l.1) r.1) (field p 40 8 * n)
      [(0, ls.flatMap f)] []
  match op with
  | .copy =>
    let slay := field p 0 32
    let dlay := field p 32 32
    let n := len / e
    let span := if slay = 0 then len else extent e slay (rowsIn slay n) n
    let r := s.readSpace i d span
    Fetched.mk r.1 span (copyRuns e slay dlay d.zpad n r.2.1) (if slay = 0 ∧ dlay = 0 then r.2.2 else [])
  | .transpose =>
    let slay := field p 0 32
    let rows := field p 64 32
    let cols := if slay = 0 then len / e / max rows 1 else lwCols slay
    whole (extent e slay rows (rows * cols)) (transposeRuns e slay (field p 32 32) d.zpad rows cols)
  | .windowx =>
    let w := windowOf p
    whole (w.hIn * w.wIn * w.c) (windowRuns e d.zpad w)
  | .automorph => limbs (automorphLimb (field p 32 8) (field p 0 32))
  | .reverse => limbs (reverseLimb (field p 32 8) (bitAt p 70))
  | .seedx =>
    whole 64 (fun l => match s.psets[finOf 15 (field p 0 4)] with
      | some q => [(0, seedTiles q (l.take 32) (field p 8 8) (field p 16 8))]
      | none => [])
  | .forward => Fetched.mk s 0 [] []

/-! ## Read and write phases -/

/-- Blocks of a descriptor whose words have all landed: their credits are back (R252). -/
def Staged.back (g : Staged) : Nat := if g.pieces = 0 then g.inn else g.blocks * g.done / g.pieces

/-- Run-ahead credits that descriptors hold. -/
def Mover.held (m : Mover) : Nat := m.staged.foldl (fun n g => n + (g.inn - g.back)) 0

/-- Blocks that a read phase may bring in now: the free credits; one where no credit is held, since RUNAHEAD is at least 1 (R251). -/
def Mover.credits (m : Mover) : Nat := max (m.ra.toNat - m.held) (if m.held = 0 then 1 else 0)

/-- The blocks that the next piece to be written needs are in. -/
def Staged.ready (g : Staged) (ra : Nat) : Bool :=
  decide (min (ceilDiv (g.blocks * (g.done + 1)) (max g.pieces 1)) (g.back + max ra 1) ≤ g.inn)

/-- Cuts runs into deliveries of at most 16 KiB (R253). -/
def cutRuns (r : Runs) : Runs :=
  r.flatMap (fun x => ((chunks 16384 x.2).zipIdx).map (fun c => (x.1 + 16384 * c.2, c.1)))

/-- ALIGN: no part of the descriptor runs, MOV_ERRLOG keeps it and the Reef hears of it (R250). -/
def State.alignLog (s : State) (i : IsleIdx) (idx a : Nat) : State :=
  let is := s.isle i
  let log := BitVec.ofNat 32 (2 ^ 31 + 2 ^ 28 + idx % 2 ^ 12 * 2 ^ 16 + a % 2 ^ 14 / 64 * 64)
  s.setIsle i { is with mov := { is.mov with batch := is.mov.batch.drop 1, errLog := log, stopped := true } }

/-- The batch's next descriptor can begin its read phase: the one before has been read, its RSLOT is FULL, a credit is free, and of
standing forwards there are fewer than four (R252, R264). -/
def State.canRead (s : State) (i : IsleIdx) : Option (DOp × DescFields × Nat) :=
  let m := (s.isle i).mov
  match m.batch with
  | [] => none
  | b :: _ =>
    if m.stopped || m.reading || !(s.isle i).ready { b.2.1.sync with wv := false } || m.credits == 0 ||
      (b.1 == .forward && decide (4 ≤ m.fwds.length)) then none else some b

/-- Isles of the run whose mover refuses a descriptor as it begins, with the descriptor's index and the address (R250). -/
def State.alignFaults (s : State) (i : IsleIdx) : List (IsleIdx × Nat × Nat) :=
  (List.finRange 64).filterMap (fun k =>
    if k == i || (s.jobAt i).any (fun j => inRows j.run k.row) then
      (s.canRead k).bind (fun b => (s.misaligned k b.2.1).map (fun a => (k, b.2.2, a)))
    else none)

/-- Every Isle that begins a misaligned descriptor now reports its own fault; the job is discarded once (R250, R404). -/
def State.alignFault (s : State) (i : IsleIdx) : State :=
  let l := s.alignFaults i
  let s := l.foldl (fun s x => s.alignLog x.1 x.2.1 x.2.2) s
  l.foldl (fun s x => s.contained (Report.of (0x9000 + x.1.val))) s

/-- A standing forward is registered (R264). -/
def Mover.addForward (m : Mover) (op : DOp) (d : DescFields) : Mover :=
  if op = .forward ∧ d.length ≠ 0 then
    { m with fwds := m.fwds ++ [{ slot := finOf 127 (d.param.toNat % 128), d := d, left := d.length.toNat, pend := [], wait := 0 }] }
  else m

/-- Begins the read phase of the batch's next descriptor, which brings in its first block (R252). -/
def State.readPhase (s : State) (i : IsleIdx) : Option State :=
  match s.canRead i with
  | none => none
  | some (op, d, idx) =>
    if (s.misaligned i d).isSome then some (s.alignFault i)
    else
      let r := s.transform i op d
      let is := r.s.isle i
      let runs := cutRuns r.runs
      let last := is.mov.batch.length == 1 && is.mov.unread == 0
      let g : Staged :=
        { op := op, d := d, runs := runs, pieces := runs.length, done := 0, blocks := ceilDiv r.len 16384,
          inn := min 1 (ceilDiv r.len 16384), idx := idx, wait := 0, bwv := is.mov.batchWv, keys := r.keys, sent := [],
          first := decide (idx = 0), last := last }
      let is := if g.blocks ≤ 1 then is.syncRead { d.sync with wv := false } else is
      some (r.s.setIsle i { is with mov := ({ is.mov with
        batch := is.mov.batch.drop 1, rwait := 0, staged := is.mov.staged ++ [g],
        dindex := BitVec.ofNat 12 idx, batchWv := if last then none else is.mov.batchWv }).addForward op d })

/-- The read phase under way brings in further blocks, as many as credits are free; with the last one RSLOT has been read (R205,
R252). -/
def State.readMore (s : State) (i : IsleIdx) : Option State :=
  let is := s.isle i
  match is.mov.staged.find? (fun g => decide (g.inn < g.blocks)) with
  | none => none
  | some g =>
    let n := min g.blocks (g.inn + is.mov.credits)
    if n = g.inn then none
    else
      let x := { is with mov := { is.mov with staged := is.mov.staged.map (fun y => if y == g then { y with inn := n } else y) } }
      some (s.setIsle i (if n = g.blocks then x.syncRead { g.d.sync with wv := false } else x))

/-- Isles that a PEER write goes to: those of PMASK in ascending number, or PEER alone (R263). -/
def peersOf (op : DOp) (d : DescFields) : List IsleIdx :=
  let mask := d.param.toNat / 2 ^ 64
  if op = .copy && mask != 0 then (List.finRange 64).filter (fun i => mask.testBit i.val) else [d.peer]

/-- The Isle that takes the next copy of the first piece (R263). -/
def Staged.target (g : Staged) : Option IsleIdx := (peersOf g.op g.d).find? (fun p => !g.sent.contains p)

/-- Writes one piece of a descriptor to its destination; the stores of this Isle at once or, with `clk`, at the end of the Isle
cycle. -/
def State.writeRun (s : State) (clk : Bool) (i : IsleIdx) (g : Staged) (off : Nat) (data : List Byte) : State :=
  let d := g.d
  let lag := if clk then 1 else 0
  let key := (g.keys.find? (fun k => k.1 == off)).map (·.2)
  if d.dstsp = 0 then
    let a := d.dst.toNat % 2 ^ 22 + off
    let keys := g.keys.filterMap (fun k => if off ≤ k.1 ∧ k.1 < off + data.length then some (a + (k.1 - off), k.2) else none)
    s.putIsle i (((s.isle i).put lag (.store [(a, data)]) FlagSet.none).setTags a data.length keys)
  else if d.dstsp = 1 then s.putIsle i ((s.isle i).put lag (.mtile (d.dst.toNat % 131072 + off) data) FlagSet.none)
  else if d.dstsp = 2 then
    let a := devAdd s.big512 (s.devAddr i d.dst d.dref / 64 * 64) off
    let f := s.meshWrite i (farStop i (s.devStops a data.length)) 3 0
    if f.2 then f.1.moverWrite i.row a data else f.1
  else if d.dstsp = 3 then
    let a := s.lagAddr i d.dst d.dref
    let f := s.meshWrite i (sliceStop a.1) 1 0
    if f.2 then f.1.sliceWrite a.1 (a.2 / 64 * 64 + off) data else f.1
  else if d.dstsp = 4 then
    match g.target with
    | some p => s.sendBlock i p (d.dst.toNat % 2 ^ 22 + off) data key
    | none => s
  else if d.dstsp = 5 then s.sendStrait i d.target (d.dst.toNat + off) data key
  else s

/-- The write phase may go on: WSLOT, and at a batch's first write the batch's WSLOT, is EMPTY; the PEER whose turn it is grants a
credit; the blocks are in (R243, R252, R253, R263). -/
def State.canWrite (s : State) (i : IsleIdx) (g : Staged) : Bool :=
  let is := s.isle i
  is.ready { g.d.sync with rv := false } &&
  (!g.first || !(g.bwv.any (fun k => (is.slot k).full))) &&
  (if g.runs.isEmpty then decide (g.blocks ≤ g.inn)
   else g.ready is.mov.ra.toNat && (g.d.dstsp != 4 || g.target.all s.deliveryFree))

/-- Bytes that one step writes: a piece, or with `clk` the 256 bytes of an Isle cycle into the Isle's own stores (R246). -/
def pieceOf (clk : Bool) (g : Staged) (data : List Byte) : List Byte := if clk && decide (g.d.dstsp.toNat < 2) then data.take 256 else data

/-- The descriptor after `data` of its first piece has been written. -/
def Staged.wrote (g : Staged) (n : Nat) : Staged :=
  match g.runs with
  | [] => g
  | (off, data) :: rest =>
    let sent := if g.d.dstsp = 4 then g.sent ++ g.target.toList else []
    if g.d.dstsp = 4 ∧ (peersOf g.op g.d).any (fun p => !sent.contains p) then { g with sent := sent, first := false, wait := 0 }
    else if n < data.length then { g with runs := (off + n, data.drop n) :: rest, first := false, wait := 0 }
    else { g with runs := rest, done := g.done + 1, sent := [], first := false, wait := 0 }

/-- A descriptor has landed its last word: its token, and with a batch's last descriptor the batch's (R205, R243). -/
def Isle.descriptorEnd (is : Isle) (clk : Bool) (g : Staged) : Isle :=
  let lag := if clk then 1 else 0
  let y : Sync := { g.d.sync with rv := false }
  let is := if y.wv then is.put lag (.sync y) FlagSet.none else is
  match g.bwv with
  | some k => if g.last then is.put lag (.sync { rv := false, rslot := 0, wv := true, wslot := k }) FlagSet.none else is
  | none => is

/-- A write phase under way: the bytes it has written, and what is left of its descriptor. -/
structure Writing where
  s : State
  g : Staged
  bytes : Nat

/-- One piece is written. -/
def Writing.piece (clk : Bool) (i : IsleIdx) (x : Writing) : Writing :=
  match x.g.runs with
  | [] => x
  | r :: _ =>
    let data := pieceOf clk x.g r.2
    { s := x.s.writeRun clk i x.g r.1 data, g := x.g.wrote data.length, bytes := x.bytes + data.length }

/-- What a step of a write phase writes: one piece in an Isle cycle, or for a PEER one copy; without the clock every piece whose
blocks are in. -/
def State.writePieces (s : State) (clk : Bool) (i : IsleIdx) (g : Staged) : Writing :=
  let x : Writing := { s := s, g := g, bytes := 0 }
  if clk || g.d.dstsp == 4 then x.piece clk i
  else g.runs.foldl (fun x _ =>
    if x.g.ready (x.s.isle i).mov.ra.toNat && !(x.s.isle i).mov.staged.isEmpty then x.piece false i else x) x

/-- One step of the oldest write phase: its pieces, then after the last one the tokens. -/
def State.writePhase (s : State) (clk : Bool) (i : IsleIdx) : Option State :=
  match (s.isle i).mov.staged with
  | [] => none
  | g :: t =>
    if !s.canWrite i g then none
    else
      let x := s.writePieces clk i g
      let is := x.s.isle i
      if is.mov.staged.isEmpty then some x.s   -- the job was discarded meanwhile
      else
        let spent := x.g.runs.isEmpty && decide (x.g.blocks ≤ x.g.inn)
        let is := { is with mov := { is.mov with
          bytes := is.mov.bytes + BitVec.ofNat 64 x.bytes
          staged := if spent then t else x.g :: t } }
        some (x.s.setIsle i (if spent then is.descriptorEnd clk g else is))

/-! ## Progress -/

/-- One step of an Isle's mover or its deliveries. -/
def State.moverProgress (s : State) (clk : Bool) (i : IsleIdx) : Option State :=
  (s.readMore i).orElse fun _ =>
  (s.readPhase i).orElse fun _ =>
  (s.writePhase clk i).orElse fun _ =>
  (s.forwardStep i).orElse fun _ => s.landStep i

/-- The units and, with `skerry`, the Skerry of an Isle for one Isle cycle. -/
def State.unitCycle (s : State) (i : IsleIdx) (skerry : Bool) : State :=
  let r := (s.isle i).unitCycle i (s.isleCompat i) skerry
  (s.putIsle i (r.1.pass 1)).reports r.2

/-- One step of an Isle's own units, its mover or its deliveries. Work that its units hold goes on first. -/
def State.isleProgress (s : State) (i : IsleIdx) : Option State :=
  if (s.isle i).un.busy then some (s.unitCycle i false)
  else match (s.isle i).progress i (s.isleCompat i) with
  | some r => some ((s.putIsle i r.1).reports r.2)
  | none => s.moverProgress false i

/-- One Isle cycle of an Isle: its mover and its deliveries, then its units and its Skerry. -/
def State.isleCycle (s : State) (i : IsleIdx) : State :=
  let step := fun (s : State) (f : State → Option State) => (f s).getD s
  let s := [fun s => State.readMore s i, fun s => State.readPhase s i, fun s => State.writePhase s true i,
    fun s => State.forwardStep s i, fun s => State.landStep s i].foldl step s
  s.unitCycle i true

/-- Isles whose mover holds work, besides `i`. -/
def State.busyIsles (s : State) (i : IsleIdx) : List IsleIdx :=
  i :: (List.finRange 64).filter (fun k =>
    let m := (s.isle k).mov
    !(m.staged.isEmpty && m.arrivals.isEmpty && m.batch.isEmpty && m.fwds.all (fun f => f.pend.isEmpty)))

/-- Progress until nothing moves, at most `fuel` steps. -/
def State.settle (i : IsleIdx) : Nat → State → State
  | 0, s => s
  | fuel + 1, s =>
    match (s.busyIsles i).findSome? (fun k => s.isleProgress k) with
    | some s' => State.settle i fuel s'
    | none => s

def settleFuel : Nat := 8192

/-- Words that arrive from a Strait land in a slot of the Isle. Those that must wait and find no DELIVERY block free are
SCHEDULE_OVERRUN (R253). -/
def State.arrive (s : State) (i : IsleIdx) (a : Arrival) : State :=
  let t := (s.deliver i a).settle i settleFuel
  if (t.isle i).mov.arrivals.contains a && decide ((t.isle i).mov.rd.toNat < (t.isle i).deliveryBlocks) then t.overrunOn i else t

/-- The Skerry of an Isle issues an instruction; nothing happens while it cannot (halted, trapped, or one is held). -/
def State.issueAt (s : State) (i : IsleIdx) (ins : IsleInstr) : State :=
  let is := s.isle i
  if s.power == .running && !s.reef.fatal && is.canIssue then
    let r := is.issue i (s.isleCompat i) ins
    ((s.putIsle i r.1).reports r.2).settle i settleFuel
  else s

/-- The Skerry fetches and issues its next instruction (R185). -/
def State.stepAt (s : State) (i : IsleIdx) : State :=
  let is := s.isle i
  match is.fetch with
  | some ins => s.issueAt i ins
  | none => if is.canIssue then let r := is.trap i 3; (s.putIsle i r.1).reports r.2 else s

/-- The mover works for a job, or in bring-up mode. -/
def State.moverLive (s : State) (i : IsleIdx) : Bool :=
  s.power == .running && !s.reef.fatal && ((s.jobAt i).isSome || s.bringUp)

/-- A descriptor joins the mover's batch, and the mover works as far as it can (R242). -/
def State.descriptor (s : State) (i : IsleIdx) (op : DOp) (d : DescFields) : State :=
  if s.moverLive i then
    let is := s.isle i
    (s.setIsle i { is with mov := { is.mov with batch := is.mov.batch ++ [(op, d, is.mov.batch.length)] } }).settle i settleFuel
  else s

end Sys2Proof.Machine
end

