-- ==== Sys2Proof/Machine/Load.lean ====
section
/-! DEFINITION. LOAD_PROGRAM (R353, R219, R214 to R218): the header, the two judgements, the copy into the run's channels, the
shadow banks, held loads, and the end of a binding. -/

namespace Sys2Proof.Machine

/-! ## The header (Table ISA-9) -/

def hdrOf (l : List Byte) : ImageHdr :=
  { version := BitVec.ofNat 4 (leAt l 0 1 / 16), cls := byteOf (leAt l 1 1), rows := leAt l 2 1, pages := leAt l 3 1,
    loopDepth := field (leAt l 4 1) 0 3, agLevels := field (leAt l 4 1) 4 3, featBit := bitAt (leAt l 5 1) 0,
    featStrait := bitAt (leAt l 5 1) 1, paged := bitAt (leAt l 5 1) 2, slots := leAt l 6 2, storeUse := leAt l 8 4,
    slack := leAt l 12 4, wcd := leAt l 16 6, ringSize := leAt l 24 4 }

/-- The bytes of the sections of type `ty` that the section table names, in its order (R219). -/
def sectionBytes (raw : List Byte) (ty : Nat) : List (List Byte) :=
  (List.range 16).filterMap (fun i =>
    let e := leAt raw (128 + 8 * i) 8
    if field e 56 8 = ty then some (slice raw (field e 0 32) (64 * field e 32 24)) else none)

/-- The sections that the run reads: instruction pages of 4,096 words and slot tables of SLOTS entries per Isle position stand in the
bytes as Table ISA-9, R214 and Table ISA-7 lay them out; the others, for which the spec gives no layout, are those given beside the
bytes (notes/assumptions/29.md), as are pages and tables where the section table names none. -/
def imageSections (d : ImageData) : ImageSections :=
  let h := hdrOf d.raw
  let words := fun (l : List Byte) => (chunks 8 l).map (fun w => (BitVec.ofNat 64 (leNat w) : DWord))
  let pages := (sectionBytes d.raw 1).flatten
  let slots := (sectionBytes d.raw 2).flatten
  { d.sections with
    pages := if pages.isEmpty then d.sections.pages else ((chunks 32768 pages).map words).take (max h.pages 1)
    slotTables := if slots.isEmpty || h.slots == 0 then d.sections.slotTables else (chunks (8 * h.slots) slots).map words }

/-- TIME of the load's reply: WCD in µs, rounded up; an Isle cycle is 10/9 ns. -/
def wcdUs (m : ImageHdr) : Nat := min (ceilDiv m.wcd 900) 0xFFFFFFF

/-! ## Bindings -/

/-- Work joins the Atoll's queue of 16, or waits for a place (R383). -/
def Atoll.enqueue (a : Atoll) (w : AtollWork) : Atoll :=
  if a.queue.length < 16 && a.waiting.isEmpty then { a with queue := a.queue ++ [w] }
  else { a with waiting := a.waiting ++ [w] }

/-- A bank whose valid tag names a page of the binding becomes invalid (R214). -/
def ImBank.drop (b : ImBank) (f : Fn) (h : BitVec 16) : ImBank :=
  if b.fn == f && b.image == h then { b with valid := false } else b

/-- The protected ranges of a binding leave every channel (R354). -/
def State.dropRanges (s : State) (img : Bool) (key : Nat) : State :=
  { s with chans := s.chans.map (fun c => { c with prot := c.prot.filter (fun r => !(r.img == img && r.key == key)) }) }

/-- A binding ends: its ranges go and the tags of its pages become invalid (R214, R353). -/
def State.unbind (s : State) (m : Image) : State :=
  let s := { s with images := s.images.filter (fun x => x.bind != m.bind) }
  let s := s.dropRanges true m.bind
  { s with isles := s.isles.map (fun is =>
      { is with sk := { is.sk with
        bank0 := is.sk.bank0.drop m.fn m.handle, bank1 := is.sk.bank1.drop m.fn m.handle } }) }

/-- Each armed job of a handle completes ABORTED, its reply written before the load's (R353, R359). -/
def State.abortArmed (s : State) (p : Job → Bool) : State :=
  s.jobs.foldl (fun s j =>
    if j.phase == .armed && j.ending.isNone && p j then
      let s := s.discard j stAborted 0
      s.complete j { cyc := s.now, status := stAborted, result0 := 0, time := j.elapsed s.now, done := false } s.now
    else s) s

/-- An admitted, unfinished job or a protected placement uses the handle (R353, R378). -/
def State.handleUsed (s : State) (f : Fn) (h : BitVec 16) : Bool :=
  s.engaged.any (fun j => j.fn == f && j.img.handle == h)

/-- Every channel has room for one more range, the ranges that the load replaces apart (R354). -/
def State.rangeRoom (s : State) (chans : List ChanIdx) (img : Bool) (key : Option Nat) : Bool :=
  chans.all (fun c => decide (((s.chan c).prot.filter (fun r => !(r.img == img && key == some r.key))).length < 16))

def State.addRange (s : State) (chans : List ChanIdx) (r : ProtRange) : State :=
  { s with chans := vmodAll s.chans (chans.contains ·) (fun _ c => { c with prot := c.prot ++ [r] }) }

/-! ## The judgement -/

def pktHandle (p : Packet) : BitVec 16 := BitVec.ofNat 16 (pktBytes p 28 2)
def pktFirstRow (p : Packet) (at' : Nat) : RowIdx := finOf 7 (pktBytes p at' 1 % 8)

/-- The header's ROWS gives a run from FIRSTROW (R353). -/
def hasRun (first n : Nat) : Bool := decide (1 ≤ n) && decide (n ≤ 8) && decide (first + n ≤ 8)

/-- DETAIL of a refusal: 2 the run, 3 a full protected-range table, 4 a job that uses the handle. -/
def State.loadRefusal (s : State) (p : Packet) (h : ImageHdr) : Option Nat :=
  let first := pktFirstRow p 30
  let rows := rowMask first.val h.rows
  if !hasRun first.val h.rows || !s.holdsRun p.fn rows then some 2
  else if !s.rangeRoom (islesOf rows) true ((s.imageOf p.fn (pktHandle p)).map (·.bind)) then some 3
  else if s.handleUsed p.fn (pktHandle p) then some 4
  else none

/-- A channel offset of a packet: 16 KiB aligned, below the channel's capacity; and how many times it was clamped. -/
def State.chanOffset (s : State) (x : Nat) : Nat × Nat :=
  let c := clampNat 0 (chanCap s.big512 - 16384) x
  (c.1 / 16384 * 16384, b2n (decide (c.2 = 1) || decide (x % 16384 ≠ 0)))

/-! ## The copy in DRAM -/

/-- Writes a byte string into one channel. -/
def State.chanWrite (s : State) (c : ChanIdx) (off : Nat) (data : List Byte) : State :=
  let a := 2 ^ 39 + c.val * 2 ^ 33 + off
  (blockStarts a data.length).foldl (fun (s : State) k =>
    let h := s.devHome a k
    s.putBlock h.1 h.2 (slice data k (64 - (a + k) % 64))) s

/-- What the near channel of the run's q-th Isle receives: instruction pages, slot table, descriptor tables, mover plan. -/
def ownSections (x : ImageSections) (q : Nat) : List Byte :=
  (x.pages.flatten.flatMap (fun w => leBytes 8 w.toNat)) ++
  ((x.slotTables.getD q []).flatMap (fun w => leBytes 8 w.toNat)) ++
  ((x.descTables.filter (·.isle == q)).flatMap (·.bytes)) ++
  (match x.moverPlans[q]? with
    | some m => leBytes 8 (m.1 + m.2.1 * 256 + m.2.2 * 65536)
    | none => [])

/-- Every other section, in the order of the section table. -/
def sharedSections (raw : List Byte) : List Byte :=
  (List.range 16).flatMap (fun i =>
    let e := leAt raw (128 + 8 * i) 8
    let ty := field e 56 8
    if 3 ≤ ty ∧ ty ≤ 8 then slice raw (field e 0 32) (64 * field e 32 24) else [])

/-- Stores the image at IOFF of the run's channels and registers its range (R353, R354). -/
def State.storeImage (s : State) (m : Image) (img : ImageData) : State :=
  let own := m.isles.map (fun i => (i, ownSections m.sections (i.val - 8 * m.firstRow.val)))
  let top := own.foldl (fun n o => max n (ceilDiv o.2.length 16384 * 16384)) 0
  let units := chunks 16384 (sharedSections img.raw)
  let h := max m.isles.length 1
  let s := own.foldl (fun (s : State) o => s.chanWrite o.1 m.ioff o.2) s
  let s := units.zipIdx.foldl (fun (s : State) u =>
    match m.isles[u.2 % h]? with
    | some c => s.chanWrite c (m.ioff + top + 16384 * (u.2 / h)) u.1
    | none => s) s
  s.addRange m.isles
    { lo := m.ioff, hi := m.ioff + max 16384 (top + 16384 * ceilDiv units.length h), img := true, key := m.bind }

/-! ## Shadow banks (R215, R217, R218) -/

/-- Writes page 0 into an Isle's shadow bank. -/
def Isle.putPage0 (is : Isle) (m : Image) : Isle :=
  let b : ImBank := { valid := true, fn := m.fn, image := m.handle, page := 0, words := m.sections.pages.getD 0 [] }
  { is with sk := is.sk.setShadow b }

/-- The jobs for whose sake a write of the Isle's shadow bank is held: a PAGED job that runs there, and admitted, unstarted
jobs that await the page 0 in that bank, those with a protected placement among them (R217, R218, R378). -/
def State.holders (s : State) (i : IsleIdx) : List Job :=
  let b := (s.isle i).sk.shadow
  s.engaged.filter (fun j => isleIn j.run i &&
    (if j.phase == .started then j.img.hdr.paged
     else b.valid && b.fn == j.fn && b.image == j.img.handle && b.page == 0))

def State.putPages (s : State) (l : List IsleIdx) (m : Image) : State :=
  { s with isles := vmodAll s.isles (l.contains ·) (fun _ is => is.putPage0 m) }

/-- The first cycle after a job's promise, or after the protected placements of an armed one. -/
def State.promiseEnd (s : State) (j : Job) : Nat :=
  if j.phase == .armed then ((s.protectedEntries.filter (fun e => e.ok && e.job == j.id)).map (fun e => e.cp + 1)).foldl max 0 else j.cp + 1

/-! ## Completion -/

def loadAnswer (m : Image) : Answer :=
  if m.valid then { Answer.of stOk 0 with time := wcdUs m.hdr } else Answer.of stVerifier 1

/-- The second judgement and, when it passes, the binding: the image is stored, page 0 written or held, and the reply given
or owed (R353, R370). `ok` tells whether the seal verified. -/
def State.finishLoad (s : State) (l : ProgLoad) (ok : Bool) : State :=
  let s := { s with progLoads := s.progLoads.filter (fun x => x.id != l.id) }
  let h := hdrOf l.img.raw
  match s.loadRefusal l.p h with
  | some d => s.refuse l.p d
  | none =>
    let handle := pktHandle l.p
    let s := s.abortArmed (fun j => j.fn == l.p.fn && j.img.handle == handle)
    let s := match s.imageOf l.p.fn handle with
      | some old => s.unbind old
      | none => s
    let m : Image := {
      bind := l.id, fn := l.p.fn, handle := handle, hdr := h, sections := imageSections l.img,
      firstRow := pktFirstRow l.p 30, ioff := (s.chanOffset (pktBytes l.p 32 8)).1, valid := ok }
    let s := ({ s with images := s.images ++ [m] }).storeImage m l.img
    let held := m.isles.filter (fun i => !(s.holders i).isEmpty)
    let free := m.isles.filter (fun i => (s.holders i).isEmpty)
    let waits := held.flatMap s.holders
    let lo := waits.foldl (fun n j => max n (s.promiseEnd j)) s.now
    let s := s.putPages free m
    if held.isEmpty then s.answer l.p (loadAnswer m)
    else
      let rows := (List.finRange 8).foldl (fun (b : BitVec 8) y => if held.any (fun i => i.row == y) then b ||| rowMask y.val 1 else b) 0
      let o := s.occupy rows (earliest s.timeline rows lo heldLen) heldLen .held
      { o.2 with heldLoads := o.2.heldLoads ++
          [{ id := l.id, occ := o.1, p := l.p, bind := m.bind, isles := held, interp := l.interp, waits := waits.map (·.id) }] }

/-! ## Commands -/

/-- LOAD_PROGRAM (R353): the first judgement, then the DMA and the seal check; LENGTH 0 unbinds. -/
def execLoadProgram (p : Packet) (img : ImageData) (s : State) : Host.Outcome State Fault Refusal :=
  .next <| s.interpret p 0x0010 false true false fun s =>
    let handle := pktHandle p
    if pktBytes p 24 4 = 0 then
      if s.handleUsed p.fn handle then s.refuse p 4
      else
        let s := s.abortArmed (fun j => j.fn == p.fn && j.img.handle == handle)
        let s := match s.imageOf p.fn handle with
          | some m => s.unbind m
          | none => s
        s.answer p (Answer.of stOk 0)
    else
      let s := s.clampQ p.fn p.q (s.chanOffset (pktBytes p 32 8)).2
      match s.loadRefusal p (hdrOf img.raw) with
      | some d => s.refuse p d
      | none =>
        let f := s.fresh
        let s := f.2
        { s with
          progLoads := s.progLoads ++ [{ id := f.1, p := p, img := img, checked := none, interp := s.now }]
          atl := s.atl.enqueue (.checkSeal f.1) }

/-- A LOAD_PROGRAM whose seal has been checked takes effect (R353). -/
def execLoadProgramComplete (id : Nat) (s : State) : Host.Outcome State Fault Refusal :=
  .next <|
    match s.progLoads.find? (fun l => l.id == id) with
    | some l =>
      match l.checked with
      | some ok => if s.running && !s.reef.fatal then s.finishLoad l ok else s
      | none => s
    | none => s

/-- A held load may be written: the jobs it waits for have ended, or its interval has come, which begins after their promises (R217,
R218, R370). -/
def State.heldDue (s : State) (l : HeldLoad) : Bool :=
  l.waits.all (fun id => !s.engaged.any (fun j => j.id == id)) || (s.occs.find? (fun o => o.id == l.occ)).any (fun o => decide (o.start ≤ s.now))

/-- A held load is written within its interval, or earlier as soon as R217 and R218 allow it, and its reply follows (R217, R218, R370).
A binding that has ended meanwhile is not written. -/
def State.writeHeld (s : State) (l : HeldLoad) : State :=
  let s := { s with heldLoads := s.heldLoads.filter (fun x => x.id != l.id) }
  let s := s.vacate l.occ
  match s.images.find? (fun m => m.bind == l.bind) with
  | some m =>
    let s := s.putPages l.isles m
    let s := { s with images := (s.images.filter (fun (x : Image) => x.bind != m.bind)) ++ [m] }
    s.answer l.p (loadAnswer m)
  | none => s.answer l.p (Answer.of stOk 0)

def execHeldLoadWrite (id : Nat) (s : State) : Host.Outcome State Fault Refusal :=
  .next <|
    match s.heldLoads.find? (fun l => l.id == id) with
    | none => s
    | some l => if !s.running || s.reef.fatal || !s.heldDue l then s else s.writeHeld l

/-- The held loads whose interval is over are complete in every case (R370). -/
def State.heldTick (s : State) : State :=
  (s.heldLoads.filter (fun l => (s.occs.find? (fun o => o.id == l.occ)).any (fun o => decide (o.stop ≤ s.now)))).foldl
    (fun s l => s.writeHeld l) s

end Sys2Proof.Machine
end

