-- ==== Sys2Proof/Machine/Jobs.lean ====
section
/-! DEFINITION. Submitting, arming, aborting and releasing (R356 to R360, R365, R367, R368, R372, R380). -/

namespace Sys2Proof.Machine

/-! ## Device addresses of a packet (R346, R348) -/

/-- The row of `l` nearest to y, the lower one on a tie. -/
def nearestRow (l : List RowIdx) (y : RowIdx) : RowIdx :=
  l.foldl (fun (b : RowIdx) r =>
    let d := fun (x : RowIdx) => if x.val < y.val then y.val - x.val else x.val - y.val
    if d r < d b then r else b) (l.headD y)

/-- A device address with its row moved to the nearest of `l` — in MODE 1 the nearest channel of those rows — and whether
it moved. -/
def rowClamp (l : List RowIdx) (a : Nat) : Nat × Nat :=
  let y := devRow a
  if l.isEmpty || l.contains y then (a, 0)
  else
    let r := nearestRow l y
    let base := a - y.val * 2 ^ 36 + r.val * 2 ^ 36
    if devMode1 a then
      let ch := if r.val < y.val then 7 else 0
      (base - field a 33 3 * 2 ^ 33 + ch * 2 ^ 33, 1)
    else (base, 1)

/-- A device address of a packet, in the function's rows and aligned; 0 stays 0 where it stands for none. -/
def State.pktAddr (s : State) (f : Fn) (a align : Nat) (none0 : Bool) : Nat × Nat :=
  if none0 && a == 0 then (0, 0)
  else
    let a := a % 2 ^ 40
    let r := rowClamp ((List.finRange 8).filter (s.holds f)) a
    (r.1 - r.1 % align, r.2 + b2n (decide (r.1 % align ≠ 0)))

/-! ## SUBMIT_JOB -/

/-- How many members a plan can name. -/
def planMembers (m : Image) : Nat :=
  match m.sections.strait with
  | some p => if p.topo.isEmpty then 0 else max m.hdr.ringSize (p.topo.foldl (fun n t => max n (t.peer + 1)) 0)
  | none => 0

/-- Reads the member list: 4-byte entries, bits [19:0] the device identifier (R356). -/
def State.readMembers (s : State) (a n : Nat) : State × List (BitVec 20) :=
  if a = 0 || n = 0 then (s, [])
  else
    let r := s.devRead .host a (4 * n)
    (r.1, (chunks 4 r.2.1).map (fun e => BitVec.ofNat 20 (leNat e)))

/-- The job a packet describes, not yet placed. -/
def jobOf (p : Packet) (id now : Nat) (m : Image) (ver : BitVec 4) (idesc rdesc rcfg : Nat) (members : List (BitVec 20)) : Job :=
  { id := id, fn := p.fn, q := p.q, cid := p.cid, noirq := p.noirq, version := ver, jobid := p.jobid,
    slot := finOf 63 (pktBytes p 18 1), img := m, phase := .armed, byAdm := false, c0 := now, start := 0, cp := 0, prep := 0,
    idesc := BitVec.ofNat 64 idesc, rdesc := BitVec.ofNat 64 rdesc, rcfg := BitVec.ofNat 64 rcfg, members := members,
    abortLate := false, ruleSub := false, mismatch := false, inputs := [], inData := [], payloads := [], configs := [], badRecords := [],
    keyIn := [], ending := none }

/-- A job joins the ones the module answers for; its slot becomes PENDING. -/
def State.takeJob (s : State) (j : Job) : State :=
  ({ s with jobs := s.jobs ++ [j] }).setSlot j.fn j.slot { s.slotOf j.fn j.slot with st := .pending, jobid := j.jobid }

/-- Armed jobs of a class, oldest first (R368). -/
def State.armQueue (s : State) (c : Nat) : List Job :=
  s.jobs.filter (fun j => j.phase == .armed && j.ending.isNone && j.img.hdr.cls.toNat == c)

/-- An ACCEPTED interpretation reply. -/
def accepted (j : Job) (detail time : Nat) (grid : Word) : Answer :=
  { status := stAccepted, detail := detail, result0 := grid.toNat, result1 := j.jobid.toNat, time := time }

/-- Admits a placed job: its occupancy runs from the preparation start to C_p (R370, R371). -/
def State.placeJob (s : State) (j : Job) (pl : Nat × Nat × Nat) : State :=
  let j := { j with phase := .admitted, start := pl.1, cp := pl.2.1, prep := pl.2.2 }
  ((s.occupy j.run (pl.1 - pl.2.2) (pl.2.1 + 1 + pl.2.2 - pl.1) (.job j.id)).2).takeJob j

/-- A SUBMIT_JOB that passed its checks and is not armed (R356, R371, R372). -/
def State.submitNow (s : State) (p : Packet) (j : Job) : State :=
  match s.timelyRefusal j.img [] none with
  | some d => s.refuse p d
  | none =>
    match s.place s.timeline j.img s.now false with
    | none => s.refuse p 14
    | some pl => (s.placeJob j pl).answer p (accepted j 0 (promiseOf pl.2.1 s.now) (gridIndex j.img pl.1))

/-- A SUBMIT_JOB that passed its checks and is armed (R367, R368). -/
def State.submitArmed (s : State) (p : Packet) (j : Job) : State :=
  let c := j.img.hdr.cls.toNat
  if (vget s.adm.clsmap c).toNat != p.fn.val then s.refuse p 5
  else if 4 ≤ (s.armQueue c).length then s.refuse p 6
  else (s.takeJob j).answer p (accepted j 1 0 0)

/-- The fields and checks that SUBMIT_JOB and its armed form share; `k` goes on with a job that passes (R356, R426). -/
def State.submit (s : State) (p : Packet) (k : State → Job → State) : State :=
  s.interpret p 0x0020 false true false fun s =>
    if s.boot.mode == 3 then s.refuse p 0xFE
    else
      let ver := (s.queue p.fn p.q).version
      let m := s.imageOf p.fn (BitVec.ofNat 16 (pktBytes p 16 2))
      let i := s.pktAddr p.fn (pktBytes p 24 8) 64 false
      let r := s.pktAddr p.fn (pktBytes p 32 8) 64 false
      let c := s.pktAddr p.fn (s.extAt p 48 8) 1 true
      let e := s.pktAddr p.fn (s.extAt p 56 8) 1 true
      let s := s.clampQ p.fn p.q (i.2 + r.2 + c.2 + e.2)
      let l := s.readMembers e.1 (m.elim 0 planMembers)
      let s := l.1
      match s.refusal p.fn m ver (finOf 63 (pktBytes p 18 1)) p.jobid (BitVec.ofNat 64 c.1) (BitVec.ofNat 64 e.1) l.2 none, m with
      | some x, _ => s.answer p { Answer.of x.1 x.2 with result1 := p.jobid.toNat }
      | none, some m => let f := s.fresh; k f.2 (jobOf p f.1 s.now m ver i.1 r.1 c.1 l.2)
      | none, none => s

/-- SUBMIT_JOB: placed at interpretation unless FLAGS.ARM is set. -/
def execSubmitJob (p : Packet) (s : State) : Host.Outcome State Fault Refusal :=
  .next <| s.submit p (fun s j => if p.arm then s.submitArmed p j else s.submitNow p j)

/-- SUBMIT_JOB with ARM = 1. -/
def execArmJob (p : Packet) (s : State) : Host.Outcome State Fault Refusal :=
  .next <| s.submit p (fun s j => if p.arm then s.submitArmed p j else s.submitNow p j)

/-! ## ABORT_JOB and RELEASE_RESULT: latched in the next management cycle (R358, R360) -/

def execAbortJob (p : Packet) (s : State) : Host.Outcome State Fault Refusal :=
  .next <| s.interpret p 0x0021 false true false fun s => { s with aborts := s.aborts ++ [(p, s.now + 1, none)] }

def execReleaseResult (p : Packet) (s : State) : Host.Outcome State Fault Refusal :=
  .next <| s.interpret p 0x0022 false true false fun s => { s with releases := s.releases ++ [(p, s.now + 1)] }

end Sys2Proof.Machine
end

