-- ==== Sys2Proof/Machine/AdmPort.lean ====
section
/-! DEFINITION. The admission port: classes (R367), the table published every management cycle (R369), requests against a
copy (R374, R377, R378), and the lapse of tentative placements (R376). -/

namespace Sys2Proof.Machine

/-! ## ADM_CLSMAP -/

/-- One field of a CLSMAP write: the new map, the clamps, and whether an armed class kept its function. -/
def State.clsField (s : State) (k : Fin 32) (v : Word) (r : Vector (BitVec 4) 256 × Nat × Bool) (i : Nat) :
    Vector (BitVec 4) 256 × Nat × Bool :=
  let c := 8 * k.val + i
  let x := clampNat 0 8 (field v.toNat (4 * i) 4)
  let n := BitVec.ofNat 4 x.1
  if n != vget s.adm.clsmap c && !(s.armQueue c).isEmpty then (r.1, r.2.1 + x.2, true)
  else (vset r.1 (finOf 255 c) n, r.2.1 + x.2, r.2.2)

def execAdmClsmapWrite (k : Fin 32) (v : Word) (s : State) : Host.Outcome State Fault Refusal :=
  .next <|
    if !s.takesWrite then s
    else
      let r := (List.range 8).foldl (s.clsField k v) (s.adm.clsmap, 0, false)
      ({ s with adm := { s.adm with clsmap := r.1 } }).clamp8 Fn.pf (r.2.1 + b2n r.2.2)

/-! ## Publication -/

/-- The port shows entries at all: enabled, no fatal fault, no declared dispute, the PF in D0 and the host
block resumed after it (R369, R382, R405, R449, R450). -/
def State.admOpen (s : State) : Bool :=
  s.running && s.adm.en && !s.reef.fatal && s.auth.dispute.isNone && !(s.fnOf Fn.pf).d3hot &&
    decide (s.gates.resumeAt ≤ s.now)

/-- The image whose T a class shows while its queue is empty: the newest binding in force of the assigned function. -/
def State.latestImage (s : State) (f : Fn) (c : Nat) : Option Image :=
  (s.images.filter (fun m => m.fn == f && m.hdr.cls.toNat == c && !s.heldLoads.any (fun l => l.bind == m.bind))).getLast?

def entryOf (c : Nat) (ok : Bool) (job now : Nat) (rows : BitVec 8) (pl : Option (Nat × Nat × Nat)) : AdmEntry :=
  match pl with
  | some x =>
    { cls := c, ok := ok, time := BitVec.ofNat 28 (promiseOf x.2.1 now), job := job, start := x.1, cp := x.2.1, prep := x.2.2, rows := rows }
  | none => { cls := c, ok := false, time := noPromise, job := job, start := 0, cp := 0, prep := 0, rows := rows }

/-- The head job passes every check of R356 as though admitted now; `more` are the jobs of the entries already formed (R372). -/
def State.headFits (s : State) (j : Job) (more : List Nat) : Bool :=
  (s.refusal j.fn (some j.img) j.version j.slot j.jobid j.rcfg (if j.members.isEmpty then 0 else 1) j.members (some j.id)).isNone &&
  (s.timelyRefusal j.img more (some j.id)).isNone

/-- The entry of one class, given those already formed in this generation (R369, R371, R376). -/
def State.classEntry (s : State) (acc : List AdmEntry) (c : Nat) : List AdmEntry :=
  let v := (vget s.adm.clsmap c).toNat
  if 8 ≤ v then acc
  else
    let occs := s.occs ++ s.tentatives (some c) ++ acc.filterMap AdmEntry.occ
    let put := fun (m : Image) => if m.valid then s.place occs m s.now true else none
    match (s.armQueue c).head? with
    | some j => acc ++ [entryOf c (s.headFits j ((acc.filter (·.ok)).map (·.job))) j.id s.now j.run (put j.img)]
    | none => acc ++ [entryOf c false 0 s.now 0 ((s.latestImage (finOf 8 v) c).bind put)]

/-- A generation of the table is published (R369); a class without an entry reads OK 0 and no promise. -/
def execAdmPublish (s : State) : Host.Outcome State Fault Refusal :=
  .next <|
    if !s.running then s
    else
      let t := if s.admOpen then (List.range 256).foldl s.classEntry [] else []
      { s with adm := { s.adm with
        gen := s.now, table := t, past := (s.now, t) :: s.adm.past.filter (fun g => g.1 != s.now && decide (s.now ≤ g.1 + 32)) } }

/-! ## Requests -/

/-- What a copy of generation `gen` shows for a class (R374, R377). -/
def State.copyEntry (s : State) (gen c : Nat) : Option AdmEntry :=
  if s.admOpen then ((s.adm.past.find? (fun g => g.1 == gen)).map (·.2)).bind (fun t => t.find? (fun e => e.cls == c)) else none

/-- Management cycles in which a generation has completely crossed in every case: 2 ADM_CLK periods of at most 40 ns and 1 management
cycle (R374). -/
def crossing : Nat := 13

/-- The generation of the copy that the port holds: the one that has crossed by now, `gen`, but none older than the copy before it or
than the newest that must have crossed, and none that was never published (R374). -/
def State.copyGen (s : State) (gen : Nat) : Nat :=
  let gens := s.adm.past.map (·.1)
  let must := (gens.filter (fun g => decide (g + crossing ≤ s.now))).foldl max 0
  let low := max must s.adm.copy
  ((gens.filter (fun g => decide (g ≤ max gen low))).foldl max s.adm.copy)

/-- ADM_OK of a copy: forced to 0 until the copy comes from a generation that contains the last admission (R377). -/
def State.copyOk (s : State) (gen : Nat) (e : Option AdmEntry) : Bool :=
  e.any (·.ok) && s.adm.lockout.all (fun l => decide (l ≤ gen))

/-- An abort of the job is latched in the cycle of the request or earlier (R378). -/
def State.abortMet (s : State) (j : Job) : Bool :=
  s.aborts.any (fun a => a.1.fn == j.fn && a.1.jobid == j.jobid && decide (a.2.1 ≤ s.now))

/-- The tentative placement becomes the head job's occupancy (R365, R376, R380). -/
def State.admitHead (s : State) (gen : Nat) (e : AdmEntry) (j : Job) : State :=
  let s := s.modJob j.id (fun j => { j with
    phase := .admitted, byAdm := true, c0 := gen, start := e.start, cp := e.cp, prep := e.prep })
  let s := (s.occupy j.run (e.start - e.prep) (e.cp + 1 + e.prep - e.start) (.job j.id)).2
  { s with adm := { s.adm with
    admitted := satInc32 s.adm.admitted, lastGrid := gridIndex j.img e.start, lastVf := BitVec.ofNat 4 j.fn.val,
    lastTime := e.time, lastCls := byteOf e.cls, lastSlot := BitVec.ofNat 6 j.slot.val, lockout := some (s.now + 1) } }

/-- A closing edge of ADM_CLK: the outputs of the copy taken at the opening edge, and the request when ADM_REQ is 1 (R374). The
crossing latency varies; `gen` tells how far it let the copy's generation come. -/
def execAdmRequest (cls : BitVec 8) (req : Bool) (gen : Nat) (s : State) : Host.Outcome State Fault Refusal :=
  .next <|
    let gen := s.copyGen gen
    let s := { s with adm := { s.adm with copy := gen } }
    let e := s.copyEntry gen cls.toNat
    let ok := s.copyOk gen e
    let s := s.emit (.adm ok (e.elim noPromise (·.time)))
    if !req || !s.running then s
    else if !ok then { s with adm := { s.adm with ignored := satInc32 s.adm.ignored } }
    else
      match e with
      | none => s
      | some e =>
        match s.entryJob e with
        | some j => if s.abortMet j then s else s.admitHead gen e j
        | none => s

/-- Tentative placements whose 32 cycles are over lapse (R376). -/
def execProtectedPlacementLapse (s : State) : Host.Outcome State Fault Refusal :=
  .next { s with adm := { s.adm with past := s.adm.past.filter (fun g => decide (s.now ≤ g.1 + 32)) } }

end Sys2Proof.Machine
end

