-- ==== Sys2Proof/Machine/Records.lean ====
section
/-! DEFINITION. The event recorder's commands: LOG_READ (R415), LOG_CLEAR (R416, R417), flushes (R412) and captures of failing
DRAM blocks (R411). -/

namespace Sys2Proof.Machine

/-- The log: records in flash, then those only in the volatile buffer. -/
def Recorder.log (e : Recorder) : List Record := e.flash ++ e.buf

/-- SEQ of the first record of the log (EVR_SEQ.FIRST); that of the next record in an empty log. -/
def Recorder.first (e : Recorder) : Word := (e.log.head?).elim e.next (·.seq)

/-- The records that fit in `n` bytes, in order. -/
def takeBytes : Nat → List Record → List Record
  | _, [] => []
  | n, r :: t => if r.size ≤ n then r :: takeBytes (n - r.size) t else []

/-- LOG_READ: whole records from FIRST on into host memory (R415). -/
def execLogRead (p : Packet) (s : State) : Host.Outcome State Fault Refusal :=
  .next <| s.interpret p 0x0060 true false true fun s =>
    let l := s.evr.log.filter (fun r => decide (pktBytes p 28 4 ≤ r.seq.toNat))
    let c := takeBytes (pktBytes p 24 4) l
    let data := c.flatMap Record.bytes
    let next := (l[c.length]?).elim s.evr.next (·.seq)
    (s.emit (.dma p.fn (BitVec.ofNat 64 (pktBytes p 16 8)) data)).answer p
      { Answer.of stOk 0 with result0 := data.length, result1 := next.toNat }

/-- LOG_CLEAR: the authorisation goes to the Atoll (R383, R416). Its VERSION above the queue's is read as the queue's and counted
(R10); the signature covers its bytes as read. -/
def execLogClear (p : Packet) (auth : List Byte) (s : State) : Host.Outcome State Fault Refusal :=
  .next <| s.interpret p 0x0061 true false false fun s =>
    let s := s.clampQ p.fn p.q (b2n (decide ((s.queue p.fn p.q).version.toNat < leAt auth 0 1 / 16)))
    { s with atl := s.atl.enqueue (.checkAuth p auth) }

/-- The checks of a LOG_CLEAR end: DEVID and CLEARS must match, beside the signature. EVR_CLEARS rises at once, and the clear
waits for the flush (R416, R417). -/
def State.endAuth (s : State) (p : Packet) (auth : List Byte) (ok : Bool) : State :=
  if !(ok && field (leAt auth 4 4) 0 20 == s.devid.toNat && leAt auth 8 4 == s.evr.clears.toNat) then
    s.answer p (Answer.of stAtoll 0)
  else
    let top := s.evr.next - 1
    let up := leAt auth 12 4
    let late := decide (top.toNat < up)
    let u := if late then top else BitVec.ofNat 32 up
    let n := s.evr.clears + 1
    let s := s.clampQ p.fn p.q (b2n late)
    { s with evr := { s.evr with clears := n, clearing := s.evr.clearing ++ [(p, u, n)] } }

/-- A clear takes effect: every record goes, and CLEARED is the first of the new log, in flash (R417). -/
def execLogClearEffect (s : State) : Host.Outcome State Fault Refusal :=
  .next <|
    match s.evr.clearing with
    | [] => s
    | (p, up, n) :: t =>
      if s.evr.flushing || !s.clocked then s
      else
        let l := s.evr.log
        let above := l.countP (fun r => decide (up.toNat < r.seq.toNat))
        let r : Record := {
          ty := 2, seq := s.evr.next, time := BitVec.ofNat 64 s.now,
          payload := leBytes 4 up.toNat ++ leBytes 4 l.length ++ leBytes 4 above ++ leBytes 4 n.toNat }
        ({ s with evr := { s.evr with flash := [r], buf := [], next := s.evr.next + 1, full := false, clearing := t } }).answer p
          { Answer.of stOk 0 with result1 := r.seq.toNat }

/-- A flush ends: everything recorded is in flash (R412). -/
def Recorder.flushed (e : Recorder) : Recorder := { e with flash := e.log, buf := [], flushing := false }

/-- The raw read of a failing block completes within 1 ms: its CAPTURE record (R411). -/
def execCaptureReadComplete (s : State) : Host.Outcome State Fault Refusal :=
  .next <|
    match s.evr.captures with
    | [] => s
    | (c, page, block, asked) :: t =>
      if !s.running || asked + 150000 < s.now then s
      else
        let raw := (s.chan c).rawBlock (256 * page + block)
        ({ s with evr := { s.evr with captures := t } }).recordS 0x0014
          (leBytes 2 (0x6000 + c.val) ++ [0, 0] ++ raw.1 ++ raw.2)

/-- A raw read that was not granted within 1 ms is abandoned (R411). -/
def execCaptureReadAbandoned (s : State) : Host.Outcome State Fault Refusal :=
  .next <|
    match s.evr.captures with
    | [] => s
    | (_, _, _, asked) :: t => if s.running && decide (asked + 150000 < s.now) then { s with evr := { s.evr with captures := t } } else s

end Sys2Proof.Machine
end

