-- ==== Sys2Proof/Machine/Arith.lean ====
section
/-! DEFINITION. Modular and curve arithmetic: powers, Miller–Rabin (R42, R392), affine points on y² = x³ + ax + b (R384), and
ECDSA with SHA-384 (R393). -/

namespace Sys2Proof.Machine

/-! ## Powers and primality -/

/-- b^e mod m over the `k` low bits of e, by squaring. -/
def powModAux (m : Nat) : Nat → Nat → Nat → Nat → Nat
  | 0, _, _, acc => acc % m
  | k + 1, b, e, acc => powModAux m k (b * b % m) (e / 2) (if e % 2 = 1 then acc * b % m else acc)

def powMod (m b e : Nat) : Nat := powModAux m (bitLen e) (b % m) e 1

/-- Inverse modulo a prime; 0 for 0. -/
def invMod (m x : Nat) : Nat := powMod m x (m - 2)

/-- The power of two in n. -/
def twos : Nat → Nat → Nat
  | 0, _ => 0
  | k + 1, n => if n % 2 = 0 then twos k (n / 2) + 1 else 0

/-- x, x², x⁴, … reaches m − 1 within k squarings. -/
def reachesMinus (m : Nat) : Nat → Nat → Bool
  | 0, _ => false
  | k + 1, x => x == m - 1 || reachesMinus m k (x * x % m)

/-- One round of Miller–Rabin on an odd m > 2; a base divisible by m says nothing. -/
def mrRound (m a : Nat) : Bool :=
  let s := twos (bitLen m) (m - 1)
  let x := powMod m a ((m - 1) / 2 ^ s)
  a % m == 0 || x == 1 || reachesMinus m s x

/-- Miller–Rabin to the given bases. -/
def mrPasses (m : Nat) (bases : List Nat) : Bool :=
  m == 2 || (m % 2 == 1 && decide (2 < m) && bases.all (mrRound m))

/-- Prime below 2^32: Miller–Rabin to bases 2, 7 and 61 (Table CT-3, check 5). -/
def isPrime32 (m : Nat) : Bool := mrPasses m [2, 7, 61]

/-! ## Points -/

/-- An affine point; none is the point at infinity. -/
abbrev Pt := Option (Nat × Nat)

/-- y² = x³ + ax + b with both coordinates in [0, p) (R384). -/
def onCurve (p a b x y : Nat) : Bool :=
  decide (x < p) && decide (y < p) && y * y % p == (x * x * x + a * x + b) % p

def ptNeg (p x : Nat) : Nat := (p - x % p) % p

def ptAdd (p a : Nat) : Pt → Pt → Pt
  | none, q => q
  | q, none => q
  | some (x1, y1), some (x2, y2) =>
    if x1 = x2 ∧ (y1 + y2) % p = 0 then none
    else
      let l := if x1 = x2 then (3 * x1 * x1 + a) * invMod p (2 * y1) % p
        else (y2 + ptNeg p y1) * invMod p (x2 + ptNeg p x1) % p
      let x3 := (l * l + ptNeg p x1 + ptNeg p x2) % p
      some (x3, (l * (x1 + ptNeg p x3) + ptNeg p y1) % p)

/-- k·P over the `n` low bits of k. -/
def ptMulAux (p a : Nat) : Nat → Nat → Pt → Pt → Pt
  | 0, _, _, acc => acc
  | n + 1, k, q, acc => ptMulAux p a n (k / 2) (ptAdd p a q q) (if k % 2 = 1 then ptAdd p a acc q else acc)

def ptMul (p a k : Nat) (q : Pt) : Pt := ptMulAux p a (bitLen k) k q none

/-! ## ECDSA (FIPS 186-5) -/

/-- The digest of a message, truncated to the bit length of n. -/
def digestZ (n : Nat) (msg : List Byte) : Nat := beNat (sha384 msg) / 2 ^ (384 - min 384 (bitLen n))

/-- (r, s) verifies under the point (x, y). -/
def ecdsaOk (p a b gx gy n x y : Nat) (msg : List Byte) (r s : Nat) : Bool :=
  let w := invMod n s
  let u := ptMul p a (digestZ n msg * w % n) (some (gx, gy))
  let v := ptMul p a (r * w % n) (some (x, y))
  onCurve p a b x y && decide (1 ≤ r) && decide (r < n) && decide (1 ≤ s) && decide (s < n) &&
    (match ptAdd p a u v with
      | some (vx, _) => vx % n == r
      | none => false)

/-- The signature of a message under d with nonce k. -/
def ecdsaSign (p a gx gy n d k : Nat) (msg : List Byte) : Nat × Nat :=
  let r := ((ptMul p a k (some (gx, gy))).elim 0 (·.1)) % n
  (r, invMod n k * (digestZ n msg + r * d) % n)

end Sys2Proof.Machine
end

