-- ==== Sys2Proof/Machine/Ring.lean ====
section
/-! DEFINITION. Polynomials in residue form: the transform of R39, the basis conversions of key switching (R69 to R71), RESCALE
(R73), and the LWE and accumulator arithmetic of bit refresh (R109 to R113). -/

namespace Sys2Proof.Machine

/-- The residues of one limb or polynomial, index 0 first. -/
abbrev Residues := List Nat

def addMod (p a b : Nat) : Nat := (a + b) % p
def subMod (p a b : Nat) : Nat := (a + (p - b % p)) % p
def mulMod (p a b : Nat) : Nat := a * b % p
def addR (p : Nat) (x y : Residues) : Residues := List.zipWith (addMod p) x y
def subR (p : Nat) (x y : Residues) : Residues := List.zipWith (subMod p) x y
def mulR (p : Nat) (x y : Residues) : Residues := List.zipWith (mulMod p) x y
def scaleR (p c : Nat) (x : Residues) : Residues := x.map (mulMod p c)
def negR (p : Nat) (x : Residues) : Residues := x.map (subMod p 0)
def sumMod (p : Nat) (l : List Nat) : Nat := l.foldl (addMod p) 0

/-- The value nearest to 0 of a residue of an odd p (R73, R104, R110). -/
def centredOf (p x : Nat) : Int := if x ≤ (p - 1) / 2 then (x : Int) else (x : Int) - (p : Int)
/-- An integer modulo p. -/
def modOf (p : Nat) (z : Int) : Nat := (z % (p : Int)).toNat

/-! ## The transform (R39) -/

/-- Index k of the output is the polynomial at ψ^(2ρ(k)+1). -/
def forwardNtt (logn p psi : Nat) (x : Residues) : Residues :=
  (List.range (2 ^ logn)).map (fun k =>
    sumMod p (x.zipIdx.map (fun e => e.1 * powMod p psi (e.2 * (2 * rho logn k + 1) % 2 ^ (logn + 1)) % p)))

/-- The exact inverse. -/
def inverseNtt (logn p psi : Nat) (x : Residues) : Residues :=
  (List.range (2 ^ logn)).map (fun i =>
    invMod p (2 ^ logn) * sumMod p (x.zipIdx.map (fun e =>
      e.1 * powMod p psi ((2 ^ (logn + 1) - i * (2 * rho logn e.2 + 1) % 2 ^ (logn + 1)) % 2 ^ (logn + 1)) % p)) % p)

def ParamSet.prime (P : ParamSet) (j : Nat) : Nat := P.primes.getD j 1
def ParamSet.root (P : ParamSet) (j : Nat) : Nat := P.roots.getD j 1
def ParamSet.n (P : ParamSet) : Nat := 2 ^ P.logn
/-- Transform of limb j of a set, and its inverse. -/
def ParamSet.fwd (P : ParamSet) (j : Nat) (x : Residues) : Residues := forwardNtt P.logn (P.prime j) (P.root j) x
def ParamSet.inv (P : ParamSet) (j : Nat) (x : Residues) : Residues := inverseNtt P.logn (P.prime j) (P.root j) x

/-- A centred polynomial modulo every listed limb, in NTT domain. -/
def ParamSet.spread (P : ParamSet) (js : List Nat) (g : List Int) : List Residues :=
  js.map (fun j => P.fwd j (g.map (modOf (P.prime j))))

/-! ## Key switching (R69 to R71) -/

def prodOf (l : List Nat) : Nat := l.foldl (· * ·) 1

/-- The approximate conversion of R70 and R71: residues `xs` of the primes `from'` to the prime v, without correction of the
overflow multiple. -/
def convert (n : Nat) (from' : List Nat) (xs : List Residues) (v : Nat) : Residues :=
  let q := prodOf from'
  let ys := List.zipWith (fun p x => scaleR p (invMod p (q / p % p)) x) from' xs
  (List.range n).map (fun k => sumMod v (List.zipWith (fun p (y : Residues) => y.getD k 0 * (q / p % v)) from' ys))

/-- The stored and the seeded half of body limb j of digit d. -/
abbrev KeyHalf := Nat → Nat → Residues

/-- Limbs in use at level l: ordinary 0 to l, then the special primes (R69). -/
def ParamSet.limbsUp (P : ParamSet) (l : Nat) : List Nat := List.range (l + 1) ++ (List.range P.special).map (P.limbs + ·)

/-- Limbs of digit d at level l. -/
def ParamSet.digit (P : ParamSet) (l d : Nat) : List Nat :=
  let a := ceilDiv P.limbs P.dnum
  (List.range (l + 1)).filter (fun i => decide (d * a ≤ i) && decide (i < d * a + a))

/-- The extended digit e_d in limb v (R70); `x` holds d in NTT domain, `c` in coefficients. -/
def ParamSet.modUp (P : ParamSet) (l d : Nat) (x c : List Residues) (v : Nat) : Residues :=
  let ds := P.digit l d
  if ds.contains v then x.getD v []
  else P.fwd v (convert P.n (ds.map P.prime) (ds.map (fun i => c.getD i [])) (P.prime v))

/-- acc of R71 in limb v. -/
def ParamSet.keySum (P : ParamSet) (l : Nat) (x c : List Residues) (key : KeyHalf) (v : Nat) : Residues :=
  (List.range (ceilDiv (l + 1) (ceilDiv P.limbs P.dnum))).foldl (fun acc d =>
    addR (P.prime v) acc (mulR (P.prime v) (P.modUp l d x c v) (key d v))) (List.replicate P.n 0)

/-- ModDown (R71). -/
def ParamSet.modDown (P : ParamSet) (l : Nat) (acc : Nat → Residues) : List Residues :=
  let sp := (List.range P.special).map (P.limbs + ·)
  let w := sp.map (fun k => P.inv k (acc k))
  (List.range (l + 1)).map (fun j =>
    let p := P.prime j
    let h := P.fwd j (convert P.n (sp.map P.prime) w p)
    scaleR p (invMod p (prodOf (sp.map P.prime) % p)) (subR p (acc j) h))

/-- (u0, u1) from d in NTT domain at level l. -/
def ParamSet.keySwitch (P : ParamSet) (l : Nat) (x : List Residues) (stored seeded : KeyHalf) : List Residues × List Residues :=
  let c := x.zipIdx.map (fun e => P.inv e.2 e.1)
  (P.modDown l (P.keySum l x c stored), P.modDown l (P.keySum l x c seeded))

/-- RESCALE of one polynomial at level l ≥ 1 (R73). -/
def ParamSet.rescale (P : ParamSet) (l : Nat) (x : List Residues) : List Residues :=
  let g := (P.inv l (x.getD l [])).map (centredOf (P.prime l))
  (List.range l).map (fun j =>
    let p := P.prime j
    scaleR p (invMod p (P.prime l % p)) (subR p (x.getD j []) (P.fwd j (g.map (modOf p)))))

/-- ModRaise of one polynomial, its limb 0 given (R104): the centred coefficients modulo every ordinary prime. -/
def ParamSet.modRaise (P : ParamSet) (x : Residues) : List Residues :=
  P.spread (List.range P.limbs) ((P.inv 0 x).map (centredOf (P.prime 0)))

/-- A constant modulo the primes of the set, in NTT domain: the same residue at every point. -/
def ParamSet.constant (P : ParamSet) (z : Int) : List Residues :=
  (List.range P.limbs).map (fun j => List.replicate P.n (modOf (P.prime j) z))

/-- The monomial X^(N/2), which is i in every slot. -/
def ParamSet.imaginary (P : ParamSet) : List Residues :=
  (List.range P.limbs).map (fun j => P.fwd j ((List.range P.n).map (fun k => b2n (k == P.n / 2))))

/-- Size k_v of level v of the `n` levels over which log2 N − 1 is split (R105). -/
def levelSize (logn n v : Nat) : Nat :=
  let t := logn - 1
  if t % n = 0 ∨ v < t % n then ceilDiv t n else t / n

/-- A Chebyshev series of 2h coefficients as quotient and remainder by T_h: (remainder, quotient), from T_(h+i) =
2 T_h T_i − T_(h−i). -/
def chebSplit (c : List Int) : List Int × List Int :=
  let h := c.length / 2
  let g := fun i => c.getD i 0
  ((List.range h).map (fun i => if i = 0 then g 0 else g i - g (2 * h - i)),
   (List.range h).map (fun i => if i = 0 then g h else 2 * g (h + i)))

/-! ## Derived constants (R65), in Montgomery form (R137) -/

/-- v · 2^32 mod p. -/
def montOf (p v : Nat) : Nat := v * 2 ^ 32 % p

/-- Spans and radices of the passes (R63). -/
def passesOf (logn : Nat) : List (Nat × Nat) :=
  (List.range (logn / 4)).map (fun s => (2 ^ (logn - 4 * s), 16)) ++
  if logn % 4 = 0 then [] else [(2 ^ (logn % 4), 2 ^ (logn % 4))]

/-- One pass under the root w of order `span`, and under its inverse. -/
def passConsts (p w span r : Nat) : PassConsts :=
  let m := span / r
  let pow := fun e => montOf p (powMod p w (e % span))
  let mat := fun sign => (List.range r).flatMap (fun a => (List.range r).map (fun b => pow (sign * (m * a * b))))
  let twid := fun sign => (List.range m).flatMap (fun j => (List.range r).map (fun b => pow (sign * (j * b))))
  { mat := mat 1, twid := twid 1, invMat := mat (span - 1), invTwid := twid (span - 1) }

def ParamSet.limbConsts (P : ParamSet) (j : Nat) : LimbConsts :=
  let p := P.prime j
  let psi := P.root j
  let w := psi * psi % p
  { twist := (List.range P.n).map (fun k => montOf p (powMod p psi k)),
    untwist := (List.range P.n).map (fun k => montOf p (invMod p P.n * powMod p psi (2 * P.n - k) % p)),
    passes := (passesOf P.logn).map (fun x => passConsts p (powMod p w (P.n / x.1)) x.1 x.2) }

/-- The conversion from the limbs `src` to the limbs `dst`. -/
def ParamSet.convConsts (P : ParamSet) (src dst : List Nat) : ConvConsts :=
  let q := prodOf (src.map P.prime)
  { pre := src.map (fun i => montOf (P.prime i) (invMod (P.prime i) (q / P.prime i % P.prime i))),
    mat := dst.map (fun v => src.map (fun i => montOf (P.prime v) (q / P.prime i % P.prime v))) }

/-- The constants of a level set (R65). -/
def ParamSet.derive (P : ParamSet) : SetConsts :=
  if P.kind != 1 then SetConsts.none
  else
    let sp := (List.range P.special).map (P.limbs + ·)
    { limbs := (List.range (P.limbs + P.special)).map P.limbConsts,
      up := (List.range P.limbs).map (fun l => (List.range P.dnum).map (fun d =>
        P.convConsts (P.digit l d) ((P.limbsUp l).filter (fun v => !(P.digit l d).contains v)))),
      down := P.convConsts sp (List.range P.limbs),
      pInv := (List.range P.limbs).map (fun j => montOf (P.prime j) (invMod (P.prime j) (prodOf (sp.map P.prime) % P.prime j))) }

/-! ## Accumulators over the refresh ring (R109, R110, R113) -/

/-- X^e · x modulo X^n + 1. -/
def mulXPow (n q e : Nat) (x : Residues) : Residues :=
  (List.range n).map (fun m =>
    let t := (m + 2 * n - e % (2 * n)) % (2 * n)
    if t < n then x.getD t 0 % q else subMod q 0 (x.getD (t - n) 0))

/-- decompose of R110: balanced digits from the lowest upward, the top one taking the remainder. -/
def digitsOf (base : Nat) : Nat → Int → List Int
  | 0, _ => []
  | 1, x => [x]
  | k + 2, x =>
    let d := (x + (base / 2 : Nat)) % (base : Int) - (base / 2 : Nat)
    d :: digitsOf base (k + 1) ((x - d) / (base : Int))

/-- A polynomial's digit polynomials, each modulo q. -/
def digitPolys (base len q : Nat) (x : Residues) : List Residues :=
  let ds := x.map (fun c => digitsOf base len (centredOf q c))
  (List.range len).map (fun d => ds.map (fun l => modOf q (l.getD d 0)))

/-- The modulus switch of R109. -/
def switchMod (n q x : Nat) : Nat := (x * (2 * n) + q / 2) / q % (2 * n)

/-- A row of BITREF: (A, B) in NTT domain. -/
abbrev RingRow := Residues × Residues

/-- One external product: acc + Σ dA[d]·row[d] + dB[d]·row[BR_LEN + d]. -/
def ParamSet.external (P : ParamSet) (at' : Nat) (rows : Nat → RingRow) (acc : Residues × Residues) : Residues × Residues :=
  let q := P.prime 0
  let u := fun (x : Residues) => subR q (mulXPow P.n q at' x) x
  let ds := (digitPolys (2 ^ P.brBase) P.brLen q (u acc.1) ++ digitPolys (2 ^ P.brBase) P.brLen q (u acc.2)).map (P.fwd 0)
  let dot := fun (h : RingRow → Residues) =>
    P.inv 0 (ds.zipIdx.foldl (fun a d => addR q a (mulR q d.1 (h (rows d.2)))) (List.replicate P.n 0))
  (addR q acc.1 (dot (·.1)), addR q acc.2 (dot (·.2)))

/-- Blind rotation of one LWE ciphertext (words a_0 … a_(n−1), b) under the test polynomial; entries ascending (R118: any
order gives the same residues). -/
def ParamSet.blindRotate (P : ParamSet) (ct : Residues) (tv : Residues) (rows : Nat → Nat → RingRow) : Residues × Residues :=
  let q := P.prime 0
  let sw := switchMod P.n q
  (List.range P.lweDim).foldl (fun acc i => P.external (sw (ct.getD i 0)) (rows i) acc)
    (List.replicate P.n 0, mulXPow P.n q (2 * P.n - sw (ct.getD P.lweDim 0)) tv)

/-- Sample extraction of coefficient 0: (a1, b1). -/
def sampleExtract (n q : Nat) (acc : Residues × Residues) : Residues × Nat :=
  ((List.range n).map (fun j => if j = 0 then acc.1.getD 0 0 % q else subMod q 0 (acc.1.getD (n - j) 0)), acc.2.getD 0 0)

/-- Balanced digits of a value modulo base^len, most significant first; the carry out of the top digit is a multiple of the
modulus and is dropped (R111). -/
def balancedDigits (base : Nat) : Nat → Int → List Int → List Int
  | 0, _, acc => acc
  | k + 1, x, acc =>
    let d := (x + (base / 2 : Nat)) % (base : Int) - (base / 2 : Nat)
    balancedDigits base k ((x - d) / (base : Int)) (d :: acc)

/-- keyswitch of R111: words a_0 … a_(n−1), b of dimension LWEDIM. `row i d` is (a vector, b word). -/
def ParamSet.lweSwitch (P : ParamSet) (a1 : Residues) (b1 : Nat) (row : Nat → Nat → Residues × Nat) : Residues :=
  let q := P.prime 0
  let m := 2 ^ (P.ksBase * P.ksLen)
  let zero : Residues := List.replicate P.lweDim 0
  a1.zipIdx.foldl (fun acc e =>
    let x := (e.1 * m + q / 2) / q % m
    (balancedDigits (2 ^ P.ksBase) P.ksLen x []).zipIdx.foldl (fun acc d =>
      let r := row e.2 d.2
      subR q acc (scaleR q (modOf q d.1) (r.1 ++ [r.2]))) acc) (zero ++ [b1 % q])

/-- The test polynomial of a lookup table (R113). -/
def ParamSet.testPoly (P : ParamSet) (lut : List Byte) : Residues :=
  let q := P.prime 0
  let w := field (leAt lut 1 1) 0 3
  let w' := field (leAt lut 2 1) 0 3
  let blk := P.n / 2 ^ w
  let delta := q / 2 ^ (w' + 1)
  (List.range P.n).map (fun k =>
    let j := (k + blk / 2) / blk
    if j < 2 ^ w then leAt lut (8 + j) 1 * delta % q else (q - leAt lut 8 1 * delta % q) % q)

end Sys2Proof.Machine
end

