-- ==== Sys2Proof/Machine/Sets.lean ====
section
/-! DEFINITION. Parameter sets (R41 to R44) and key sets (R45 to R47, R86, R355). -/

namespace Sys2Proof.Machine

/-! ## Parameter sets -/

/-- A record as read, before any check. -/
def paramOf (f : Fn) (l : List Byte) (fp : Word) : ParamSet :=
  let b := fun i => leAt l i 1
  let used := if b 0 % 16 = 1 then b 3 + b 4 else 1
  { fn := f, fp := fp, kind := b 0 % 16, logn := b 2, limbs := b 3, special := b 4, dnum := b 5, scaleBits := b 6,
    lweDim := leAt l 8 2, brBase := b 10, brLen := b 11, ksBase := b 12, ksLen := b 13, maxBits := b 14,
    primes := (List.range used).map (fun k => leAt l (64 + 8 * k) 4),
    roots := (List.range used).map (fun k => leAt l (68 + 8 * k) 4), consts := SetConsts.none }

def within (lo hi x : Nat) : Bool := decide (lo ≤ x) && decide (x ≤ hi)

/-- Check 2: the ranges of Table CT-2. -/
def ParamSet.ranges (p : ParamSet) : Bool :=
  if p.kind = 1 then
    within 12 17 p.logn && within 1 60 p.limbs && within 0 16 p.special && within 1 p.limbs p.dnum &&
    within 16 31 p.scaleBits && p.lweDim == 0 && p.brBase == 0 && p.brLen == 0 && p.ksBase == 0 && p.ksLen == 0 && p.maxBits == 0
  else
    within 10 12 p.logn && p.limbs == 1 && p.special == 0 && p.dnum == 0 && p.scaleBits == 0 && within 384 1024 p.lweDim &&
    within 1 16 p.brBase && within 1 31 p.brLen && decide (p.brBase * p.brLen ≤ 31) &&
    within 1 16 p.ksBase && within 1 31 p.ksLen && decide (p.ksBase * p.ksLen ≤ 31) && within 1 7 p.maxBits

/-- Pairwise distinct. -/
def distinct : List Nat → Bool
  | [] => true
  | x :: t => !t.contains x && distinct t

/-- Checks 1 to 8 of Table CT-3: the number of the first that fails. `verOk` tells whether the record's VERSION, clamped,
is the queue's. -/
def ParamSet.failing (p : ParamSet) (h1 verOk : Bool) : Option Nat :=
  let n := 2 ^ p.logn
  if p.kind > 2 || (h1 && p.kind == 2) then some 1
  else if p.kind == 0 then none
  else if !verOk || !p.ranges then some 2
  else if p.kind == 1 && decide (p.special < ceilDiv p.limbs p.dnum) then some 3
  else if !(p.primes.all (fun x => decide (2 ^ 28 ≤ x) && decide (x < if h1 then 2 ^ 30 else 2 ^ 31))) then some 4
  else if !(p.primes.all isPrime32) then some 5
  else if !(distinct p.primes) then some 6
  else if !(p.primes.all (fun x => x % (2 * n) == 1)) then some 7
  else if !((p.primes.zip p.roots).all (fun x => decide (2 ≤ x.2) && decide (x.2 < x.1) && powMod x.1 x.2 n == x.1 - 1)) then some 8
  else none

/-- An admitted, unfinished job or a protected placement refers to the index (check 10, R378). -/
def State.psetUsed (s : State) (k : Fin 16) : Bool :=
  s.engaged.any (fun j => j.img.sections.fingerprints.any (fun e => e.1 == k))

/-- LOAD_PARAMSET (R42 to R44); the constants of R65 are derived with the load. -/
def execLoadParamset (p : Packet) (rec : List Byte) (s : State) : Host.Outcome State Fault Refusal :=
  .next <| s.interpret p 0x0011 false true false fun s =>
    let k := finOf 15 (pktBytes p 24 1 % 16)
    let q := (s.queue p.fn p.q).version.toNat
    let v := leAt rec 0 1 / 16
    let s := if q < v then s.clampQ p.fn p.q 1 else s
    let stored := byteOf (leAt rec 0 1 % 16 + 16 * min v q) :: rec.drop 1
    let fp : Word := BitVec.ofNat 32 (crc32 (slice stored 0 672))
    let x := paramOf p.fn stored fp
    match x.failing (s.h1 p) (min v q == q) with
    | some c => s.answer p (Answer.of stParamset c)
    | none =>
      if (s.psets[k]).any (fun y => y.fn != p.fn) then s.answer p (Answer.of stParamset 9)
      else if s.psetUsed k then s.answer p (Answer.of stParamset 10)
      else
        let s := { s with psets := vset s.psets k (if x.kind = 0 then none else some { x with consts := x.derive }) }
        s.answer p { Answer.of stOk 0 with result0 := fp.toNat }

/-! ## Key sets -/

/-- The clamped fields of LOAD_KEYSET (R86, R348): NROWS, m, M, KOFF and how many changed. -/
def State.keyFields (s : State) (p : Packet) : Nat × Nat × Nat × Nat × Nat :=
  let n := clampNat 1 8 (pktBytes p 29 1 % 16)
  let M := clampNat 1 (2 ^ 20) (pktBytes p 36 4)
  let m := clampNat 0 (M.1 - 1) (pktBytes p 32 4)
  let k := s.chanOffset (pktBytes p 40 8)
  (n.1, m.1, M.1, k.1, n.2 + M.2 + m.2 + k.2)

/-- A tag with the loading owner's number, and 1 when that changed it (R46, R355). -/
def State.ownTag (s : State) (f : Fn) (tag : Nat) : Word × Nat :=
  match (vfOf f).bind (fun v => s.ownerNo[v]) with
  | some o =>
    if tag / 65536 = o.toNat then (BitVec.ofNat 32 tag, 0) else (BitVec.ofNat 32 (o.toNat * 65536 + tag % 65536), 1)
  | none => (BitVec.ofNat 32 tag, 0)

/-- An admitted, unfinished job or a protected placement uses the tag (R47, R378). -/
def State.tagUsed (s : State) (t : Word) : Bool := s.engaged.any (fun j => s.tagOf j.fn j.img == some t)

/-- The record table with each address read as zero. -/
def zeroedTable (raw : List Byte) : List Byte :=
  (chunks 16 (raw.drop 64)).flatMap (fun e => List.replicate (min 8 e.length) 0 ++ e.drop 8)

/-- What the load takes of the bytes that the DMA hands it (R355): the first MLEN of the manifest, cut into header with record table
and signature by NREC, and of each record as many bytes as its entry gives. -/
def manifestOf (mlen : Nat) (m : ManifestData) : ManifestData :=
  let all := (m.raw ++ m.sig).take mlen
  let cut := 64 + 16 * leAt all 8 4
  let entries := (chunks 16 ((all.take cut).drop 64)).zipIdx
  { raw := all.take cut, sig := all.drop cut,
    records := entries.map (fun e => (m.records.getD e.2 []).take (leAt e.1 8 4)) }

/-- MFP (R355): CRC-32 over the header under the tag in force and the zeroed table. DESIGN CHOICE (log 101): the VERSION bits of
the header's byte 0 enter as read, not as clamped; so does the message that the signature covers. -/
def manifestMfp (raw : List Byte) (tag : Word) : Word :=
  BitVec.ofNat 32 (crc32 (raw.take 4 ++ leBytes 4 tag.toNat ++ slice raw 8 56 ++ zeroedTable raw))

/-- The bytes a manifest's signature covers (Table AT-5), as read (log 101). -/
def manifestMessage (m : ManifestData) : List Byte := m.raw.take 64 ++ zeroedTable m.raw ++ m.records.flatten

/-- A key record's header (Table CT-4) under the loading owner's number, and how many fields that replaced. -/
def State.keyRecOf (s : State) (f : Fn) (ver : Nat) (l : List Byte) : KeyRec × Nat :=
  let t := s.ownTag f (leAt l 4 4)
  ({ kind := leAt l 1 1, pset := finOf 15 (leAt l 2 1 % 16), digits := leAt l 3 1, keyset := t.1, galois := leAt l 8 4,
     pset2 := finOf 15 (leAt l 12 1 % 16), bodyLen := leAt l 16 8, seed := slice l 32 32 },
   t.2 + b2n (decide (ver < leAt l 0 1 / 16)))

def State.boundSet (s : State) (f : Fn) (k : Fin 16) (kind : Nat) : Option ParamSet :=
  (s.psets[k]).filter (fun p => p.fn == f && p.kind == kind)

/-- BODYLEN of Table CT-5. -/
def bodyLength (r : KeyRec) (p : ParamSet) : Nat :=
  let n := 2 ^ p.logn
  if r.kind = 4 then p.lweDim * 2 * r.digits * n * 4
  else if r.kind = 5 then n * r.digits * 4
  else r.digits * (p.limbs + p.special) * n * 4

/-- A record of `len` bytes passes R46; a length other than 16,384 + BODYLEN fails it (DESIGN CHOICE, log 101). -/
def State.recordOk (s : State) (f : Fn) (r : KeyRec) (len : Nat) : Bool :=
  let bit := r.kind == 4 || r.kind == 5
  within 1 6 r.kind &&
  match s.boundSet f r.pset (if bit then 2 else 1) with
  | none => false
  | some p =>
    let n := 2 ^ p.logn
    (r.kind != 6 || (s.boundSet f r.pset2 2).isSome) &&
    r.digits == (if r.kind = 4 then p.brLen else if r.kind = 5 then p.ksLen else p.dnum) &&
    (if r.kind = 2 then r.galois % 2 == 1 && within 3 (2 * n - 3) r.galois
     else if r.kind = 3 then r.galois == 2 * n - 1 else r.galois == 0) &&
    r.bodyLen == bodyLength r p && len == 16384 + r.bodyLen

/-- The holding run is wholly held by the loading owner (check 1). -/
def State.keyRunOk (s : State) (f : Fn) (first n : Nat) : Bool := hasRun first n && s.holdsRun f (rowMask first n)

/-- LOAD_KEYSET (R355): checks 1 and 2, then the signature check by the Atoll. -/
def execLoadKeyset (p : Packet) (man : ManifestData) (s : State) : Host.Outcome State Fault Refusal :=
  .next <| s.interpret p 0x0012 false true false fun s =>
    let k := s.keyFields p
    let man := manifestOf (pktBytes p 24 4) man
    let t := s.ownTag p.fn (leAt man.raw 4 4)
    let ver := (s.queue p.fn p.q).version
    let s := s.clampQ p.fn p.q (k.2.2.2.2 + b2n (decide (ver.toNat < leAt man.raw 0 1 / 16)) + t.2)
    if !s.keyRunOk p.fn (pktFirstRow p 28).val k.1 then s.refuse p 2
    else if s.tagUsed t.1 then s.refuse p 0
    else
      let f := s.fresh
      let s := f.2
      { s with
        keyLoads := s.keyLoads ++ [{ id := f.1, p := p, man := man, version := ver, tag := t.1, checked := none, interp := s.now }]
        atl := s.atl.enqueue (.checkManifest f.1) }

/-- A key set leaves the module with its protected ranges (R88, R354, R363). -/
def State.unloadKeys (s : State) (k : KeySet) : State :=
  ({ s with keysets := s.keysets.filter (fun x => x.tag != k.tag) }).dropRanges false k.tag.toNat

/-- Stores every chunk of a holding channel from KOFF as one running sequence, a short final chunk padded with zeros (R82,
R86, R355). -/
def State.storeShard (s : State) (k : KeySet) (man : ManifestData) (pos : Nat) : State :=
  let c := finOf 63 (8 * k.firstRow.val + pos)
  ((k.shard pos).zipIdx).foldl (fun (s : State) e =>
    let body := slice (man.records.getD e.1.1 []) (16384 + 16384 * e.1.2) 16384
    s.chanWrite c (k.koff + 16384 * e.2) (body ++ List.replicate (16384 - body.length) 0)) s

/-- Stores a set that passed every check: its ranges, its chunks, and its place under the tag. -/
def State.storeKeys (s : State) (k : KeySet) (man : ManifestData) : State :=
  let s := match s.keysets.find? (fun x => x.tag == k.tag) with
    | some old => s.unloadKeys old
    | none => s
  let s := (List.range (8 * k.nrows)).foldl (fun (s : State) pos =>
    let n := (k.shard pos).length
    if n = 0 then s
    else (s.addRange [finOf 63 (8 * k.firstRow.val + pos)]
      { lo := k.koff, hi := k.koff + 16384 * n, img := false, key := k.tag.toNat }).storeShard k man pos) s
  { s with keysets := s.keysets ++ [k] }

/-- The rest of the checks, then the load takes effect and replies; `ok` tells whether the signature verified (R355). Owner numbers
and versions replaced in the records count as the records are judged, whatever the outcome (R46), under the version of the
interpretation (R352). -/
def State.finishKeys (s : State) (l : KeyLoad) (ok : Bool) : State :=
  let s := { s with keyLoads := s.keyLoads.filter (fun x => x.id != l.id) }
  let p := l.p
  let f := s.keyFields p
  let first := pktFirstRow p 28
  let recs := l.man.records.map (s.keyRecOf p.fn l.version.toNat)
  if !ok then s.answer p (Answer.of stAtoll 0)
  else
  let s := s.clampQ p.fn p.q (recs.foldl (fun n r => n + r.2) 0)
  if !((recs.zip l.man.records).all (fun r => s.recordOk p.fn r.1.1 r.2.length)) then s.answer p (Answer.of stParamset 0)
  else if !s.keyRunOk p.fn first.val f.1 then s.refuse p 2
  else if s.tagUsed l.tag then s.refuse p 0
  else
    let k : KeySet := {
      tag := l.tag, fn := p.fn, firstRow := first, nrows := f.1, m := f.2.1, mTotal := f.2.2.1, koff := f.2.2.2.1,
      mfp := manifestMfp l.man.raw l.tag, records := recs.map (·.1) }
    let holders := ((List.range (8 * k.nrows)).filter (fun pos => !(k.shard pos).isEmpty)).map
      (fun pos => finOf 63 (8 * first.val + pos))
    if !s.rangeRoom holders false (some l.tag.toNat) then s.refuse p 3
    else (s.storeKeys k l.man).answer p { Answer.of stOk 0 with result0 := k.mfp.toNat }

/-- A LOAD_KEYSET whose signature has been checked is judged again and stored (R355). -/
def execLoadKeysetComplete (id : Nat) (s : State) : Host.Outcome State Fault Refusal :=
  .next <|
    match s.keyLoads.find? (fun l => l.id == id) with
    | some l =>
      match l.checked with
      | some ok => if s.running && !s.reef.fatal then s.finishKeys l ok else s
      | none => s
    | none => s

end Sys2Proof.Machine
end

