-- ==== Sys2Proof/Machine/Atoll.lean ====
section
/-! DEFINITION. The Atoll (R383 to R399): the operation queue, fields and clamps, durations, the nine operations, its own
verifications, and the wipe. -/

namespace Sys2Proof.Machine

/-! ## Fields (Table AT-1) and their clamps (R348, R385, R391) -/

/-- The nearest listed value, the lower one on a tie. -/
def nearestOf (l : List Nat) (x : Nat) : Nat :=
  l.foldl (fun b v =>
    let d := fun (a : Nat) => if a < x then x - a else a - x
    if d v < d b || (d v == d b && decide (v < b)) then v else b) (l.headD 0)

/-- Key slots a VERIFY may name (Table AT-3), and 0xFF for a key in the operands. -/
def verifyKeys : List Nat := [0x00, 0x01, 0x02, 0x03, 0x10, 0x11, 0x12, 0x13, 0x14, 0x15, 0x16, 0x17, 0x20, 0xFF]

/-- The curve slot in force for an operation of function f (R391). -/
def curveSlot (o : AtollOp) (f : Fn) (c : Nat) : Nat :=
  match o with
  | .curveload => match vfOf f with
    | some v => 8 + v.val
    | none => min (max c 1) 7
  | _ => if c < 8 || (f != Fn.pf && c == 8 + f.val) then c else 0

def usesCurve : AtollOp → Bool
  | .modexp | .sign | .kaFinish => false
  | _ => true

def opCurve (o : AtollOp) (p : Packet) : Fin 16 := finOf 15 (curveSlot o p.fn (pktBytes p 17 1 % 16))
def opKey (p : Packet) : Nat := nearestOf verifyKeys (pktBytes p 18 1)
def opW (p : Packet) : Nat := (clampNat 1 128 (pktBytes p 19 1)).1
def opEW (p : Packet) : Nat := (clampNat 1 128 (pktBytes p 20 1)).1
def opOrd (p : Packet) : Bool := bitAt (pktBytes p 21 1) 0
def opSlen (p : Packet) : Nat := (clampNat 1 (2 ^ 24) (pktBytes p 32 4)).1

def readsOperands : AtollOp → Bool
  | .kaStart => false
  | _ => true
/-- The operation that a packet's OP names, the nearest one for a value outside the table (R348, R385). -/
def opNamed (p : Packet) : Nat := (clampNat 1 9 (pktBytes p 16 1)).1

def writesOutput : AtollOp → Bool
  | .modexp | .ecmul | .sign | .kaStart | .kaFinish => true
  | _ => false

/-- Fields of the packet that a clamp changes. -/
def opClamps (o : AtollOp) (p : Packet) : Nat :=
  b2n (usesCurve o && curveSlot o p.fn (pktBytes p 17 1 % 16) != pktBytes p 17 1 % 16) +
  (match o with
    | .modexp => (clampNat 1 128 (pktBytes p 19 1)).2 + (clampNat 1 128 (pktBytes p 20 1)).2
    | .verify => b2n (opKey p != pktBytes p 18 1) + (clampNat 1 (2 ^ 24) (pktBytes p 32 4)).2
    | .sign => (clampNat 1 (2 ^ 24) (pktBytes p 32 4)).2
    | _ => 0) +
  b2n (readsOperands o && pktBytes p 24 8 % 8 != 0) + b2n (writesOutput o && pktBytes p 40 8 % 8 != 0) +
  b2n (decide (pktBytes p 16 1 < 1) || decide (9 < pktBytes p 16 1))

/-! ## Durations (R397) -/

def mulCost (w : Nat) : Nat := ceilDiv (w * w) 4 + 2 * w + 12
def hashCost (l : Nat) : Nat := 16 * ceilDiv (l + 17) 128
def scalarCost (wp bitsN : Nat) : Nat := 20 * (bitsN + 65) * mulCost wp + 128 * wp * mulCost wp + 200
def Curve.E (c : Curve) : Nat := scalarCost c.wp (bitLen c.n)
def Curve.I (c : Curve) : Nat := 128 * c.wn * mulCost c.wn
def verifyCost (c : Curve) (l : Nat) : Nat := hashCost l + c.I + 2 * c.E

/-! ## Keys and blocks (R389, R393) -/

def vendorPub : PubKey := { curve := 0, x := Config.vendorKey.1, y := Config.vendorKey.2 }

/-- The public key of a slot; IDENT verifies nothing. -/
def Atoll.pubKey (a : Atoll) (k : Nat) : Option PubKey :=
  if k = 0 then some vendorPub else if k = 1 then a.devown else if k = 2 then a.seal0 else if k = 3 then a.seal1
  else if 0x10 ≤ k ∧ k < 0x18 then vget a.owners (k - 0x10) else none

/-- Words of a signature block's r and s. -/
def wordBytes (w n : Nat) : List Byte := leBytes (8 * w) n
def pointBytes (w x y : Nat) : List Byte := wordBytes w x ++ wordBytes w y

def sigBlock (wn key curve r s : Nat) : List Byte :=
  wordBytes wn r ++ wordBytes wn s ++ [0x20, byteOf key, byteOf curve, byteOf wn, 0, 0, 0, 0]

/-- A block verifies under a point of curve slot `slot`, for key slot `key`. -/
def blockOk (c : Curve) (slot key x y : Nat) (msg blk : List Byte) : Bool :=
  let t := 16 * c.wn
  blk.length == t + 8 && leAt blk (t + 3) 1 == c.wn && leAt blk (t + 1) 1 == key && leAt blk (t + 2) 1 == slot &&
  c.wn == ceilDiv (bitLen c.n) 64 &&
  ecdsaOk c.p c.a c.b c.gx c.gy c.n x y msg (leAt blk 0 (8 * c.wn)) (leAt blk (8 * c.wn) (8 * c.wn))

/-- A firmware image, its signature block at its end, verifies under VENDOR, whose curve is P-384 (R393, R394, R421). -/
def firmwareOk (img : List Byte) : Bool :=
  let n := img.length - (8 + 16 * leAt img (img.length - 5) 1)
  blockOk Curve.p384 0 0 vendorPub.x vendorPub.y (img.take n) (img.drop n)

/-- Verification under a key slot's key. -/
def Atoll.keyVerifies (a : Atoll) (key : Nat) (k : Option PubKey) (c : Option Curve) (msg blk : List Byte) : Bool :=
  match k, c with
  | some k, some c => !a.entfail && blockOk c k.curve.val key k.x k.y msg blk
  | _, _ => false

def Atoll.curve (a : Atoll) (k : Fin 16) : Option Curve := a.curves[k]
def Atoll.keyCurve (a : Atoll) (k : Option PubKey) : Option Curve := k.bind (fun k => a.curve k.curve)

/-- The private scalar of IDENT. -/
def identD : Nat := 1 + Config.identScalar % (Curve.p384.n - 1)

/-- A uniform scalar in [1, n − 1] from the DRBG (R396). -/
def State.drawScalar (s : State) (n : Nat) : Nat × State := let r := s.openNat; (1 + r.1 % (n - 1), r.2)

/-- The function byte of a signed message (R393). -/
def fnByte (f : Fn) : Byte := byteOf f.val

/-- A signature under nonces drawn until neither r nor s is 0 (FIPS 186-5); `n` bounds the draws (DESIGN CHOICE,
notes/assumptions/103.md). -/
def State.signDraw (c : Curve) (d : Nat) (msg : List Byte) : Nat → State → (Nat × Nat) × State
  | 0, s => let k := s.drawScalar c.n; (ecdsaSign c.p c.a c.gx c.gy c.n d k.1 msg, k.2)
  | n + 1, s =>
    let k := s.drawScalar c.n
    let r := ecdsaSign c.p c.a c.gx c.gy c.n d k.1 msg
    if r.1 = 0 ∨ r.2 = 0 then State.signDraw c d msg n k.2 else (r, k.2)

def signDraws : Nat := 64

/-- A signature block under IDENT over DEVID ‖ function ‖ use byte ‖ data. -/
def State.identSign (s : State) (f : Fn) (use : Nat) (data : List Byte) : List Byte × State :=
  let c := Curve.p384
  let r := State.signDraw c identD (leBytes 4 s.devid.toNat ++ [fnByte f, byteOf use] ++ data) signDraws s
  (sigBlock c.wn 0x20 0 r.1.1 r.1.2, r.2)

/-! ## The operations (Table AT-2): output bytes and state, or none for ATOLL_REJECT -/

abbrev OpResult := Option (List Byte × State)

def State.opModexp (s : State) (p : Packet) (d : List Byte) : OpResult :=
  let w := opW p
  let n := leAt d 0 (8 * w)
  if n % 2 = 0 || n = 1 then none
  else some (wordBytes w (powMod n (leAt d (8 * w) (8 * w)) (leAt d (16 * w) (8 * opEW p))), s)

def State.opEcmul (s : State) (c : Curve) (d : List Byte) : OpResult :=
  let k := leAt d 0 (8 * c.wn)
  let x := leAt d (8 * c.wn) (8 * c.wp)
  let y := leAt d (8 * c.wn + 8 * c.wp) (8 * c.wp)
  if k = 0 || decide (c.n ≤ k) || !onCurve c.p c.a c.b x y then none
  else (ptMul c.p c.a k (some (x, y))).map (fun q => (pointBytes c.wp q.1 q.2, s))

/-- Message bytes of a VERIFY. -/
def verifyLen (p : Packet) (wp wn : Nat) : Nat := opSlen p - (if opKey p = 0xFF then 16 * wp else 0) - (8 + 16 * wn)

def State.opVerify (s : State) (p : Packet) (c : Curve) (k : Option PubKey) (d : List Byte) : OpResult :=
  let q := if opKey p = 0xFF then 16 * c.wp else 0
  let blk := 8 + 16 * leAt d (opSlen p - 5) 1
  let key := if opKey p = 0xFF then
      some { curve := opCurve .verify p, x := leAt d 0 (8 * c.wp), y := leAt d (8 * c.wp) (8 * c.wp) } else k
  if opSlen p < q + blk then none
  else if s.atl.keyVerifies (opKey p) key (some c) (slice d q (opSlen p - q - blk)) (slice d (opSlen p - blk) blk) then some ([], s)
  else none

def State.opSign (s : State) (p : Packet) (d : List Byte) : OpResult := some (s.identSign p.fn 1 (d.take (opSlen p)))

def State.opKaStart (s : State) (p : Packet) (v : RowIdx) (c : Curve) : OpResult :=
  let k := s.drawScalar c.n
  (ptMul c.p c.a k.1 (some (c.gx, c.gy))).map (fun q =>
    let out := pointBytes c.wp q.1 q.2
    let s := { k.2 with atl := { k.2.atl with pendingD := vset k.2.atl.pendingD v (some (k.1, opCurve .kaStart p, c)) } }
    let b := s.identSign p.fn 2 out
    (out ++ b.1, b.2))

/-- ASCII text. -/
def ascii (t : String) : List Byte := t.toList.map (fun c => byteOf c.toNat)

def State.opKaFinish (s : State) (v : RowIdx) (d : List Byte) : OpResult :=
  match s.atl.pendingD[v] with
  | none => none
  | some (k, _, c) =>
    let x := leAt d 0 (8 * c.wp)
    let y := leAt d (8 * c.wp) (8 * c.wp)
    if !onCurve c.p c.a c.b x y then none
    else match ptMul c.p c.a (c.h * k) (some (x, y)), ptMul c.p c.a k (some (c.gx, c.gy)) with
      | some z, some q =>
        let key := (sha384 (beBytes 4 1 ++ wordBytes c.wp z.1 ++ ascii "FMV-H2-SESS" ++ pointBytes c.wp q.1 q.2 ++
          pointBytes c.wp x y)).take 32
        some ((hmacSha384 key (ascii "CONFIRM")).take 16,
          { s with atl := { s.atl with sessions := vset s.atl.sessions v (some key), pendingD := vset s.atl.pendingD v none } })
      | _, _ => none

def State.opOwnkey (s : State) (p : Packet) (v : RowIdx) (c : Curve) (d : List Byte) : OpResult :=
  let x := leAt d 0 (8 * c.wp)
  let y := leAt d (8 * c.wp) (8 * c.wp)
  let q := d.take (16 * c.wp)
  match s.atl.sessions[v] with
  | none => none
  | some key =>
    if onCurve c.p c.a c.b x y && hmacSha384 key (ascii "OWNKEY" ++ [byteOf (opCurve .ownkey p).val] ++ q) == slice d (16 * c.wp) 48 then
      some ([], { s with atl := { s.atl with owners := vset s.atl.owners v (some ⟨opCurve .ownkey p, x, y⟩) } })
    else none

/-- The curve of a CURVELOAD's operands. -/
def curveOf (d : List Byte) : Curve :=
  let wp := leAt d 0 1
  let wn := leAt d 1 1
  let f := fun k => leAt d (8 + 8 * wp * k) (8 * wp)
  { wp := wp, wn := wn, p := f 0, a := f 1, b := f 2, gx := f 3, gy := f 4, n := leAt d (8 + 40 * wp) (8 * wn),
    h := leAt d (8 + 40 * wp + 8 * wn) 8 }

/-- A curve as its slot holds it: wp and wn are those of p and n (R384). -/
def Curve.sized (c : Curve) : Curve := { c with wp := ceilDiv (bitLen c.p) 64, wn := ceilDiv (bitLen c.n) 64 }

/-- 64 bases from the DRBG. -/
def State.drawBases (s : State) (m : Nat) : List Nat × State :=
  (List.range 64).foldl (fun (r : List Nat × State) _ =>
    let x := r.2.openNat; (r.1 ++ [2 + x.1 % (max m 4 - 3)], x.2)) ([], s)

/-- The checks of Table AT-4, the primality bases given. -/
def Curve.sound (c : Curve) (bp bn : List Nat) : Bool :=
  let p := c.p
  let hn := c.h * c.n
  let d := if hn < p + 1 then p + 1 - hn else hn - (p + 1)
  decide (1 ≤ c.wp) && decide (c.wp ≤ 9) && decide (1 ≤ c.wn) && decide (c.wn ≤ 10) &&
  mrPasses p bp && decide (3 < p) &&
  decide (c.a < p) && decide (c.b < p) && decide (c.gx < p) && decide (c.gy < p) &&
  (4 * c.a * c.a * c.a + 27 * c.b * c.b) % p != 0 && onCurve p c.a c.b c.gx c.gy &&
  mrPasses c.n bn && decide (2 ^ 64 < c.n) && (ptMul p c.a c.n (some (c.gx, c.gy))).isNone &&
  decide (1 ≤ c.h) && decide (c.h ≤ 65536) && decide (d * d ≤ 4 * p)

/-- Key slots that use a curve slot: VENDOR and IDENT are on slot 0. -/
def Atoll.usesSlot (a : Atoll) (k : Fin 16) : Bool :=
  let on := fun (x : Option PubKey) => x.any (fun y => y.curve == k)
  k == 0 || on a.devown || on a.seal0 || on a.seal1 || a.owners.any on

def State.opCurveload (s : State) (p : Packet) (d : List Byte) : OpResult :=
  let k := opCurve .curveload p
  let c := curveOf d
  let b := s.drawBases c.p
  let n := b.2.drawBases c.n
  if n.2.atl.usesSlot k || !c.sound b.1 n.1 then none
  else some ([], { n.2 with atl := { n.2.atl with curves := vset n.2.atl.curves k (some c.sized) } })

def State.opAnchor (s : State) (p : Packet) (c : Curve) (own : Option PubKey) (oc : Option Curve) (d : List Byte) : OpResult :=
  let key := pktBytes p 18 1
  let x := leAt d 0 (8 * c.wp)
  let y := leAt d (8 * c.wp) (8 * c.wp)
  let q := d.take (16 * c.wp)
  let cs := opCurve .anchor p
  let msg := leBytes 4 s.devid.toNat ++ [0x08, 0x03, byteOf key, byteOf cs.val] ++ q
  let ok := if own.isNone then key == 1 && s.bringUp
    else s.atl.keyVerifies 1 own oc msg (slice d (16 * c.wp) (8 + 16 * (oc.elim 0 (·.wn))))
  if key = 0 || 3 < key || !onCurve c.p c.a c.b x y || !ok then none
  else
    let k : PubKey := { curve := cs, x := x, y := y }
    some ([], { s with atl :=
      if key = 1 then { s.atl with devown := some k }
      else if key = 2 then { s.atl with seal0 := some k } else { s.atl with seal1 := some k } })

/-! ## Starting (R383, R391, R397) -/

/-- The key an operation or internal check uses, by slot. -/
def Atoll.workKey (a : Atoll) (loads : List ProgLoad) (kloads : List KeyLoad) : AtollWork → Option PubKey
  | .op .verify p _ => a.pubKey (opKey p)
  | .op .anchor _ _ => a.devown
  | .op _ _ _ => none
  | .checkSeal id =>
    match loads.find? (fun l => l.id == id) with
    | some l =>
      let k := leAt l.img.sealBlk (l.img.sealBlk.length - 7) 1
      if k = 2 ∨ k = 3 then a.pubKey k else none
    | none => none
  | .checkManifest id =>
    match kloads.find? (fun l => l.id == id) with
    | some l => a.pubKey (0x10 + l.p.fn.val)
    | none => none
  | .checkAuth _ _ => a.devown
  | .checkFirmware => some vendorPub

/-- The curve an operation names: its own slot; KA_FINISH that of the pending KA_START. -/
def Atoll.workCurve (a : Atoll) : AtollWork → Option Curve
  | .op .kaFinish p _ => ((vfOf p.fn).bind (fun v => a.pendingD[v])).map (fun x => x.2.2)
  | .op o p _ => if usesCurve o then a.curve (opCurve o p) else a.curve 0
  | _ => a.curve 0

/-- Management cycles that work lasts (Table AT-6). -/
def State.workCost (s : State) (w : AtollWork) : Nat :=
  let c := (s.atl.workCurve w).getD Curve.p384
  let kc := if (s.atl.workCurve w).isNone then c else (s.atl.keyCurve (s.atl.workKey s.progLoads s.keyLoads w)).getD c
  let z := Curve.p384
  match w with
  | .op .modexp p _ =>
    let x := if opOrd p then 64 * max (opEW p) (opW p) + 128 else 64 * opEW p
    2 * x * mulCost (opW p + 1) + 200
  | .op .ecmul _ _ => c.E
  | .op .verify p _ => verifyCost kc (verifyLen p kc.wp kc.wn)
  | .op .sign p _ => hashCost (opSlen p + 6) + z.E + z.I
  | .op .kaStart _ _ => c.E + hashCost (6 + 16 * c.wp) + z.E + z.I
  | .op .kaFinish _ _ => c.E + 600
  | .op .ownkey _ _ => 800
  | .op .curveload _ d =>
    let k := curveOf d
    8192 * (k.wp * mulCost k.wp + k.wn * mulCost k.wn) + k.E + 1000
  | .op .anchor _ _ =>
    let kc := (s.atl.keyCurve s.atl.devown).getD z
    verifyCost kc (8 + 16 * c.wp) + 800
  | .checkSeal id => verifyCost kc ((s.progLoads.find? (fun l => l.id == id)).elim 0 (·.img.raw.length))
  | .checkManifest id => verifyCost kc ((s.keyLoads.find? (fun l => l.id == id)).elim 0 (fun l => (manifestMessage l.man).length))
  | .checkAuth _ auth => verifyCost kc (min 16 auth.length)
  | .checkFirmware => verifyCost kc (s.boot.recovImage.length - (8 + 16 * kc.wn))

/-- Work moves from the waiting list into free places of the queue. -/
def Atoll.refill (a : Atoll) : Atoll :=
  let n := 16 - a.queue.length
  { a with queue := a.queue ++ a.waiting.take n, waiting := a.waiting.drop n }

/-- The next operation starts; it reads its curve and key now (R383). -/
def execAtollOpStart (s : State) : Host.Outcome State Fault Refusal :=
  .next <|
    match s.atl.queue with
    | [] => s
    | w :: t =>
      if !s.clocked || s.atl.running.isSome then s
      else
        let k := s.atl.workKey s.progLoads s.keyLoads w
        let r : AtollRun := {
          work := w, curve := s.atl.workCurve w, key := k, keyCurve := s.atl.keyCurve k, dur := s.workCost w, started := s.now }
        { s with atl := ({ s.atl with queue := t, running := some r }).refill }

/-! ## Ending (R387, R388) -/

/-- The result of an operation; none is ATOLL_REJECT. -/
def State.opResult (s : State) (r : AtollRun) (o : AtollOp) (p : Packet) (d : List Byte) : OpResult :=
  if s.atl.entfail then none
  else match o, r.curve, vfOf p.fn with
    | .modexp, _, _ => s.opModexp p d
    | .sign, _, _ => s.opSign p d
    | .kaFinish, _, some v => s.opKaFinish v d
    | .curveload, _, _ => s.opCurveload p d
    | .ecmul, some c, _ => s.opEcmul c d
    | .verify, some c, _ => s.opVerify p (if opKey p = 0xFF then c else r.keyCurve.getD c) r.key d
    | .kaStart, some c, some v => s.opKaStart p v c
    | .ownkey, some c, some v => s.opOwnkey p v c d
    | .anchor, some c, _ => s.opAnchor p c r.key r.keyCurve d
    | _, _, _ => none

def Atoll.count (a : Atoll) (ok : Bool) : Atoll :=
  if ok then { a with done := satInc32 a.done } else { a with rejects := satInc32 a.rejects }

def State.atollCount (s : State) (ok : Bool) : State := { s with atl := s.atl.count ok }

/-- The reply of an ATOLL_OP that ended with ATOLL_REJECT. -/
def rejected (dur : Nat) : Answer := { Answer.of stAtoll 0 with time := usOf dur }

/-- An operation ends: its output at DST and its reply. -/
def State.endOp (s : State) (r : AtollRun) (o : AtollOp) (p : Packet) (d : List Byte) : State :=
  match s.opResult r o p d with
  | none => (s.atollCount false).answer p (rejected r.dur)
  | some (out, s) =>
    let s := s.atollCount true
    let s := if out.isEmpty then s else s.emit (.dma p.fn (BitVec.ofNat 64 (roundTo 8 (pktBytes p 40 8))) out)
    s.answer p { Answer.of stOk 0 with result0 := out.length, time := usOf r.dur }

/-- Firmware received in recovery mode has been verified: it may be programmed, or RESULT reads 3 (R427). -/
def State.endFirmware (s : State) (ok : Bool) : State :=
  { s with boot := { s.boot with recovOk := ok, recovResult := if ok then 1 else 3 } }

/-- Work ends after its fixed duration (R397). -/
def execAtollOpEnd (s : State) : Host.Outcome State Fault Refusal :=
  .next <|
    match s.atl.running with
    | none => s
    | some r =>
      if !s.clocked || s.now < r.started + r.dur then s
      else
        let s := { s with atl := { s.atl with running := none } }
        match r.work with
        | .op o p d => s.endOp r o p d
        | .checkSeal id =>
          match s.progLoads.find? (fun l => l.id == id) with
          | none => s
          | some l =>
            let k := leAt l.img.sealBlk (l.img.sealBlk.length - 7) 1
            let ok := s.atl.keyVerifies k r.key r.keyCurve l.img.raw l.img.sealBlk
            { s.atollCount ok with progLoads := mapWhere (fun (l : ProgLoad) => l.id == id) (fun l => { l with checked := some ok }) s.progLoads }
        | .checkManifest id =>
          match s.keyLoads.find? (fun l => l.id == id) with
          | none => s
          | some l =>
            let ok := s.atl.keyVerifies (0x10 + l.p.fn.val) r.key r.keyCurve (manifestMessage l.man) l.man.sig
            { s.atollCount ok with keyLoads := mapWhere (fun (l : KeyLoad) => l.id == id) (fun l => { l with checked := some ok }) s.keyLoads }
        | .checkAuth p auth =>
          let ok := s.atl.keyVerifies 1 r.key r.keyCurve (auth.take 16) (auth.drop 16)
          (s.atollCount ok).endAuth p auth ok
        | .checkFirmware =>
          let ok := !s.atl.entfail && firmwareOk s.boot.recovImage
          (s.atollCount ok).endFirmware ok

/-! ## Packets -/

/-- An ATOLL_OP whose OP names operation `o` joins the queue, or is refused with DETAIL 8 (R383, R385). -/
def State.atollPacket (s : State) (o : AtollOp) (pf vf : Bool) (p : Packet) (d : List Byte) : State :=
  if opNamed p != o.code then s
  else s.interpret p 0x0040 pf vf false fun s =>
    if 16 ≤ s.atl.queue.length then s.refuse p 8
    else let s := s.clampQ p.fn p.q (opClamps o p); { s with atl := s.atl.enqueue (.op o p d) }

def execModexp (p : Packet) (data : List Byte) (s : State) : Host.Outcome State Fault Refusal :=
  .next (s.atollPacket .modexp true true p data)
def execEcmul (p : Packet) (data : List Byte) (s : State) : Host.Outcome State Fault Refusal :=
  .next (s.atollPacket .ecmul true true p data)
def execVerify (p : Packet) (data : List Byte) (s : State) : Host.Outcome State Fault Refusal :=
  .next (s.atollPacket .verify true true p data)
def execSign (p : Packet) (data : List Byte) (s : State) : Host.Outcome State Fault Refusal :=
  .next (s.atollPacket .sign true true p data)
def execKaStart (p : Packet) (s : State) : Host.Outcome State Fault Refusal := .next (s.atollPacket .kaStart false true p [])
def execKaFinish (p : Packet) (data : List Byte) (s : State) : Host.Outcome State Fault Refusal :=
  .next (s.atollPacket .kaFinish false true p data)
def execOwnkey (p : Packet) (data : List Byte) (s : State) : Host.Outcome State Fault Refusal :=
  .next (s.atollPacket .ownkey false true p data)
def execCurveload (p : Packet) (data : List Byte) (s : State) : Host.Outcome State Fault Refusal :=
  .next (s.atollPacket .curveload true true p data)
def execAnchor (p : Packet) (data : List Byte) (s : State) : Host.Outcome State Fault Refusal :=
  .next (s.atollPacket .anchor true false p data)

/-- A health test of the entropy source fails: every later operation is refused until PERST_N (R396). -/
def execEntropyFailure (s : State) : Host.Outcome State Fault Refusal :=
  .next <| if s.clocked then ({ s with atl := { s.atl with entfail := true } }).driver (Report.of 0xB100) else s

/-! ## The wipe (R399) -/

/-- Work of function f. -/
def State.workOf (s : State) (f : Fn) : AtollWork → Bool
  | .op _ p _ | .checkAuth p _ => p.fn == f
  | .checkSeal id => s.progLoads.any (fun l => l.id == id && l.p.fn == f)
  | .checkManifest id => s.keyLoads.any (fun l => l.id == id && l.p.fn == f)
  | .checkFirmware => false

/-- What the next management cycle does, seen from this one. -/
def State.nextCycle (s : State) (k : State → State) : State := { k { s with now := s.now + 1 } with now := s.now }

/-- The reply of one discarded piece of work, in the cycle after the discard. -/
def State.discardedWork (s : State) (dur : Nat) (w : AtollWork) : State :=
  s.nextCycle fun s =>
    match w with
    | .op _ p _ => (s.atollCount false).answer p (rejected dur)
    | .checkSeal id =>
      match s.progLoads.find? (fun l => l.id == id) with
      | some l => (s.atollCount false).finishLoad l false
      | none => s
    | .checkManifest id =>
      match s.keyLoads.find? (fun l => l.id == id) with
      | some l => (s.atollCount false).finishKeys l false
      | none => s
    | .checkAuth p auth => (s.atollCount false).endAuth p auth false
    | .checkFirmware => (s.atollCount false).endFirmware false

/-- Clears what the Atoll holds for VF v. -/
def Atoll.forget (a : Atoll) (v : RowIdx) : Atoll :=
  { a with
    pendingD := vset a.pendingD v none, sessions := vset a.sessions v none, owners := vset a.owners v none,
    curves := vset a.curves (finOf 15 (8 + v.val)) none }

/-- Wipes VF v: its secrets go, its work is discarded, and the replies follow unless a Function Level Reset asked (R399). -/
def State.wipeAtoll (s : State) (v : RowIdx) (replies : Bool) : State :=
  let mine := s.workOf (fnOfVf v)
  let run := s.atl.running.filter (fun r => mine r.work)
  let lost := (run.map (fun r => (r.dur, r.work))).toList ++
    ((s.atl.queue ++ s.atl.waiting).filter mine).map (fun w => (s.workCost w, w))
  let a := { s.atl with
    queue := s.atl.queue.filter (fun w => !mine w), waiting := s.atl.waiting.filter (fun w => !mine w)
    running := s.atl.running.filter (fun r => !mine r.work) }
  let s := { s with atl := (a.forget v).refill }
  if replies then lost.foldl (fun (s : State) x => s.discardedWork x.1 x.2) s else s

end Sys2Proof.Machine
end

