-- ==== Sys2Proof/Machine/Straits.lean ====
section
/-! DEFINITION. The Straits: the flit code (R291, R292), link state (R299, R300), status codewords and control messages
(R296, R297, R306, R310), window writes (R307), key circulation at the ingress (R84, R99, R102), and window commands
(R305 to R309). -/

namespace Sys2Proof.Machine

def State.modPort (s : State) (y : RowIdx) (f : Port → Port) : State := s.setPort y (f (s.port y))

/-! ## The flit code -/

/-- A codeword as it travels: its data, then C0 and C1 (R291). -/
def codeCw (data : List Byte) : List Byte := data ++ rsCheck 2 data

/-- c(α²) of a codeword with fresh check bytes. -/
def thirdRoot (data : List Byte) : Nat := rsEval 2 (rsCheck 2 data ++ data)

/-- F3 of 20 header and 256 payload bytes, H1 taken as 0 (R291). -/
def flitCheck (raw : List Byte) : Nat :=
  let hdr := (raw.take 20).set 1 0
  (hdr :: chunks 32 (raw.drop 20)).foldl (fun x d => x ^^^ thirdRoot d) 0

/-- The 294 bytes of a flit on the wire. An injection inverts C0, or C0 and C1, of payload codeword 0 (R408). -/
def codeFlit (raw : List Byte) (inj : Option Bool) : List Byte :=
  let hdr := (raw.take 20).set 1 (byteOf (flitCheck raw))
  let w := codeCw hdr ++ (chunks 32 (raw.drop 20)).flatMap codeCw
  match inj with
  | none => w
  | some two =>
    let flip := fun (k : Nat) (l : List Byte) => l.set k (l.getD k 0 ^^^ 0xFF)
    if two then flip 55 (flip 54 w) else flip 54 w

/-- One received codeword: its data after correction and how many symbols that changed; none when uncorrectable. -/
def readCw (w : List Byte) : Option (List Byte × Nat) :=
  let n := w.length - 2
  let cw := w.drop n ++ w.take n
  match rsDecode 2 cw with
  | .clean => some (w.take n, 0)
  | .corrected i v => some ((rsFix cw (.corrected i v)).drop 2, 1)
  | .bad => none

/-- A received flit: 20 header and 256 payload bytes and the symbols corrected; none when uncorrectable (R292). -/
def readFlit (wire : List Byte) : Option (List Byte × Nat) :=
  let parts := (wire.take 22 :: chunks 34 (wire.drop 22)).map readCw
  match parts.mapM id with
  | none => none
  | some l =>
    let raw := l.flatMap (·.1)
    if (raw.getD 1 0).toNat = flitCheck raw then some (raw, l.foldl (fun n p => n + p.2) 0) else none

/-- Symbols that the receiver corrects in the codewords of a flit, one that is dropped included (R292, R293). -/
def wireFixes (wire : List Byte) : Nat :=
  ((wire.take 22 :: chunks 34 (wire.drop 22)).filterMap readCw).foldl (fun n p => n + p.2) 0

/-- The class fields of a flit header, bits [127:0] (Table SD-2). -/
def flitFields (raw : List Byte) : Nat := leAt raw 4 16
def flitClass (raw : List Byte) : Nat := field (leAt raw 0 1) 2 2
def flitFirst (raw : List Byte) : Bool := bitAt (leAt raw 0 1) 1
def flitIdx (raw : List Byte) : Nat := field (leAt raw 2 2) 0 6
def flitVersion (raw : List Byte) : Nat := leAt raw 0 1 / 16
def flitData (raw : List Byte) : List Byte := raw.drop 20

/-- An IDLE flit before coding. -/
def idleFlit : List Byte := 0x20 :: List.replicate 275 0

/-! ## Jobs and ports -/

/-- The plan of the job that runs on row y, when it uses port Sy (R100). -/
def State.planOn (s : State) (y : RowIdx) : Option (Job × StraitPlan) :=
  (s.runningOn y).bind (fun j => (j.img.sections.strait).bind (fun p => if planUses p y then some (j, p) else none))

/-- Corrected symbols of a port are counted, and each is a corrected report (R293, R400). -/
def State.countCorr (s : State) (y : RowIdx) (n : Nat) : State :=
  let s := s.modPort y (fun p => { p with fecCorr := satAdd p.fecCorr n })
  (List.range n).foldl (fun s _ => s.corrected (Report.of (0x7000 + y.val))) s

/-- An uncorrectable flit or status codeword: contained when a running job's plan uses the port, else counted and recorded
(R293, R464). -/
def State.uncorrectable (s : State) (y : RowIdx) : State :=
  let s := s.modPort y (fun p => { p with fecUnc := satInc32 p.fecUnc })
  match s.planOn y with
  | some _ => s.contained { Report.of (0x7000 + y.val) with detail := 1 }
  | none => s.recordedOnly (0x7000 + y.val) y (s.port y).fecCorr.toNat

/-! ## Control messages (R296, R297) -/

/-- An image's plan puts port Sy on a ring. -/
def Image.onRing (m : Image) (y : RowIdx) : Bool :=
  m.sections.strait.any (fun p => inRows p.ringPorts y || p.topo.any (fun t => t.port == y && t.ring))

/-- Hops from this module to a message's destination: M − 1 on a ring, 1 on a pair. The port is on the ring that the plan of the
running job names, else that of an image bound to a run with the row, the newest first; a port that no plan puts on a ring counts as one
of a pair (DESIGN CHOICE, notes/assumptions/58.md). -/
def State.hopsTo (s : State) (y : RowIdx) : Nat :=
  let plans := ((s.planOn y).map (·.1.img)).toList ++ s.images.reverse.filter (fun m => inRows m.run y && m.sections.strait.any (planUses · y))
  match plans.head? with
  | some m => if m.onRing y then m.hdr.ringSize - 1 else 1
  | none => 1

def Port.waiting (p : Port) : Nat := p.fwdMsgs.length + p.nackMsgs.length + p.wstateMsgs.length

/-- Reply to the OPEN_WINDOW whose message leaves, or is dropped before it could (R306). -/
def State.msgDone (s : State) (m : CtlMsg) : State :=
  match m.openPkt with
  | some p => s.answer p { Answer.of stOk 0 with result0 := m.epoch.toNat }
  | none => s

/-- A message waits to be sent; the 33rd is dropped and counted (R297). -/
def State.queueMsg (s : State) (y : RowIdx) (m : CtlMsg) (fwd : Bool) : State :=
  let p := s.port y
  if 32 ≤ p.waiting then (s.setPort y { p with msgs := satAdd p.msgs 1 }).msgDone m
  else s.setPort y
    (if fwd then { p with fwdMsgs := p.fwdMsgs ++ [m] }
     else if m.nack then { p with nackMsgs := p.nackMsgs ++ [m] }
     else { p with wstateMsgs := p.wstateMsgs ++ [m] })

/-- The WSTATE of a window entry (Table SD-3). -/
def State.wstateOf (s : State) (y : RowIdx) (h : Nat) (opened : Bool) (epoch : BitVec 16) (pkt : Option Packet) :
    CtlMsg :=
  { nack := false, mhops := BitVec.ofNat 20 (s.hopsTo y), mdest := (s.port y).rxpeer, msrc := s.devid, handle := BitVec.ofNat 16 h,
    epoch := epoch, arg := if opened then 1 else 0, count := 0, openPkt := pkt }

def State.queueWstate (s : State) (y : RowIdx) (h : Nat) (opened : Bool) (epoch : BitVec 16) (pkt : Option Packet) : State :=
  s.queueMsg y (s.wstateOf y h opened epoch pkt) false

/-! ## The window table (R305 to R309) -/

/-- The entry of a handle: CLOSED at epoch 0 where none is kept. -/
def Port.window (p : Port) (h : Fin 1024) : WinEntry :=
  (p.windows.find? (fun w => w.handle == h)).getD
    { handle := h, owner := none, st := .closed, epoch := 0, target := .none, closeAt := 0, quiet := false, closers := [],
      reopen := [] }

/-- Keeps the entries in ascending handle. -/
def insertWin (w : WinEntry) : List WinEntry → List WinEntry
  | [] => [w]
  | x :: t => if w.handle < x.handle then w :: x :: t else if w.handle = x.handle then w :: t else x :: insertWin w t

def Port.setWindow (p : Port) (w : WinEntry) : Port := { p with windows := insertWin w p.windows }

/-- The ingress still takes flits for the entry in cycle `now` (R308). -/
def WinEntry.takes (w : WinEntry) (now : Nat) : Bool := w.st == .opened || (w.st == .closing && decide (now < w.closeAt))

/-- Every accepted flit has been written: nothing for the target waits in its Isle's DELIVERY blocks (R308). -/
def State.drainedWin (s : State) (w : WinEntry) : Bool :=
  match w.target with
  | .store i b n => (s.isle i).mov.arrivals.all (fun a => !(decide (b ≤ a.addr) && decide (a.addr < b + n)))
  | _ => true

/-- Opens an entry at its current epoch and queues its WSTATE (R306). -/
def State.openEntry (s : State) (y : RowIdx) (h : Fin 1024) (owner : RowIdx) (p : Packet) (t : WinTarget) : State :=
  let w := (s.port y).window h
  let s := s.modPort y (fun x => x.setWindow { w with owner := some owner, st := .opened, target := t, quiet := false })
  s.queueWstate y h.val true w.epoch (some p)

/-- Puts an OPEN entry into CLOSING from the next management cycle (R308). -/
def WinEntry.close (w : WinEntry) (now : Nat) (quiet : Bool) : WinEntry :=
  { w with st := .closing, closeAt := now + 1, quiet := quiet }

/-- OPEN_WINDOW on an entry in any state (R306, R309). -/
def State.openOn (s : State) (y : RowIdx) (h : Fin 1024) (owner : RowIdx) (p : Packet) (t : WinTarget) : State :=
  let w := (s.port y).window h
  match w.st with
  | .closed => s.openEntry y h owner p t
  | .opened => s.modPort y (fun x => x.setWindow { w.close s.now true with reopen := [(p, t)] })
  | .closing => s.modPort y (fun x => x.setWindow { w with reopen := w.reopen ++ [(p, t)] })

/-- The target an OPEN_WINDOW names, clamped into row y, and how many fields that changed (R305, Table HC-6). -/
def State.windowTarget (s : State) (y : RowIdx) (p : Packet) : WinTarget × Nat :=
  let sp := field (pktBytes p 19 1) 0 2
  let base := pktBytes p 24 8
  let len := pktBytes p 32 8
  if sp = 0 then
    let cap := visibleStore (s.h1 p)
    let i := clampNat (8 * y.val) (8 * y.val + 7) (pktBytes p 20 1 % 64)
    let b := roundTo 16384 (min base cap)
    let l := roundTo 16384 (min len (cap - b))
    (.store (finOf 63 i.1) b l, i.2 + b2n (b != base) + b2n (l != len))
  else if sp = 1 then
    let a := rowClamp [y] (base % 2 ^ 40)   -- bits [63:40] are ignored (R269)
    let room := if devMode1 a.1 then chanCap s.big512 - field a.1 0 33 else 8 * chanCap s.big512 - field a.1 0 36
    let l := min len room
    (.device (BitVec.ofNat 64 a.1) l, b2n (a.1 != base % 2 ^ 40) + b2n (l != len))
  else
    let sl := clampNat (2 * y.val) (2 * y.val + 1) (field base 23 4)
    let o := min (field base 0 23) sliceBytes
    let l := min len (sliceBytes - o)
    (.lagoon (finOf 15 sl.1) o l, b2n (sp == 3) + b2n (o + sl.1 * 2 ^ 23 != base) + b2n (l != len))

/-- The row owner's function issued the packet (R305). -/
def State.ownsPort (s : State) (p : Packet) (y : RowIdx) : Bool := s.holds p.fn y

def execOpenWindow (p : Packet) (s : State) : Host.Outcome State Fault Refusal :=
  .next <| s.interpret p 0x0030 false true false fun s =>
    let y : RowIdx := finOf 7 (pktBytes p 18 1 % 8)
    let h : Fin 1024 := finOf 1023 (pktBytes p 16 2 % 1024)
    match vfOf p.fn with
    | none => s
    | some v =>
      if !s.ownsPort p y then s.refuse p 0
      else
        let t := s.windowTarget y p
        (s.clampQ p.fn p.q t.2).openOn y h v p t.1

def execCloseWindow (p : Packet) (s : State) : Host.Outcome State Fault Refusal :=
  .next <| s.interpret p 0x0031 false true false fun s =>
    let y : RowIdx := finOf 7 (pktBytes p 18 1 % 8)
    let h : Fin 1024 := finOf 1023 (pktBytes p 16 2 % 1024)
    if !s.ownsPort p y then s.refuse p 0
    else
      let w := (s.port y).window h
      match w.st with
      | .closed => s.answer p { Answer.of stOk 1 with result0 := w.epoch.toNat }
      | .opened => s.modPort y (fun x => x.setWindow { w.close s.now false with closers := [p] })
      | .closing => s.modPort y (fun x => x.setWindow { w with closers := w.closers ++ [p] })

/-- A close ends: the epoch rises, the entry is CLOSED, the replies follow in the next cycle, and the OPEN_WINDOWs that
waited are carried out in turn (R308, R309). -/
def State.endClose (s : State) (y : RowIdx) (w : WinEntry) : State :=
  let e := w.epoch + 1
  let s := s.modPort y (fun x => x.setWindow
    { w with owner := none, st := .closed, epoch := e, target := .none, quiet := false, closers := [], reopen := [] })
  let s := if w.quiet && !w.reopen.isEmpty then s else s.queueWstate y w.handle.val false e none
  let s := w.closers.foldl (fun s p => s.answerAt p (s.now + 1) { Answer.of stOk 0 with result0 := e.toNat }) s
  w.reopen.foldl (fun (s : State) r =>
    match vfOf r.1.fn with
    | some v => if s.ownsPort r.1 y then s.openOn y w.handle v r.1 r.2 else s.refuse r.1 0
    | none => s) s

def execWindowCloseComplete (port : RowIdx) (handle : Fin 1024) (s : State) : Host.Outcome State Fault Refusal :=
  .next <|
    let w := (s.port port).window handle
    if s.running && w.st == .closing && decide (w.closeAt ≤ s.now) && s.drainedWin w then s.endClose port w else s

/-- Closes every window of a row as CLOSE_WINDOW does (R310, R363). An OPEN_WINDOW that waits on an entry is refused when its close
ends, its function no longer holding the row. -/
def State.closeAll (s : State) (y : RowIdx) : State :=
  s.modPort y (fun x => { x with windows := x.windows.map (fun w => if w.st == .opened then w.close s.now false else w) })

/-- A Function Level Reset drops what packets of the function wait for at the windows: an OPEN_WINDOW behind a close, and the replies
owed (R363). -/
def Port.dropPackets (p : Port) (f : Fn) : Port :=
  { p with
    windows := p.windows.map (fun w => { w with
      reopen := w.reopen.filter (fun r => r.1.fn != f), closers := w.closers.filter (fun x => x.fn != f),
      quiet := w.quiet && w.reopen.any (fun r => r.1.fn != f) })
    wstateMsgs := p.wstateMsgs.map (fun m => { m with openPkt := m.openPkt.filter (fun x => x.fn != f) }) }

/-! ## Window writes (R307) -/

/-- Bytes of a target. -/
def WinTarget.len : WinTarget → Nat
  | .none => 0
  | .store _ _ n | .device _ n | .lagoon _ _ n => n

/-- A window of scheduled traffic is open in cycle `now` (R284). -/
def inWindow (now : Nat) (l : List (Nat × Nat)) : Bool := l.any (fun w => decide (w.1 ≤ now) && decide (now < w.1 + w.2))

/-- The place of a write is one the running job's plan reserves (R307): for a STORE target DELIVERY blocks and a landing slot that holds
it; for a DEVICE target a window of every channel it reaches; for a LAGOON target one of the slice, which is in SCRATCH mode. -/
def State.reserved (s : State) (t : WinTarget) (off n : Nat) : Bool :=
  match t with
  | .none => false
  | .store i b _ =>
    let is := s.isle i
    is.mov.rd != 0 && (is.slotAt (b + off)).any (fun k =>
      (is.slot k).kind == 3 && decide (b + off + n ≤ (is.slot k).base + 32 * (is.slot k).len))
  | .device a _ =>
    let at' := devAdd s.big512 a.toNat off
    (unitStarts at' n).all (fun k => inWindow s.now (s.chan (devByte s.big512 at' k).1).windows)
  | .lagoon sl _ _ => (s.lagoon sl).mode == 1 && inWindow s.now (s.lagoon sl).windows

/-- Why a window write is refused: 1 closed or stale epoch, 2 out of range, 3 no accepting job; 0 accepts it. -/
def State.winCause (s : State) (y : RowIdx) (w : WinEntry) (epoch off n : Nat) : Nat :=
  if !w.takes s.now || w.epoch.toNat != epoch then 1
  else if w.target.len < off + n then 2
  else
    let lands := match s.runningOn y with
      | some j => w.owner.any (fun v => fnOfVf v == j.fn) &&
          j.img.sections.strait.any (fun p => p.landings.any (fun l => l.1 == y && l.2 == w.handle.val))
      | none => false
    if lands && s.reserved w.target off n then 0 else 3

/-- Writes an accepted flit to its target. -/
def State.winWrite (s : State) (y : RowIdx) (t : WinTarget) (off : Nat) (data : List Byte) : State :=
  match t with
  | .none => s
  | .store i b _ => s.arrive i { addr := b + off, bytes := data, key := none, ring := false, wait := 0 }
  | .device a _ => s.moverWrite y (devAdd s.big512 a.toNat off) data
  | .lagoon sl o _ => s.sliceWrite sl (o + off) data

/-- Counts a refusal; the NACK of the frame names the cause of the first (R307). -/
def State.winRefuse (s : State) (y : RowIdx) (src : BitVec 20) (h : BitVec 16) (epoch : BitVec 16) (cause : Nat) : State :=
  let p := s.port y
  let p := { p with windrop := satInc32 p.windrop }
  if p.nackAcc.any (fun m => m.handle == h) then
    s.setPort y { p with nackAcc := mapWhere (fun (m : CtlMsg) => m.handle == h) (fun m => { m with count := satAdd m.count 1 }) p.nackAcc }
  else
    s.setPort y { p with nackAcc := p.nackAcc ++
      [{ nack := true, mhops := BitVec.ofNat 20 (s.hopsTo y), mdest := src, msrc := s.devid, handle := h, epoch := epoch,
         arg := byteOf cause, count := 1, openPkt := none }] }

/-- A WIN flit at the ingress. -/
def State.winFlit (s : State) (y : RowIdx) (raw : List Byte) : State :=
  let f := flitFields raw
  let h := field f 20 16
  let off := 32 * field f 52 32
  let n := 32 * (field f 84 3 + 1)
  let w := (s.port y).window (finOf 1023 h)
  let c := s.winCause y w (field f 36 16) off n
  if c = 0 then s.winWrite y w.target off ((flitData raw).take n)
  else s.winRefuse y (BitVec.ofNat 20 f) (BitVec.ofNat 16 (h % 1024)) (BitVec.ofNat 16 (field f 36 16)) c

/-! ## Key circulation (R84, R99, R102) -/

/-- The row's job takes KEY flit groups at this port. -/
def State.keyPlan (s : State) (y : RowIdx) : Option (Job × StraitPlan) :=
  (s.planOn y).filter (fun x => x.2.gives y 1)

/-- Places of a plan, landing and position each, at which a chunk may still begin at a port. -/
def openPlaces (p : StraitPlan) (y : RowIdx) (seen : List (Nat × Nat)) : List (Nat × Nat × KeyLanding × Nat) :=
  (p.keyLandings.zipIdx.filter (fun k => k.1.port == y)).flatMap (fun k =>
    (k.1.chunks.zipIdx).filterMap (fun c => if seen.contains (k.2, c.2) then none else some (k.2, c.2, k.1, c.1)))

/-- Where an arriving chunk goes: to every consumer of it in the row; a chunk that no slot of the plan expects comes in place of the first
one that is still to arrive from another module, for which `foreign` holds (R84, R99). -/
def placesFor (p : StraitPlan) (y : RowIdx) (seen : List (Nat × Nat)) (rec chunk : Nat) (foreign : Nat → Nat → Bool) :
    List (Nat × Nat × KeyLanding × Nat) :=
  let l := openPlaces p y seen
  let m := l.filter (fun x => x.2.2.1.record == rec && x.2.2.2 == chunk)
  if m.isEmpty then (l.filter (fun x => foreign x.2.2.1.record x.2.2.2)).take 1 else m

/-- The chunk of an arriving tag (Table KC-1) with what the module's own copy of the record's header adds (R85). -/
def State.tagChunk (s : State) (set : Option KeySet) (tag : Nat) : KeyChunk :=
  let r := field tag 64 16
  let c := field tag 104 24
  let own : KeyChunk := (set.bind (fun k => s.chunkOf k r c)).getD
    { keyset := 0, mfp := 0, record := r, seed := [], kind := 0, chunk := c, limbs := 0, tiles := 0, nr := 0, digits := 0, lweDim := 0, primes := [] }
  { own with keyset := BitVec.ofNat 32 tag, mfp := BitVec.ofNat 32 (field tag 32 32), kind := field tag 80 4 }

/-- Begins a group of KEY flits: where its chunk lands, and whether it goes on round the ring. Its tag is compared as the chunk is taken
into each slot (R84). -/
def State.keyBegin (s : State) (y : RowIdx) (j : Job) (p : StraitPlan) (tag : Nat) : State :=
  let set := s.jobKeySet j
  let foreign := fun r c => set.all (fun k => (k.holder r c).isNone)
  let l := placesFor p y (s.port y).keySeen (field tag 64 16) (field tag 104 24) foreign
  let tg := l.map (fun x =>
    let k := x.2.2.1
    (k.consumer, ((s.isle k.consumer).slot (finOf 127 (k.slot0.val + x.2.1 % max k.kslots 1))).base))
  s.modPort y (fun x => { x with
    keySeen := l.map (fun x => (x.1, x.2.1)) ++ x.keySeen
    keyRx := some { targets := tg, chunk := some (s.tagChunk set tag), fwd := decide (1 < field tag 84 20) } })

/-- One KEY flit of the group under way: into each consumer's slot, the tag with the first, and on to the next module. The job keeps the
words for the residues of its key switches (R71). -/
def State.keyMove (s : State) (y : RowIdx) (j : Nat) (g : KeyRx) (raw : List Byte) : State :=
  let idx := flitIdx raw
  let hops := field (flitFields raw) 84 20
  let out := if flitFirst raw then
      raw.take 4 ++ leBytes 16 (flitFields raw - hops * 2 ^ 84 + (hops - 1) * 2 ^ 84) ++ flitData raw else raw
  let s := s.modJob j (fun j => { j with
    keyIn := j.keyIn ++ (g.chunk.map (fun c => (c.record, c.chunk, 256 * idx, flitData raw))).toList })
  let s := g.targets.foldl (fun (s : State) t =>
    s.arrive t.1 { addr := t.2 + 256 * idx, bytes := flitData raw, key := if idx = 0 then g.chunk else none, ring := true, wait := 0 }) s
  let s := if g.fwd then s.egressPut y [out] else s
  if idx = 63 then s.modPort y (fun x => { x with keyRx := none }) else s

/-- A KEY flit at the ingress; outside a running ring its group is dropped and counted once (R102). -/
def State.keyFlitIn (s : State) (y : RowIdx) (raw : List Byte) : State :=
  match s.keyPlan y with
  | none =>
    if flitFirst raw || (s.port y).keyRx.isNone then
      s.modPort y (fun x => { x with
        kcdrop := satInc32 x.kcdrop, keyRx := if flitIdx raw = 63 then none else some ⟨[], none, false⟩ })
    else if flitIdx raw = 63 then s.modPort y (fun x => { x with keyRx := none }) else s
  | some (j, p) =>
    let s := if flitFirst raw then s.keyBegin y j p (flitFields raw) else s
    match (s.port y).keyRx with
    | some g => s.keyMove y j.id g raw
    | none => s

end Sys2Proof.Machine
end

