-- ==== Sys2Proof/Machine/Reduction.lean ====
section
/-! DEFINITION. Reduction in the Strait ingress (R311 to R331): element operations, update rules, thinned records, digests
(R333), and the units' buffer (R321). -/

namespace Sys2Proof.Machine

/-! ## Elements (Table GU-2) -/

/-- Bytes of an element of TYPE. -/
def redBytes (ty : BitVec 2) : Nat := if ty = 1 then 2 else 4

/-- An fp32 word as bf16. -/
def toBf16 (w : Nat) : Nat := ((FV.ofBits fp32 w).round bf16).bits

/-- A stored value of a format (0 fp32, 1 bf16, 2 residue) as the unit's 32-bit operand, and back. -/
def widen (fmt : BitVec 2) (w : Nat) : Nat := if fmt = 1 then w * 65536 else w
def narrow (fmt : BitVec 2) (w : Nat) : Nat := if fmt = 1 then toBf16 w else w

/-- x ⊕ y as a 32-bit operand: fp32 for clear types, a residue for MOD32. -/
def redAdd (ty : BitVec 2) (p x y : Nat) : Nat :=
  if ty = 2 then (x % p + y % p) % p
  else (f32add (BitVec.ofNat 32 (widen ty x)) (BitVec.ofNat 32 (widen ty y))).toNat

/-! ## The update rules (R327, R329, R330) -/

/-- The scalar block: a1, b1, a2, b2, c1, c2, eta, eps, lam. -/
structure Scalars where
  a1 : Word
  b1 : Word
  a2 : Word
  b2 : Word
  c1 : Word
  c2 : Word
  eta : Word
  eps : Word
  lam : Word
  deriving DecidableEq, Repr

def one32 : Word := 0x3F800000

/-- a1^STEP and a2^STEP by the loop of R327: (r1, r2) from (q1, q2) and n. -/
def powLoop : Nat → Word → Word → Word → Word → Nat → Word × Word
  | 0, r1, r2, _, _, _ => (r1, r2)
  | k + 1, r1, r2, q1, q2, n =>
    if n = 0 then (r1, r2)
    else
      let r := if n % 2 = 1 then (f32mul r1 q1, f32mul r2 q2) else (r1, r2)
      powLoop k r.1 r.2 (f32mul q1 q1) (f32mul q2 q2) (n / 2)

def scalarsOf (rule : Nat) (step : Word) (w : List Word) : Scalars :=
  let g := fun i => w.getD i 0
  let r := if rule = 2 then powLoop 32 one32 one32 (g 0) (g 3) step.toNat else (one32, one32)
  let c := fun (x : Word) => if rule = 2 then f32div one32 (f32sub one32 x) else 0
  { a1 := g 0, b1 := f32sub one32 (g 0), a2 := g 3, b2 := f32sub one32 (g 3), c1 := c r.1, c2 := c r.2, eta := g 1,
    eps := g 4, lam := g 2 }

/-- The 16 words of a scalar block (R327): a1, b1, a2, b2, c1, c2, eta, eps and lam, or the integers A and B of a MOD32 reduction. -/
def blockOf (ty : BitVec 2) (rule : Nat) (step : Word) (w : List Word) : List Word :=
  let s := scalarsOf rule step w
  let l := if ty = 2 then [w.getD 0 0, w.getD 1 0] else [s.a1, s.b1, s.a2, s.b2, s.c1, s.c2, s.eta, s.eps, s.lam]
  l ++ List.replicate (16 - l.length) 0

/-- The scalars of a block as a reduction unit has read it. -/
def scalarsIn (b : List Word) : Scalars :=
  let g := fun i => b.getD i 0
  { a1 := g 0, b1 := g 1, a2 := g 2, b2 := g 3, c1 := g 4, c2 := g 5, eta := g 6, eps := g 7, lam := g 8 }

def f32neg (w : Word) : Word := w ^^^ 0x80000000

/-- (θn, mn, vn) of one element (R329). -/
def applyRule (rule : Nat) (s : Scalars) (g th m v : Word) : Word × Word × Word :=
  if rule = 0 then (g, m, v)
  else if rule = 1 then
    let vn := f32fma s.a1 v g
    let d := f32fma s.lam th vn
    (f32fma (f32neg s.eta) d th, m, vn)
  else if rule = 2 then
    let mn := f32fma s.a1 m (f32mul s.b1 g)
    let vn := f32fma s.a2 v (f32mul s.b2 (f32mul g g))
    let q := f32div (f32mul mn s.c1) (f32add (f32sqrt (f32mul vn s.c2)) s.eps)
    let d := f32fma s.lam th q
    (f32fma (f32neg s.eta) d th, mn, vn)
  else
    let mn := f32fma s.a1 m (f32mul s.b1 g)
    let sg : Word := if (f32 mn).isNan then 0x7FC00000
      else if (f32 mn).lt false (f32 0) then 0xBF800000 else if (f32 0).lt false (f32 mn) then one32 else 0
    let d := f32fma s.lam th sg
    (f32fma (f32neg s.eta) d th, mn, v)

/-- (θn, vn) of one residue (R330): MOMENTUM with integers A and B, else SUM. -/
def applyMod (rule p : Nat) (a b : Word) (S th v : Nat) : Nat × Nat :=
  if rule = 0 then (S % p, v % p)
  else
    let vn := (a.toNat % p * (v % p) + S) % p
    ((th % p + (p - b.toNat % p * vn % p)) % p, vn)

/-! ## A reduction as a port sees it -/

/-- A reduction of the running job: its job, declaration, slot of the port, configuration, ring size and rank. -/
structure Red where
  j : Job
  d : ReductionDecl
  slot : Nat
  rule : Nat
  thin : Nat
  step : Word
  w : List Word
  m : Nat
  rank : Nat

/-- The reductions of the job that runs on row y and declares port Sy, slots in the order of declaration (R312, R333). -/
def State.redsOf (s : State) (y : RowIdx) : List Red :=
  match s.planOn y with
  | none => []
  | some (j, p) =>
    ((p.reductions.zipIdx.filter (fun r => r.1.port == y)).zipIdx).map (fun r =>
      let c := j.configs.getD r.1.2 (0, 0, 0, [])
      { j := j, d := r.1.1, slot := r.2, rule := c.1, thin := c.2.1, step := c.2.2.1, w := c.2.2.2,
        m := max j.img.hdr.ringSize 1, rank := rankOf (ringOf j.img j.members) s.devid })

/-- The reduction that owns a STREAM. -/
def State.redOf (s : State) (y : RowIdx) (stream : Nat) : Option Red := (s.redsOf y).find? (fun r => r.d.base == stream / 2)

def Red.bytes (r : Red) : Nat := redBytes r.d.ty
/-- Elements of a tile and of the tensor. -/
def Red.perTile (r : Red) : Nat := 16384 / r.bytes
def Red.count (r : Red) : Nat := r.d.tiles * r.perTile
def Red.owns (r : Red) (u : Nat) : Bool := u % r.m == r.rank
/-- This module emits a tile first (R317). -/
def Red.starts (r : Red) (u : Nat) : Bool := (u % r.m + 1) % r.m == r.rank

/-- The prime of a tile's limb (R317). -/
def State.redPrime (s : State) (r : Red) (u : Nat) : Nat :=
  match s.psets[r.d.pset] with
  | some p => p.primes.getD (u / max (2 ^ p.logn / 4096) 1 % max r.d.limbs 1) 1
  | none => 1

/-- RED flits of a stream: class fields and payload (Table SD-2). -/
def State.redRaw (s : State) (r : Red) (ty : BitVec 2) (dist : Bool) (off : Nat) (data : List Byte) : List Byte :=
  rawFlit 3 (off % 64) (s.devid.toNat + (2 * r.d.base + b2n dist) % 65536 * 2 ^ 20 + r.step.toNat * 2 ^ 36 +
    ty.toNat * 2 ^ 68 + off % 2 ^ 32 * 2 ^ 70) data

/-! ## Slots of the row -/

/-- Place k of a list, used over and over (R312). -/
def placeOf (l : List RedPlace) (k : Nat) : RedPlace := l.getD (k % max l.length 1) { isle := 0, off := 0 }

/-- The Isle-store slot that holds an address. -/
def Isle.regionAt (is : Isle) (addr : Nat) : Option (Fin 128) :=
  (List.finRange 128).find? (fun k =>
    let x := is.slot k
    x.kind != 0 && decide (x.base ≤ addr) && decide (addr < x.base + 32 * x.len))

def State.regionOf (s : State) (p : RedPlace) : Option (Fin 128) := (s.isle p.isle).regionAt p.off
def State.placeFull (s : State) (p : RedPlace) : Bool := (s.regionOf p).any (fun k => ((s.isle p.isle).slot k).full)

/-- The unit's last read of the slot of place k of n; a later place in the same slot is still to be read (R205). -/
def State.placeDone (s : State) (l : List RedPlace) (k n : Nat) : State :=
  let p := placeOf l k
  let q := placeOf l (k + 1)
  if k + 1 < n ∧ q.isle = p.isle ∧ p.off < q.off ∧ s.regionOf q = s.regionOf p then s
  else match s.regionOf p with
    | some i => s.putIsle p.isle ((s.isle p.isle).setSlot i ((s.isle p.isle).slot i).drained)
    | none => s

/-- Reads n bytes of a place from its byte o over a row lane, with the code (R19, R227). -/
def State.laneRead (s : State) (p : RedPlace) (o n : Nat) : State × List Byte :=
  let a := p.off + o
  let c := (s.isle p.isle).storeCheck p.isle (wordsOf 32 a n)
  ((s.putIsle p.isle c.1).reports c.2, (s.isle p.isle).storeRead a n)

def State.laneWrite (s : State) (p : RedPlace) (o : Nat) (l : List Byte) : State :=
  s.putIsle p.isle ((s.isle p.isle).storeWrite (p.off + o) l)

/-- Writes a place as the filler of its slot, which is FULL when a round's bytes are all there (R205). -/
def State.laneFill (s : State) (p : RedPlace) (o : Nat) (l : List Byte) : State :=
  let s := s.laneWrite p o l
  match s.regionOf p with
  | none => s
  | some i =>
    let is := s.isle p.isle
    let x := is.slot i
    s.putIsle p.isle (is.setSlot i { x with got := x.got + l.length, full := decide (32 * x.len ≤ x.got + l.length) })

/-- Lands words in the row's slots through DELIVERY blocks. -/
def State.laneLand (s : State) (p : RedPlace) (o : Nat) (l : List Byte) : State :=
  s.arrive p.isle { addr := p.off + o, bytes := l, key := none, ring := false, wait := 0 }

/-! ## The scalar block (R327) -/

/-- At the start boundary the Skerry of Isle 8y writes the scalar block of each HARDWIRED reduction of port Sy into its slot: once per
job, which is one step (DESIGN CHOICE: the moment, notes/assumptions/62.md). -/
def State.writeBlocks (s : State) (y : RowIdx) : State :=
  ((s.redsOf y).filter (fun r => r.d.hardwired)).foldl (fun (s : State) r =>
    s.laneFill r.d.scalar 0 ((blockOf r.d.ty r.rule r.step r.w).flatMap (fun w => leBytes 4 w.toNat))) s

/-- The block a unit has read for the step. -/
def Port.block (p : Port) (base : Nat) : Option (List Word) := (p.redBlocks.find? (fun b => b.1 == base)).map (·.2)

/-- The unit can have its scalars: it has read the block, or the slot is FULL. -/
def State.blockReady (s : State) (y : RowIdx) (r : Red) : Bool := ((s.port y).block r.d.base).isSome || s.placeFull r.d.scalar

/-- Before the first update of the step the unit reads the block, as a reader. -/
def State.takeBlock (s : State) (y : RowIdx) (r : Red) : State :=
  if ((s.port y).block r.d.base).isSome then s
  else
    let c := s.laneRead r.d.scalar 0 64
    let s := c.1.placeDone [r.d.scalar] 0 1
    s.modPort y (fun p => { p with redBlocks := p.redBlocks ++ [(r.d.base, (chunks 4 c.2).map (fun b => BitVec.ofNat 32 (leNat b)))] })

/-! ## The owner's update (R317, R320, R328 to R331) -/

/-- Bytes of an element in PFMT or SFMT. -/
def fmtBytes (f : BitVec 2) : Nat := if f = 1 then 2 else 4

/-- Numbers of `k` bytes. -/
def numsOf (k : Nat) (l : List Byte) : List Nat := (chunks k l).map leNat

/-- The states and the master copy that a rule reads and writes (Table GU-3, R330). -/
def Red.usesM (r : Red) : Bool := r.d.ty != 2 && (r.rule == 2 || r.rule == 3)
def Red.usesV (r : Red) : Bool := if r.d.ty = 2 then r.rule != 0 else r.rule == 1 || r.rule == 2

/-- Applies the rule to elements E, E + 1, … of one tile, whose sums are `sums`, with the scalars of `b`, and answers the new parameters
in PFMT. -/
def State.update (s : State) (r : Red) (b : List Word) (p E : Nat) (sums : List Nat) : State × List Byte :=
  let d := r.d
  let n := sums.length
  let u := E / r.perTile
  let k := E % r.perTile
  let rd := 2 * u + r.step.toNat % 2
  let wr := 2 * u + (r.step.toNat + 1) % 2
  let sb := fmtBytes d.sfmt
  let pb := fmtBytes d.pfmt
  let theta := if d.master then s.laneRead (placeOf d.masterAt rd) (4 * k) (4 * n) else s.laneRead (placeOf d.param u) (k * pb) (pb * n)
  let th := if d.master then numsOf 4 theta.2 else (numsOf pb theta.2).map (widen d.pfmt)
  let mR := if r.usesM then theta.1.laneRead (placeOf d.stM rd) (k * sb) (sb * n) else (theta.1, [])
  let vR := if r.usesV then mR.1.laneRead (placeOf d.stV rd) (k * sb) (sb * n) else (mR.1, [])
  let ms := (numsOf sb mR.2).map (widen d.sfmt)
  let vs := (numsOf sb vR.2).map (widen d.sfmt)
  let out := (sums.zipIdx).map (fun x =>
    let g := fun (l : List Nat) => l.getD x.2 0
    if d.ty = 2 then
      let y := applyMod r.rule p (b.getD 0 0) (b.getD 1 0) x.1 (g th) (g vs); (y.1, 0, y.2)
    else
      let y := applyRule r.rule (scalarsIn b) (BitVec.ofNat 32 x.1) (BitVec.ofNat 32 (g th)) (BitVec.ofNat 32 (g ms)) (BitVec.ofNat 32 (g vs))
      (y.1.toNat, y.2.1.toNat, y.2.2.toNat))
  let s := vR.1
  let s := if r.usesM then s.laneWrite (placeOf d.stM wr) (k * sb) (out.flatMap (fun x => leBytes sb (narrow d.sfmt x.2.1))) else s
  let s := if r.usesV then s.laneWrite (placeOf d.stV wr) (k * sb) (out.flatMap (fun x => leBytes sb (narrow d.sfmt x.2.2))) else s
  let s := if d.master then s.laneWrite (placeOf d.masterAt wr) (4 * k) (out.flatMap (fun x => leBytes 4 x.1)) else s
  (s, out.flatMap (fun x => leBytes pb (narrow d.pfmt x.1)))

/-- Bytes of a tile's parameters. -/
def Red.paramBytes (r : Red) : Nat := r.perTile * fmtBytes r.d.pfmt

/-- The owner's end of a range of sums within one tile: a HARDWIRED owner updates, lands its own copy and emits every 256-byte unit of
parameters that is complete; a PROGRAM owner lands the sums (R320, R331). -/
def State.ownerTake (s : State) (y : RowIdx) (r : Red) (p E : Nat) (sums : List Nat) : State :=
  let d := r.d
  let u := E / r.perTile
  let k := E % r.perTile
  if !d.hardwired then s.laneLand (placeOf d.land u) (4 * k) (sums.flatMap (leBytes 4))
  else
    let s := s.takeBlock y r
    let pb := fmtBytes d.pfmt
    let x := s.update r (((s.port y).block d.base).getD []) p E sums
    let s := x.1.laneFill (placeOf d.param u) (k * pb) x.2
    let first := k * pb / 256
    let last := (k + sums.length) * pb / 256
    s.egressPut y ((List.range (last - first)).map (fun c =>
      s.redRaw r d.ty true (r.paramBytes / 256 * u + first + c)
        ((s.isle (placeOf d.param u).isle).storeRead ((placeOf d.param u).off + 256 * (first + c)) 256)))

/-! ## Dense flits -/

/-- TYPE of a RED flit; the reserved value acts as the declared one (DESIGN CHOICE, notes/assumptions/63.md). -/
def Red.flitType (r : Red) (raw : List Byte) : BitVec 2 :=
  let t := field (flitFields raw) 68 2
  if t = 3 then r.d.ty else BitVec.ofNat 2 t

/-- A 256-byte piece of a tile meets the local contribution, element by element in the flit's TYPE (R311, R318). -/
def State.combine (s : State) (y : RowIdx) (r : Red) (ty : BitVec 2) (off : Nat) (data : List Byte) : State :=
  let u := off / 64
  let e := redBytes ty
  let c := s.laneRead (placeOf r.d.contrib u) (256 * (off % 64)) 256
  let s := if off % 64 = 63 then c.1.placeDone r.d.contrib u r.d.tiles else c.1
  let p := s.redPrime r u
  let sums := (numsOf e data).zipWith (redAdd ty p) (numsOf e c.2)
  if r.owns u then s.ownerTake y r p (256 / r.bytes * off) sums
  else s.egressPut y [s.redRaw r ty false off (sums.flatMap (fun x => leBytes e (if ty = 1 then toBf16 x else x)))]

/-- What an owner's update waits for besides the local tile: its own parameter slot drained and the scalar block (R205, R327). -/
def State.ownerReady (s : State) (y : RowIdx) (r : Red) (u : Nat) : Bool :=
  !(r.owns u && r.d.hardwired) || (!s.placeFull (placeOf r.d.param u) && s.blockReady y r)

/-- The unit can combine a piece of tile u (R205, R321). -/
def State.tileReady (s : State) (y : RowIdx) (r : Red) (u : Nat) : Bool :=
  s.placeFull (placeOf r.d.contrib u) && s.ownerReady y r u

/-! ## Thinned records (R322 to R325) -/

/-- Entries of a record: per index, its value in TYPE when present. -/
abbrev Entries := List (Option Nat)

/-- Reads a record (R324). -/
def entriesOf (e : Nat) (rec : List Byte) : Entries :=
  (List.range 4096).foldl (fun (x : Entries × List Byte) i =>
    if bitAt (leAt rec (i / 8) 1) (i % 8) then (some (leNat (x.2.take e)) :: x.1, x.2.drop e) else (none :: x.1, x.2))
    ([], rec.drop 512) |>.1.reverse

/-- Writes a record, padded to 256 bytes. -/
def recordOf (e : Nat) (x : Entries) : List Byte :=
  let bits := (chunks 8 (x.map Option.isSome)).map (fun c => byteOf (c.zipIdx.foldl (fun n b => n + b2n b.1 * 2 ^ b.2) 0))
  let body := bits ++ (x.filterMap id).flatMap (leBytes e)
  body ++ List.replicate ((256 - body.length % 256) % 256) 0

def isNan32 (w : Nat) : Bool := decide (0x7F800000 < w % 2 ^ 31)

/-- The entries a bucket keeps under Θ and nband (R323). -/
def keptOf (theta nband : Nat) (g : List Nat) : List Bool :=
  ((g.foldl (fun (x : List Bool × Nat) w =>
    let k := field w 19 12
    if isNan32 w || k < theta then (false :: x.1, x.2)
    else if theta < k then (true :: x.1, x.2)
    else (decide (x.2 < nband) :: x.1, x.2 + 1)) ([], 0)).1).reverse

/-- Buckets of a thinned tensor. -/
def Red.buckets (r : Red) : Nat := r.count / 4096

/-- The unit can read bucket b's g′ and selection word and write its residual back (R205, R324). -/
def State.bucketReady (s : State) (r : Red) (b : Nat) : Bool :=
  s.placeFull (placeOf r.d.contrib b) && s.placeFull (placeOf r.d.selw b) && !s.placeFull (placeOf r.d.resid b)

/-- The local record of bucket b, and the writing back of its residual into the Isles' slot (R324). -/
def State.localRecord (s : State) (r : Red) (b : Nat) : State × Entries :=
  let d := r.d
  let g := s.laneRead (placeOf d.contrib b) 0 16384
  let sel := g.1.laneRead (placeOf d.selw b) 0 8
  let gs := numsOf 4 g.2
  let kept := keptOf (field (leNat sel.2) 0 12) (field (leNat sel.2) 16 12) gs
  let sent := gs.zipWith (fun w k => if k then some (narrow d.ty w) else none) kept
  let res := gs.zipWith (fun w x => match x with
    | some v => (f32sub (BitVec.ofNat 32 w) (BitVec.ofNat 32 (widen d.ty v))).toNat
    | none => w) sent
  let s := sel.1.laneFill (placeOf d.resid b) 0 (res.flatMap (leBytes 4))
  ((s.placeDone d.contrib b r.buckets).placeDone d.selw b r.buckets, sent)

/-- Emits a record on the reduce stream. -/
def State.emitRecord (s : State) (y : RowIdx) (r : Red) (b : Nat) (x : Entries) : State :=
  s.egressPut y (((chunks 256 (recordOf r.bytes x)).zipIdx).map (fun c => s.redRaw r r.d.ty false (128 * b + c.2) c.1))

/-- The tile a bucket lies in. -/
def Red.bucketTile (r : Red) (b : Nat) : Nat := b * r.bytes / 4

/-- An arriving record meets the local one (R325). -/
def State.mergeRecord (s : State) (y : RowIdx) (r : Red) (b : Nat) (rec : List Byte) : State :=
  let l := s.localRecord r b
  let own := r.owns (r.bucketTile b)
  let sums := (entriesOf r.bytes rec).zipWith (fun x z => match x, z with
    | some v, some w => let t := redAdd r.d.ty 1 v w; some (if own then t else narrow r.d.ty t)
    | some v, none | none, some v => some (if own then widen r.d.ty v else v)
    | none, none => none) l.2
  if own then l.1.ownerTake y r 1 (4096 * b) (sums.map (·.getD 0)) else l.1.emitRecord y r b sums

/-- Units of a record, told by its bitmap; two while that has not arrived. -/
def recordUnits (e : Nat) (data : List Byte) : Nat :=
  if data.length < 512 then 2
  else
    let ones := (data.take 512).foldl (fun n b => n + (List.range 8).countP (fun i => b.toNat.testBit i)) 0
    ceilDiv (512 + e * ones) 256

/-! ## Digests (R333) -/

/-- Adds one flit to the digest of its step; a new step opens an entry, and 16 are kept. -/
def digestAdd (l : List Digest) (step : Word) (tx : Bool) (raw : List Byte) : List Digest :=
  let bump := fun (d : Digest) =>
    if tx then { d with tx := BitVec.ofNat 64 (crc64 d.tx.toNat raw), txn := satInc32 d.txn }
    else { d with rx := BitVec.ofNat 64 (crc64 d.rx.toNat raw), rxn := satInc32 d.rxn }
  if l.any (fun d => d.step == step) then mapWhere (fun (d : Digest) => d.step == step) bump l
  else (bump { step := step, partialStep := false, tx := 0, rx := 0, txn := 0, rxn := 0 } :: l).take 16

/-- A RED flit sent or received, with its F3. -/
def Port.digest (p : Port) (tx : Bool) (raw : List Byte) : Port :=
  let f := flitFields raw
  match p.redBases.findIdx? (· == field f 20 16 / 2) with
  | some k => { p with digests := vmod p.digests (finOf 3 k) (fun l => digestAdd l (BitVec.ofNat 32 (field f 36 32)) tx raw) }
  | none => p

/-! ## The unit's buffer -/

def redStream (raw : List Byte) : Nat := field (flitFields raw) 20 16
def redOffset (raw : List Byte) : Nat := field (flitFields raw) 70 32

/-- Flits of the same bucket of a thinned stream. -/
def sameRecord (x y : RedWait) : Bool := redStream x.raw == redStream y.raw && redOffset x.raw / 128 == redOffset y.raw / 128

def Port.dropWaits (p : Port) (l : List RedWait) : Port := { p with redBuf := l.foldl (fun b x => eraseFirst (· == x) b) p.redBuf }

/-- The flit's local tile, or bucket, is not ready: its wait is a token wait of the Isle named (R207, R321). -/
def State.redWaits (s : State) (y : RowIdx) (h : RedWait) : Option (Red × RedPlace) :=
  match s.redOf y (redStream h.raw) with
  | none => none
  | some r =>
    let k := if r.thin = 0 then redOffset h.raw / 64 else redOffset h.raw / 128
    let ok := if r.thin = 0 then s.tileReady y r k else s.bucketReady r k && s.ownerReady y r (r.bucketTile k)
    if ok then none else some (r, placeOf r.d.contrib k)

/-- Takes a flit of the buffer, or the whole record that it begins there, when its tile is ready; a record's flits may have others
between them (R321, R325). -/
def State.redTry (s : State) (y : RowIdx) (h : RedWait) : Option State :=
  match s.redOf y (redStream h.raw) with
  | none => some (s.modPort y (fun p => p.dropWaits [h]))
  | some r =>
    if (s.redWaits y h).isSome then none
    else if r.thin = 0 then
      some ((s.modPort y (fun p => p.dropWaits [h])).combine y r (r.flitType h.raw) (redOffset h.raw) (flitData h.raw))
    else
      let grp := (s.port y).redBuf.filter (sameRecord h)
      let data := grp.flatMap (fun x => flitData x.raw)
      let n := recordUnits r.bytes data
      if grp.length < n then none
      else some ((s.modPort y (fun p => p.dropWaits (grp.take n))).mergeRecord y r (redOffset h.raw / 128) (data.take (256 * n)))

/-- Works off a buffer until every flit in it must wait. -/
def State.redDrain (y : RowIdx) : Nat → State → State
  | 0, s => s
  | fuel + 1, s =>
    match (s.port y).redBuf.findSome? (s.redTry y) with
    | some s' => State.redDrain y fuel s'
    | none => s

/-- One flit's wait grows by the 6 Isle cycles of a management cycle; beyond ISL_SLACK it is SCHEDULE_OVERRUN (R207, R321). -/
def State.redWait (s : State) (y : RowIdx) (h : RedWait) : State :=
  match s.redWaits y h with
  | none => s
  | some (_, p) =>
    let w := h.wait + 6
    let s := s.modPort y (fun x => { x with redBuf := mapWhere (· == h) (fun h => { h with wait := w }) x.redBuf })
    let s := s.setIsle p.isle ((s.isle p.isle).noteWait w ((s.regionOf p).elim (noSlot 3) (·.val)))
    if (s.isle p.isle).slack.toNat < w ∧ (s.port y).redBuf ≠ [] then s.overrunOn p.isle else s

/-- One management cycle of a buffer: every flit in it that waits for its local tile (R321). -/
def State.redTick (s : State) (y : RowIdx) : State :=
  if (s.port y).redBuf.isEmpty then s
  else
    let s := State.redDrain y 512 s
    (s.port y).redBuf.eraseDups.foldl (fun (s : State) h => s.redWait y h) s

/-- A RED flit at the ingress (R311). -/
def State.redFlitIn (s : State) (y : RowIdx) (raw : List Byte) : State :=
  match s.redOf y (redStream raw) with
  | none => s.modPort y (fun p => { p with reddrop := satInc32 p.reddrop })
  | some r =>
    let s := s.modPort y (fun p => p.digest false raw)
    if redStream raw % 2 = 1 then
      -- distribution: landed, and emitted unchanged unless the owner comes next (R317)
      let off := redOffset raw
      let u := 256 * off / r.paramBytes
      let s := s.laneLand (placeOf r.d.param u) (256 * off % r.paramBytes) (flitData raw)
      if (r.rank + 1) % r.m == u % r.m then s else s.egressPut y [s.redRaw r (r.flitType raw) true off (flitData raw)]
    else if 256 ≤ (s.port y).redBuf.length then
      s.overrunOn (placeOf r.d.contrib (redOffset raw / if r.thin = 0 then 64 else 128)).isle
    else State.redDrain y 512 (s.modPort y (fun p => { p with redBuf := p.redBuf ++ [{ raw := raw, wait := 0 }] }))

/-! ## What this module emits first -/

def State.markSent (s : State) (y : RowIdx) (stream u : Nat) : State :=
  s.modPort y (fun p => { p with redSent := (stream, u) :: p.redSent })

/-- One tile, or bucket of a thinned stream, that this module is the first to emit, when its slots are ready (R317). -/
def State.redStart (s : State) (y : RowIdx) (r : Red) (b : Nat) : State :=
  let u := if r.thin = 0 then b else r.bucketTile b
  let ok := if r.thin = 0 then s.placeFull (placeOf r.d.contrib b) else s.bucketReady r b
  if !r.starts u || (s.port y).redSent.contains (2 * r.d.base, b) || !ok then s
  else
    let s := s.markSent y (2 * r.d.base) b
    if r.thin = 0 then
      let c := s.laneRead (placeOf r.d.contrib b) 0 16384
      let s := c.1.placeDone r.d.contrib b r.d.tiles
      s.egressPut y (((chunks 256 c.2).zipIdx).map (fun x => s.redRaw r r.d.ty false (64 * b + x.2) x.1))
    else
      let l := s.localRecord r b
      l.1.emitRecord y r b l.2

/-- One tile of updated parameters that a PROGRAM owner's Isles have written (R331). -/
def State.redDistribute (s : State) (y : RowIdx) (r : Red) (u : Nat) : State :=
  let n := r.paramBytes
  if r.d.hardwired || !r.owns u || (s.port y).redSent.contains (2 * r.d.base + 1, u) || !s.placeFull (placeOf r.d.param u) then s
  else
    let s := s.markSent y (2 * r.d.base + 1) u
    let c := s.laneRead (placeOf r.d.param u) 0 n
    let s := c.1.placeDone r.d.param u r.d.tiles
    s.egressPut y (((chunks 256 c.2).zipIdx).map (fun x => s.redRaw r r.d.ty true (n / 256 * u + x.2) x.1))

/-- Everything the reduction units of a port can do without a further flit. -/
def State.redWork (s : State) (y : RowIdx) : State :=
  let s := State.redDrain y 512 s
  (s.redsOf y).foldl (fun (s : State) r =>
    let n := if r.thin = 0 then r.d.tiles else r.buckets
    let s := (List.range n).foldl (fun (s : State) b => s.redStart y r b) s
    (List.range r.d.tiles).foldl (fun (s : State) u => s.redDistribute y r u) s) s

/-! ## Frames (R290, R296, R297, R307) -/

/-- Bytes 0 to 79 of a frame (R290). -/
def alignPattern : List Byte := (List.range 80).map (fun k => if k % 2 = 0 then 0x5A else 0xA5)

/-- The 32 data bytes of a status codeword (Table SD-3). -/
def statusBytes (devid : BitVec 20) (frame : Nat) (m : Option CtlMsg) : List Byte :=
  leBytes 3 devid.toNat ++ [0x20] ++ leBytes 4 frame ++
  (match m with
    | none => List.replicate 24 0
    | some m => [if m.nack then 2 else 1] ++ leBytes 3 m.mhops.toNat ++ leBytes 3 m.mdest.toNat ++ leBytes 3 m.msrc.toNat ++
        leBytes 2 m.handle.toNat ++ leBytes 2 m.epoch.toNat ++ [m.arg] ++ leBytes 2 m.count.toNat ++ List.replicate 7 0)

/-- The next handle that is not CLOSED at epoch 0, from `repeatAt` on, wrapping (R307). -/
def Port.nextRepeat (p : Port) : Option WinEntry :=
  let l := p.windows.filter (fun w => w.st != .closed || w.epoch != 0)
  (l.find? (fun w => decide (p.repeatAt ≤ w.handle.val))).orElse fun _ => l.head?

/-- Takes the message of this frame: forwarded ones, NACKs, WSTATEs, else a repeat. -/
def State.pickMsg (s : State) (y : RowIdx) : State × Option CtlMsg :=
  let p := s.port y
  match p.fwdMsgs, p.nackMsgs, p.wstateMsgs with
  | m :: t, _, _ => (s.setPort y { p with fwdMsgs := t }, some m)
  | [], m :: t, _ => (s.setPort y { p with nackMsgs := t }, some m)
  | [], [], m :: t => ((s.setPort y { p with wstateMsgs := t }).msgDone m, some m)
  | [], [], [] =>
    match p.nextRepeat with
    | none => (s, none)
    | some w =>
      (s.setPort y { p with repeatAt := (w.handle.val + 1) % 1024 }, some (s.wstateOf y w.handle.val (w.st == .opened) w.epoch none))

/-- A flit as it leaves: a window write takes the mirror's epoch for its handle (R306). -/
def Port.finish (p : Port) (raw : List Byte) : List Byte :=
  if flitClass raw != 2 then raw
  else
    let f := flitFields raw
    let e := ((p.mirror.find? (fun m => m.handle.val == field f 20 16)).map (·.epoch.toNat)).getD 0
    raw.take 4 ++ leBytes 16 (f - field f 36 16 * 2 ^ 36 + e * 2 ^ 36) ++ flitData raw

/-- A flit in slot n. -/
def State.sendFlit (s : State) (y : RowIdx) (n : Nat) (raw : List Byte) : State :=
  let p := s.port y
  let raw := p.finish raw
  let s := s.setPort y { (if flitClass raw = 3 then p.digest true (raw.set 1 (byteOf (flitCheck raw))) else p) with inj := none }
  (s.injActed p.inj none).emit (.flit y n (codeFlit raw p.inj))

/-- The class of flit group g: IDLE before the plan's first group (R100). -/
def Port.groupClass (p : Port) (g : Nat) : BitVec 2 :=
  if g < p.groupAt then 0 else p.groups.getD ((g - p.groupAt) % max p.groups.length 1) 0

/-- Flit slot n, numbered across frames (R290): the first waiting flit of its group's class, else an IDLE flit (R100, R295). -/
def State.sendSlot (s : State) (y : RowIdx) (n : Nat) : State :=
  let c := (s.port y).groupClass (n / 64)
  match (s.port y).egress.find? (fun f => c != 0 && flitClass f == c.toNat) with
  | some f => (s.modPort y (fun p => { p with egress := eraseFirst (· == f) p.egress })).sendFlit y n f
  | none => s.sendFlit y n idleFlit

/-- A frame: the refusals of the frame before become NACKs, alignment pattern and status codeword with one message go first, and 125
flit slots follow (R290). -/
def execFrameTransmit (port : RowIdx) (s : State) : Host.Outcome State Fault Refusal :=
  .next <|
    if !(s.running && s.now % 6 == 0 && decide ((s.port port).frame ≤ s.now / 6)) then s
    else
      let s := s.redWork port
      let p := s.port port
      let s := p.nackAcc.foldl (fun (s : State) m => s.queueMsg port m false) (s.setPort port { p with nackAcc := [], frame := s.now / 6 + 1 })
      let m := s.pickMsg port
      let s := m.1.emit (.frame port (alignPattern ++ codeCw (statusBytes s.devid (s.now / 6) m.2)))
      (List.range 125).foldl (fun (s : State) k => s.sendSlot port (125 * (s.now / 6) + k)) s

/-! ## Receiving -/

/-- A flit slot of a port that is UP: decoded, counted and handed to its class (R292 to R294, R299). -/
def State.flitIn (s : State) (y : RowIdx) (wire : List Byte) : State :=
  if !(s.running && (s.port y).up) then s
  else match readFlit wire with
    | none => (s.countCorr y (wireFixes wire)).uncorrectable y
    | some (raw, n) =>
      let s := s.countCorr y n
      if flitVersion raw != 2 then s.modPort y (fun p => { p with fecUnc := satInc32 p.fecUnc })
      else if flitClass raw = 1 then s.keyFlitIn y raw
      else if flitClass raw = 2 then s.winFlit y raw
      else if flitClass raw = 3 then s.redFlitIn y raw
      else s

def execKeyFlit (port : RowIdx) (wire : List Byte) (s : State) : Host.Outcome State Fault Refusal := .next (s.flitIn port wire)
def execWinFlit (port : RowIdx) (wire : List Byte) (s : State) : Host.Outcome State Fault Refusal := .next (s.flitIn port wire)
def execRedFlit (port : RowIdx) (wire : List Byte) (s : State) : Host.Outcome State Fault Refusal := .next (s.flitIn port wire)
def execIdleFlit (port : RowIdx) (wire : List Byte) (s : State) : Host.Outcome State Fault Refusal := .next (s.flitIn port wire)

/-- Keeps the mirror in ascending handle, without the entries CLOSED at epoch 0 (R307). -/
def insertMirror (w : MirrorEntry) : List MirrorEntry → List MirrorEntry
  | [] => [w]
  | x :: t => if w.handle < x.handle then w :: x :: t else if w.handle = x.handle then w :: t else x :: insertMirror w t

/-- A WSTATE addressed to this module (R306). -/
def Port.mirrorSet (p : Port) (h : Nat) (opened : Bool) (epoch : BitVec 16) : Port :=
  if 1024 ≤ h then p
  else
    let l := insertMirror { handle := finOf 1023 h, opened := opened, epoch := epoch } p.mirror
    { p with mirror := l.filter (fun m => m.opened || m.epoch != 0) }

/-- A NACK addressed to this module (R310). -/
def State.nackIn (s : State) (y : RowIdx) : State :=
  match s.runningOn y with
  | some _ => s.contained { Report.of (0x8000 + y.val) with nack := true }
  | none =>
    let s := s.modPort y (fun p => { p with nacklate := satInc32 p.nacklate })
    s.recordedOnly (0x8000 + y.val) y (s.port y).nacklate.toNat

/-- The message of a status codeword: acted on at MDEST, else one hop further while MHOPS lasts (R297). -/
def State.msgIn (s : State) (y : RowIdx) (d : List Byte) : State :=
  let msg := leAt d 8 1
  if msg != 1 && msg != 2 then s
  else if field (leAt d 12 3) 0 20 == s.devid.toNat then
    if msg = 2 then s.nackIn y
    else s.modPort y (fun p => p.mirrorSet (leAt d 18 2) (leAt d 22 1 == 1) (BitVec.ofNat 16 (leAt d 20 2)))
  else
    let hops := field (leAt d 9 3) 0 20
    if hops ≤ 1 then s
    else s.queueMsg y
      { nack := msg == 2, mhops := BitVec.ofNat 20 (hops - 1), mdest := BitVec.ofNat 20 (leAt d 12 3),
        msrc := BitVec.ofNat 20 (leAt d 15 3), handle := BitVec.ofNat 16 (leAt d 18 2), epoch := BitVec.ofNat 16 (leAt d 20 2),
        arg := byteOf (leAt d 22 1), count := BitVec.ofNat 16 (leAt d 23 2), openPkt := none } true

/-- The peer's identifier or the module's own makes the port unusable (R300). -/
def dupOf (me peer : BitVec 20) : Bool := me == peer || me == 0xFFFFF || peer == 0xFFFFF

/-- The port learns its receive peer from the DEVID of a status codeword (R299). -/
def State.learn (s : State) (y : RowIdx) (d : List Byte) : State :=
  let peer := BitVec.ofNat 20 (leAt d 0 3)
  s.modPort y (fun p => { p with rxpeer := peer, dupid := dupOf s.devid peer })

/-- A status codeword received on a port that is UP (R293, R297, R299). -/
def State.statusIn (s : State) (y : RowIdx) (cw : List Byte) : State :=
  if !(s.running && (s.port y).up) then s
  else match readCw cw with
    | none => s.uncorrectable y
    | some (d, n) => ((s.countCorr y n).learn y d).msgIn y d

def execWstate (port : RowIdx) (cw : List Byte) (s : State) : Host.Outcome State Fault Refusal := .next (s.statusIn port cw)
def execNack (port : RowIdx) (cw : List Byte) (s : State) : Host.Outcome State Fault Refusal := .next (s.statusIn port cw)
def execStatusCodeword (port : RowIdx) (cw : List Byte) (s : State) : Host.Outcome State Fault Refusal := .next (s.statusIn port cw)

/-! ## Links (R299, R300) -/

/-- Pattern bytes of a frame's head that differ. -/
def patternErrors (head : List Byte) : Nat := (alignPattern.zip head).countP (fun x => x.1 != x.2) + (80 - head.length)

/-- The frame shows the alignment pattern: no more of its bytes differ than a port stays UP with (DEDUCED, notes/assumptions/67.md). -/
def aligned (head : List Byte) : Bool := decide (patternErrors head ≤ 8)

/-- The data of a clean status codeword in a frame's head. -/
def cleanStatus (head : List Byte) : Option (List Byte) :=
  match readCw (slice head 80 34) with
  | some (d, 0) => some d
  | _ => none

/-- A port that has found the pattern in each of the last 4 frames and has read a clean status codeword is UP, and learns its receive
peer (R299). -/
def execLinkUp (port : RowIdx) (frames : List (List Byte)) (s : State) : Host.Outcome State Fault Refusal :=
  .next <|
    let l := frames.drop (frames.length - 4)
    match (l.filterMap cleanStatus).getLast? with
    | some d =>
      if !s.clocked || (s.port port).up || l.length != 4 || !l.all aligned then s
      else (s.modPort port (fun p => { p with up := true })).learn port d
    | none => s

/-- A port on each of whose last 4 frames more than 8 pattern bytes differ goes DOWN: its egress is discarded, its mirror is CLOSED at
epoch 0, and a running job that uses it faults (R299, R300, R307). -/
def execLinkDown (x : LinkFrames) (s : State) : Host.Outcome State Fault Refusal :=
  .next <|
    let port := x.port
    let l := x.frames.drop (x.frames.length - 4)
    if !(s.port port).up || l.length != 4 || l.any aligned then s
    else
      let used := (s.planOn port).isSome
      let s := s.modPort port (fun p => { p with
        up := false, rxpeer := 0xFFFFF, dupid := false, downs := satAdd p.downs 1, mirror := [], egress := [], keyRx := none })
      if used then s.contained (Report.of (0x8000 + port.val)) else s

end Sys2Proof.Machine
end

