-- ==== Sys2Proof/Machine/Gating.lean ====
section
/-! DEFINITION. Clock-domain gating: ungating for jobs and slices, STANDBY, and register writes whose action waits for an
ungating (R25 to R27, R447, R449, R450). -/

namespace Sys2Proof.Machine

/-- Every domain ungated: ACTIVE gates nothing beyond R26 (Table EL-3). -/
def Gates.awake : Gates := Gates.all true

/-- The partition of a DRAM package. -/
def dramRow (p : Fin 16) : RowIdx := finOf 7 (p.val / 2)

/-- A request to ungate a domain or to gate it: 4 management cycles to the first usable clock edge, 2 to its gating (R26). -/
def Gate.want (g : Gate) (now : Nat) (b : Bool) : Gate :=
  if g.on = b then { g with change := none }
  else let d := now + (if b then 4 else 2); { g with change := some (g.change.elim d (fun t => min t d)) }

/-- A domain in management cycle `now`: a change that is due has taken effect. -/
def Gate.due (g : Gate) (now : Nat) : Gate :=
  match g.change with
  | some t => if t ≤ now then { on := !g.on, change := none } else g
  | none => g

/-- The three domains of an Isle have their clocks. -/
def Gates.isleOn (g : Gates) (i : IsleIdx) : Bool := g.cores[i].on && g.stores[i].on && g.movers[i].on

/-- A change to the domains of the Isles, slices, ports and packages that the predicates name. -/
def Gates.onRun (g : Gates) (f : Gate → Gate) (isle : IsleIdx → Bool) (slice : SliceIdx → Bool) (port : RowIdx → Bool) (dram : Fin 16 → Bool) :
    Gates :=
  { g with
    cores := vmodAll g.cores isle (fun _ x => f x), stores := vmodAll g.stores isle (fun _ x => f x)
    movers := vmodAll g.movers isle (fun _ x => f x), slices := vmodAll g.slices slice (fun _ x => f x)
    ports := vmodAll g.ports port (fun _ x => f x), drams := vmodAll g.drams dram (fun _ x => f x) }

/-- The domains of a run are to be ungated (R26). -/
def Gates.ungate (g : Gates) (now : Nat) (rows : BitVec 8) : Gates :=
  g.onRun (fun x => x.want now true) (isleIn rows) (fun l => inRows rows (SliceIdx.row l)) (fun y => inRows rows y)
    (fun p => inRows rows (dramRow p))

/-- The domains of one Isle are ungated as its self-test slice starts: they were asked for 4 cycles before (Table SU-3, R26, R450). -/
def Gates.ungateIsle (g : Gates) (i : IsleIdx) : Gates :=
  g.onRun (fun _ => { on := true, change := none }) (fun k => k == i) (fun _ => false) (fun _ => false) (fun _ => false)

/-- The changes that are due in management cycle `now`. -/
def Gates.settle (g : Gates) (now : Nat) : Gates :=
  { (g.onRun (fun x => x.due now) (fun _ => true) (fun _ => true) (fun _ => true) (fun _ => true)) with
    host := g.host.due now, holms := g.holms.map (fun x => x.due now) }

/-- The PF is in D3hot and no admitted job is left: STANDBY (Table EL-3). -/
def State.standby (s : State) : Bool := s.running && (s.fnOf Fn.pf).d3hot && s.jobs.all (fun j => !j.isOpen)

/-- The gates of STANDBY: every Isle but those in a self-test slice, every Lagoon slice, the DRAM controllers but for their refresh
slots, and the host block are to be gated (Table EL-3, R450). -/
def State.standbyGates (s : State) : Gates :=
  let g := s.gates.onRun (fun x => x.want s.now false) (fun i => !s.slices.any (fun x => x.begun && x.isle == i)) (fun _ => true)
    (fun _ => false) (fun _ => true)
  { g with host := s.gates.host.want s.now false }

/-- The step of a halted Skerry (R188): one instruction, the one held at issue if there is one; then it is halted again. -/
def State.debugStep (s : State) (isle : IsleIdx) : State :=
  let is := s.isle isle
  if is.sk.halt && is.sk.st == .halted then
    let s := s.setIsle isle { is with sk := { is.sk with st := .running, held := none } }
    let s := match is.sk.held with
      | some ins => s.issueAt isle ins
      | none => s.stepAt isle
    let is := s.isle isle
    s.setIsle isle { is with sk := { is.sk with st := if is.sk.st == .running || is.sk.st == .stalled then .halted else is.sk.st } }
  else s

/-- What ISL_SKCTL.HALT makes of the Skerry: halted, or released unless its Isle has ended (R188). -/
def State.debugHalt (s : State) (isle : IsleIdx) : State :=
  let is := s.isle isle
  let st := if is.sk.halt then (if is.sk.st == .trapped then SkState.trapped else .halted)
    else if is.sk.st == .halted && !is.sk.ended then (if is.sk.held.isSome then .stalled else .running) else is.sk.st
  s.setIsle isle { is with sk := { is.sk with st := st } }

/-- Halts, releases and steps that waited for their Isle's ungating begin (R27). -/
def State.owedSteps (s : State) : State :=
  let on := fun (i : IsleIdx) => s.gates.isleOn i
  let t := { s with gates := { s.gates with
    stepOwed := s.gates.stepOwed.filter (fun i => !on i), haltOwed := s.gates.haltOwed.filter (fun i => !on i) } }
  let t := (s.gates.haltOwed.filter on).foldl (fun (s : State) i => s.debugHalt i) t
  (s.gates.stepOwed.filter on).foldl (fun (s : State) i => s.debugStep i) t

/-- The gating of one management cycle: the changes due, what STANDBY asks for, and the actions that waited. -/
def State.gateCycle (s : State) : State :=
  let s := { s with gates := s.gates.settle s.now }
  let s := if s.standby then { s with gates := s.standbyGates } else s
  if s.gates.stepOwed.isEmpty && s.gates.haltOwed.isEmpty then s else s.owedSteps

end Sys2Proof.Machine
end

