-- ==== Sys2Proof/Machine/Owners.lean ====
section
/-! DEFINITION. Owners: SET_OWNER and its wipe (R434 to R436), results and their release (R361, R362), Function Level Reset
(R363). -/

namespace Sys2Proof.Machine

/-! ## Zero fills -/

/-- Zero-fills an Isle store, check bytes included (R241); an armed injection acts on the first word (R408). -/
def Isle.zeroStore (is : Isle) : Isle :=
  let m := match is.sto.inj with
    | some two => (marksInject [] 0 two, none)
    | none => ([], none)
  { is with sto := { is.sto with mem := [], errs := m.1, inj := m.2 } }

/-- Zero-fills the stores and slices of rows, the slices to UNUSED when `unused` (R280, R436). -/
def State.zeroRows (s : State) (rows : BitVec 8) (unused : Bool) : State :=
  let acted := (islesOf rows).any (fun i => (s.isle i).sto.inj.isSome) ||
    (List.finRange 16).any (fun l => inRows rows (SliceIdx.row l) && (s.lagoon l).inj.isSome)
  { s with
    isles := vmodAll s.isles (isleIn rows) (fun _ is => is.zeroStore)
    lagoons := vmodAll s.lagoons (fun l => inRows rows (SliceIdx.row l)) (fun _ l =>
      { l.zeroFill with mode := if unused then 0 else l.mode })
    reef := if acted then { s.reef with injArmed := false } else s.reef }

/-! ## SET_OWNER (R434, R435) -/

/-- Where a row is going: the last wipe placed on it, else its owner. -/
def State.rowTarget (s : State) (y : RowIdx) : Option RowIdx :=
  match (s.wipes.filter (fun w => inRows w.rows y)).getLast? with
  | some w => w.vf
  | none => (s.rows[y]).owner

/-- Rows of a mask as a mask. -/
def maskOf (p : RowIdx → Bool) : BitVec 8 :=
  (List.finRange 8).foldl (fun (b : BitVec 8) y => if p y then b ||| rowMask y.val 1 else b) 0

/-- VF v holds a row or a wipe towards it is placed and unfinished: its owner number stays bound. -/
def State.keepsNumber (s : State) (v : RowIdx) : Bool :=
  s.rows.any (fun r => r.owner == some v) || s.wipes.any (fun w => w.vf == some v)

def State.dropNumbers (s : State) : State :=
  { s with ownerNo := Vector.ofFn (fun v : Fin 8 => if s.keepsNumber v then s.ownerNo[v] else none) }

/-- The cycle after the last admitted, unfinished job on the rows, the protected placements among them (R378). -/
def State.afterJobs (s : State) (rows : BitVec 8) : Nat :=
  let n := (s.jobs.filter (fun j => j.isOpen && overlaps j.run rows)).foldl (fun n j => max n (j.cp + 1)) s.now
  ((s.tentatives none).filter (fun o => overlaps o.rows rows)).foldl (fun n o => max n o.stop) n

/-- SET_OWNER: which rows move, the owner number, and the wipe's place in the timeline. -/
def execSetOwner (p : Packet) (s : State) : Host.Outcome State Fault Refusal :=
  .next <| s.interpret p 0x0050 true false false fun s =>
    let mask := BitVec.ofNat 8 (pktBytes p 16 1)
    let vf := clampNat 0 8 (pktBytes p 17 1 % 16)
    let v : Option RowIdx := if vf.1 < 8 then some (finOf 7 vf.1) else none
    let asked := BitVec.ofNat 16 (pktBytes p 18 2)
    let no := (v.bind (fun v => s.ownerNo[v])).getD asked
    let s := s.clampQ p.fn p.q (vf.2 + b2n (v.isSome && no != asked))
    let rows := maskOf (fun y => inRows mask y && !(s.rowTarget y == v))
    if (rowsOf mask).any s.rowDead then s.refuse p 9
    else if v.any (fun v => (List.finRange 8).any (fun (u : RowIdx) => u != v && s.ownerNo[u] == some no)) then s.refuse p 10
    else if rows == 0 then s.answer p { Answer.of stOk 0 with result0 := s.rowOwner.toNat }
    else
      let s := match v with
        | some v => { s with ownerNo := vset s.ownerNo v (some no) }
        | none => s
      let s := s.abortArmed (fun j => overlaps j.run rows)
      let o := s.occupy rows (earliest s.timeline rows (s.afterJobs rows) wipeLen) wipeLen .wipe
      let s := o.2
      { s with wipes := s.wipes ++ [{ id := o.1, rows := rows, vf := v, number := no, p := p, interp := s.now, begun := false }] }

/-- The occupancy of an identifier. -/
def State.occOf (s : State) (id : Nat) : Option Occ := s.occs.find? (fun o => o.id == id)
def State.beginsNow (s : State) (id : Nat) : Bool := s.running && (s.occOf id).any (fun o => o.start == s.now)
def State.endsNow (s : State) (id : Nat) : Bool := s.running && (s.occOf id).any (fun o => o.stop == s.now)

/-! ## The wipe (R436) -/

/-- READY slots of VF v that a wipe of `rows` releases. -/
def ResultSlot.lostWith (x : ResultSlot) (rows : BitVec 8) : Bool :=
  x.st == .ready && (x.results.any (fun r => inRows rows (devRow r.payload.toNat)) || (x.results.isEmpty && overlaps x.rows rows))

def State.releaseSlots (s : State) (v : RowIdx) (rows : BitVec 8) : State :=
  let f := fnOfVf v
  s.setFn f { s.fnOf f with slots := (s.fnOf f).slots.map (fun x => if x.lostWith rows then ResultSlot.reset else x) }

/-- HLM_RFCNT of a VF reads 0; what a commit of this cycle would add goes with it. -/
def State.clearRf (s : State) (v : RowIdx) : State :=
  { s with rfLevel := vset s.rfLevel v 0, rfBit := vset s.rfBit v 0, rfDue := s.rfDue.filter (fun x => x.1 != v) }

/-- What a VF loses with rows taken from it. -/
def State.departs (s : State) (v : RowIdx) (rows : BitVec 8) : State :=
  let s := s.releaseSlots v rows
  let s := if s.rows.any (fun r => r.owner == some v) then s else s.clearRf v
  s.wipeAtoll v true

/-- The first cycle of a wipe. -/
def State.beginWipe (s : State) (w : Wipe) : State :=
  let prev := (List.finRange 8).filter (fun (v : RowIdx) => (rowsOf w.rows).any (fun y => (s.rows[y]).owner == some v))
  let s := { s with
    wipes := mapWhere (fun (x : Wipe) => x.id == w.id) (fun x => { x with begun := true }) s.wipes
    rows := vmodAll s.rows (inRows w.rows) (fun _ _ => { owner := none, wiping := true }) }
  let s := (rowsOf w.rows).foldl State.closeAll s
  let s := { s with ports := vmodAll s.ports (inRows w.rows) (fun _ p => { p with digests := Vector.replicate 4 [] }) }
  let s := (s.keysets.filter (fun k => overlaps (rowMask k.firstRow.val k.nrows) w.rows)).foldl State.unloadKeys s
  let s := (s.images.filter (fun m => overlaps m.run w.rows)).foldl State.unbind s
  let s := s.zeroRows w.rows true
  (prev.foldl (fun (s : State) v => s.departs v w.rows) s).dropNumbers

def execWipeStart (id : Nat) (s : State) : Host.Outcome State Fault Refusal :=
  .next <|
    match s.wipes.find? (fun w => w.id == id) with
    | some w => if s.beginsNow id && !w.begun then s.beginWipe w else s
    | none => s

/-- Ends every close still under way on the rows. -/
def State.endCloses (s : State) (rows : BitVec 8) : State :=
  (rowsOf rows).foldl (fun (s : State) y =>
    ((s.port y).windows.filter (fun w => w.st == .closing)).foldl (fun (s : State) w => s.endClose y w) s) s

/-- A wipe ends: the rows go to their new owner; the reply and the OWNER record are written (R436). -/
def State.finishWipe (s : State) (w : Wipe) : State :=
  let s := s.endCloses w.rows
  let s := { s with
    wipes := s.wipes.filter (fun x => x.id != w.id)
    rows := vmodAll s.rows (inRows w.rows) (fun _ _ => { owner := w.vf, wiping := false }) }
  let s := (s.vacate w.id).dropNumbers
  let s := s.recordS 0x0020 ([byteOf w.rows.toNat, byteOf (w.vf.elim 8 (·.val))] ++ leBytes 2 w.number.toNat)
  s.answer w.p { Answer.of stOk 0 with result0 := s.rowOwner.toNat, time := usOf (s.now - w.interp) }

def execWipeEnd (id : Nat) (s : State) : Host.Outcome State Fault Refusal :=
  .next <|
    match s.wipes.find? (fun w => w.id == id) with
    | some w => if s.endsNow id && w.begun then s.finishWipe w else s
    | none => s

/-! ## Results (R361, R362) -/

/-- Where the payloads of a slot lie in its window: (offset, device address, length). -/
def payloadMap : Nat → List ResultInfo → List (Nat × Nat × Nat)
  | _, [] => []
  | off, r :: t => (off, r.payload.toNat, r.len) :: payloadMap (off + ceilDiv r.len 16384 * 16384) t

/-- Bytes 0 to 16 KiB − 1 of a READY slot's window. -/
def slotPage (k : Nat) (x : ResultSlot) : List Byte :=
  let m := payloadMap 16384 x.results
  let head := leBytes 2 x.status.toNat ++ leBytes 2 x.info.toNat ++ [byteOf k, byteOf x.results.length, 0, 0] ++
    leBytes 8 x.jobid.toNat ++ leBytes 4 x.time.toNat ++ List.replicate 44 0
  let table := m.flatMap (fun e => leBytes 4 (ceilDiv e.2.2 16384) ++ leBytes 4 (e.1 / 16384))
  let top := head ++ table
  let page := top ++ List.replicate (4096 - top.length) 0 ++ x.results.flatMap (·.desc)
  page ++ List.replicate (16384 - page.length) 0

/-- One byte of a READY slot's window beyond the first 16 KiB: the device byte it shows, if any. -/
def payloadByte (m : List (Nat × Nat × Nat)) (off : Nat) : Option (Nat × Nat) :=
  (m.find? (fun e => decide (e.1 ≤ off) && decide (off < e.1 + e.2.2))).map (fun e => (e.2.1, off - e.1))

/-- The DRAM blocks that a read of a window meets are checked like any host read (R274, R402). -/
def State.checkPayloads (s : State) (m : List (Nat × Nat × Nat)) (off len : Nat) : State × Bool :=
  m.foldl (fun (r : State × Bool) e =>
    let lo := max off e.1
    let hi := min (off + len) (e.1 + e.2.2)
    if lo < hi then let c := r.1.checkRange .host (devAdd s.big512 e.2.1 (lo - e.1)) (hi - lo); (c.1, r.2 || c.2) else r) (s, false)

/-- Bytes of a result read. -/
def State.resultBytes (s : State) (f : Fn) (k : Fin 64) (off len : Nat) : List Byte :=
  let x := s.slotOf f k
  if x.st == .ready && decide (x.since ≤ s.now) then
    let page := slotPage k.val x
    let m := payloadMap 16384 x.results
    (List.range len).map (fun i =>
      let o := off + i
      if o < 16384 then page.getD o 0
      else match payloadByte m o with
        | some (a, j) => s.devByteAt a j
        | none => 0)
  else (List.range len).map (fun i => if off + i = 0 then 0x10 else 0)

/-- A read of the result aperture of a VF (R362). -/
def execResultRead (fn : Fn) (window : Fin 64) (offset : Nat) (len : Nat) (s : State) : Host.Outcome State Fault Refusal :=
  .next <|
    if !s.busServes || fn == Fn.pf then s
    else
      let x := s.slotOf fn window
      let data := s.resultBytes fn window offset len
      let c := if x.st == .ready && decide (x.since ≤ s.now) then s.checkPayloads (payloadMap 16384 x.results) offset len else (s, false)
      c.1.emit (.completion fn data c.2)

/-! ## Function Level Reset (R363) -/

/-- A queue pair disabled, its clamp counter cleared. -/
def Queue.disabled (q : Queue) : Queue :=
  { q with en := false, err := false, stall := false, sqHead := 0, sqTail := 0, cqTail := 0, cqHead := 0, version := 0, clamp := 0 }

/-- Every job, load, latched packet and fetched packet of a function goes without a reply. -/
def State.dropWork (s : State) (f : Fn) : State :=
  let s := (s.jobs.filter (fun j => j.fn == f)).foldl State.removeJob s
  let s := (s.heldLoads.filter (fun h => h.p.fn == f)).foldl (fun (s : State) h => s.vacate h.occ) s
  { s with
    progLoads := s.progLoads.filter (fun l => l.p.fn != f), keyLoads := s.keyLoads.filter (fun l => l.p.fn != f)
    heldLoads := s.heldLoads.filter (fun h => h.p.fn != f), releases := s.releases.filter (fun r => r.1.fn != f)
    aborts := s.aborts.filter (fun a => a.1.fn != f), fetched := s.fetched.filter (fun p => p.fn != f) }

/-- Queue pairs, counters and slots of a function. -/
def State.resetQueues (s : State) (f : Fn) : State :=
  s.setFn f { s.fnOf f with
    queues := (s.fnOf f).queues.map Queue.disabled, clamp8 := 0, slots := Vector.replicate 64 ResultSlot.reset, deferred := [] }

def execFunctionLevelReset (fn : Fn) (s : State) : Host.Outcome State Fault Refusal :=
  .next <|
    if !(s.power == .ready || s.power == .running) then s
    else match vfOf fn with
      | none => ({ s with fetched := s.fetched.filter (fun p => p.fn != fn) }).resetQueues fn
      | some v =>
        let s := s.wipeAtoll v false
        let s := s.dropWork fn
        let s := s.resetQueues fn
        let s := { s with psets := s.psets.map (fun (x : Option ParamSet) => x.filter (fun y => y.fn != fn)) }
        let s := (s.keysets.filter (fun k => k.fn == fn)).foldl State.unloadKeys s
        let s := (s.images.filter (fun m => m.fn == fn)).foldl State.unbind s
        let s := { s with ports := s.ports.map (fun p => p.dropPackets fn) }
        let s := (rowsOf (maskOf (s.holds fn))).foldl State.closeAll s
        s.clearRf v

end Sys2Proof.Machine
end

