-- ==== Sys2Proof/Machine/SelfTest.lean ====
section
/-! DEFINITION. Self-test slices and the patrol read (R437 to R440), the depot test (R441, R442), and page retirement
(R286 to R288). -/

namespace Sys2Proof.Machine

/-! ## Slices -/

/-- A slice is placed on its Isle's row (R437). -/
def State.placeSlice (s : State) (i : IsleIdx) (lo : Nat) (p : Option Packet) : State :=
  let rows := rowMask i.row.val 1
  let o := s.occupy rows (earliestSlice s.timeline rows lo) sliceLen .slice
  { o.2 with slices := o.2.slices ++ [{ id := o.1, isle := i, p := p, begun := false }] }

/-- A BIST record (R440). -/
def State.bistRecord (s : State) (isle result origin : Nat) (sig : DWord) (kib corr : Nat) : State :=
  s.recordS 0x0031 ([byteOf isle, byteOf result, byteOf origin, 0] ++ leBytes 8 sig.toNat ++ leBytes 4 kib ++ leBytes 4 corr)

/-- KIND of a BIST_SLICE, 2 and 3 clamped to 1. -/
def bistKind (p : Packet) : Nat × Nat := clampNat 0 1 (pktBytes p 17 1 % 4)

/-- Every row reads 0x8 and no wipe is placed (R441). -/
def State.allUnowned (s : State) : Bool := s.rows.all (fun r => r.code == 8) && s.wipes.isEmpty

/-- BIST_SLICE of either KIND: a slice, or the depot test in test mode with every row unowned. -/
def State.bistPacket (s : State) (p : Packet) : State :=
  s.interpret p 0x0070 true false false fun s =>
    let k := bistKind p
    let s := s.clampQ p.fn p.q k.2
    if k.1 = 0 then s.placeSlice (finOf 63 (pktBytes p 16 1 % 64)) s.now (some p)
    else if s.boot.mode != 2 || !s.allUnowned then s.refuse p 12
    else
      let o := s.occupy 0xFF (earliest s.timeline 0xFF s.now depotLen) depotLen .depot
      { o.2 with depots := o.2.depots ++ [{ id := o.1, p := p, begun := false }] }

def execBistSlice (p : Packet) (s : State) : Host.Outcome State Fault Refusal := .next (s.bistPacket p)
def execDepotTest (p : Packet) (s : State) : Host.Outcome State Fault Refusal := .next (s.bistPacket p)

/-- Zero-fills one Isle before and after scan (Table SU-3). -/
def Isle.zeroAll (is : Isle) : Isle := is.endFill.zeroStore

def execSliceStart (id : Nat) (s : State) : Host.Outcome State Fault Refusal :=
  .next <|
    match s.slices.find? (fun x => x.id == id) with
    | some x =>
      if s.beginsNow id && !x.begun then
        let acted := (s.isle x.isle).sto.inj.isSome || (s.isle x.isle).me.tileInj.isSome
        let s := s.setIsle x.isle (s.isle x.isle).zeroAll
        { s with
          gates := s.gates.ungateIsle x.isle
          slices := mapWhere (fun (y : Slice) => y.id == id) (fun y => { y with begun := true }) s.slices
          reef := if acted then { s.reef with injArmed := false } else s.reef }
      else s
    | none => s

/-- The patrol read of `n` bytes from the channel's pointer, which it advances; the corrected blocks met (R439). -/
def State.patrol (s : State) (c : ChanIdx) (n : Nat) : State × Nat :=
  let cap := chanCap s.big512
  let x := s.chan c
  let r := (List.range (n / 64)).foldl (fun (r : State × Nat) k =>
    let ch := r.1.chan c
    let b := ch.home (pageTop s.big512) ((x.patrol + 64 * k) % cap) / 64
    let fixed := !ch.errs.isEmpty && (match rsMarks 4 68 (marksOf ch.errs b) with
      | .corrected _ _ => true
      | _ => false)
    ((r.1.checkBlock .patrol c b).1, r.2 + b2n fixed)) (s, 0)
  (r.1.setChan c { r.1.chan c with patrol := (x.patrol + n) % cap }, r.2)

/-- A slice ends: patrol, verdict, BIST record in its last cycle and, for a BIST_SLICE, the reply in the next (R438 to
R440). -/
def State.finishSlice (s : State) (x : Slice) (scanOk : Bool) (signature : DWord) (patrolled : Nat) : State :=
  let n := if s.rowDead x.isle.row then 0 else min (roundTo 64 patrolled) 1048576
  let c : ChanIdx := x.isle
  let r := s.patrol c n
  let s := r.1
  let bit : DWord := BitVec.ofNat 64 (2 ^ x.isle.val)
  let s := { s with
    slices := s.slices.filter (fun y => y.id != x.id)
    bstFail := if scanOk then s.bstFail &&& ~~~bit else s.bstFail ||| bit
    bstLastIsle := BitVec.ofNat 6 x.isle.val, bstLastResult := if scanOk then 0 else 1 }
  let s := (s.setIsle x.isle (s.isle x.isle).zeroAll).vacate x.id
  let t := ({ s with now := s.now - 1 }).bistRecord x.isle.val (b2n !scanOk) (b2n x.p.isSome) signature (n / 1024) r.2
  let s := { t with now := s.now }
  match x.p with
  | some p => s.answer p (Answer.of stOk (b2n !scanOk))
  | none => s

def execSliceEnd (id : Nat) (scanOk : Bool) (signature : DWord) (patrolled : Nat) (s : State) : Host.Outcome State Fault Refusal :=
  .next <|
    match s.slices.find? (fun x => x.id == id) with
    | some x => if s.endsNow id && x.begun then s.finishSlice x scanOk signature patrolled else s
    | none => s

/-- Periodic slice k is placed at (k − 1) · P at the earliest interval from k · P on, in service mode (R426, R437). -/
def execPeriodicSlicePlace (s : State) : Host.Outcome State Fault Refusal :=
  .next <|
    let P := 150000 * s.bstPeriod.toNat
    let k := s.bstNext
    if s.running && s.service && P != 0 && !s.reef.fatal && decide ((k - 1) * P ≤ s.now) then
      { s.placeSlice (finOf 63 ((k - 1) % 64)) (max (k * P) s.now) none with bstNext := k + 1 }
    else s

/-! ## The depot test -/

/-- Zero-fills every Isle, Lagoon slice and Strait reduction buffer (R442). -/
def State.zeroDevice (s : State) : State :=
  let s := s.zeroRows 0xFF false
  { s with isles := s.isles.map (fun (is : Isle) => is.zeroAll), ports := s.ports.map (fun (p : Port) => { p with redBuf := [] }) }

/-- The whole working memory of the Atoll is wiped and its work discarded (R399). -/
def State.wipeAtollAll (s : State) : State :=
  let lost := (s.atl.running.map (fun r => (r.dur, r.work))).toList ++
    (s.atl.queue ++ s.atl.waiting).map (fun w => (s.workCost w, w))
  let a := { s.atl with queue := [], waiting := [], running := none }
  let s := { s with atl := (List.finRange 8).foldl Atoll.forget a }
  lost.foldl (fun (s : State) x => s.discardedWork x.1 x.2) s

/-- The depot test begins, or does not run when REFCLK or VCORE lies outside its window (R441). -/
def execDepotTestStart (refclkOk vcoreOk : Bool) (s : State) : Host.Outcome State Fault Refusal :=
  .next <|
    match s.depots.find? (fun d => s.beginsNow d.id && !d.begun) with
    | none => s
    | some d =>
      if refclkOk && vcoreOk then
        let s := { s with depots := mapWhere (fun (x : Depot) => x.id == d.id) (fun x => { x with begun := true }) s.depots, gates := s.gates.ungate s.now 0xFF }
        s.wipeAtollAll.zeroDevice
      else
        let s := ({ s with depots := s.depots.filter (fun x => x.id != d.id) }).vacate d.id
        (s.bistRecord 0xFF 3 2 0 0 0).answer d.p (Answer.of stOk 3)

def execDepotTestEnd (failedIsles : BitVec 64) (otherFailed : Bool) (signature : DWord) (s : State) : Host.Outcome State Fault Refusal :=
  .next <|
    match s.depots.find? (fun d => s.endsNow d.id && d.begun) with
    | none => s
    | some d =>
      let bad := otherFailed || failedIsles != 0
      let s := ({ s with
        depots := s.depots.filter (fun x => x.id != d.id), bstFail := failedIsles, bstDepotFail := otherFailed }).vacate d.id
      (s.zeroDevice.bistRecord 0xFF (b2n bad) 2 signature 0 0).answer d.p (Answer.of stOk (b2n bad))

/-! ## Page retirement (R286 to R288) -/

/-- The spare that entry i takes. -/
def spareOf (big : Bool) (i : Nat) : Nat := pageTop big - i

/-- Why a page needs no retirement: it is retired already, or is a spare; the entry's index. -/
def State.retiredAs (s : State) (c : ChanIdx) (page : Nat) : Option Nat :=
  let l := (s.chan c).retired
  (l.findIdx? (· == page)).orElse fun _ =>
    (List.range (min (l.length + 1) 64)).find? (fun i => spareOf s.big512 i == page)

/-- Ends a RETIRE_PAGE: its record and reply (Table FL-5). -/
def State.retireDone (s : State) (p : Packet) (c : ChanIdx) (page idx detail : Nat) : State :=
  (s.recordS 0x0022 ([byteOf (c.val / 4), byteOf (c.val % 4)] ++ leBytes 4 page ++ [byteOf idx, byteOf detail])).answer p
    (Answer.of stOk detail)

/-- The table is full: FULL is set and nothing is added (R288). -/
def State.retireFull (s : State) (p : Packet) (c : ChanIdx) (page : Nat) : State :=
  (s.setChan c { s.chan c with retireFull := true }).retireDone p c page 64 2

/-- RETIRE_PAGE: nothing to do, no room, or a window on the row after every admitted, unfinished job (Table LG-3). -/
def execRetirePage (p : Packet) (s : State) : Host.Outcome State Fault Refusal :=
  .next <| s.interpret p 0x0080 true false false fun s =>
    let c : ChanIdx := finOf 63 (4 * (pktBytes p 16 1 % 16) + pktBytes p 17 1 % 4)
    let asked := pktBytes p 20 4 % 2 ^ 19
    let top := pageTop s.big512
    let n := (s.chan c).retired.length
    let page := if top < asked then top - min n 63 - 1 else asked
    let s := s.clampQ p.fn p.q (b2n (page != asked))
    match s.retiredAs c page with
    | some i => s.retireDone p c page i 1
    | none =>
      if 64 ≤ n then s.retireFull p c page
      else
        let rows := rowMask (ChanIdx.row c).val 1
        let o := s.occupy rows (earliest s.timeline rows (s.afterJobs rows) retireLen) retireLen .retire
        { o.2 with retires := o.2.retires ++ [{ id := o.1, p := p, chan := c, page := page, begun := false, saving := none }] }

def execRetirementWindowStart (id : Nat) (s : State) : Host.Outcome State Fault Refusal :=
  .next <|
    match s.retires.find? (fun r => r.id == id) with
    | some r =>
      if s.beginsNow id && !r.begun then
        { s with retires := mapWhere (fun (x : Retire) => x.id == id) (fun x => { x with begun := true }) s.retires } else s
    | none => s

/-- Copies one block with correction; one that reads as uncorrectable is written so that it is detected again. -/
def State.copyBlock (s : State) (c : ChanIdx) (src dst : Nat) : State :=
  let k := s.checkBlock .patrol c src
  let x := k.1.chan c
  if k.2 then
    let s := k.1.putBlock c (64 * dst) (x.rawBlock src).1
    s.setChan c { s.chan c with errs := marksInject (s.chan c).errs dst true }
  else k.1.putBlock c (64 * dst) (memReadN x.mem (64 * src) 64)

def State.copyPage (s : State) (c : ChanIdx) (src dst : Nat) : State :=
  (List.range 256).foldl (fun (s : State) b => s.copyBlock c (256 * src + b) (256 * dst + b)) s

/-- The window ends: the entry is active. Its writing to flash and the reply are the next cycle's (Table LG-3, R288). -/
def State.finishRetire (s : State) (r : Retire) : State :=
  let all := s.retires
  let s := ({ s with retires := s.retires.filter (fun x => x.id != r.id) }).vacate r.id
  let n := (s.chan r.chan).retired.length
  match s.retiredAs r.chan r.page with
  | some i => s.retireDone r.p r.chan r.page i 1
  | none =>
    if 64 ≤ n then s.retireFull r.p r.chan r.page
    else
      let s := s.copyPage r.chan r.page (spareOf s.big512 n)
      let s := s.setChan r.chan { s.chan r.chan with retired := (s.chan r.chan).retired ++ [r.page] }
      { s with retires := mapWhere (fun (x : Retire) => x.id == r.id) (fun x => { x with saving := some n }) all }

/-- The retirement tables activated in the cycle that has ended are in flash, and their replies follow (Table LG-3). -/
def State.saveRetires (s : State) : State :=
  let done := s.retires.filter (fun r => r.saving.isSome)
  let s := { s with retires := s.retires.filter (fun r => r.saving.isNone) }
  done.foldl (fun s r => s.retireDone r.p r.chan r.page (r.saving.getD 0) 0) s

def execRetirementWindowEnd (id : Nat) (s : State) : Host.Outcome State Fault Refusal :=
  .next <|
    match s.retires.find? (fun r => r.id == id) with
    | some r => if s.endsNow id && r.begun && r.saving.isNone then s.finishRetire r else s
    | none => s

end Sys2Proof.Machine
end

