-- ==== Sys2Proof/Machine/Power.lean ====
section
/-! DEFINITION. Reset and start-up (R419 to R428), input power (R446), power states (R447 to R450), ALIVE (R406), and the
module monitor (R456). -/

namespace Sys2Proof.Machine

/-! ## What outlives a reset -/

/-- The recorder after it lost its volatile buffer: SEQ goes on after the highest in flash, and a clear that had not taken
effect leaves EVR_CLEARS as it was (R410, R417). -/
def Recorder.cold (e : Recorder) : Recorder :=
  { Recorder.reset with
    flash := e.flash, next := (e.flash.getLast?).elim (e.next - BitVec.ofNat 32 e.buf.length) (fun r => r.seq + 1)
    clears := e.clears - BitVec.ofNat 32 e.clearing.length, full := e.full, bootCount := e.bootCount }

/-- Flash and DRAM of a channel: contents and retirement table (R286, R425). -/
def Channel.cold (c : Channel) (lost : Nat) : Channel :=
  { Channel.reset with mem := c.mem, errs := c.errs, chk := c.chk, retired := c.retired.take (c.retired.length - lost) }

/-- Entries of a channel's retirement table that are active and not yet in flash: they are lost at the next start-up (R288). -/
def State.unsaved (s : State) (c : ChanIdx) : Nat := s.retires.countP (fun r => r.chan == c && r.saving.isSome)

/-- Anchors and curve slots 1 to 7 are flash; slot 0 is fixed (R389, R391). -/
def Atoll.cold (a : Atoll) : Atoll :=
  { Atoll.reset with
    devown := a.devown, seal0 := a.seal0, seal1 := a.seal1
    curves := Vector.ofFn (fun k : Fin 16 => if k.val < 8 then a.curves[k] else none) }

/-- Every domain but the recorder as a reset leaves it. -/
def State.cold (s : State) (power : Power) : State :=
  { State.reset with
    pending := s.pending, now := s.now, free := s.free, nextId := s.nextId, big512 := s.big512, power := power
    boot := { Boot.reset with slot0 := s.boot.slot0, slot1 := s.boot.slot1 }
    evr := s.evr, atl := s.atl.cold, devid := s.devid, chans := Vector.ofFn (fun c => (s.chan c).cold (s.unsaved c)), perst := s.perst
    pwrGood := s.pwrGood, pwrfailN := s.pwrfailN, mon := s.mon, out := s.out }

/-! ## PERST_N (R419, R420, R448) -/

/-- Leaves RESET with the straps sampled. -/
def State.startUp (s : State) (straps : Bool × Bool × BitVec 2 × Bool) : State :=
  let t := { s with evr := s.evr.cold }.cold .starting
  { t with
    now := 0, perst := false, pwrfailN := true, gates := Gates.awake
    boot := { t.boot with genCompat := straps.1, holmPref := straps.2.1, mode := straps.2.2.1, tsyncEn := straps.2.2.2 } }

/-- PERST_N is asserted: every domain but the Reef and the recorder stops, and a flush starts. -/
def execPerstNAssert (s : State) : Host.Outcome State Fault Refusal :=
  .next <|
    let s := { s with perst := true }
    match s.power with
    | .reset | .holdUp | .dark => s
    | .resetting _ => { s with power := .resetting none }
    | .starting | .stuck | .ready | .running =>
      let t := s.cold (.resetting none)
      { t with evr := { s.evr with flushing := true, clearing := [], captures := [], clears := s.evr.clears - BitVec.ofNat 32 s.evr.clearing.length } }

/-- PERST_N is deasserted: start-up begins, after the flush when one still runs; after a power failure only with PWR_GOOD high
again (R446). -/
def execPerstNDeassert (genCompat holmPref : Bool) (modesel : BitVec 2) (tsyncEn : Bool) (s : State) :
    Host.Outcome State Fault Refusal :=
  .next <|
    if !s.perst then s
    else match s.power with
      | .reset | .dark => if s.pwrGood then s.startUp (genCompat, holmPref, modesel, tsyncEn) else { s with perst := false }
      | .resetting _ => { s with perst := false, power := .resetting (some (genCompat, holmPref, modesel, tsyncEn)) }
      | _ => { s with perst := false }

/-- A flush ends; the one that PERST_N started is followed by RESET, and by start-up when PERST_N was deasserted meanwhile
(R412, R448). -/
def execFlushComplete (s : State) : Host.Outcome State Fault Refusal :=
  .next <|
    if !s.evr.flushing then s
    else
      let s := { s with evr := s.evr.flushed }
      match s.power with
      | .resetting none => { s with power := .reset }
      | .resetting (some straps) => s.startUp straps
      | _ => s

/-! ## Start-up (Table SU-1) -/

def State.bootStep (s : State) (ok : Bool) (f : Boot → Boot) : State :=
  if s.power == .starting && ok then { s with boot := f s.boot } else s

def execPllLock (s : State) : Host.Outcome State Fault Refusal := .next (s.bootStep true (fun b => { b with pll := true }))
def execPcieLinkL0 (s : State) : Host.Outcome State Fault Refusal := .next (s.bootStep s.boot.pll (fun b => { b with l0 := true }))

/-- Slot 1 comes before slot 0: valid, and the higher version or, between equals, the higher program count (R421). -/
def Boot.prefers1 (b : Boot) : Bool :=
  b.slot1.valid && (!b.slot0.valid || decide (b.slot0.version.toNat < b.slot1.version.toNat) ||
    (b.slot0.version == b.slot1.version && decide (b.slot0.count.toNat < b.slot1.count.toNat)))

/-- The slot booted under the outcomes of the two verifications, and whether it is the second choice; none for recovery. -/
def Boot.choose (b : Boot) (ok0 ok1 : Bool) : Option (Bool × Bool) :=
  let v0 := b.slot0.valid && ok0
  let v1 := b.slot1.valid && ok1
  if b.prefers1 then (if v1 then some (true, false) else if v0 then some (false, true) else none)
  else if v0 then some (false, false) else if v1 then some (true, true) else none

/-- The holm that HOLM_PREF names gets the token. -/
def Authority.give (a : Authority) (south : Bool) (now : Nat) : Authority :=
  { a with
    claimN := !south, claimS := south, lastS := south, noneSince := none
    renewN := if south then a.renewN else now, renewS := if south then now else a.renewS }

/-- The image that a slot's flash holds verifies (R394, R421). -/
def FwSlot.verifies (x : FwSlot) (delivered : List Byte) : Bool := firmwareOk (if x.image.isEmpty then delivered else x.image)

/-- Firmware is read from flash, verified and started; the authority token is given (R420, R421). -/
def execFirmwareBoot (delivered0 delivered1 : List Byte) (s : State) : Host.Outcome State Fault Refusal :=
  .next <|
    if !(s.power == .starting && s.boot.pll && !s.boot.fw) then s
    else
      let b := match s.boot.choose (s.boot.slot0.verifies delivered0) (s.boot.slot1.verifies delivered1) with
        | some (one, second) => { s.boot with
            fw := true, fwslot := one, fallback := second, fwver := (if one then s.boot.slot1 else s.boot.slot0).version }
        | none => { s.boot with fw := true, fallback := true, mode := 3 }
      { s with boot := b, auth := s.auth.give s.boot.holmPref s.now }

/-- Neither PLL nor firmware by 41 ms: the module never reaches ready (R421). -/
def execStartupTimeout (pllFailed : Bool) (northDead southDead : Bool) (s : State) : Host.Outcome State Fault Refusal :=
  .next <|
    let pll := pllFailed && !s.boot.pll
    let holm := (northDead || southDead) && !s.boot.fw
    if s.power == .starting && decide (6150000 ≤ s.sinceReset) && (pll || holm) then
      ({ s with power := .stuck }).latchFatal (if pll then 0xE000 else if northDead then 0xE060 else 0xE061)
    else s

/-- A package asks for more than twice the base rate: its row is hot (R276). -/
def State.setHot (s : State) (p : Fin 16) : State :=
  let y : RowIdx := finOf 7 (p.val / 2)
  let s := s.setDram p { s.dram p with tooHot := true }
  ({ s with hot := vset s.hot y true, cleanSince := vset s.cleanSince y s.now }).contained (Report.of (0xA000 + p.val))

/-- DRAM training ends: rows with a failed channel carry no traffic (R422). -/
def execDramTrainingComplete (failed : List ChanIdx) (hot : List (Fin 16)) (s : State) : Host.Outcome State Fault Refusal :=
  .next <|
    if !(s.power == .starting && s.boot.pll && !s.boot.dram) then s
    else
      let rows := maskOf (fun y => failed.any (fun c => ChanIdx.row c == y))
      let s := { s with
        boot := { s.boot with dram := true, trainFail := rows }
        chans := vmodAll s.chans (fun _ => true) (fun c x => { x with trained := !failed.contains c }) }
      hot.foldl State.setHot s

/-- Start-up reaches ready. -/
def execReady (s : State) : Host.Outcome State Fault Refusal :=
  .next <|
    if s.power == .starting && s.boot.pll && s.boot.fw && s.boot.dram then
      { s with power := .ready, boot := { s.boot with readyAt := s.sinceReset } } else s

/-! ## The timeline origin (R423, R428) -/

/-- A fault latched before the origin, recorded after BOOT. -/
def State.replay (s : State) (e : BitVec 2 × Report × Option RowIdx) : State :=
  if e.1 = 0 then s.corrected e.2.1 else if e.1 = 1 then s.containedTo e.2.1 e.2.2
  else if e.1 = 2 then s.driver e.2.1 else s.fatal e.2.1

/-- The origin: the timeline, the BOOT record, ALIVE, the Straits and the transmitters begin (R423, R458). -/
def State.origin (s : State) : State :=
  let n := s.evr.bootCount + 1
  let early := s.reef.early
  let s := { s with
    power := .running, now := 0, lasers := true
    reef := { s.reef with aliveOn := true, early := [] }
    evr := { s.evr with bootCount := n } }
  early.foldl State.replay (s.recordS 0x0001 (leBytes 4 n.toNat ++ leBytes 4 s.topo.toNat))

def execTimelineOrigin (s : State) : Host.Outcome State Fault Refusal :=
  .next <| if s.power == .ready && !s.boot.tsyncEn then s.origin else s

def execTsyncEdge (s : State) : Host.Outcome State Fault Refusal :=
  .next <| if s.power == .ready && s.boot.tsyncEn then s.origin else s

/-- 10 s without an edge. -/
def execTsyncTimeout (s : State) : Host.Outcome State Fault Refusal :=
  .next <|
    if s.power == .ready && s.boot.tsyncEn && decide (s.boot.readyAt + 1500000000 ≤ s.sinceReset) then
      { s with boot := { s.boot with nosync := true } }.origin else s

/-- ALIVE inverts every 7,500 cycles until a fatal fault or power failure stops it (R406). -/
def execAliveToggle (s : State) : Host.Outcome State Fault Refusal :=
  .next <|
    if s.running && s.reef.aliveOn && s.now % 7500 == 0 && !s.reef.fatal && !s.reef.pwrfail then
      { s with reef := { s.reef with alive := !s.reef.alive } } else s

/-! ## Input power (R413, R446) -/

/-- VIN leaves its range: the pins go low, the record is written when the recorder records, a flush starts, and every other
domain loses power. -/
def execPowerFail (s : State) : Host.Outcome State Fault Refusal :=
  .next <|
    match s.power with
    | .holdUp | .dark => s
    | _ =>
      let s := { s with pwrGood := false, pwrfailN := false, reef := { s.reef with pwrfail := true } }
      let s := if s.running then s.recordS 0x0030 [0, 0, 0, 0] else s
      let t := s.cold .holdUp
      { t with reef := s.reef, evr := { s.evr with flushing := true } }

/-- Hold-up runs out: what has not reached flash is lost. -/
def execHoldUpEnd (s : State) : Host.Outcome State Fault Refusal :=
  .next <| if s.power == .holdUp then { s with evr := s.evr.cold }.cold .dark else s

/-- VIN is in range and the rails in regulation: PWR_GOOD rises. -/
def execPowerUp (s : State) : Host.Outcome State Fault Refusal := .next { s with pwrGood := true }

/-! ## Power-management states (R449, R450) -/

def State.setD3 (s : State) (f : Fn) (d3 : Bool) : State :=
  if s.power == .ready || s.power == .running then s.setFn f { s.fnOf f with d3hot := d3 } else s

def execPfD3hotEntry (s : State) : Host.Outcome State Fault Refusal := .next (s.setD3 Fn.pf true)

/-- The gates when the PF returns to D0: fetching and publication resume in the next cycle, and from STANDBY after the four
cycles in which the host block is ungated (R449, R450). -/
def State.d0Gates (s : State) : Gates :=
  if s.standby then { s.standbyGates with host := s.gates.host.want s.now true, resumeAt := s.now + 5 }
  else { s.gates with resumeAt := if s.running then s.now + 1 else 0 }

/-- The PF returns to D0; an event that joined meanwhile raises its message in the next cycle (R407, R449, R450). -/
def execPfD0Entry (s : State) : Host.Outcome State Fault Refusal :=
  .next <|
    if !(s.fnOf Fn.pf).d3hot then s
    else
      let s := { s.setD3 Fn.pf false with gates := s.d0Gates }
      let owed := s.reef.owedIrq && s.reef.irqen && !s.reef.events.isEmpty
      let s := { s with reef := { s.reef with owedIrq := false } }
      if owed then s.emit (.msix (s.now + 1) Fn.pf (s.reef.vector.setWidth 8)) else s

def execVfD3hotEntry (vf : RowIdx) (s : State) : Host.Outcome State Fault Refusal := .next (s.setD3 (fnOfVf vf) true)

/-- A VF returns to D0: the completion replies that fell due are written (R449). -/
def execVfD0Entry (vf : RowIdx) (s : State) : Host.Outcome State Fault Refusal :=
  .next <|
    let f := fnOfVf vf
    if !(s.fnOf f).d3hot then s
    else
      let due := (s.fnOf f).deferred
      let s := s.setD3 f false
      let s := s.setFn f { s.fnOf f with deferred := [] }
      due.foldl (fun (s : State) d => s.writeReply f d.q d.noirq s.now d.r) s

/-- SMBus command 0x07. -/
def State.powerCode (s : State) : BitVec 16 :=
  match s.power with
  | .reset | .resetting _ => 0
  | .holdUp | .dark => 3
  | _ => if s.standby then 2 else 1

/-! ## The module monitor (R456) -/

/-- Readings outside Table EL-2 or R452. -/
def monOutside (m : MonSample) : BitVec 4 :=
  BitVec.ofNat 4 (b2n (!within 4000 6000 m.vin.toNat) + 2 * b2n (decide (950 < m.die.toNat)) + 4 * b2n (decide (850 < m.dram.toNat)) +
    8 * b2n (!within 150 400 m.cool.toNat))

/-- The monitor measures. -/
def State.sample (s : State) (m : MonSample) : State := { s with mon := { s.mon with now := m, sources := monOutside m } }

/-- A read-word; a wrong PEC byte is not acknowledged. -/
def State.smbRead (s : State) (pecOk : Bool) (m : MonSample) (f : MonSample → BitVec 16) : State :=
  let s := s.sample m
  if pecOk then s.emit (.smb (f m)) else s

def execSmbReadVin (pecOk : Bool) (now : MonSample) (s : State) : Host.Outcome State Fault Refusal := .next (s.smbRead pecOk now (·.vin))
def execSmbReadCurrent (pecOk : Bool) (now : MonSample) (s : State) : Host.Outcome State Fault Refusal := .next (s.smbRead pecOk now (·.cur))
def execSmbReadPower (pecOk : Bool) (now : MonSample) (s : State) : Host.Outcome State Fault Refusal := .next (s.smbRead pecOk now (·.pow))
def execSmbReadDieTemp (pecOk : Bool) (now : MonSample) (s : State) : Host.Outcome State Fault Refusal := .next (s.smbRead pecOk now (·.die))
def execSmbReadDramTemp (pecOk : Bool) (now : MonSample) (s : State) : Host.Outcome State Fault Refusal := .next (s.smbRead pecOk now (·.dram))
def execSmbReadCoolant (pecOk : Bool) (now : MonSample) (s : State) : Host.Outcome State Fault Refusal := .next (s.smbRead pecOk now (·.cool))

def execSmbReadPowerState (pecOk : Bool) (s : State) : Host.Outcome State Fault Refusal :=
  .next <| if pecOk then s.emit (.smb s.powerCode) else s

/-- Command 0x08 also releases SMB_ALERT_N. -/
def execSmbReadAlertSources (pecOk : Bool) (s : State) : Host.Outcome State Fault Refusal :=
  .next <|
    if pecOk then { s.emit (.smb (s.mon.sources.setWidth 16)) with mon := { s.mon with alert := false } } else s

/-- A reading goes outside its range. -/
def execSmbAlertNAssert (now : MonSample) (s : State) : Host.Outcome State Fault Refusal :=
  .next <|
    let s := s.sample now
    if s.mon.sources == 0 then s else { s with mon := { s.mon with alert := true } }

end Sys2Proof.Machine
end

