-- ==== Sys2Proof/Machine/Authority.lean ====
section
/-! DEFINITION. The holm controllers' claims, handover and disputes (R430 to R433), firmware updates (R427), and the device
identifier (R298). -/

namespace Sys2Proof.Machine

/-! ## Claims (R430) -/

/-- Management cycles a claim lasts, cycles without a claim that make a dispute, cycles a handover or an orderly claim may take. -/
def claimLife : Nat := 150000
def noneLimit : Nat := 600000
def acceptLimit : Nat := 1500

/-- A controller's firmware sets or renews its claim; after a declared dispute only TOKEN_CLAIM does. -/
def execClaimRenew (south : Bool) (s : State) : Host.Outcome State Fault Refusal :=
  .next <|
    if !s.clocked || !s.boot.fw || s.auth.dispute.isSome then s
    else
      let a := s.auth
      let a := if south then { a with claimS := true, renewS := s.now } else { a with claimN := true, renewN := s.now }
      { s with auth := { a with
        noneSince := none, lastS := if a.claimN != a.claimS then a.claimS else a.lastS } }

/-- Claims not renewed for 150,000 cycles lapse. -/
def execClaimLapse (s : State) : Host.Outcome State Fault Refusal :=
  .next <|
    let a := s.auth
    let n := a.claimN && !decide (a.renewN + claimLife ≤ s.now)
    let t := a.claimS && !decide (a.renewS + claimLife ≤ s.now)
    let lost := (a.claimN || a.claimS) && !n && !t
    if !s.running then s
    else { s with auth := { a with claimN := n, claimS := t, noneSince := if lost then some s.now else a.noneSince } }

/-! ## Dispute (R431, R432) -/

/-- The condition the detector declares. -/
def State.disputeDue (s : State) : Bool :=
  s.running && s.auth.dispute.isNone &&
    ((s.auth.claimN && s.auth.claimS) || s.auth.noneSince.any (fun t => decide (t + noneLimit ≤ s.now)))

/-- Packets fetched and not interpreted are fetched again: SQHEAD goes back to the first of each queue. -/
def State.unfetch (s : State) : State :=
  { s.fetched.reverse.foldl (fun (s : State) p => s.modQueue p.fn p.q (fun x => { x with sqHead := p.idx })) s with fetched := [] }

/-- A job discarded without a commit whose reply has not begun takes AUTHORITY_DISPUTE, which comes first (R351). -/
def Job.disputed (j : Job) : Job :=
  { j with ending := j.ending.map (fun e => if e.done then e else { e with status := stDispute, result0 := 0 }) }

/-- Every admitted, unfinished job and every armed one is discarded with AUTHORITY_DISPUTE (Table AD-6). -/
def State.disputeJobs (s : State) : State :=
  let s := { s with jobs := s.jobs.map Job.disputed }
  (s.jobs.filter (fun j => j.ending.isNone)).foldl (fun (s : State) j => s.discard j stDispute 0) s

def execAuthorityDispute (s : State) : Host.Outcome State Fault Refusal :=
  .next <|
    if !s.disputeDue then s
    else
      let bits := s.auth.bits
      let s := { s with auth := { s.auth with dispute := some s.now, disputes := satAdd s.auth.disputes 1, offer := none } }
      s.disputeJobs.unfetch.recordS 0x0021 [byteOf bits, 1]

/-- The holm that HOLM_PREF names claims the token after a dispute. -/
def execTokenClaim (s : State) : Host.Outcome State Fault Refusal :=
  .next <|
    match s.auth.dispute with
    | none => s
    | some t =>
      if !s.running || t + noneLimit < s.now then s
      else
        let s := { s with auth := { s.auth.give s.boot.holmPref s.now with dispute := none } }
        s.recordS 0x0021 [byteOf s.auth.bits, 0]

/-- It has not claimed in time: its checker is fatal. -/
def execClaimTimeout (s : State) : Host.Outcome State Fault Refusal :=
  .next <|
    match s.auth.dispute with
    | none => s
    | some t =>
      if s.running && decide (t + noneLimit ≤ s.now) then s.fatal (Report.of (if s.boot.holmPref then 0xE061 else 0xE060)) else s

/-! ## Handover (R433) -/

/-- HLM_AUTHCTL: HOFAIL is W1C; HANDOVER names the receiver, and naming the holder changes nothing. -/
def execHandover (v : Word) (s : State) : Host.Outcome State Fault Refusal :=
  .next <|
    if !s.takesWrite then s
    else
      let s := { s with auth := { s.auth with hofail := s.auth.hofail && !v.getLsbD 16 } }
      let recv := field v.toNat 0 2
      let south := recv == 2
      if (recv == 1 || recv == 2) && s.hasHolder && s.auth.offer.isNone && s.auth.claimS != south && !s.disputeDue then
        { s with auth := { s.auth with offer := some (south, s.now) } }
      else s

/-- The receiver accepts within 1,500 cycles. -/
def execHandoverAccept (s : State) : Host.Outcome State Fault Refusal :=
  .next <|
    match s.auth.offer with
    | none => s
    | some (south, t) =>
      if s.running && s.hasHolder && decide (s.now ≤ t + acceptLimit) then
        let s := { s with auth := { s.auth.give south s.now with offer := none } }
        s.recordS 0x0021 [byteOf s.auth.bits, 0]
      else s

/-- The receiver has not accepted: HOFAIL. -/
def execHandoverTimeout (s : State) : Host.Outcome State Fault Refusal :=
  .next <|
    match s.auth.offer with
    | none => s
    | some (_, t) => if s.running && decide (t + acceptLimit < s.now) then { s with auth := { s.auth with offer := none, hofail := true } } else s

/-! ## Firmware update in recovery mode (R427) -/

/-- HLM_RECOV: LENGTH is kept; GO starts the verification of the image at device address 0 of row 0. -/
def execRecoveryUpdate (v : Word) (s : State) : Host.Outcome State Fault Refusal :=
  .next <|
    if !s.takesWrite then s
    else
      let c := clampNat 0 0x7FFFFF (field v.toNat 0 24)
      let s := { s with boot := { s.boot with recovLen := BitVec.ofNat 24 c.1 } }.clamp8 Fn.pf c.2
      if v.getLsbD 31 && s.boot.mode == 3 && s.boot.recovResult != 1 then
        let r := s.devRead .host 0 c.1
        { r.1 with
          boot := { r.1.boot with recovResult := 1, recovOk := false, recovImage := r.2.1 }
          atl := r.1.atl.enqueue .checkFirmware }
      else s

/-- The slot not booted, programmed with a verified image: the program count is one above the other slot's (R421). -/
def Boot.program (b : Boot) : Boot :=
  let new (other : FwSlot) : FwSlot := { image := b.recovImage, version := Config.firmwareVersion b.recovImage, count := other.count + 1, valid := true }
  let b := { b with recovOk := false, recovResult := 2, recovImage := [] }
  if b.fwslot then { b with slot0 := new b.slot1 } else { b with slot1 := new b.slot0 }

def execRecoveryProgramComplete (s : State) : Host.Outcome State Fault Refusal :=
  .next <| if s.clocked && s.boot.recovOk then { s with boot := s.boot.program } else s

/-! ## STR_DEVID (R298) -/

/-- A new identifier is stored to flash, and the comparison of R300 is made anew at every port that is UP. -/
def execDevidWrite (v : Word) (s : State) : Host.Outcome State Fault Refusal :=
  .next <|
    if s.takesWrite && s.bringUp then
      let id := BitVec.ofNat 20 v.toNat
      { s with devid := id, ports := s.ports.map (fun (p : Port) => if p.up then { p with dupid := dupOf id p.rxpeer } else p) }
    else s

end Sys2Proof.Machine
end

