-- ==== Sys2Proof/Machine/BankOps.lean ====
section
/-! DEFINITION. The bank-side instructions of Table ST-3, passed to BQ by the Skerry (R232 to R238). -/

namespace Sys2Proof.Machine

/-- ZFILL: zero words (Table ST-3). -/
def execZfill (i : IsleIdx) (f : BFields) (s : State) : Host.Outcome State Fault Refusal :=
  .next (s.issueAt i (.bank .zfill f))

/-- IADD: 32-bit sums (Table ST-3). -/
def execIadd (i : IsleIdx) (f : BFields) (s : State) : Host.Outcome State Fault Refusal :=
  .next (s.issueAt i (.bank .iadd f))

/-- MADD: sums modulo p (Table ST-3). -/
def execMadd (i : IsleIdx) (f : BFields) (s : State) : Host.Outcome State Fault Refusal :=
  .next (s.issueAt i (.bank .madd f))

/-- MSUB: differences modulo p (Table ST-3). -/
def execMsub (i : IsleIdx) (f : BFields) (s : State) : Host.Outcome State Fault Refusal :=
  .next (s.issueAt i (.bank .msub f))

/-- FADD32: fp32 sums (Table ST-3). -/
def execFadd32 (i : IsleIdx) (f : BFields) (s : State) : Host.Outcome State Fault Refusal :=
  .next (s.issueAt i (.bank .fadd32 f))

/-- MADDS: d + c · b modulo p (Table ST-3). -/
def execMadds (i : IsleIdx) (f : BFields) (s : State) : Host.Outcome State Fault Refusal :=
  .next (s.issueAt i (.bank .madds f))

/-- MMULS: d · c modulo p (Table ST-3). -/
def execMmuls (i : IsleIdx) (f : BFields) (s : State) : Host.Outcome State Fault Refusal :=
  .next (s.issueAt i (.bank .mmuls f))

/-- MMULT: d · b modulo p (Table ST-3). -/
def execMmult (i : IsleIdx) (f : BFields) (s : State) : Host.Outcome State Fault Refusal :=
  .next (s.issueAt i (.bank .mmult f))

/-- MMACK: d + k · b modulo p, k from the key slot (Table ST-3). -/
def execMmack (i : IsleIdx) (f : BFields) (s : State) : Host.Outcome State Fault Refusal :=
  .next (s.issueAt i (.bank .mmack f))

/-- MMACE: d + a · b modulo p, a from the seed expander (Table ST-3). -/
def execMmace (i : IsleIdx) (f : BFields) (s : State) : Host.Outcome State Fault Refusal :=
  .next (s.issueAt i (.bank .mmace f))

/-- CCF32: counts fp32 lanes by magnitude (Table ST-3). -/
def execCcf32 (i : IsleIdx) (f : BFields) (s : State) : Host.Outcome State Fault Refusal :=
  .next (s.issueAt i (.bank .ccf32 f))

/-- CCB16: counts bf16 lanes by magnitude (Table ST-3). -/
def execCcb16 (i : IsleIdx) (f : BFields) (s : State) : Host.Outcome State Fault Refusal :=
  .next (s.issueAt i (.bank .ccb16 f))

/-- CCI32: counts signed lanes by magnitude (Table ST-3). -/
def execCci32 (i : IsleIdx) (f : BFields) (s : State) : Host.Outcome State Fault Refusal :=
  .next (s.issueAt i (.bank .cci32 f))

/-- CCU32: counts unsigned lanes (Table ST-3). -/
def execCcu32 (i : IsleIdx) (f : BFields) (s : State) : Host.Outcome State Fault Refusal :=
  .next (s.issueAt i (.bank .ccu32 f))

end Sys2Proof.Machine
end

