-- ==== Sys2Proof/Machine/Control.lean ====
section
/-! DEFINITION. The control instructions of Table ISA-3 (R193 to R197, R209, R216), and the writes of ISL_SKCTL (R188). -/

namespace Sys2Proof.Machine

/-- BEQ: branch to PC + IMM32 when s_sa and s_sb are equal (R193). -/
def execBeq (i : IsleIdx) (f : BrFields) (s : State) : Host.Outcome State Fault Refusal :=
  .next (s.issueAt i (.branch .beq f))

/-- BNE: branch to PC + IMM32 when s_sa and s_sb are different (R193). -/
def execBne (i : IsleIdx) (f : BrFields) (s : State) : Host.Outcome State Fault Refusal :=
  .next (s.issueAt i (.branch .bne f))

/-- BLT: branch to PC + IMM32 when s_sa and s_sb are less, signed (R193). -/
def execBlt (i : IsleIdx) (f : BrFields) (s : State) : Host.Outcome State Fault Refusal :=
  .next (s.issueAt i (.branch .blt f))

/-- BGE: branch to PC + IMM32 when s_sa and s_sb are not less, signed (R193). -/
def execBge (i : IsleIdx) (f : BrFields) (s : State) : Host.Outcome State Fault Refusal :=
  .next (s.issueAt i (.branch .bge f))

/-- BLTU: branch to PC + IMM32 when s_sa and s_sb are less, unsigned (R193). -/
def execBltu (i : IsleIdx) (f : BrFields) (s : State) : Host.Outcome State Fault Refusal :=
  .next (s.issueAt i (.branch .bltu f))

/-- BGEU: branch to PC + IMM32 when s_sa and s_sb are not less, unsigned (R193). -/
def execBgeu (i : IsleIdx) (f : BrFields) (s : State) : Host.Outcome State Fault Refusal :=
  .next (s.issueAt i (.branch .bgeu f))

/-- J: continue at PC + IMM32 (R193). -/
def execJ (i : IsleIdx) (imm : Word) (s : State) : Host.Outcome State Fault Refusal :=
  .next (s.issueAt i (.j imm))

/-- LOOP: opens a hardware loop with a latched count; a count of 0 skips the body (R194). -/
def execLoop (i : IsleIdx) (sa : Fin 32) (ci : Bool) (maxcnt : BitVec 24) (body : BitVec 16) (s : State) : Host.Outcome State Fault Refusal :=
  .next (s.issueAt i (.loop sa ci maxcnt body))

/-- LEXIT: leaves the innermost loop when s_sa is not 0 (R195). -/
def execLexit (i : IsleIdx) (sa : Fin 32) (s : State) : Host.Outcome State Fault Refusal :=
  .next (s.issueAt i (.lexit sa))

/-- LIDX: iteration index of the k-th loop outward (R193). -/
def execLidx (i : IsleIdx) (sd : Fin 32) (k : Fin 8) (s : State) : Host.Outcome State Fault Refusal :=
  .next (s.issueAt i (.lidx sd k))

/-- SWAP: waits for its page in the shadow bank, then makes it active (R216). -/
def execSwap (i : IsleIdx) (page : Fin 16) (imm : Word) (s : State) : Host.Outcome State Fault Refusal :=
  .next (s.issueAt i (.swap page imm))

/-- WAITCYC: holds issue until Isle cycle TARGET; a lateness beyond ISL_SLACK is SCHEDULE_OVERRUN (R196). -/
def execWaitcyc (i : IsleIdx) (target : BitVec 48) (s : State) : Host.Outcome State Fault Refusal :=
  .next (s.issueAt i (.waitcyc target))

/-- CSRR: reads a control register of Table VS-3 (R186). -/
def execCsrr (i : IsleIdx) (sd : Fin 32) (num : BitVec 12) (s : State) : Host.Outcome State Fault Refusal :=
  .next (s.issueAt i (.csrr sd num))

/-- CSRW: writes SCR0 to SCR3; other registers ignore it (R186). -/
def execCsrw (i : IsleIdx) (sa : Fin 32) (num : BitVec 12) (s : State) : Host.Outcome State Fault Refusal :=
  .next (s.issueAt i (.csrw sa num))

/-- AGLD: loads an address generator from 64 store bytes (R209). -/
def execAgld (i : IsleIdx) (ag : Fin 16) (sa : Fin 32) (imm : Word) (s : State) : Host.Outcome State Fault Refusal :=
  .next (s.issueAt i (.agld ag sa imm))

/-- AGW: writes one field of a generator; FIELD values above 14 name none (R190, R209). -/
def execAgw (i : IsleIdx) (ag : Fin 16) (field : BitVec 6) (sb : Fin 32) (s : State) : Host.Outcome State Fault Refusal :=
  .next (s.issueAt i (if field.toNat ≤ 14 then .agw ag field sb else .nop))

/-- FENCE: waits until the queues of QMASK are empty and done (R193). -/
def execFence (i : IsleIdx) (qmask : BitVec 4) (s : State) : Host.Outcome State Fault Refusal :=
  .next (s.issueAt i (.fence qmask))

/-- END: waits for every queue, then the Isle has ended (R197). -/
def execIend (i : IsleIdx) (s : State) : Host.Outcome State Fault Refusal :=
  .next (s.issueAt i .iend)

/-- ISL_SKCTL.HALT from the host: honoured in bring-up mode only; 1 halts the Skerry, 0 releases it (R188); of an Isle whose domains
are gated, after the next ungating (R27). -/
def execSkerryHalt (isle : IsleIdx) (v : Word) (s : State) : Host.Outcome State Fault Refusal :=
  .next <|
    if s.busServes && !s.reef.fatal && s.bringUp then
      let is := s.isle isle
      let s := s.setIsle isle { is with sk := { is.sk with halt := v.getLsbD 0 } }
      if s.gates.isleOn isle then s.debugHalt isle
      else { s with gates := { s.gates with haltOwed := isle :: s.gates.haltOwed.filter (· != isle) } }
    else s

/-- ISL_SKCTL.STEP while halted, in bring-up mode: one Skerry instruction from the active bank (R188); of an
Isle whose domains are gated, after the next ungating (R27). -/
def execSkerryStep (isle : IsleIdx) (v : Word) (s : State) : Host.Outcome State Fault Refusal :=
  .next <|
    let is := s.isle isle
    if s.busServes && s.power == .running && !s.reef.fatal && s.bringUp && v.getLsbD 1 && is.sk.halt && is.sk.st == .halted then
      if s.gates.isleOn isle then s.debugStep isle
      else { s with gates := { s.gates with stepOwed := isle :: s.gates.stepOwed.filter (· != isle) } }
    else s

end Sys2Proof.Machine
end

