-- ==== Sys2Proof/Machine/Registers.lean ====
section
/-! DEFINITION. The register maps of PF BAR0 and VF BAR0 (Tables HC-3, HC-4): which register an offset names, what a read
returns (R27), and what a write stores (R337, R348, R461). -/

namespace Sys2Proof.Machine

/-- The registers. -/
inductive Reg where
  | hbrCtrl
  | sqbase (q : Fin 8) | cqbase (q : Fin 8) | qcfg (q : Fin 8) | qstat (q : Fin 8) | clampcnt (q : Fin 9)
  | sqdb (q : Fin 8) | cqdb (q : Fin 8)
  | admCtrl | admStat | admLast | admLastid | admSel | admEntry | admClsmap (k : Fin 32)
  | topo | rowowner | boot | authctl | recov | rfcnt (v : RowIdx)
  | reefCtrl | reefStat | reefCorr | reefCont | reefEvent | reefEvpop | reefInj
  | evrStat | evrSeq | evrUsed | evrClears | evrLost
  | bstPlan | bstStat | bstFail
  | atlStat | atlCnt | atlKeysel | atlKeyst | atlCrvst
  | devid | kcring (y : RowIdx) | kcdrop (y : RowIdx) | link (y : RowIdx) | feccnt (y : RowIdx) | windrop (y : RowIdx)
  | nacklate (y : RowIdx) | reddrop (y : RowIdx) | msgdrop (y : RowIdx) | winsel | winst
  | digsel | digst | digcnt | digtx | digrx
  | mecfg (i : IsleIdx) | mestat (i : IsleIdx) | vestat (i : IsleIdx) | skctl (i : IsleIdx) | skstat (i : IsleIdx)
  | slack (i : IsleIdx) | tokstat (i : IsleIdx) | islQstat (i : IsleIdx) | imtag (i : IsleIdx)
  | ecccnt (i : IsleIdx) | stoEcclog (i : IsleIdx) | bsstat (i : IsleIdx) | slotsel (i : IsleIdx) | slotst (i : IsleIdx)
  | movStat (i : IsleIdx) | movPlan (i : IsleIdx) | movErrlog (i : IsleIdx) | movBytes (i : IsleIdx)
  | lgnCfg (l : SliceIdx) | lgnHits (l : SliceIdx)
  | drcEcclog (p : Fin 16) | drcRetire (p : Fin 16) (c : Fin 4) | drcWaitmax (p : Fin 16)
  deriving DecidableEq, Repr

/-- Registers of 64 bits; the others have 32. -/
def Reg.wide : Reg → Bool
  | .sqbase _ | .cqbase _ | .admStat | .admLast | .rfcnt _ | .reefCorr | .reefEvent | .evrSeq | .bstFail | .atlCnt
  | .kcring _ | .feccnt _ | .digst | .digcnt | .digtx | .digrx | .imtag _ | .movBytes _ | .lgnHits _ | .drcEcclog _
  | .drcWaitmax _ => true
  | _ => false

/-! ## Maps -/

/-- The queue registers at 0x0100 + 0x20 q and the doorbells at 0x1000 + 0x8 q. -/
def queueReg (f : Fn) (o : Nat) : Option Reg :=
  let q := (o - 0x100) / 0x20
  let d := (o - 0x1000) / 8
  if o = 0x218 then some (.clampcnt 8)
  else if 0x100 ≤ o ∧ o < 0x200 then
    if !hasQueue f (finOf 7 q) then none
    else match o % 0x20 with
      | 0x00 => some (.sqbase (finOf 7 q))
      | 0x08 => some (.cqbase (finOf 7 q))
      | 0x10 => some (.qcfg (finOf 7 q))
      | 0x14 => some (.qstat (finOf 7 q))
      | 0x18 => some (.clampcnt (finOf 8 q))
      | _ => none
  else if 0x1000 ≤ o ∧ o < 0x1040 then
    if !hasQueue f (finOf 7 d) then none else if o % 8 = 0 then some (.sqdb (finOf 7 d)) else if o % 8 = 4 then some (.cqdb (finOf 7 d)) else none
  else none

def admReg (o : Nat) : Option Reg :=
  if 0x100 ≤ o ∧ o < 0x180 then (if o % 4 = 0 then some (.admClsmap (finOf 31 ((o - 0x100) / 4))) else none)
  else match o with
    | 0x00 => some .admCtrl | 0x08 => some .admStat | 0x10 => some .admLast | 0x18 => some .admLastid
    | 0x20 => some .admSel | 0x24 => some .admEntry
    | _ => none

def hlmReg (o : Nat) : Option Reg :=
  if 0x40 ≤ o ∧ o < 0x80 then (if o % 8 = 0 then some (.rfcnt (finOf 7 ((o - 0x40) / 8))) else none)
  else match o with
    | 0x00 => some .topo | 0x04 => some .rowowner | 0x10 => some .boot | 0x14 => some .authctl | 0x18 => some .recov
    | _ => none

def reefReg : Nat → Option Reg
  | 0x00 => some .reefCtrl | 0x04 => some .reefStat | 0x08 => some .reefCorr | 0x10 => some .reefCont
  | 0x18 => some .reefEvent | 0x20 => some .reefEvpop | 0x40 => some .reefInj
  | _ => none

def evrReg : Nat → Option Reg
  | 0x00 => some .evrStat | 0x08 => some .evrSeq | 0x10 => some .evrUsed | 0x14 => some .evrClears | 0x18 => some .evrLost
  | _ => none

def bstReg : Nat → Option Reg
  | 0x00 => some .bstPlan | 0x04 => some .bstStat | 0x08 => some .bstFail
  | _ => none

def atlReg : Nat → Option Reg
  | 0x00 => some .atlStat | 0x08 => some .atlCnt | 0x10 => some .atlKeysel | 0x14 => some .atlKeyst | 0x20 => some .atlCrvst
  | _ => none

/-- The STR_ block. -/
def strReg (o : Nat) : Option Reg :=
  if 0x100 ≤ o ∧ o < 0x180 then
    let y := finOf 7 ((o - 0x100) / 0x10)
    match o % 0x10 with
    | 0x0 => some (.kcring y)
    | 0x8 => some (.kcdrop y)
    | _ => none
  else if 0x200 ≤ o ∧ o < 0x300 then
    let y := finOf 7 ((o - 0x200) / 0x20)
    match o % 0x20 with
    | 0x00 => some (.link y) | 0x08 => some (.feccnt y) | 0x10 => some (.windrop y) | 0x14 => some (.nacklate y)
    | 0x18 => some (.reddrop y) | 0x1C => some (.msgdrop y)
    | _ => none
  else match o with
    | 0x000 => some .devid | 0x300 => some .winsel | 0x304 => some .winst | 0x400 => some .digsel | 0x408 => some .digst
    | 0x410 => some .digcnt | 0x418 => some .digtx | 0x420 => some .digrx
    | _ => none

/-- The ISL_, STO_ and MOV_ blocks of an Isle. -/
def isleReg (i : IsleIdx) : Nat → Option Reg
  | 0x0200 => some (.mecfg i) | 0x0204 => some (.mestat i) | 0x0208 => some (.vestat i) | 0x0300 => some (.skctl i)
  | 0x0304 => some (.skstat i) | 0x0308 => some (.slack i) | 0x030C => some (.tokstat i) | 0x0310 => some (.islQstat i)
  | 0x0318 => some (.imtag i) | 0x1000 => some (.ecccnt i) | 0x1004 => some (.stoEcclog i) | 0x1008 => some (.bsstat i)
  | 0x1010 => some (.slotsel i) | 0x1014 => some (.slotst i) | 0x2000 => some (.movStat i) | 0x2004 => some (.movPlan i)
  | 0x2008 => some (.movErrlog i) | 0x2010 => some (.movBytes i)
  | _ => none

def drcReg (p : Fin 16) : Nat → Option Reg
  | 0x00 => some (.drcEcclog p) | 0x10 => some (.drcRetire p 0) | 0x14 => some (.drcRetire p 1)
  | 0x18 => some (.drcRetire p 2) | 0x1C => some (.drcRetire p 3) | 0x40 => some (.drcWaitmax p)
  | _ => none

/-- PF BAR0 (Table HC-3). -/
def pfReg (o : Nat) : Option Reg :=
  if o < 0x10000 then (if o = 0 then some .hbrCtrl else queueReg Fn.pf o)
  else if 0x100000 ≤ o ∧ o < 0x200000 then isleReg (finOf 63 ((o - 0x100000) / 0x4000)) (o % 0x4000)
  else if 0x200000 ≤ o ∧ o < 0x210000 then
    let l : SliceIdx := finOf 15 ((o - 0x200000) / 0x1000)
    if o % 0x1000 = 0 then some (.lgnCfg l) else if o % 0x1000 = 8 then some (.lgnHits l) else none
  else if 0x210000 ≤ o ∧ o < 0x220000 then drcReg (finOf 15 ((o - 0x210000) / 0x1000)) (o % 0x1000)
  else
    let b := o % 0x10000
    match o / 0x10000 with
    | 1 => admReg b | 2 => hlmReg b | 3 => reefReg b | 4 => evrReg b | 5 => bstReg b | 6 => atlReg b | 8 => strReg b
    | _ => none

/-- VF BAR0 (Table HC-4). -/
def vfReg (v : RowIdx) (o : Nat) : Option Reg :=
  match o with
  | 0x8000 => some .topo
  | 0x8004 => some .rowowner
  | 0x8040 => some (.rfcnt v)
  | _ => queueReg (fnOfVf v) o

def regAt (f : Fn) (o : Nat) : Option Reg :=
  match vfOf f with
  | some v => vfReg v o
  | none => pfReg o

/-! ## Reads (R27) -/

def imtagOf (b0 b1 : ImBank) : Nat :=
  b2n b1.valid * 2 ^ 63 + b1.page.toNat * 2 ^ 56 + b1.image.toNat * 2 ^ 40 + b2n b0.valid * 2 ^ 31 +
    b0.page.toNat * 2 ^ 24 + b0.image.toNat * 2 ^ 8

/-- STO_BSSTAT [7:4]: the channels M, E, K and Z issue. Channel M issues the steps of an STMUL stage as their row leaves the array
(R160, R236). -/
def Units.bankBusy (u : Units) : Nat :=
  8 * b2n (u.rows.any (fun r => r.left ≤ 1 && r.f.close && (hdrEpi r.ch.header).contains 0x22)) + 4 * b2n u.chE.isSome +
    2 * b2n u.chK.isSome + b2n u.chZ.isSome

/-- MOV_STAT: stopped, waiting on a token or credit, running, or idle. -/
def Mover.stat (m : Mover) : Nat :=
  let st := if m.stopped then 3 else if m.batch.isEmpty && m.staged.isEmpty then 0
    else if decide (0 < m.rwait) || m.staged.head?.any (fun g => decide (0 < g.wait)) then 2 else 1
  st * 2 ^ 30 + m.dindex.toNat * 2 ^ 12 + m.fwds.length * 2 ^ 8 + (m.ra.toNat - m.held)

def WinTarget.code : WinTarget → Nat
  | .none => 3 | .store .. => 0 | .device .. => 1 | .lagoon .. => 2

def WinState.code : WinState → Nat
  | .closed => 0 | .opened => 1 | .closing => 2

/-- STR_WINST of the selected entry. -/
def State.winst (s : State) : Nat :=
  let p := s.port (finOf 7 (field s.winSel.toNat 10 3))
  let h : Fin 1024 := finOf 1023 (field s.winSel.toNat 0 10)
  if s.winSel.getLsbD 13 then
    let m := p.mirror.find? (fun m => m.handle == h)
    b2n (m.any (·.opened)) * 2 ^ 30 + 3 * 2 ^ 28 + 8 * 2 ^ 24 + m.elim 0 (·.epoch.toNat)
  else
    let w := p.window h
    w.st.code * 2 ^ 30 + w.target.code * 2 ^ 28 + (w.owner.elim 8 (·.val)) * 2 ^ 24 + w.epoch.toNat

/-- The digest entry that STR_DIGSEL names. -/
def State.digest (s : State) : Option Digest :=
  (vget (s.port (finOf 7 s.digPort.toNat)).digests s.digSlot.toNat)[s.digAge.toNat]?

/-- The OP of the running operation (ATL_STAT). -/
def atollOpCode : AtollWork → Nat
  | .op o _ _ => o.code
  | .checkSeal _ => 0xF0
  | .checkManifest _ => 0xF1
  | .checkAuth _ _ => 0xF2
  | .checkFirmware => 0xF3

/-- One bit per index. -/
def bitsOf (n : Nat) (p : Nat → Bool) : Nat := (List.range n).foldl (fun x k => x + b2n (p k) * 2 ^ k) 0

def Atoll.keyst (a : Atoll) : Nat :=
  let k := a.keysel.toNat
  let own := a.pubKey k
  b2n (own.isSome || k == 0x20) * 2 ^ 31 + (own.elim 0 (·.curve.val)) * 2 ^ 24 + bitsOf 8 (fun v => (vget a.sessions v).isSome)

def Reef.eventWord (r : Reef) : Nat :=
  match r.events with
  | [] => 0xF * 2 ^ 36
  | e :: _ => e.checker.toNat * 2 ^ 48 + 2 ^ 47 + e.cls.toNat * 2 ^ 45 + (e.row.elim 0xF (·.val)) * 2 ^ 36 + e.seq.toNat

/-- Flash bytes the log occupies, in KiB rounded up. -/
def Recorder.used (e : Recorder) : Nat := ceilDiv (sizeOf' e.flash) 1024

/-- Slices under way, of BST_STAT.ACTIVE. -/
def State.activeSlices (s : State) : Nat := s.slices.countP (·.begun)

/-- ADM_ENTRY of the selected class. -/
def State.admEntryWord (s : State) : Nat :=
  let c := s.adm.sel.toNat
  let e := s.adm.table.find? (fun e => e.cls == c)
  b2n (e.any (·.ok)) * 2 ^ 31 + (s.armQueue c).length * 2 ^ 28 + (e.elim noPromise (·.time)).toNat

/-- The value of a register, as function f reads it. -/
def State.regValue (s : State) (f : Fn) : Reg → Nat
  | .hbrCtrl => b2n s.h1Mode
  | .sqbase q => (s.queue f q).sqBase.toNat
  | .cqbase q => (s.queue f q).cqBase.toNat
  | .qcfg q =>
    let x := s.queue f q
    b2n x.en * 2 ^ 31 + x.sqlog.toNat * 2 ^ 24 + x.cqlog.toNat * 2 ^ 20 + x.vector.toNat * 2 ^ 8
  | .qstat q =>
    let x := s.queue f q
    x.version.toNat * 2 ^ 28 + b2n x.err * 2 ^ 27 + b2n x.stall * 2 ^ 26 + x.sqHead * 2 ^ 12 + x.cqTail
  | .clampcnt q => if h : q.val < 8 then (s.queue f ⟨q.val, h⟩).clamp.toNat else (s.fnOf f).clamp8.toNat
  | .sqdb _ | .cqdb _ | .reefEvpop => 0
  | .admCtrl => b2n s.adm.en
  | .admStat => s.adm.ignored.toNat * 2 ^ 32 + s.adm.admitted.toNat
  | .admLast => s.adm.lastGrid.toNat * 2 ^ 32 + s.adm.lastVf.toNat * 2 ^ 28 + s.adm.lastTime.toNat
  | .admLastid => s.adm.lastCls.toNat * 2 ^ 24 + s.adm.lastSlot.toNat * 2 ^ 18
  | .admSel => s.adm.sel.toNat
  | .admEntry => s.admEntryWord
  | .admClsmap k => (List.range 8).foldl (fun n j => n + (vget s.adm.clsmap (8 * k.val + j)).toNat * 16 ^ j) 0
  | .topo => s.topo.toNat
  | .rowowner => s.rowOwner.toNat
  | .boot =>
    let b := s.boot
    b.mode.toNat * 2 ^ 30 + b2n b.fwslot * 2 ^ 29 + b2n b.fallback * 2 ^ 28 + b2n b.nosync * 2 ^ 27 +
      b2n b.tsyncEn * 2 ^ 26 + b.trainFail.toNat * 2 ^ 16 + b.fwver.toNat
  | .authctl => b2n s.auth.hofail * 2 ^ 16 + s.auth.disputes.toNat * 2 ^ 8
  | .recov => s.boot.recovResult.toNat * 2 ^ 28 + s.boot.recovLen.toNat
  | .rfcnt v => (s.rfLevel[v]).toNat * 2 ^ 40 + (s.rfBit[v]).toNat
  | .reefCtrl => b2n s.reef.irqen * 2 ^ 5 + s.reef.vector.toNat
  | .reefStat =>
    let r := s.reef
    b2n r.fatal * 2 ^ 31 + b2n r.alive * 2 ^ 30 + b2n r.pwrfail * 2 ^ 29 + r.fchk.toNat * 2 ^ 8 + b2n r.evovf * 2 ^ 7 +
      r.events.length
  | .reefCorr => s.reef.corr.toNat
  | .reefCont => s.reef.cont.toNat
  | .reefEvent => s.reef.eventWord
  | .reefInj => b2n s.reef.injArmed * 2 ^ 31 + s.reef.injMode.toNat * 2 ^ 16 + s.reef.injChk.toNat
  | .evrStat => b2n s.evr.full * 2 ^ 30 + b2n s.evr.flushing * 2 ^ 29 + ceilDiv (sizeOf' s.evr.buf) 64
  | .evrSeq => s.evr.first.toNat * 2 ^ 32 + s.evr.next.toNat
  | .evrUsed => s.evr.used
  | .evrClears => s.evr.clears.toNat
  | .evrLost => s.evr.lost.toNat
  | .bstPlan => s.bstPeriod.toNat * 2 ^ 16
  | .bstStat =>
    s.activeSlices * 2 ^ 30 + b2n (s.depots.any (·.begun)) * 2 ^ 29 + b2n s.bstDepotFail * 2 ^ 28 +
      s.bstLastIsle.toNat * 2 ^ 22 + s.bstLastResult.toNat * 2 ^ 20
  | .bstFail => s.bstFail.toNat
  | .atlStat =>
    b2n s.atl.running.isSome * 2 ^ 31 + b2n s.atl.entfail * 2 ^ 30 + s.atl.queue.length * 2 ^ 16 +
      (s.atl.running.elim 0 (fun r => atollOpCode r.work)) * 2 ^ 8
  | .atlCnt => s.atl.rejects.toNat * 2 ^ 32 + s.atl.done.toNat
  | .atlKeysel => s.atl.keysel.toNat
  | .atlKeyst => s.atl.keyst
  | .atlCrvst => bitsOf 16 (fun k => (vget s.atl.curves k).isSome) * 2 ^ 16 + bitsOf 16 (fun k => s.atl.usesSlot (finOf 15 k))
  | .devid => s.devid.toNat
  | .kcring y =>
    let p := s.port y
    b2n p.kcEn * 2 ^ 63 + p.kcRsize.toNat * 2 ^ 40 + p.kcRindex.toNat * 2 ^ 20 + p.kcSucc.toNat
  | .kcdrop y => (s.port y).kcdrop.toNat
  | .link y => b2n (s.port y).up * 2 ^ 31 + b2n (s.port y).dupid * 2 ^ 30 + (s.port y).rxpeer.toNat
  | .feccnt y => (s.port y).fecUnc.toNat * 2 ^ 32 + (s.port y).fecCorr.toNat
  | .windrop y => (s.port y).windrop.toNat
  | .nacklate y => (s.port y).nacklate.toNat
  | .reddrop y => (s.port y).reddrop.toNat
  | .msgdrop y => (s.port y).downs.toNat * 2 ^ 16 + (s.port y).msgs.toNat
  | .winsel => s.winSel.toNat
  | .winst => s.winst
  | .digsel => s.digPort.toNat * 2 ^ 10 + s.digSlot.toNat * 2 ^ 8 + s.digAge.toNat
  | .digst => s.digest.elim 0 (fun d => 2 ^ 63 + b2n d.partialStep * 2 ^ 62 + d.step.toNat)
  | .digcnt => s.digest.elim 0 (fun d => d.rxn.toNat * 2 ^ 32 + d.txn.toNat)
  | .digtx => s.digest.elim 0 (fun d => d.tx.toNat)
  | .digrx => s.digest.elim 0 (fun d => d.rx.toNat)
  | .mecfg i =>
    let m := (s.isle i).me
    b2n (!(s.isle i).un.matrixIdle) * 2 ^ 15 + b2n m.active * 2 ^ 14 + m.wA.mode.toNat * 2 ^ 11 + m.wB.mode.toNat * 2 ^ 8 + m.mode.toNat
  | .mestat i => (s.isle i).mestat
  | .vestat i => let v := (s.isle i).ve; 4 * b2n v.sat + 2 * b2n v.ovf + b2n v.nan
  | .skctl i => b2n (s.isle i).sk.halt
  | .skstat i => (s.isle i).skstat
  | .slack i => (s.isle i).slack.toNat
  | .tokstat i => (s.isle i).tokstat
  | .islQstat i => let x := s.isle i; x.bq.length * 2 ^ 24 + x.dq.length * 2 ^ 16 + x.vq.length * 2 ^ 8 + x.mq.length
  | .imtag i => imtagOf (s.isle i).sk.bank0 (s.isle i).sk.bank1
  | .ecccnt i => (s.isle i).sto.eccCnt.toNat
  | .stoEcclog i => (s.isle i).sto.eccLog.toNat
  | .bsstat i => let t := (s.isle i).sto; (s.isle i).un.bankBusy * 16 + 4 * b2n t.bankConf + 2 * b2n t.ovf + b2n t.nan
  | .slotsel i => (s.isle i).sto.slotSel.toNat
  | .slotst i => let x := (s.isle i).slot (finOf 127 (s.isle i).sto.slotSel.toNat); b2n x.full * 2 ^ 31 + x.drain * 2 ^ 27 + x.rounds
  | .movStat i => (s.isle i).mov.stat
  | .movPlan i => let m := (s.isle i).mov; m.rs.toNat * 2 ^ 10 + m.rd.toNat * 2 ^ 5 + m.ra.toNat
  | .movErrlog i => (s.isle i).mov.errLog.toNat
  | .movBytes i => (s.isle i).mov.bytes.toNat
  | .lgnCfg l => (s.lagoon l).corr.toNat * 2 ^ 24 + (s.lagoon l).mode.toNat
  | .lgnHits l => (s.lagoon l).misses.toNat * 2 ^ 32 + (s.lagoon l).hits.toNat
  | .drcEcclog p => (s.dram p).eccLog
  | .drcRetire p c =>
    let x := s.chan (finOf 63 (4 * p.val + c.val))
    b2n x.retireFull * 2 ^ 31 + x.retired.length * 2 ^ 19 + (x.retired.getLast?).getD 0
  | .drcWaitmax p => (s.dram p).expired.toNat * 2 ^ 32 + (s.dram p).rank.toNat * 2 ^ 29 + (s.dram p).maxwait.toNat

/-- What a BAR0 read returns: the register at that offset, the upper half of a 64-bit one, or 0 where Table HC-3 or HC-4
lists nothing (R337). A read in a management cycle is this of the state in which the cycle begins
(notes/assumptions/82.md). -/
def State.regRead (s : State) (f : Fn) (o : Nat) (wide : Bool) : Nat :=
  let n := match regAt f o, regAt f (o - 4) with
    | some r, _ => s.regValue f r
    | none, some r => if r.wide && decide (4 ≤ o) then s.regValue f r / 2 ^ 32 else 0
    | none, none => 0
  if wide then n else n % 2 ^ 32

/-! ## Writes -/

/-- The bits of a register that a write reaches, and their values. -/
structure RegWrite where
  mask : Nat
  v : Nat
  deriving DecidableEq, Repr

/-- A read-write field of `w` bits at `lo`: the bits written change. -/
def RegWrite.put (x : RegWrite) (old lo w : Nat) : Nat :=
  (List.range w).foldl (fun n k => n + b2n (if bitAt x.mask (lo + k) then bitAt x.v (lo + k) else bitAt old k) * 2 ^ k) 0

/-- A W1C bit. -/
def RegWrite.w1c (x : RegWrite) (old : Bool) (k : Nat) : Bool := old && !(bitAt x.mask k && bitAt x.v k)

/-- Every bit of a field is written, with 0: the writes that clear a counter (R461). -/
def RegWrite.zeroes (x : RegWrite) (lo w : Nat) : Bool := field x.mask lo w == 2 ^ w - 1 && field x.v lo w == 0

/-- A counter of `w` bits at `lo` that a write of 0 clears. -/
def RegWrite.count (x : RegWrite) {w : Nat} (old : BitVec w) (lo : Nat) : BitVec w := if x.zeroes lo w then 0 else old

/-- What a write does to one Isle's registers. -/
def Isle.regWrite (is : Isle) (x : RegWrite) : Reg → Isle
  | .mestat _ => { is with me := { is.me with
      corr := x.count is.me.corr 16, wpar := x.w1c is.me.wpar 3, sat := x.w1c is.me.sat 2, ovf := x.w1c is.me.ovf 1
      nan := x.w1c is.me.nan 0 } }
  | .vestat _ => { is with ve := { is.ve with
      sat := x.w1c is.ve.sat 2, ovf := x.w1c is.ve.ovf 1, nan := x.w1c is.ve.nan 0 } }
  | .ecccnt _ => { is with sto := { is.sto with eccCnt := x.count is.sto.eccCnt 0 } }
  | .stoEcclog _ => { is with sto := { is.sto with
      eccLog := if x.w1c (is.sto.eccLog.getLsbD 31) 31 then is.sto.eccLog else is.sto.eccLog &&& 0x7FFFFFFF } }
  | .bsstat _ => { is with sto := { is.sto with
      bankConf := x.w1c is.sto.bankConf 2, ovf := x.w1c is.sto.ovf 1, nan := x.w1c is.sto.nan 0 } }
  | .slotsel _ => { is with sto := { is.sto with slotSel := BitVec.ofNat 7 (x.put is.sto.slotSel.toNat 0 7) } }
  | .movErrlog _ => { is with mov := { is.mov with
      errLog := if x.w1c (is.mov.errLog.getLsbD 31) 31 then is.mov.errLog else is.mov.errLog &&& 0x7FFFFFFF } }
  | _ => is

/-- What a write does to one port's registers. -/
def Port.regWrite (p : Port) (x : RegWrite) : Reg → Port
  | .kcdrop _ => { p with kcdrop := x.count p.kcdrop 0 }
  | .feccnt _ => if x.zeroes 32 32 then { p with fecUnc := 0, fecCorr := 0 } else p
  | .windrop _ => { p with windrop := x.count p.windrop 0 }
  | .nacklate _ => { p with nacklate := x.count p.nacklate 0 }
  | .reddrop _ => { p with reddrop := x.count p.reddrop 0 }
  | .msgdrop _ => if x.zeroes 16 16 then { p with downs := 0, msgs := 0 } else p
  | _ => p

def DramCtrl.regWrite (d : DramCtrl) (x : RegWrite) : Reg → DramCtrl
  | .drcEcclog _ => { d with logValid := x.w1c d.logValid 63 }
  | .drcWaitmax _ =>
    let d := { d with expired := x.count d.expired 32 }
    if x.zeroes 0 24 then { d with maxwait := 0, rank := 0 } else d
  | _ => d

def Reef.regWrite (r : Reef) (x : RegWrite) : Reg → Reef
  | .reefCtrl => { r with irqen := x.put (b2n r.irqen) 5 1 == 1, vector := BitVec.ofNat 5 (x.put r.vector.toNat 0 5) }
  | .reefStat => { r with evovf := x.w1c r.evovf 7 }
  | .reefCorr => { r with corr := x.count r.corr 0 }
  | .reefCont => { r with cont := x.count r.cont 0 }
  | _ => r

/-- A queue's BASE registers: ignored and counted while EN is 1 (R339). -/
def State.baseWrite (s : State) (f : Fn) (q : Fin 8) (x : RegWrite) (cq : Bool) : State :=
  let u := s.queue f q
  let b := BitVec.ofNat 64 (x.put (if cq then u.cqBase else u.sqBase).toNat 0 64 / 4096 * 4096)
  if u.en then s.clamp8 f 1 else s.setQueue f q (if cq then { u with cqBase := b } else { u with sqBase := b })

/-- STR_DIGSEL. -/
def State.digselWrite (s : State) (x : RegWrite) : State :=
  { s with
    digPort := BitVec.ofNat 3 (x.put s.digPort.toNat 10 3), digSlot := BitVec.ofNat 2 (x.put s.digSlot.toNat 8 2)
    digAge := BitVec.ofNat 4 (x.put s.digAge.toNat 0 4) }

/-- ADM_STAT and ATL_CNT: a 0 in the upper counter clears both. -/
def State.pairWrite (s : State) (x : RegWrite) : Reg → State
  | .admStat => if x.zeroes 32 32 then { s with adm := { s.adm with ignored := 0, admitted := 0 } } else s
  | .atlCnt => if x.zeroes 32 32 then { s with atl := { s.atl with rejects := 0, done := 0 } } else s
  | _ => s

/-- What a write stores; a register with a row of its own, and a read-only one, keeps its value here. -/
def State.regWrite (s : State) (f : Fn) (x : RegWrite) (r : Reg) : State :=
  match r with
  | .sqbase q => s.baseWrite f q x false
  | .cqbase q => s.baseWrite f q x true
  | .clampcnt q =>
    if h : q.val < 8 then s.modQueue f ⟨q.val, h⟩ (fun u => { u with clamp := x.count u.clamp 0 })
    else s.setFn f { s.fnOf f with clamp8 := x.count (s.fnOf f).clamp8 0 }
  | .admCtrl => { s with adm := { s.adm with en := x.put (b2n s.adm.en) 0 1 == 1 } }
  | .admSel => { s with adm := { s.adm with sel := byteOf (x.put s.adm.sel.toNat 0 8) } }
  | .admStat | .atlCnt => s.pairWrite x r
  | .reefCtrl | .reefStat | .reefCorr | .reefCont => { s with reef := s.reef.regWrite x r }
  | .evrLost => { s with evr := { s.evr with lost := x.count s.evr.lost 0 } }
  | .bstPlan => { s with bstPeriod := BitVec.ofNat 16 (x.put s.bstPeriod.toNat 16 16) }
  | .atlKeysel => { s with atl := { s.atl with keysel := byteOf (x.put s.atl.keysel.toNat 0 8) } }
  | .kcdrop y | .feccnt y | .windrop y | .nacklate y | .reddrop y | .msgdrop y => s.setPort y ((s.port y).regWrite x r)
  | .winsel => { s with winSel := BitVec.ofNat 14 (x.put s.winSel.toNat 0 14) }
  | .digsel => s.digselWrite x
  | .mestat i | .vestat i | .ecccnt i | .stoEcclog i | .bsstat i | .slotsel i | .movErrlog i =>
    s.setIsle i ((s.isle i).regWrite x r)
  | .lgnCfg l => s.setLagoon l { s.lagoon l with corr := x.count (s.lagoon l).corr 24 }
  | .drcEcclog p | .drcWaitmax p => s.setDram p ((s.dram p).regWrite x r)
  | .drcRetire p c =>
    let k : ChanIdx := finOf 63 (4 * p.val + c.val)
    s.setChan k { s.chan k with retireFull := x.w1c (s.chan k).retireFull 31 }
  | _ => s

/-- Registers that take writes after a fatal fault (R405). -/
def Reg.afterFatal : Reg → Bool
  | .reefCtrl | .reefStat | .reefCorr | .reefCont | .evrLost => true
  | _ => false

/-- A VF's copies of HLM_ registers are read-only; so is every register of a VF outside its queues (Table HC-4). -/
def State.regStore (s : State) (f : Fn) (x : RegWrite) (r : Reg) : State :=
  if s.reef.fatal && !r.afterFatal then s else s.regWrite f x r

/-- A 32-bit write at an offset: a 32-bit register, or the half of a 64-bit one that lies there; anything else is discarded
and counted (R337). -/
def State.regWrite32 (s : State) (f : Fn) (o v : Nat) : State :=
  match regAt f o, regAt f (o - 4) with
  | some r, _ => s.regStore f { mask := 2 ^ 32 - 1, v := v } r
  | none, some r =>
    if r.wide && decide (4 ≤ o) then s.regStore f { mask := (2 ^ 32 - 1) * 2 ^ 32, v := v * 2 ^ 32 } r else s.clamp8 f 1
  | none, none => s.clamp8 f 1

/-- Offsets from 2^40 on stand for BAR4, which takes no writes: they are discarded and counted (R361). -/
def bar4Base : Nat := 2 ^ 40

/-- A register write by its function, BAR0 offset, width and value; at `bar4Base` + x, a write of the result aperture at x. -/
def execRegisterWrite (fn : Fn) (offset : Nat) (wide : Bool) (v : DWord) (s : State) : Host.Outcome State Fault Refusal :=
  .next <|
    if !s.busServes then s
    else if bar4Base ≤ offset then s.clamp8 fn 1
    else if !wide then s.regWrite32 fn offset (v.toNat % 2 ^ 32)
    else match regAt fn offset with
      | some r =>
        if r.wide then s.regStore fn { mask := 2 ^ 64 - 1, v := v.toNat } r
        else (s.regWrite32 fn offset (v.toNat % 2 ^ 32)).regWrite32 fn (offset + 4) (v.toNat / 2 ^ 32)
      | none => (s.regWrite32 fn offset (v.toNat % 2 ^ 32)).regWrite32 fn (offset + 4) (v.toNat / 2 ^ 32)

end Sys2Proof.Machine
end

