-- ==== Sys2Proof/Machine/Faults.lean ====
section
/-! DEFINITION. Reports of checkers as commands (R400 to R405, R464), SCHEDULE_OVERRUN (R207), mesh flits (R15, R16, R29), the Reef's
event queue and fault injection (R407, R408), and QUERY_HEALTH (R418). -/

namespace Sys2Proof.Machine

/-! ## Which checkers a class has (Table FL-2) -/

/-- How many numbers of a kind stand in Table FL-2. -/
def kindSize : Nat → Nat
  | 1 | 2 | 3 | 4 | 6 | 9 => 64
  | 5 | 10 => 16
  | 7 | 8 => 8
  | _ => 0

def knownChecker (r : Report) : Bool := decide (repInst r < kindSize (repKind r))

/-- Checkers that correct: every code of the manual. -/
def correctsErrors (r : Report) : Bool := knownChecker r && [1, 2, 4, 5, 6, 7].contains (repKind r)

/-- Driver-action sources: the channels and the Atoll. -/
def driverChecker (r : Report) : Bool := repKind r == 11 && (decide (repInst r < 0x40) || repInst r == 0x100)

/-- Fatal checkers. -/
def fatalChecker (r : Report) : Bool :=
  (repKind r == 14 && ([0, 1, 2, 3, 0x50, 0x51, 0x60, 0x61].contains (repInst r) ||
    (decide (0x10 ≤ repInst r) && decide (repInst r < 0x50)))) || (repKind r == 15 && repInst r == 0)

/-! ## The unit's own log -/

/-- STO_ECCLOG after an error of word `w`. -/
def Store.logged (t : Store) (w sym : Nat) (bad : Bool) : Store :=
  if bad then { t with eccLog := BitVec.ofNat 32 (2 ^ 31 + 2 ^ 30 + 0x3F * 2 ^ 24 + w % 2 ^ 17 * 32) }
  else { t with
    eccCnt := satInc32 t.eccCnt
    eccLog := if t.eccLog.getLsbD 31 then t.eccLog else BitVec.ofNat 32 (2 ^ 31 + sym % 64 * 2 ^ 24 + w % 2 ^ 17 * 32) }

/-- What a corrected error leaves in its unit's registers; true when a DRAM page asks to be retired (R131, R227, R279, R287,
R292). -/
def State.unitCorrected (s : State) (r : Report) : State × Bool :=
  let is := s.isle (finOf 63 (repInst r))
  let i : IsleIdx := finOf 63 (repInst r)
  match repKind r with
  | 1 => (s.setIsle i { is with me := { is.me with corr := satAdd is.me.corr 1 } }, false)
  | 2 => (s.setIsle i { is with sto := is.sto.logged r.page r.symbol false }, false)
  | 5 =>
    let l : SliceIdx := finOf 15 (repInst r)
    (s.setLagoon l { s.lagoon l with corr := satAdd (s.lagoon l).corr 1 }, false)
  | 6 =>
    let d := (s.dram (ctrlOf (repInst r))).logCorr (BitVec.ofNat 2 (repInst r)) (BitVec.ofNat 19 r.page)
      (BitVec.ofNat 8 r.block) (BitVec.ofNat 7 r.symbol)
    (s.setDram (ctrlOf (repInst r)) d.1, d.2)
  | 7 => (s.modPort (finOf 7 (repInst r)) (fun p => { p with fecCorr := satInc32 p.fecCorr }), false)
  | _ => (s, false)

/-- What a detected error leaves in its unit's registers (R150, R187, R207, R227, R231, R287, R411). -/
def State.unitDetected (s : State) (r : Report) : State :=
  let i : IsleIdx := finOf 63 (repInst r)
  let is := s.isle i
  match repKind r with
  | 2 => s.setIsle i { is with sto := is.sto.logged r.page 0x3F true }
  | 3 => s.setIsle i { is with me := { is.me with wpar := true } }
  | 6 =>
    if r.rowOverride.isSome then s
    else
      let c : ChanIdx := finOf 63 (repInst r)
      let s := s.setDram (ctrlOf c.val) ((s.dram (ctrlOf c.val)).logBad (BitVec.ofNat 2 c.val) (BitVec.ofNat 19 r.page)
        (BitVec.ofNat 8 r.block))
      { s with evr := { s.evr with captures := s.evr.captures ++ [(c, r.page, r.block, s.now)] } }
  | 9 =>
    let n := r.detail.toNat
    if r.overrun then s.setIsle i { is with tokOvr := true }
    else if n = 1 then s.setIsle i { is with sto := { is.sto with bankConf := true } }
    else if n / 256 = 1 then s.setIsle i { is with sk := { is.sk with st := .trapped, cause := BitVec.ofNat 6 n } }
    else s
  | _ => s

/-! ## Reports -/

/-- The checkers run from start-up on. -/
def State.checking (s : State) : Bool := s.clocked

def execCorrectedFault (r : Report) (s : State) : Host.Outcome State Fault Refusal :=
  .next <|
    if !(s.checking && correctsErrors r) then s
    else
      let u := s.unitCorrected r
      let s := u.1.corrected r
      if u.2 then s.requestRetire (finOf 63 (repInst r)) else s

/-- A detected error: a Strait codeword outside any plan in use is only counted and recorded (R293); a failing DRAM page asks
to be retired (R287). -/
def execContainedFault (r : Report) (s : State) : Host.Outcome State Fault Refusal :=
  .next <|
    if !(s.checking && knownChecker r) then s
    else if repKind r == 7 then s.uncorrectable (finOf 7 (repInst r))
    else
      let s := (s.unitDetected r).contained r
      if repKind r == 6 && r.rowOverride.isNone then s.requestRetire (finOf 63 (repInst r)) else s

def execFatalFault (r : Report) (s : State) : Host.Outcome State Fault Refusal :=
  .next <| if s.checking && fatalChecker r then s.fatal r else s

def execDriverActionEvent (r : Report) (s : State) : Host.Outcome State Fault Refusal :=
  .next <| if s.checking && driverChecker r then s.driver r else s

/-- A token wait beyond ISL_SLACK (R207): the job that runs on the Isle's row ends; after the commit only the record and OVERRUN
remain. -/
def execScheduleOverrun (isle : IsleIdx) (s : State) : Host.Outcome State Fault Refusal :=
  .next <|
    let is := s.isle isle
    if s.running && is.overdue && !is.tokOvr then s.overrunOn isle
    else s

/-! ## Mesh flits (R15, R29): C0 to C2, then the header bytes or the payload bytes of one codeword -/

/-- One codeword received: its data, none when uncorrectable, and whether a symbol was corrected. -/
def readMeshCw (cw : List Byte) : Option (List Byte) × Bool :=
  match rsDecode 3 cw with
  | .clean => (some (cw.drop 3), false)
  | .corrected k v => (some ((rsFix cw (.corrected k v)).drop 3), true)
  | .bad => (none, false)

/-- The injection armed at a sending stop acts on payload codeword 0 (R408). -/
def flipCheck (two : Bool) (payload : List Byte) : List Byte :=
  let p := payload.set 0 (payload.getD 0 0 ^^^ 0xFF)
  if two then p.set 1 (p.getD 1 0 ^^^ 0xFF) else p

/-- The armed injection of a stop, and the state with it disarmed. -/
def State.meshInject (s : State) (src : Nat) : Option Bool × State :=
  if s.reef.injArmed && s.reef.injChk.toNat == 0x4000 + src then
    (some (s.reef.injMode == 2), { s with reef := { s.reef with injArmed := false } })
  else (none, s)

/-- A corrected symbol of the flit code. -/
def State.meshCorrected (s : State) (stop : IsleIdx) (n : Nat) : State :=
  (List.range n).foldl (fun (s : State) _ => s.corrected (Report.of (0x4000 + stop.val))) s

/-- A decoded flit at its destination stop: delivered with its tag when the stop's partition is held by the flit's owner slot, else
dropped against the sending row (R15, R29). H1 4 to 7 are not produced and are ignored here; a delivery 1 or 2 at a stop without
a slice or a host tap leaves as any other (DESIGN CHOICE, notes/assumptions/102.md). -/
def State.meshLand (s : State) (stop : IsleIdx) (h payload : List Byte) : State :=
  let port := leAt h 1 1 % 8
  if 3 < port then s
  else if s.accepts h then s.emit (.deliver stop port (slice h 4 16) payload)
  else s.dropFlit stop (IsleIdx.row (finOf 63 (leAt h 3 1 % 64)))

/-- A decoded flit at a stop: it lands at its destination and goes on along its route from any other stop, whatever its owner slot
(R16, R29). `n` bounds the stops still to pass. -/
def State.meshArrive (h payload : List Byte) : Nat → IsleIdx → State → State
  | 0, stop, s => s.meshLand stop h payload
  | n + 1, stop, s =>
    let dst : IsleIdx := finOf 63 (leAt h 0 1 % 64)
    if stop = dst then s.meshLand stop h payload else State.meshArrive h payload n (nextStop stop dst) s

/-- The stops of the longest route. -/
def meshReach : Nat := 14

def execMeshFlitDelivery (stop : IsleIdx) (hdr payload : List Byte) (s : State) : Host.Outcome State Fault Refusal :=
  .next <|
    if !s.running then s
    else
      let inj := s.meshInject (leAt hdr 6 1 % 64)
      let payload := match inj.1 with
        | some two => flipCheck two payload
        | none => payload
      let cws := (hdr :: chunks 35 payload).map readMeshCw
      let s := inj.2.meshCorrected stop (cws.countP (·.2))
      match cws.mapM (·.1) with
      | none => s.contained (Report.of (0x4000 + stop.val))
      | some l => State.meshArrive (l.headD []) (l.drop 1).flatten meshReach stop s

/-! ## The event queue and injection (R407, R408) -/

def execReefEvpop (v : Word) (s : State) : Host.Outcome State Fault Refusal :=
  .next <| if s.busServes && v.getLsbD 0 then { s with reef := { s.reef with events := s.reef.events.drop 1 } } else s

/-- Every armed injection is disarmed. -/
def State.disarm (s : State) : State :=
  { s with
    reef := { s.reef with injArmed := false }
    isles := s.isles.map (fun (x : Isle) => { x with
      me := { x.me with tileInj := none, latchInj := false }, sto := { x.sto with inj := none } })
    lagoons := s.lagoons.map (fun (x : Lagoon) => { x with inj := none })
    chans := s.chans.map (fun (x : Channel) => { x with inj := none })
    ports := s.ports.map (fun (x : Port) => { x with inj := none }) }

/-- Kinds Table FL-2 marks as injectable. -/
def injectable (chk : Nat) : Bool := [1, 2, 3, 4, 5, 6, 7].contains (chk / 4096) && decide (chk % 4096 < kindSize (chk / 4096))

/-- The unit a checker watches waits for its next write. -/
def State.armAt (s : State) (chk : Nat) (two : Bool) : State :=
  let n := chk % 4096
  let i : IsleIdx := finOf 63 n
  let is := s.isle i
  match chk / 4096 with
  | 1 => s.setIsle i { is with me := { is.me with tileInj := some two } }
  | 2 => s.setIsle i { is with sto := { is.sto with inj := some two } }
  | 3 => s.setIsle i { is with me := { is.me with latchInj := true } }
  | 5 => s.setLagoon (finOf 15 n) { s.lagoon (finOf 15 n) with inj := some two }
  | 6 => s.setChan (finOf 63 n) { s.chan (finOf 63 n) with inj := some two }
  | 7 => s.setPort (finOf 7 n) { s.port (finOf 7 n) with inj := some two }
  | _ => s

/-- REEF_INJ. -/
def execFaultInjectArm (v : Word) (s : State) : Host.Outcome State Fault Refusal :=
  .next <|
    if !s.busServes then s
    else if !(s.boot.mode == 1 || s.boot.mode == 2) then s.clamp8 Fn.pf 1
    else
      let m := clampNat 0 2 (field v.toNat 16 2)
      let chk := field v.toNat 0 16
      let s := s.disarm.clamp8 Fn.pf m.2
      let s := { s with reef := { s.reef with injMode := BitVec.ofNat 2 m.1, injChk := BitVec.ofNat 16 chk } }
      if m.1 = 0 then s
      else if !injectable chk then s.clamp8 Fn.pf 1
      else
        let s := (s.armAt chk (m.1 == 2)).recordS 0x0023 (leBytes 2 chk ++ [byteOf m.1])
        { s with reef := { s.reef with injArmed := true } }

/-! ## QUERY_HEALTH (R418) -/

/-- The 16 bytes of a row. -/
def State.healthRow (s : State) (y : RowIdx) : List Byte :=
  let ret := ((List.finRange 64).filter (fun (c : ChanIdx) => ChanIdx.row c == y)).foldl (fun n c => n + (s.chan c).retired.length) 0
  let p := s.port y
  leBytes 4 (s.reef.rowCorr[y]).toNat ++ leBytes 4 (s.reef.rowCont[y]).toNat ++ leBytes 2 ret ++
    [byteOf (b2n s.hot[y] + 2 * b2n p.up + 4 * b2n p.dupid)] ++ List.replicate 5 0

/-- The 256-byte record as function f sees it. -/
def State.health (s : State) (f : Fn) : List Byte :=
  let st := if s.reef.fatal then 1 else if s.auth.dispute.isSome then 2 else 0
  [0x20, byteOf st] ++ leBytes 2 s.reef.fchk.toNat ++ leBytes 4 s.topo.toNat ++ leBytes 4 s.rowOwner.toNat ++
    leBytes 4 s.evr.next.toNat ++ leBytes 8 s.now ++ leBytes 8 s.reef.corr.toNat ++ leBytes 4 s.reef.cont.toNat ++
    leBytes 4 s.evr.lost.toNat ++ leBytes 4 s.evr.used ++ List.replicate 20 0 ++
    (List.finRange 8).flatMap (fun (y : RowIdx) => if f == Fn.pf || s.holds f y then s.healthRow y else List.replicate 16 0) ++
    List.replicate 64 0

def execQueryHealth (p : Packet) (s : State) : Host.Outcome State Fault Refusal :=
  .next <| s.interpret p 0x0090 true true true fun s =>
    (s.emit (.dma p.fn (BitVec.ofNat 64 (pktBytes p 16 8)) (s.health p.fn))).answer p { Answer.of stOk 0 with result0 := 256 }

end Sys2Proof.Machine
end

