-- ==== Sys2Proof/Machine/He.lean ====
section
/-! DEFINITION. Ciphertexts as values: descriptors (Table CT-1), payloads (R37, R38, R50, R462), and the operations of a
job's program with the fields of Table CT-7 (R51 to R56, R60 to R81, R103 to R123). -/

namespace Sys2Proof.Machine

/-! ## Descriptors -/

/-- A descriptor as written (Table CT-1); PAYLOAD without bits [5:0], modulo the device space. -/
def ctDescOf (l : List Byte) : Desc :=
  let b := fun i => leAt l i 1
  { version := BitVec.ofNat 4 (b 0 / 16), kind := BitVec.ofNat 4 (b 0), pset := BitVec.ofNat 4 (b 1), level := b 2 % 64,
    limbs := b 3, scale := signedOf 16 (leAt l 4 2), exhausted := bitAt (b 6) 0, mismatch := bitAt (b 6) 1,
    ntt := bitAt (b 6) 2, seeded := bitAt (b 6) 3, keyset := BitVec.ofNat 32 (leAt l 8 4), refreshes := leAt l 12 2,
    bitwidth := b 14 % 8, logslots := b 15 % 32, payload := BitVec.ofNat 64 (leAt l 16 8 % 2 ^ 40 / 64 * 64),
    count := leAt l 24 4 }

/-- The 64 bytes of a descriptor. -/
def Desc.bytes (d : Desc) : List Byte :=
  [byteOf (d.version.toNat * 16 + d.kind.toNat), byteOf d.pset.toNat, byteOf d.level, byteOf d.limbs] ++
  leBytes 2 (wrapOf 16 d.scale) ++
  leBytes 2 (b2n d.exhausted + 2 * b2n d.mismatch + 4 * b2n d.ntt + 8 * b2n d.seeded) ++
  leBytes 4 d.keyset.toNat ++ leBytes 2 d.refreshes ++ [byteOf d.bitwidth, byteOf d.logslots] ++
  leBytes 8 d.payload.toNat ++ leBytes 4 d.count ++ List.replicate 36 0

/-! ## Values -/

/-- A value of a job's program. KIND 1 LEVEL, 2 BIT, 3 PLAIN as in Table CT-1; 4 is a WIDE accumulator (R119). `polys` holds
the limbs of c0 and c1 (of c0 for PLAIN), or per accumulator A and B; `lwe` the words a, b of each bit ciphertext. -/
structure HeVal where
  kind : Nat
  pset : Fin 16
  level : Nat
  scale : Int
  exhausted : Bool
  mismatch : Bool
  ntt : Bool
  keyset : Word
  refreshes : Nat
  bitwidth : Nat
  logslots : Nat
  polys : List (List Residues)
  lwe : List Residues
  deriving DecidableEq, Repr

def HeVal.empty : HeVal :=
  { kind := 1, pset := 0, level := 0, scale := 0, exhausted := false, mismatch := false, ntt := false, keyset := 0,
    refreshes := 0, bitwidth := 0, logslots := 0, polys := [], lwe := [] }

def HeVal.isCipher (v : HeVal) : Bool := v.kind != 3

/-- A zero payload of the same shape (R55, R81). -/
def HeVal.zero (v : HeVal) : HeVal :=
  { v with polys := v.polys.map (·.map (·.map (fun _ => 0))), lwe := v.lwe.map (·.map (fun _ => 0)) }

/-- The set of an index; a job's indices stay loaded while it is unfinished (R42, check 10). -/
def State.params (s : State) (k : Fin 16) : ParamSet :=
  (s.psets[k]).getD { fn := 8, fp := 0, kind := 0, logn := 0, limbs := 0, special := 0, dnum := 1, scaleBits := 0, lweDim := 0,
                      brBase := 1, brLen := 1, ksBase := 1, ksLen := 1, maxBits := 0, primes := [], roots := [], consts := SetConsts.none }

/-- Bytes of one bit ciphertext (R462). -/
def ParamSet.lweStride (P : ParamSet) : Nat := ceilDiv (4 * (P.lweDim + 1)) 64 * 64

/-! ## Payloads -/

/-- Bytes an input payload occupies (R38, R50, R462). -/
def payloadBytes (P : ParamSet) (d : Desc) : Nat :=
  if d.kind = 2 then d.count * P.lweStride
  else if d.kind = 3 then d.limbs * P.n * 4
  else if d.seeded then 16384 + d.limbs * P.n * 4
  else 2 * d.limbs * P.n * 4

/-- Limbs of one polynomial from its words, each used modulo its prime (R37, R38). -/
def limbsOf (P : ParamSet) (limbs : Nat) (ws : List Nat) : List Residues :=
  (List.range limbs).map (fun j => (slice ws (j * P.n) P.n).map (· % P.prime j))

/-- c1 of a seeded ciphertext (R48, R50). -/
def seededC1 (P : ParamSet) (limbs : Nat) (seed : List Byte) : List Residues :=
  (List.range limbs).map (fun j =>
    (List.range (P.n / 4096)).flatMap (fun t => seedBlock seed 0x10 0 j t 4096 (P.prime j)))

def wordsLe (l : List Byte) : List Nat := (chunks 4 l).map leNat

/-- The value of an input from its descriptor under R59 and its payload bytes. -/
def heInput (P : ParamSet) (d : Desc) (data : List Byte) : HeVal :=
  let v : HeVal := {
    kind := d.kind.toNat, pset := finOf 15 d.pset.toNat, level := d.level, scale := d.scale, exhausted := d.exhausted,
    mismatch := d.mismatch, ntt := d.ntt, keyset := d.keyset, refreshes := d.refreshes, bitwidth := d.bitwidth,
    logslots := d.logslots, polys := [], lwe := [] }
  if d.kind = 2 then
    { v with lwe := (chunks P.lweStride data).map (fun c => (wordsLe (c.take (4 * (P.lweDim + 1)))).map (· % P.prime 0)) }
  else if d.kind = 3 then { v with polys := [limbsOf P d.limbs (wordsLe data)] }
  else if d.seeded then
    { v with polys := [limbsOf P d.limbs (wordsLe (data.drop 16384)), seededC1 P d.limbs (data.take 32)] }
  else
    let ws := wordsLe data
    { v with polys := [limbsOf P d.limbs ws, limbsOf P d.limbs (ws.drop (d.limbs * P.n))] }

/-- The payload the H2 writes. -/
def HeVal.payload (v : HeVal) (P : ParamSet) : List Byte :=
  if v.kind = 2 then v.lwe.flatMap (fun c =>
    let b := c.flatMap (leBytes 4)
    b ++ List.replicate (P.lweStride - b.length) 0)
  else v.polys.flatMap (fun p => p.flatMap (·.flatMap (leBytes 4)))

/-- The descriptor of a result (R36). -/
def HeVal.desc (v : HeVal) (version : BitVec 4) (payload : DWord) : Desc :=
  let bit := v.kind == 2
  { version := version, kind := BitVec.ofNat 4 v.kind, pset := BitVec.ofNat 4 v.pset.val, level := if bit then 0 else v.level,
    limbs := if bit then 1 else v.level + 1, scale := if bit then 0 else v.scale, exhausted := v.exhausted,
    mismatch := v.mismatch, ntt := !bit && v.ntt, seeded := false, keyset := if v.kind = 3 then 0 else v.keyset,
    refreshes := v.refreshes, bitwidth := if bit then v.bitwidth else 0, logslots := if bit then 0 else v.logslots,
    payload := payload, count := if bit then v.lwe.length else 1 }

/-! ## Keys -/

def State.jobKeys (s : State) (j : Job) : Option KeySet := s.jobKeySet j

/-- Number of the record of a kind for a set, with its Galois element for ROT. -/
def KeySet.recordNo (k : KeySet) (kind : Nat) (pset : Fin 16) (g : Nat) : Option Nat :=
  k.records.findIdx? (fun r => r.kind == kind && r.pset == pset && (kind != 2 || r.galois == g))

def State.recordNo (s : State) (j : Job) (kind : Nat) (pset : Fin 16) (g : Nat) : Option Nat :=
  (s.jobKeys j).bind (fun k => k.recordNo kind pset g)

/-- Stored word w of a record's body: of a resident record, from the store of the Isle whose shard has its chunk (R89, R118); else from
the near channel that keeps the chunk, or what came round the ring (R71, R99); open where no such words have come. -/
def State.keyWord (s : State) (j : Job) (k : KeySet) (r w : Nat) : Nat :=
  let c := w / 4096
  let x := w % 4096 * 4
  match j.residentAt k r c with
  | some e => leNat ((s.isle e.1).storeRead (e.2 + x) 4)
  | none =>
    match k.address r c with
    | some a => leNat ((List.range 4).map (fun b => s.devByteAt a (x + b)))
    | none =>
      match j.keyIn.find? (fun e => e.1 == r && e.2.1 == c && decide (e.2.2.1 ≤ x) && decide (x < e.2.2.1 + e.2.2.2.length)) with
      | some e => leAt e.2.2.2 (x - e.2.2.1) 4
      | none => Config.keyChunkWord k.tag.toNat r c (w % 4096) % 2 ^ 32

/-- The stored half of a level record (Table CT-5). -/
def State.storedHalf (s : State) (j : Job) (P : ParamSet) (r : Nat) (d v : Nat) : Residues :=
  match s.jobKeys j with
  | none => []
  | some k =>
    (List.range P.n).map (fun i => s.keyWord j k r ((d * (P.limbs + P.special) + v) * P.n + i) % P.prime v)

/-- The seeded half of a level record (Table CT-6). -/
def State.seededHalf (s : State) (j : Job) (P : ParamSet) (r : Nat) (d v : Nat) : Residues :=
  match (s.jobKeys j).bind (fun k => k.records[r]?) with
  | none => []
  | some x => (List.range (P.n / 4096)).flatMap (fun t => seedBlock x.seed x.kind d v t 4096 (P.prime v))

/-- A row of BITREF (R109). -/
def State.refRow (s : State) (j : Job) (P : ParamSet) (r i row : Nat) : RingRow :=
  match s.jobKeys j with
  | none => ([], [])
  | some k =>
    (seedBlock ((k.records[r]?).elim [] (·.seed)) 4 i row 0 P.n (P.prime 0),
     (List.range P.n).map (fun x => s.keyWord j k r ((i * (2 * P.brLen) + row) * P.n + x) % P.prime 0))

/-- A row of BITKS (R111). -/
def State.ksRow (s : State) (j : Job) (P : ParamSet) (r i d : Nat) : Residues × Nat :=
  match s.jobKeys j with
  | none => ([], 0)
  | some k =>
    (seedBlock ((k.records[r]?).elim [] (·.seed)) 5 i d 0 P.lweDim (P.prime 0), s.keyWord j k r (i * P.ksLen + d) % P.prime 0)

/-- A record's KEYSET differs from an operand's (R55). R79 keeps a record from being absent. -/
def State.badKeyset (s : State) (j : Job) (r : Option Nat) (operands : List HeVal) : Bool :=
  match r, s.jobKeys j with
  | some r, some k => (k.records[r]?).all (fun x => operands.any (fun v => v.isCipher && v.keyset != x.keyset))
  | _, _ => true

/-- A key stream mismatches: its record's KEYSET differs from an operand's, or a chunk's tag was wrong at a consuming Isle (R55, R84). -/
def State.badStream (s : State) (j : Job) (r : Option Nat) (operands : List HeVal) : Bool :=
  s.badKeyset j r operands || r.any (fun r => j.badRecords.any (·.1 == r))

/-! ## Fields (Table CT-7) -/

def satScale (e : Int) : Int := (satSigned 16 e).1

def mixSlots (a b : HeVal) : Nat := if a.logslots = b.logslots then a.logslots else Config.mixedLogslots a.logslots b.logslots % 32

/-- The first ciphertext operand's KEYSET (R55). -/
def firstKey (a b : HeVal) : Word := if a.isCipher then a.keyset else b.keyset

/-- ADD, SUB, PMUL and MUL compare their two ciphertext operands (R55). -/
def operandClash (a b : HeVal) : Bool := a.isCipher && b.isCipher && a.keyset != b.keyset

/-- What an operation leaves: its value, whether a comparison failed in it, and whether it exhausts. -/
structure HeRes where
  val : HeVal
  clash : Bool
  exhausts : Bool
  deriving DecidableEq, Repr

/-- A value after its comparisons: zeros under KEYMISMATCH on a difference. -/
def HeVal.judged (v : HeVal) (clash : Bool) : HeRes :=
  { val := if clash then { v.zero with mismatch := true } else v, clash := clash, exhausts := false }

/-- Output fields of a two-operand operation. -/
def joined (a b : HeVal) (scale : Int) (refreshes : Nat) (polys : List (List Residues)) : HeVal :=
  { kind := if a.isCipher || b.isCipher then 1 else 3, pset := a.pset, level := min a.level b.level, scale := satScale scale,
    exhausted := a.exhausted || b.exhausted, mismatch := a.mismatch || b.mismatch, ntt := a.ntt, keyset := firstKey a b,
    refreshes := refreshes, bitwidth := 0, logslots := mixSlots a b, polys := polys, lwe := [] }

/-- Limbs 0 to l of two polynomials, limb by limb. -/
def limbwise (P : ParamSet) (l : Nat) (f : Nat → Residues → Residues → Residues) (x y : List Residues) : List Residues :=
  (List.range (l + 1)).map (fun j => f (P.prime j) (x.getD j []) (y.getD j []))

/-! ## Level operations -/

/-- ADD and SUB (R62): with a PLAIN operand c0 only, c1 copied. -/
def heAdd (P : ParamSet) (f : Nat → Residues → Residues → Residues) (a b : HeVal) : HeRes :=
  let l := min a.level b.level
  let c0 := limbwise P l f (a.polys.getD 0 []) (b.polys.getD 0 [])
  let c1 := match a.polys[1]?, b.polys[1]? with
    | some x, some y => [limbwise P l f x y]
    | some x, none => [x.take (l + 1)]
    | none, some y => [y.take (l + 1)]
    | none, none => []
  (joined a b (max a.scale b.scale) (max a.refreshes b.refreshes) (c0 :: c1)).judged (operandClash a b)

def hePmul (P : ParamSet) (a b : HeVal) : HeRes :=
  let l := min a.level b.level
  let m := b.polys.getD 0 []
  (joined a b (a.scale + b.scale) a.refreshes (a.polys.map (fun x => limbwise P l mulR x m))).judged (operandClash a b)

/-- Key switching under a record (R69 to R71): (u0, u1). -/
def State.heSwitch (s : State) (j : Job) (P : ParamSet) (r : Option Nat) (l : Nat) (d : List Residues) :
    List Residues × List Residues :=
  P.keySwitch l d (s.storedHalf j P (r.getD 0)) (s.seededHalf j P (r.getD 0))

/-- MUL (R72). -/
def State.heMul (s : State) (j : Job) (a b : HeVal) : HeRes :=
  let P := s.params a.pset
  let l := min a.level b.level
  let g := fun (v : HeVal) c => v.polys.getD c []
  let r := s.recordNo j 1 a.pset 0
  let m := limbwise P l mulR
  let u := s.heSwitch j P r l (m (g a 1) (g b 1))
  let f0 := m (g a 0) (g b 0)
  let f1 := limbwise P l addR (m (g a 0) (g b 1)) (m (g a 1) (g b 0))
  (joined a b (a.scale + b.scale) (max a.refreshes b.refreshes) [limbwise P l addR f0 u.1, limbwise P l addR f1 u.2]).judged
    (operandClash a b || s.badStream j r [a, b])

/-- RESCALE (R53, R73). -/
def heRescale (P : ParamSet) (a : HeVal) : HeRes :=
  let e := satScale (a.scale - P.scaleBits)
  if a.level = 0 then { val := { a with scale := e, exhausted := true }, clash := false, exhausts := true }
  else { val := { a with level := a.level - 1, scale := e, polys := a.polys.map (P.rescale a.level) }, clash := false,
         exhausts := false }

/-- MODDROP by k (R53, R76). -/
def heModdrop (a : HeVal) (k : Nat) : HeRes :=
  let beyond := decide (a.level < k)
  let l := a.level - k
  { val := { a with level := l, exhausted := a.exhausted || beyond, polys := a.polys.map (·.take (l + 1)) }, clash := false,
    exhausts := beyond }

/-- The automorphism of one limb in NTT domain (R77). -/
def heGalois (P : ParamSet) (g : Nat) (x : Residues) : Residues :=
  (List.range P.n).map (fun k => x.getD (galoisIndex P.logn g k) 0)

/-- ROT and CONJ under the record of kind `kind` (R77). -/
def State.heRotate (s : State) (j : Job) (a : HeVal) (kind g : Nat) : HeRes :=
  let P := s.params a.pset
  let r := s.recordNo j kind a.pset g
  let c := fun i => (a.polys.getD i []).map (heGalois P g)
  let u := s.heSwitch j P r a.level (c 1)
  ({ a with polys := [limbwise P a.level addR (c 0) u.1, u.2] }).judged (s.badStream j r [a])

/-- NTT and INTT of every limb. -/
def heTransform (P : ParamSet) (fwd : Bool) (a : HeVal) : HeRes :=
  { val := { a with ntt := fwd, polys := a.polys.map (fun x => x.zipIdx.map (fun e => if fwd then P.fwd e.2 e.1 else P.inv e.2 e.1)) },
    clash := false, exhausts := false }

/-! ## Refresh, EXTRACT and REPACK -/

def satRefresh (n : Nat) : Nat := min (n + 1) 0xFFFF

/-- A plaintext of a set at its top level and at scale SCALEBITS. -/
def ParamSet.plain (P : ParamSet) (ps : Fin 16) (x : List Residues) : HeVal :=
  { HeVal.empty with kind := 3, pset := ps, level := P.limbs - 1, scale := P.scaleBits, ntt := true, polys := [x] }

/-- ADD of a list of values. -/
def heSum (P : ParamSet) : List HeVal → HeVal
  | [] => HeVal.empty
  | x :: l => l.foldl (fun a b => (heAdd P addR a b).val) x

/-- ROT by a Galois element; 1 leaves the value. -/
def State.heTurn (s : State) (j : Job) (g : Nat) (a : HeVal) : HeVal := if g = 1 then a else (s.heRotate j a 2 g).val

/-- MULR. -/
def State.heMulr (s : State) (j : Job) (a b : HeVal) : HeRes :=
  let m := s.heMul j a b
  let r := heRescale (s.params a.pset) m.val
  { val := r.val, clash := m.clash, exhausts := r.exhausts }

/-- Rotations of a level of size k: those within a block of g1 diagonals and those between the g2 blocks, without the first of each
(R105). -/
def levelSteps (k : Nat) : Nat × Nat := let g1 := 2 ^ ((k + 2) / 2); (g1, ceilDiv (2 ^ (k + 1) - 1) g1)

/-- One level of CoeffToSlot or SlotToCoeff, of size k (R105): 2^(k + 1) − 1 PMUL and one ADD less, (g1 − 1) + (g2 − 1) rotations, and
one RESCALE. Blocks of g1 rotated copies meet their diagonals, and the sums of the blocks are rotated and added (DESIGN CHOICE,
notes/assumptions/104.md). -/
def State.refreshLevel (s : State) (j : Job) (k : Nat) (lv : RefreshLevel) (a : HeVal) : HeVal :=
  let P := s.params a.pset
  let d := 2 ^ (k + 1) - 1
  let g := levelSteps k
  let copies := (List.range g.1).map (fun i => if i = 0 then a else s.heTurn j (lv.inner.getD (i - 1) 1) a)
  let block := fun t => heSum P ((List.range (min g.1 (d - t * g.1))).map (fun i =>
    (hePmul P (copies.getD i a) (P.plain a.pset (lv.diags.getD (t * g.1 + i) []))).val))
  (heRescale P (heSum P ((List.range g.2).map (fun t =>
    if t = 0 then block t else s.heTurn j (lv.outer.getD (t - 1) 1) (block t))))).val

/-- The levels of a transform in turn, `n` in all. -/
def State.refreshLevels (s : State) (j : Job) (n : Nat) (l : List RefreshLevel) (a : HeVal) : HeVal :=
  let logn := (s.params a.pset).logn
  (l.zipIdx.take n).foldl (fun v e => s.refreshLevel j (levelSize logn n e.2) e.1 v) a

/-- A product of the Chebyshev evaluation: 2ab − c. -/
def State.chebMul (s : State) (j : Job) (a b c : HeVal) : HeVal :=
  let P := s.params a.pset
  let y := (s.heMulr j a b).val
  (heAdd P subR (heAdd P addR y y).val c).val

/-- A Chebyshev series over T_0 to T_(m − 1) (`low`) and T_m, T_2m, … (`high`, the largest first): PMUL by its constants, one MULR per
split. -/
def State.chebEval (s : State) (j : Job) (P : ParamSet) (low : List HeVal) : List HeVal → List Int → HeVal
  | [], c => heSum P ((low.zip c).map (fun e => (hePmul P e.1 (P.plain e.1.pset (P.constant e.2))).val))
  | t :: high, c =>
    let x := chebSplit c
    (heAdd P addR (s.chebEval j P low high x.1) (s.heMulr j (s.chebEval j P low high x.2) t).val).val

/-- EvalMod of one half (R103, R105): the polynomial of degree 2^q − 1 by its Chebyshev coefficients, signed words, then the
double-angle steps 2x² − 1. -/
def State.evalMod (s : State) (j : Job) (prof : RefreshProfile) (x : HeVal) : HeVal :=
  let P := s.params x.pset
  let q := prof.evalLog
  let one := P.plain x.pset (P.constant (2 ^ P.scaleBits))
  let low := (List.range (2 ^ ((q + 1) / 2))).foldl (fun (t : List HeVal) i =>
    let g := fun k => t.getD k one
    t ++ [if i = 0 then one else if i = 1 then x else s.chebMul j (g ((i + 1) / 2)) (g (i / 2)) (g (i % 2))]) []
  let half := low.getD (low.length / 2) one
  let high := (List.range (q / 2)).foldl (fun (t : List HeVal) _ =>
    let top := t.headD half
    s.chebMul j top top one :: t) []
  let c := (List.range (2 ^ q)).map (fun k => signedOf 32 (prof.coefs.getD k 0).toNat)
  (List.range prof.double).foldl (fun v _ => s.chebMul j v v one) (s.chebEval j P low high c)

/-- The five stages of a level refresh on limb 0 of its input: ModRaise, CoeffToSlot, Split (CONJ, ADD and SUB), EvalMod on each half,
Merge (PMUL by i and ADD) and SlotToCoeff (R104, R105). -/
def State.refreshStages (s : State) (j : Job) (a : HeVal) (prof : RefreshProfile) : HeVal :=
  let P := s.params a.pset
  let raised := { a with level := P.limbs - 1, ntt := true, polys := a.polys.map (fun x => P.modRaise (x.getD 0 [])) }
  let v := s.refreshLevels j prof.cts prof.ctsLevels raised
  let w := (s.heRotate j v 3 (2 ^ (P.logn + 1) - 1)).val
  let e0 := s.evalMod j prof (heAdd P addR v w).val
  let e1 := s.evalMod j prof (heAdd P subR v w).val
  s.refreshLevels j prof.stc prof.stcLevels (heAdd P addR e0 (hePmul P e1 (P.plain a.pset P.imaginary)).val).val

/-- The Galois elements of a transform's rotation steps. -/
def levelElements (logn n : Nat) (l : List RefreshLevel) : List Nat :=
  ((l.zipIdx.take n).flatMap (fun e =>
    let g := levelSteps (levelSize logn n e.2)
    e.1.inner.take (g.1 - 1) ++ e.1.outer.take (g.2 - 1))).filter (· != 1)

/-- Level refresh (R103 to R108): the stages as defined, the descriptor of R106, and the comparisons of RELIN, of CONJ and of the ROT
records of its rotation steps. -/
def State.heLevelRefresh (s : State) (j : Job) (a : HeVal) (prof : RefreshProfile) : HeRes :=
  let P := s.params a.pset
  let rots := (levelElements P.logn prof.cts prof.ctsLevels ++ levelElements P.logn prof.stc prof.stcLevels).map (s.recordNo j 2 a.pset)
  let clash := (s.recordNo j 1 a.pset 0 :: s.recordNo j 3 a.pset 0 :: rots).any (fun r => s.badStream j r [a])
  let l := P.limbs - 1 - (prof.cts + prof.evalLog + prof.double + prof.stc)
  ({ a with
      level := l, scale := P.scaleBits, ntt := true, refreshes := satRefresh a.refreshes
      polys := (s.refreshStages j a prof).polys.map (fun (x : List Residues) => x.take (l + 1)) }).judged clash

/-- The Isle of the run whose batches of 4 take ciphertext `t` of a bit refresh: batches go round the run's Isles in ascending number
(R116; DESIGN CHOICE, notes/assumptions/105.md). -/
def Job.batchIsle (j : Job) (t : Nat) : IsleIdx :=
  let l := (List.finRange 64).filter (isleIn j.run)
  l.getD (t / 4 % max l.length 1) 0

/-- Bit refresh with a table (R109 to R113, R118, R119). A foreign BITREF chunk zeroes the refreshes of the batches of the Isle that
consumed it; any other comparison zeroes them all. -/
def State.heBitRefresh (s : State) (j : Job) (a : HeVal) (lut : List Byte) (wide : Bool) : HeRes :=
  let P := s.params a.pset
  let r := s.recordNo j 4 a.pset 0
  let ks := s.recordNo j 5 a.pset 0
  let tv := P.testPoly lut
  let lost := fun t => r.any (fun r => j.badRecords.contains (r, j.batchIsle t))
  let clash := s.badKeyset j r [a] || (!wide && s.badStream j ks [a])
  let accs := a.lwe.zipIdx.map (fun e =>
    let x := P.blindRotate e.1 tv (s.refRow j P (r.getD 0))
    if lost e.2 then (x.1.map (fun _ => 0), x.2.map (fun _ => 0)) else x)
  let some' := (List.range a.lwe.length).any lost
  let v := { a with
    level := 0, scale := 0, bitwidth := field (leAt lut 2 1) 0 3, refreshes := satRefresh a.refreshes
    mismatch := a.mismatch || some' }
  let y := if wide then { v with kind := 4, polys := accs.map (fun (x : Residues × Residues) => [x.1, x.2]), lwe := [] }
    else { v with lwe := accs.zipIdx.map (fun x =>
      let e := sampleExtract P.n (P.prime 0) x.1
      let w := P.lweSwitch e.1 e.2 (s.ksRow j P (ks.getD 0))
      if lost x.2 then w.map (fun _ => 0) else w) }
  let z := y.judged clash
  { z with clash := clash || some' }

/-- EXTRACT (R121). -/
def State.heExtract (s : State) (j : Job) (a : HeVal) (k0 stride count : Nat) (bs : Fin 16) (width : Nat) : HeRes :=
  let P := s.params a.pset
  let B := s.params bs
  let q := B.prime 0
  let p := P.prime 0
  let ks := s.recordNo j 5 bs 0
  let c := fun i => (P.inv 0 ((a.polys.getD i []).getD 0 [])).map (fun x => (x * q + p / 2) / p % q)
  let c0 := c 0
  let c1 := c 1
  let out := (List.range count).map (fun t =>
    let k := k0 + t * stride
    let av := (List.range P.n).map (fun i => if i ≤ k then subMod q 0 (c1.getD (k - i) 0) else c1.getD (P.n + k - i) 0)
    let fold := (List.range B.n).map (fun i => sumMod q ((List.range (P.n / B.n)).map (fun m => av.getD (i + m * B.n) 0)))
    B.lweSwitch fold (c0.getD k 0) (s.ksRow j B (ks.getD 0)))
  ({ a with kind := 2, pset := bs, level := 0, scale := 0, ntt := false, bitwidth := width, logslots := 0, polys := [],
            lwe := out }).judged (s.badStream j ks [a])

/-- REPACK (R123): the accumulators of the operands, in order. Coefficients of absent accumulators are 0 (DESIGN CHOICE,
notes/assumptions/106.md). -/
def State.heRepack (s : State) (j : Job) (vs : List HeVal) (ls : Fin 16) : HeRes :=
  let P := s.params ls
  let a := vs.headD HeVal.empty
  let B := s.params a.pset
  let q := B.prime 0
  let p := P.prime 0
  let accs := vs.flatMap (·.polys)
  let r := (s.jobKeys j).bind (fun k => k.records.findIdx? (fun x => x.kind == 6 && x.pset == ls && x.pset2 == a.pset))
  let gap := P.n / B.n
  let place := fun c => (List.range P.n).map (fun k =>
    match accs[k % gap]? with
    | some x => (((x.getD c []).getD (k / gap) 0) * p + q / 2) / q % p
    | none => 0)
  let u := s.heSwitch j P r 0 [P.fwd 0 (negR p (place 0))]
  let v : HeVal := {
    kind := 1, pset := ls, level := 0, scale := satScale ((bitLen (p - 1) : Int) - a.bitwidth - 1),
    exhausted := vs.any (·.exhausted), mismatch := vs.any (·.mismatch), ntt := true, keyset := a.keyset,
    refreshes := vs.foldl (fun n x => max n x.refreshes) 0, bitwidth := 0, logslots := P.logn - 1,
    polys := [[addR p (P.fwd 0 (place 1)) (u.1.getD 0 [])], u.2], lwe := [] }
  v.judged (s.badStream j r vs)

/-! ## A program -/

/-- One operation on the values so far. -/
def State.heOp (s : State) (j : Job) (vals : List HeVal) (op : HeOp) : HeRes :=
  let g := fun i => vals.getD i HeVal.empty
  let P := fun i => s.params (g i).pset
  match op with
  | .add a b => heAdd (P a) addR (g a) (g b)
  | .sub a b => heAdd (P a) subR (g a) (g b)
  | .pmul a b => hePmul (P a) (g a) (g b)
  | .mul a b => s.heMul j (g a) (g b)
  | .mulr a b => s.heMulr j (g a) (g b)
  | .rescale a => heRescale (P a) (g a)
  | .moddrop a k => heModdrop (g a) k
  | .rot a e => if e = 1 then { val := g a, clash := false, exhausts := false } else s.heRotate j (g a) 2 e
  | .conj a => s.heRotate j (g a) 3 (2 ^ ((P a).logn + 1) - 1)
  | .ntt a => heTransform (P a) true (g a)
  | .intt a => heTransform (P a) false (g a)
  | .levelRefresh a prof =>
    match j.img.sections.profiles[prof]? with
    | some x => s.heLevelRefresh j (g a) x
    | none => { val := g a, clash := false, exhausts := false }
  | .extract a k0 st n ps w => s.heExtract j (g a) k0 st n (finOf 15 ps) w
  | .repack as ps => s.heRepack j (as.map g) (finOf 15 ps)
  | .bitRefresh a lut wide => s.heBitRefresh j (g a) (j.img.sections.luts.getD lut []) wide

/-- Refreshes of one operation (R125): level, and bit per batch member. -/
def heCounts (vals : List HeVal) : HeOp → Nat × Nat
  | .levelRefresh _ _ => (1, 0)
  | .bitRefresh a _ _ => (0, (vals.getD a HeVal.empty).lwe.length)
  | _ => (0, 0)

/-- A run of the program: values, whether a comparison failed, whether an operation exhausted, refreshes of each kind. -/
structure HeRun where
  vals : List HeVal
  clash : Bool
  exhausts : Bool
  level : Nat
  bit : Nat
  deriving DecidableEq, Repr

def State.heStep (s : State) (j : Job) (r : HeRun) (op : HeOp) : HeRun :=
  let x := s.heOp j r.vals op
  let n := heCounts r.vals op
  { vals := r.vals ++ [x.val], clash := r.clash || x.clash, exhausts := r.exhausts || x.exhausts, level := r.level + n.1,
    bit := r.bit + n.2 }

/-- The program of a job on its inputs as read at job start. -/
def State.heRun (s : State) (j : Job) : HeRun :=
  let ins := (j.inputs.zip j.inData).map (fun e => heInput (s.params (finOf 15 e.1.pset.toNat)) e.1 e.2)
  j.img.sections.prog.foldl (s.heStep j) { vals := ins, clash := j.mismatch, exhausts := false, level := 0, bit := 0 }

end Sys2Proof.Machine
end

