-- ==== Sys2Proof/Machine/Lifecycle.lean ====
section
/-! DEFINITION. A job from its preparation to its end: JOB_PREPARE (R26, R278), JOB_START (R34, R59, R186, R204, R214, R244,
R249, R271, R313 to R316), JOB_COMMIT (R33, R36, R56, R125, R357) and JOB_END (R132, R188, R197, R267). -/

namespace Sys2Proof.Machine

/-! ## Preparation -/

/-- A slice of the run takes its planned mode; a CACHE slice is invalidated, and one that leaves CACHE holds open contents
(R278, R280). -/
def Lagoon.plan (l : Lagoon) (m : BitVec 2) (n : Nat) : Lagoon :=
  let opened := l.mode == 2 && m != 2
  { l with
    mode := m, lines := [], mem := if opened then [] else l.mem, junk := if opened then some n else l.junk }

/-- The plan's mode of a slice, numbered from the run's first row (R278). -/
def Image.sliceMode (m : Image) (l : SliceIdx) : BitVec 2 := m.sections.lagoonPlan.getD (l.val - 2 * m.firstRow.val) 0

/-- The preparation of a job: its run is ungated and its slices take their modes (R26, R278). -/
def State.prepare (s : State) (j : Job) : State :=
  { s with
    gates := s.gates.ungate s.now j.run
    lagoons := vmodAll s.lagoons (fun l => inRows j.run (SliceIdx.row l)) (fun l x => x.plan (j.img.sliceMode l) (s.free + l.val))
    free := s.free + 16 }

def execJobPrepare (id : Nat) (s : State) : Host.Outcome State Fault Refusal :=
  .next <|
    match s.jobById id with
    | some j =>
      if s.running && !s.reef.fatal && j.phase == .admitted && j.ending.isNone && s.now + j.prep == j.start then
        (s.prepare j).modJob id (fun j => { j with phase := .prepared })
      else s
    | none => s

/-! ## What a job reads at its start -/

/-- A payload address in force: in the run, and 16 KiB aligned in service mode under ALIGN16 (R249, R271). -/
def State.payloadAddr (s : State) (j : Job) (align16 : Bool) (x : Nat) : Nat × Nat :=
  let r := rowClamp (rowsOf j.run) (x % 2 ^ 40 / 64 * 64)
  if align16 && s.service && r.1 % 16384 != 0 then (r.1 - r.1 % 16384, r.2 + 1) else r

/-- An input descriptor under its declaration, and how many fields were replaced or clamped (R59, R10). -/
def fixInput (ver : BitVec 4) (c : InputDecl) (d : Desc) : Desc × Nat :=
  let seeded := c.seeded && c.kind == 1
  let level := min d.level c.level
  let limbs := if c.kind = 2 then 1 else level + 1
  let x := { d with
    version := ver, kind := c.kind, pset := BitVec.ofNat 4 c.pset.val, level := level, limbs := limbs, ntt := c.ntt,
    seeded := seeded, bitwidth := c.bitwidth, count := c.count }
  (x, b2n (decide (ver.toNat < d.version.toNat)) + b2n (d.kind != x.kind) + b2n (d.pset != x.pset) + b2n (d.level != level) +
    b2n (d.limbs != limbs) + b2n (d.ntt != x.ntt) + b2n (d.seeded != seeded) + b2n (d.bitwidth != x.bitwidth) +
    b2n (d.count != x.count))

/-- Reads input `k`: descriptor, then the payload it names. -/
def State.readInput (s : State) (j : Job) (c : InputDecl) (k : Nat) : State :=
  let r := s.devRead .job (devAdd s.big512 j.idesc.toNat (64 * k)) 64
  let f := fixInput j.version c (ctDescOf r.2.1)
  let a := s.payloadAddr j c.align16 f.1.payload.toNat
  let d := { f.1 with payload := BitVec.ofNat 64 a.1 }
  let s := r.1.clampQ j.fn j.q (f.2 + a.2)
  let p := s.devRead .job a.1 (payloadBytes (s.params c.pset) d)
  p.1.modJob j.id (fun j => { j with inputs := j.inputs ++ [d], inData := j.inData ++ [p.2.1] })

/-- Reads the PAYLOAD field of result descriptor `k` (R356). -/
def State.readResult (s : State) (j : Job) (c : ResultDecl) (k : Nat) : State :=
  let r := s.devRead .job (devAdd s.big512 j.rdesc.toNat (64 * k)) 64
  let a := s.payloadAddr j c.align16 (leAt r.2.1 16 8)
  (r.1.clampQ j.fn j.q a.2).modJob j.id (fun j => { j with payloads := j.payloads ++ [BitVec.ofNat 64 a.1] })

/-- An fp32 configuration word in its range +0 to `hi` (R314). -/
def clampWeight (hi w : Nat) : Nat × Nat :=
  if w = 0 then (0, 0) else if 0x7F800000 < w then (0, 1) else if hi < w then (hi, 1) else (w, 0)

/-- A reduction configuration under R314 to R316: the values, how many fields were clamped, and whether the rule was
substituted. With KIND PROGRAM the words W are ignored (R331). -/
def configOf (ver : BitVec 4) (d : ReductionDecl) (l : List Byte) : (Nat × Nat × Word × List Word) × Nat × Bool :=
  let md := d.ty == 2
  let rule := if d.hardwired then clampNat 0 3 (leAt l 0 1 % 16) else (leAt l 0 1 % 16, 0)
  let thin := if md then (0, b2n (leAt l 1 1 % 16 != 0)) else clampNat d.thinMin 6 (leAt l 1 1 % 16)
  let step := clampNat 1 (2 ^ 32 - 1) (leAt l 4 4)
  let w := fun k => leAt l (8 + 4 * k) 4
  let top := 0x7F7FFFFF
  let unit := 0x3F7FFFFF
  let ws := if !d.hardwired then (List.range 5).map (fun k => (w k, 0)) else [if md then (w 0, 0) else clampWeight unit (w 0), if md then (w 1, 0) else clampWeight top (w 1),
    clampWeight top (w 2), clampWeight unit (w 3), clampWeight top (w 4)]
  let sub := md && d.hardwired && decide (2 ≤ rule.1)
  ((if sub then 1 else rule.1, thin.1, BitVec.ofNat 32 step.1, ws.map (fun x => BitVec.ofNat 32 x.1)),
   b2n (decide (ver.toNat < leAt l 0 1 / 16)) + rule.2 + thin.2 + step.2 + ws.foldl (fun n x => n + x.2) 0, sub)

def State.readConfig (s : State) (j : Job) (d : ReductionDecl) (k : Nat) : State :=
  let r := s.devRead .job (devAdd s.big512 j.rcfg.toNat (64 * k)) 64
  let c := configOf j.version d r.2.1
  (r.1.clampQ j.fn j.q c.2.1).modJob j.id (fun j => { j with configs := j.configs ++ [c.1], ruleSub := j.ruleSub || c.2.2 })

def State.readAll (s : State) (j : Job) : State :=
  let s := j.img.sections.inputs.zipIdx.foldl (fun s c => s.readInput j c.1 c.2) s
  let s := j.img.sections.results.zipIdx.foldl (fun s c => s.readResult j c.1 c.2) s
  (j.img.sections.strait.elim [] (·.reductions)).zipIdx.foldl (fun s c => s.readConfig j c.1 c.2) s

/-! ## What starts on an Isle and a port -/

/-- The bank whose tag names page 0 becomes active (R214). -/
def Skerry.page0Bank (k : Skerry) (m : Image) : Bool :=
  let ok := fun (b : ImBank) => b.valid && b.fn == m.fn && b.image == m.handle && b.page == 0
  if ok k.activeBank then k.active else if ok k.shadow then !k.active else k.active

/-- The Skerry at the start boundary (R186, R188, R214). -/
def Skerry.start (k : Skerry) (j : Job) : Skerry :=
  { k with
    pc := 0, loops := [], st := .running, cause := 0, halt := false, cyc := 0
    runFirst := BitVec.ofNat 8 j.img.firstRow.val, runRows := BitVec.ofNat 8 j.img.hdr.rows
    owner := BitVec.ofNat 4 j.fn.val, jobtag := j.jobid.setWidth 32, run := some (j.fn, j.img.handle), held := none
    heldWait := 0, ended := false, active := k.page0Bank j.img, imload := none, chain := Chain.none }

/-- The Isle at position `q` of the run: Skerry, slots, plan, and the flags each job starts with clear (R149, R177, R204,
R208, R251). -/
def Isle.start (is : Isle) (j : Job) (q : Nat) : Isle :=
  let x := j.img.sections
  let p := x.moverPlans.getD q (0, 0, 0)
  { is with
    sk := is.sk.start j
    me := { is.me with sat := false, ovf := false, nan := false }
    ve := { is.ve with sat := false, ovf := false, nan := false }
    sto := { is.sto with nan := false, ovf := false, bankConf := false, tags := [], slots := (x.slotTables.getD q []).map slotOfEntry }
    mov := { is.mov with
      ra := BitVec.ofNat 5 p.1, rd := BitVec.ofNat 5 p.2.1, rs := BitVec.ofNat 5 p.2.2
      errLog := is.mov.errLog &&& 0x7FFFFFFF, stopped := false, bytes := 0 }
    slack := BitVec.ofNat 24 j.img.hdr.slack, tokOvr := false, tokSlot := 0, tokMax := 0, laneE := [], lanePos := 0, un := Units.none }

/-- Copies descriptor tables of one Isle, one after another from channel offset `off`, into its store (R244). -/
def State.copyTables (s : State) (i : IsleIdx) : Nat → List DescTable → State
  | _, [] => s
  | off, t :: l =>
    let r := s.devRead .job (2 ^ 39 + i.val * 2 ^ 33 + off) t.bytes.length
    (r.1.setIsle i ((r.1.isle i).storeWrite t.offset r.2.1)).copyTables i (off + t.bytes.length) l

/-- One Isle of the run starts; its descriptor tables follow the pages and the slot table in the DRAM copy. -/
def State.startIsle (s : State) (j : Job) (i : IsleIdx) : State :=
  let q := i.val - 8 * j.img.firstRow.val
  let x := j.img.sections
  let off := j.img.ioff + 8 * (x.pages.flatten.length + (x.slotTables.getD q []).length)
  (s.setIsle i ((s.isle i).start j q)).copyTables i off (x.descTables.filter (·.isle == q))

/-- The identifier this module transmits to: the next rank of the ring (R98). -/
def successor (members : List (BitVec 20)) (me : BitVec 20) : BitVec 20 :=
  (ofRank members ((rankOf members me + 1) % max members.length 1)).getD me

/-- A port of the run: its circulation register (STR_KCRING), the flit groups of its plan from the first that begins after the start
boundary, and what the reductions of the job begin with. -/
def Port.start (p : Port) (y : RowIdx) (j : Job) (x : StraitPlan) (me : BitVec 20) : Port :=
  let key := x.gives y 1
  let ring := ringOf j.img j.members
  { p with
    kcEn := key, kcRsize := if key then BitVec.ofNat 20 (j.img.hdr.ringSize - 1) else 0
    kcRindex := if key then BitVec.ofNat 20 (rankOf ring me) else 0
    kcSucc := if key then successor ring me else 0
    groups := x.classes y, groupAt := ceilDiv (125 * ceilDiv j.start 6) 64
    redBases := (x.reductions.filter (·.port == y)).map (·.base), redSent := [], redBlocks := [], keySeen := [], keyRx := none, redBuf := [] }

def State.startPorts (s : State) (j : Job) : State :=
  match j.img.sections.strait with
  | some x => { s with ports := vmodAll s.ports (fun y => inRows j.run y && planUses x y) (fun y p => p.start y j x s.devid) }
  | none => s

/-- LGN_HITS of the run's slices is cleared at the start boundary. -/
def State.startSlices (s : State) (j : Job) : State :=
  { s with lagoons := vmodAll s.lagoons (fun l => inRows j.run (SliceIdx.row l)) (fun _ x => { x with hits := 0, misses := 0 }) }

/-- The windows of the plan that one scheduler gets, from the start boundary on (R284). -/
def Job.windowsOf (j : Job) (slice : Bool) (pos : Nat) : List (Nat × Nat) :=
  (j.img.sections.memWindows.filter (fun w => w.slice == slice && w.pos == pos)).map (fun w => (j.start + w.start, w.len))

/-- The holm controller loads the windows of the plan into the schedulers of the run's channels and into its slice ports (R284). -/
def State.loadWindows (s : State) (j : Job) : State :=
  { s with
    chans := vmodAll s.chans (isleIn j.run) (fun c x => { x with windows := j.windowsOf false (c.val - 8 * j.img.firstRow.val) })
    lagoons := vmodAll s.lagoons (fun l => inRows j.run (SliceIdx.row l))
      (fun l x => { x with windows := j.windowsOf true (l.val - 2 * j.img.firstRow.val) }) }

/-- The job still runs: nothing that it met so far discarded it. -/
def State.stillRuns (s : State) (id : Nat) : Bool := (s.jobById id).any Job.isRunning

/-- The start boundary of a job on a run without a hot row. -/
def State.startJob (s : State) (j : Job) : State :=
  let s := if j.phase == .prepared then s else s.prepare j
  let s := s.modJob j.id (fun j => { j with phase := .started })
  let s := ((s.startSlices j).loadWindows j).readAll j
  if !s.stillRuns j.id then s
  else
    let s := (j.img.isles.foldl (fun (s : State) i => s.startIsle j i) s).loadResidents j
    if s.stillRuns j.id then (rowsOf j.run).foldl State.writeBlocks (s.startPorts j) else s.fillRun j.run

/-- JOB_START (R34, R276, R382): no act of the authority holder is needed. -/
def execJobStart (id : Nat) (s : State) : Host.Outcome State Fault Refusal :=
  .next <|
    match s.jobById id with
    | some j =>
      if s.running && !s.reef.fatal && (j.phase == .admitted || j.phase == .prepared) && j.ending.isNone && s.now == j.start then
        if (rowsOf j.run).any (fun y => s.hot[y]) then s.discard j stFaulted 0x0030 else s.startJob j
      else s
    | none => s

/-! ## Commit and end -/

/-- Every Isle of the run has executed END. -/
def State.allEnded (s : State) (rows : BitVec 8) : Bool := (islesOf rows).all (fun i => (s.isle i).sk.ended)

/-- INFO of a completion (Table HC-7). -/
def Job.info (j : Job) : BitVec 16 := BitVec.ofNat 16 (b2n j.abortLate + 2 * b2n j.ruleSub)

/-- HLM_RFCNT of the owner advances by the job's refreshes, from the next cycle on (R125). -/
def State.countRefreshes (s : State) (f : Fn) (r : HeRun) : State :=
  match vfOf f with
  | some v => { s with rfDue := s.rfDue ++ [(v, r.level, r.bit)] }
  | none => s

/-- Status of a job that completes (R56, R351). -/
def HeRun.status (r : HeRun) : BitVec 16 := if r.clash then stKeyMismatch else if r.exhausts then stExhausted else stOk

/-- The job commits in this cycle: READY from the next one on, when the completion reply is written (R33, R357). -/
def State.commit (s : State) (j : Job) (r : HeRun) (results : List ResultInfo) : State :=
  let t := j.elapsed s.now
  let s := s.modJob j.id (fun j => { j with
    ending := some { cyc := s.now, status := r.status, result0 := 0, time := t, done := true } })
  let s := s.setSlot j.fn j.slot {
    st := .ready, since := s.now + 1, jobid := j.jobid, status := r.status, info := j.info, time := t, results := results,
    rows := j.run }
  s.countRefreshes j.fn r

/-- Writes a result's payload by the movers of the run. -/
def State.writePayload (s : State) (j : Job) (v : HeVal) (a : Nat) : State :=
  s.moverWrite j.img.firstRow a (v.payload (s.params v.pset))

/-- The results that the program names: the value, its payload address and its place in the RDESC list. -/
def Job.outputs (j : Job) (r : HeRun) : List (HeVal × DWord × Nat) :=
  (j.img.sections.results.zipIdx).filterMap (fun x =>
    match r.vals[x.1.value]? with
    | some v => if v.kind = 4 then none else some (v, j.payloads.getD x.2 0, x.2)
    | none => none)

/-- What the result window shows of an output (R361). -/
def State.resultInfo (s : State) (j : Job) (o : HeVal × DWord × Nat) : ResultInfo :=
  { payload := o.2.1, len := (o.1.payload (s.params o.1.pset)).length, desc := (o.1.desc j.version o.2.1).bytes }

/-- Writes the results: every payload, then the descriptors in order (R33, R36, R356). -/
def State.writeResults (s : State) (j : Job) (outs : List (HeVal × DWord × Nat)) : State :=
  let s := outs.foldl (fun (s : State) o => s.writePayload j o.1 o.2.1.toNat) s
  outs.foldl (fun (s : State) o =>
    s.moverWrite j.img.firstRow (devAdd s.big512 j.rdesc.toNat (64 * o.2.2)) (o.1.desc j.version o.2.1).bytes) s

/-- A contained fault or a dispute of this very cycle has discarded the job: should it commit in the cycle after all, it has committed
(R382). -/
def State.discardedNow (s : State) (j : Job) : Bool :=
  j.phase == .started && j.ending.any (fun e => !e.done && e.cyc == s.now &&
    (e.status == stFaulted || e.status == stWindowClosed || e.status == stDispute))

/-- The job may complete: it runs, or was discarded in this cycle, every Isle has ended, and the promised cycle has not passed (R33,
R364, R382). -/
def State.canFinish (s : State) (j : Job) : Bool :=
  s.running && !s.reef.fatal && (j.isRunning || s.discardedNow j) && s.allEnded j.run && decide (s.now ≤ j.cp)

/-- The job with its end of this cycle taken back. -/
def State.revive (s : State) (j : Job) : State := if s.discardedNow j then s.modJob j.id (fun j => { j with ending := none }) else s

/-- JOB_COMMIT: writes the results of a job that has any; a write that a protected range refuses discards the job (R354). -/
def execJobCommit (id : Nat) (s : State) : Host.Outcome State Fault Refusal :=
  .next <|
    match s.jobById id with
    | some j =>
      if s.canFinish j && !j.img.sections.results.isEmpty then
        let r := s.heRun j
        let outs := j.outputs r
        let t := (s.revive j).writeResults j outs
        if t.stillRuns id then t.commit j r (outs.map (s.resultInfo j)) else t
      else s
    | none => s

/-- The occupancy of a job. -/
def State.jobOcc (s : State) (id : Nat) : Option Occ := s.occs.find? (fun o => o.kind == .job id)

/-- JOB_END: the end fill, and the occupancy leaves (R132, R188, R197, R267, R372). A job without results completes here. -/
def execJobEnd (id : Nat) (s : State) : Host.Outcome State Fault Refusal :=
  .next <|
    let s := match s.jobById id with
      | some j => if s.canFinish j && j.img.sections.results.isEmpty then (s.revive j).commit j (s.heRun j) [] else s
      | none => s
    match s.jobOcc id with
    | some o =>
      if s.running && !s.reef.fatal && s.allEnded o.rows && !(s.jobById id).any (fun j => j.ending.isNone) &&
          !(rowsOf o.rows).any (fun y => (s.runningOn y).isSome) then
        ((s.fillRun o.rows).quietPorts o.rows none).vacateJob id
      else s
    | none => s

end Sys2Proof.Machine
end

