-- ==== Sys2Proof/Machine/MatrixOps.lean ====
section
/-! DEFINITION. The matrix-engine instructions of Table ISA-4, passed to MQ by the Skerry (R141 to R147, R198, R199). -/

namespace Sys2Proof.Machine

/-- WLOAD: loads the standby weight set from a tile register (R141); MODE 7 is reserved (R126). -/
def execWload (i : IsleIdx) (f : WloadFields) (s : State) : Host.Outcome State Fault Refusal :=
  .next (s.issueAt i (.wload f))

/-- WSWAP: exchanges the active and the standby weight set (R142). -/
def execWswap (i : IsleIdx) (y : Sync) (s : State) : Host.Outcome State Fault Refusal :=
  .next (s.issueAt i (.wswap y))

/-- MMUL: a product with the active weights, with its chain when it closes one (R127, R144 to R147, R152). -/
def execMmul (i : IsleIdx) (f : MmulFields) (s : State) : Host.Outcome State Fault Refusal :=
  .next (s.issueAt i (.mmul f))

/-- CHAINH: the chain header from two scalar registers; its place in MQ and its sync field are those of every matrix instruction
(R189, R199, R203). -/
def execChainh (i : IsleIdx) (sa sb : Fin 32) (f : ChainhFields) (s : State) : Host.Outcome State Fault Refusal :=
  .next (s.issueAt i (.chainh sa sb f))

/-- CHAINA: binds generators and scalars to the chain's stages (R199). -/
def execChaina (i : IsleIdx) (f : ChainaFields) (s : State) : Host.Outcome State Fault Refusal :=
  .next (s.issueAt i (.chaina f))

end Sys2Proof.Machine
end

