-- ==== Sys2Proof/Machine/MoverOps.lean ====
section
/-! DEFINITION. The mover and token instructions of Table ISA-6 and the descriptors of Table DM-1 (R202, R215, R242 to R264). -/

namespace Sys2Proof.Machine

/-- MVISSUE: starts a batch of COUNT descriptors at store address ADDR (R242); COUNT 0 is reserved (R190). -/
def execMvissue (i : IsleIdx) (count : BitVec 12) (addr : BitVec 22) (y : Sync) (s : State) : Host.Outcome State Fault Refusal :=
  .next (s.issueAt i (.mvissue count addr y))

/-- IMLOAD: starts copying a page of the image into the shadow bank, whichever bank it names (R215). -/
def execImload (i : IsleIdx) (page : Fin 16) (f : ImloadFields) (s : State) : Host.Outcome State Fault Refusal :=
  .next (s.issueAt i (.imload page f))

/-- Where page k of a bound image lies in its copy in a near channel, and its bytes: the pages stand one after another from IOFF
(R353). -/
def Image.pageAt (m : Image) (k : Nat) : Nat × Nat :=
  (m.ioff + 8 * ((m.sections.pages.take k).flatten).length, 8 * (m.sections.pages.getD k []).length)

/-- The page an IMLOAD copies has landed, read from the DRAM copy through the Isle's near channel with every code on the way: the
shadow bank holds it and its tag is valid, and the tokens of its sync field change (R205, R215). -/
def execImloadComplete (i : IsleIdx) (s : State) : Host.Outcome State Fault Refusal :=
  .next <|
    let k := (s.isle i).sk
    match k.imload, k.run with
    | some page, some (fn, h) =>
      let at' := ((s.imageOf fn h).map (fun m => m.pageAt page.toNat)).getD (0, 0)
      let r := s.devRead .job (2 ^ 39 + i.val * 2 ^ 33 + at'.1) at'.2
      let words := (chunks 8 r.2.1).map (fun w => (BitVec.ofNat 64 (leNat w) : DWord))
      let b : ImBank := { valid := true, fn := fn, image := h, page := page, words := words }
      let is := r.1.isle i
      let sk := { is.sk.setShadow b with imload := none, imSync := Sync.none }
      if is.sk.imload.isNone then r.1 else (r.1.setIsle i ({ is with sk := sk }.syncDone k.imSync)).settle i settleFuel
    | _, _ => s

/-- TTAKE: takes a token, at a queue's head or in the issue stage (R202, R205). -/
def execTtake (i : IsleIdx) (f : TFields) (s : State) : Host.Outcome State Fault Refusal :=
  .next (s.issueAt i (.ttake f))

/-- TPUT: puts a token (R202, R205). -/
def execTput (i : IsleIdx) (f : TFields) (s : State) : Host.Outcome State Fault Refusal :=
  .next (s.issueAt i (.tput f))

/-- COPY between spaces and layouts, to several Isles under PMASK (R254, R263). -/
def execCopy (i : IsleIdx) (d : DescFields) (s : State) : Host.Outcome State Fault Refusal :=
  .next (s.descriptor i .copy d)

/-- TRANSPOSE (R255). -/
def execTranspose (i : IsleIdx) (d : DescFields) (s : State) : Host.Outcome State Fault Refusal :=
  .next (s.descriptor i .transpose d)

/-- WINDOWX: sliding-window expansion (R256). -/
def execWindowx (i : IsleIdx) (d : DescFields) (s : State) : Host.Outcome State Fault Refusal :=
  .next (s.descriptor i .windowx d)

/-- AUTOMORPH: the Galois permutation of whole limbs (R257). -/
def execAutomorph (i : IsleIdx) (d : DescFields) (s : State) : Host.Outcome State Fault Refusal :=
  .next (s.descriptor i .automorph d)

/-- REVERSE: digit reversal of whole limbs (R257). -/
def execReverse (i : IsleIdx) (d : DescFields) (s : State) : Host.Outcome State Fault Refusal :=
  .next (s.descriptor i .reverse d)

/-- SEEDX: expands a seeded polynomial (R259). -/
def execSeedx (i : IsleIdx) (d : DescFields) (s : State) : Host.Outcome State Fault Refusal :=
  .next (s.descriptor i .seedx d)

/-- FORWARD: registers a standing forward (R264). -/
def execForward (i : IsleIdx) (d : DescFields) (s : State) : Host.Outcome State Fault Refusal :=
  .next (s.descriptor i .forward d)

/-- The oldest write phase of an Isle's mover begins when its tokens and credits allow (R252). -/
def execDescriptorWritePhase (i : IsleIdx) (s : State) : Host.Outcome State Fault Refusal :=
  .next <|
    if s.moverLive i then
      match s.writePhase false i with
      | some s' => s'.settle i settleFuel
      | none => s
    else s

/-! ## The debug port -/

/-- Isle cycles by which one preemption delays the scheduled transfers of a row: the spec gives none, an open value (R284). -/
def State.preemption (s : State) : Nat := (Config.isleWord 7 s.free).toNat

/-- The mover's token waits of an Isle grow by a delay. -/
def Isle.delayed (is : Isle) (n : Nat) : Isle := ({ is with mov := is.mov.pass n is.mov.batch.isEmpty }).noteWaits

/-- DEBUG_PREEMPT: in bring-up and test modes the debug port takes a grant of the channel's arbiter. The scheduled transfers of the job
on its row are late by an open number of Isle cycles, and their token waits grow by it; no data change (R284). The debug port requests
nothing in the other modes. -/
def execDebugPreempt (chan : ChanIdx) (s : State) : Host.Outcome State Fault Refusal :=
  .next <|
    if (s.boot.mode == 1 || s.boot.mode == 2) && s.running && !s.reef.fatal then
      match s.runningOn (ChanIdx.row chan) with
      | some j =>
        let n := s.preemption
        { s with isles := vmodAll s.isles (isleIn j.run) (fun _ is => is.delayed n), free := s.free + 1 }
      | none => s
    else s

end Sys2Proof.Machine
end

