-- ==== Sys2Proof/Machine/Scalars.lean ====
section
/-! DEFINITION. The scalar instructions of Table ISA-2, each issued by the Skerry of its Isle (R184, R185, R191, R192). -/

namespace Sys2Proof.Machine

/-- ADD: s_sd = s_sa + b, wrapping (R191). -/
def execAdd (i : IsleIdx) (f : SFields) (s : State) : Host.Outcome State Fault Refusal :=
  .next (s.issueAt i (.scalar .add f))

/-- SUB: s_sa − b, wrapping (R191). -/
def execSub (i : IsleIdx) (f : SFields) (s : State) : Host.Outcome State Fault Refusal :=
  .next (s.issueAt i (.scalar .sub f))

/-- AND (R191). -/
def execAnd (i : IsleIdx) (f : SFields) (s : State) : Host.Outcome State Fault Refusal :=
  .next (s.issueAt i (.scalar .and f))

/-- OR (R191). -/
def execOr (i : IsleIdx) (f : SFields) (s : State) : Host.Outcome State Fault Refusal :=
  .next (s.issueAt i (.scalar .or f))

/-- XOR (R191). -/
def execXor (i : IsleIdx) (f : SFields) (s : State) : Host.Outcome State Fault Refusal :=
  .next (s.issueAt i (.scalar .xor f))

/-- SLL: shift left by b[4:0] (R191). -/
def execSll (i : IsleIdx) (f : SFields) (s : State) : Host.Outcome State Fault Refusal :=
  .next (s.issueAt i (.scalar .sll f))

/-- SRL: logical shift right by b[4:0] (R191). -/
def execSrl (i : IsleIdx) (f : SFields) (s : State) : Host.Outcome State Fault Refusal :=
  .next (s.issueAt i (.scalar .srl f))

/-- SRA: arithmetic shift right by b[4:0] (R191). -/
def execSra (i : IsleIdx) (f : SFields) (s : State) : Host.Outcome State Fault Refusal :=
  .next (s.issueAt i (.scalar .sra f))

/-- SLT: 1 when s_sa < b, signed (R191). -/
def execSlt (i : IsleIdx) (f : SFields) (s : State) : Host.Outcome State Fault Refusal :=
  .next (s.issueAt i (.scalar .slt f))

/-- SLTU: 1 when s_sa < b, unsigned (R191). -/
def execSltu (i : IsleIdx) (f : SFields) (s : State) : Host.Outcome State Fault Refusal :=
  .next (s.issueAt i (.scalar .sltu f))

/-- SEQ: 1 when equal (R191). -/
def execSeq (i : IsleIdx) (f : SFields) (s : State) : Host.Outcome State Fault Refusal :=
  .next (s.issueAt i (.scalar .seq f))

/-- SNE: 1 when different (R191). -/
def execSne (i : IsleIdx) (f : SFields) (s : State) : Host.Outcome State Fault Refusal :=
  .next (s.issueAt i (.scalar .sne f))

/-- MUL: low 32 bits of the product (R191). -/
def execMul (i : IsleIdx) (f : SFields) (s : State) : Host.Outcome State Fault Refusal :=
  .next (s.issueAt i (.scalar .mul f))

/-- MULH: high 32 bits of the signed product (R191). -/
def execMulh (i : IsleIdx) (f : SFields) (s : State) : Host.Outcome State Fault Refusal :=
  .next (s.issueAt i (.scalar .mulh f))

/-- MULHU: high 32 bits of the unsigned product (R191). -/
def execMulhu (i : IsleIdx) (f : SFields) (s : State) : Host.Outcome State Fault Refusal :=
  .next (s.issueAt i (.scalar .mulhu f))

/-- DIV: signed quotient; a zero divisor gives all ones (R185). -/
def execDiv (i : IsleIdx) (f : SFields) (s : State) : Host.Outcome State Fault Refusal :=
  .next (s.issueAt i (.scalar .div f))

/-- DIVU: unsigned quotient; a zero divisor gives all ones (R185). -/
def execDivu (i : IsleIdx) (f : SFields) (s : State) : Host.Outcome State Fault Refusal :=
  .next (s.issueAt i (.scalar .divu f))

/-- REM: signed remainder; a zero divisor gives the dividend (R185). -/
def execRem (i : IsleIdx) (f : SFields) (s : State) : Host.Outcome State Fault Refusal :=
  .next (s.issueAt i (.scalar .rem f))

/-- REMU: unsigned remainder; a zero divisor gives the dividend (R185). -/
def execRemu (i : IsleIdx) (f : SFields) (s : State) : Host.Outcome State Fault Refusal :=
  .next (s.issueAt i (.scalar .remu f))

/-- FADD in fp32 (R184, R191). -/
def execFadd (i : IsleIdx) (f : SFields) (s : State) : Host.Outcome State Fault Refusal :=
  .next (s.issueAt i (.scalar .fadd f))

/-- FSUB in fp32 (R184, R191). -/
def execFsub (i : IsleIdx) (f : SFields) (s : State) : Host.Outcome State Fault Refusal :=
  .next (s.issueAt i (.scalar .fsub f))

/-- FMUL in fp32 (R184, R191). -/
def execFmul (i : IsleIdx) (f : SFields) (s : State) : Host.Outcome State Fault Refusal :=
  .next (s.issueAt i (.scalar .fmul f))

/-- FMA: s_sa · s_sb + s_sc, rounded once (R191). -/
def execFma (i : IsleIdx) (f : SFields) (s : State) : Host.Outcome State Fault Refusal :=
  .next (s.issueAt i (.scalar .fma f))

/-- FDIV in fp32 (R191). -/
def execFdiv (i : IsleIdx) (f : SFields) (s : State) : Host.Outcome State Fault Refusal :=
  .next (s.issueAt i (.scalar .fdiv f))

/-- FSQRT in fp32 (R191). -/
def execFsqrt (i : IsleIdx) (f : SFields) (s : State) : Host.Outcome State Fault Refusal :=
  .next (s.issueAt i (.scalar .fsqrt f))

/-- FCVTWS: fp32 to INT32 (R191). -/
def execFcvtws (i : IsleIdx) (f : SFields) (s : State) : Host.Outcome State Fault Refusal :=
  .next (s.issueAt i (.scalar .fcvtws f))

/-- FCVTSW: INT32 to fp32 (R191). -/
def execFcvtsw (i : IsleIdx) (f : SFields) (s : State) : Host.Outcome State Fault Refusal :=
  .next (s.issueAt i (.scalar .fcvtsw f))

/-- LD8: sign-extended byte at s_sa + IMM32 (R192). -/
def execLd8 (i : IsleIdx) (f : SFields) (s : State) : Host.Outcome State Fault Refusal :=
  .next (s.issueAt i (.scalar .ld8 f))

/-- LD8U: zero-extended byte (R192). -/
def execLd8u (i : IsleIdx) (f : SFields) (s : State) : Host.Outcome State Fault Refusal :=
  .next (s.issueAt i (.scalar .ld8u f))

/-- LD16: sign-extended half-word; traps when misaligned or out of range (R185, R192). -/
def execLd16 (i : IsleIdx) (f : SFields) (s : State) : Host.Outcome State Fault Refusal :=
  .next (s.issueAt i (.scalar .ld16 f))

/-- LD16U: zero-extended half-word (R185, R192). -/
def execLd16u (i : IsleIdx) (f : SFields) (s : State) : Host.Outcome State Fault Refusal :=
  .next (s.issueAt i (.scalar .ld16u f))

/-- LD32: word; traps when misaligned or out of range (R185, R192). -/
def execLd32 (i : IsleIdx) (f : SFields) (s : State) : Host.Outcome State Fault Refusal :=
  .next (s.issueAt i (.scalar .ld32 f))

/-- ST8: low byte of s_sb to s_sa + IMM32 (R192). -/
def execSt8 (i : IsleIdx) (f : SFields) (s : State) : Host.Outcome State Fault Refusal :=
  .next (s.issueAt i (.scalar .st8 f))

/-- ST16 (R185, R192). -/
def execSt16 (i : IsleIdx) (f : SFields) (s : State) : Host.Outcome State Fault Refusal :=
  .next (s.issueAt i (.scalar .st16 f))

/-- ST32 (R185, R192). -/
def execSt32 (i : IsleIdx) (f : SFields) (s : State) : Host.Outcome State Fault Refusal :=
  .next (s.issueAt i (.scalar .st32 f))

end Sys2Proof.Machine
end

