-- ==== Sys2Proof/Machine/VectorOps.lean ====
section
/-! DEFINITION. The vector instructions of Table ISA-5, passed to VQ by the Skerry (R171 to R183, R200, R201). -/

namespace Sys2Proof.Machine

/-- VADD: per lane, R174. -/
def execVadd (i : IsleIdx) (f : VFields) (s : State) : Host.Outcome State Fault Refusal :=
  .next (s.issueAt i (.vec .vadd f))

/-- VSUB: per lane, R174. -/
def execVsub (i : IsleIdx) (f : VFields) (s : State) : Host.Outcome State Fault Refusal :=
  .next (s.issueAt i (.vec .vsub f))

/-- VADDS: per lane, R174. -/
def execVadds (i : IsleIdx) (f : VFields) (s : State) : Host.Outcome State Fault Refusal :=
  .next (s.issueAt i (.vec .vadds f))

/-- VSUBS: per lane, R174. -/
def execVsubs (i : IsleIdx) (f : VFields) (s : State) : Host.Outcome State Fault Refusal :=
  .next (s.issueAt i (.vec .vsubs f))

/-- VMULLO: per lane, R174. -/
def execVmullo (i : IsleIdx) (f : VFields) (s : State) : Host.Outcome State Fault Refusal :=
  .next (s.issueAt i (.vec .vmullo f))

/-- VMAX: per lane, R174. -/
def execVmax (i : IsleIdx) (f : VFields) (s : State) : Host.Outcome State Fault Refusal :=
  .next (s.issueAt i (.vec .vmax f))

/-- VMIN: per lane, R174. -/
def execVmin (i : IsleIdx) (f : VFields) (s : State) : Host.Outcome State Fault Refusal :=
  .next (s.issueAt i (.vec .vmin f))

/-- VAND: per lane, R174. -/
def execVand (i : IsleIdx) (f : VFields) (s : State) : Host.Outcome State Fault Refusal :=
  .next (s.issueAt i (.vec .vand f))

/-- VOR: per lane, R174. -/
def execVor (i : IsleIdx) (f : VFields) (s : State) : Host.Outcome State Fault Refusal :=
  .next (s.issueAt i (.vec .vor f))

/-- VXOR: per lane, R174. -/
def execVxor (i : IsleIdx) (f : VFields) (s : State) : Host.Outcome State Fault Refusal :=
  .next (s.issueAt i (.vec .vxor f))

/-- VNOT: per lane, R174. -/
def execVnot (i : IsleIdx) (f : VFields) (s : State) : Host.Outcome State Fault Refusal :=
  .next (s.issueAt i (.vec .vnot f))

/-- VSHL: per lane, R174. -/
def execVshl (i : IsleIdx) (f : VFields) (s : State) : Host.Outcome State Fault Refusal :=
  .next (s.issueAt i (.vec .vshl f))

/-- VSHR: per lane, R174. -/
def execVshr (i : IsleIdx) (f : VFields) (s : State) : Host.Outcome State Fault Refusal :=
  .next (s.issueAt i (.vec .vshr f))

/-- VSRA: per lane, R174. -/
def execVsra (i : IsleIdx) (f : VFields) (s : State) : Host.Outcome State Fault Refusal :=
  .next (s.issueAt i (.vec .vsra f))

/-- VCMP: per lane, R174. -/
def execVcmp (i : IsleIdx) (f : VFields) (s : State) : Host.Outcome State Fault Refusal :=
  .next (s.issueAt i (.vec .vcmp f))

/-- VSEL: per lane, R174. -/
def execVsel (i : IsleIdx) (f : VFields) (s : State) : Host.Outcome State Fault Refusal :=
  .next (s.issueAt i (.vec .vsel f))

/-- VPRIME: modulo the lane primes, R175. -/
def execVprime (i : IsleIdx) (f : VFields) (s : State) : Host.Outcome State Fault Refusal :=
  .next (s.issueAt i (.vec .vprime f))

/-- VMADD: modulo the lane primes, R175. -/
def execVmadd (i : IsleIdx) (f : VFields) (s : State) : Host.Outcome State Fault Refusal :=
  .next (s.issueAt i (.vec .vmadd f))

/-- VMSUB: modulo the lane primes, R175. -/
def execVmsub (i : IsleIdx) (f : VFields) (s : State) : Host.Outcome State Fault Refusal :=
  .next (s.issueAt i (.vec .vmsub f))

/-- VMNEG: modulo the lane primes, R175. -/
def execVmneg (i : IsleIdx) (f : VFields) (s : State) : Host.Outcome State Fault Refusal :=
  .next (s.issueAt i (.vec .vmneg f))

/-- VMMUL: modulo the lane primes, R175. -/
def execVmmul (i : IsleIdx) (f : VFields) (s : State) : Host.Outcome State Fault Refusal :=
  .next (s.issueAt i (.vec .vmmul f))

/-- VMRED: modulo the lane primes, R175. -/
def execVmred (i : IsleIdx) (f : VFields) (s : State) : Host.Outcome State Fault Refusal :=
  .next (s.issueAt i (.vec .vmred f))

/-- VMREDS: modulo the lane primes, R175. -/
def execVmreds (i : IsleIdx) (f : VFields) (s : State) : Host.Outcome State Fault Refusal :=
  .next (s.issueAt i (.vec .vmreds f))

/-- VMCTR: modulo the lane primes, R175. -/
def execVmctr (i : IsleIdx) (f : VFields) (s : State) : Host.Outcome State Fault Refusal :=
  .next (s.issueAt i (.vec .vmctr f))

/-- VFADD: float lanes, R176. -/
def execVfadd (i : IsleIdx) (f : VFields) (s : State) : Host.Outcome State Fault Refusal :=
  .next (s.issueAt i (.vec .vfadd f))

/-- VFSUB: float lanes, R176. -/
def execVfsub (i : IsleIdx) (f : VFields) (s : State) : Host.Outcome State Fault Refusal :=
  .next (s.issueAt i (.vec .vfsub f))

/-- VFMUL: float lanes, R176. -/
def execVfmul (i : IsleIdx) (f : VFields) (s : State) : Host.Outcome State Fault Refusal :=
  .next (s.issueAt i (.vec .vfmul f))

/-- VFMA: float lanes, R176. -/
def execVfma (i : IsleIdx) (f : VFields) (s : State) : Host.Outcome State Fault Refusal :=
  .next (s.issueAt i (.vec .vfma f))

/-- VFMAX: float lanes, R176. -/
def execVfmax (i : IsleIdx) (f : VFields) (s : State) : Host.Outcome State Fault Refusal :=
  .next (s.issueAt i (.vec .vfmax f))

/-- VFMIN: float lanes, R176. -/
def execVfmin (i : IsleIdx) (f : VFields) (s : State) : Host.Outcome State Fault Refusal :=
  .next (s.issueAt i (.vec .vfmin f))

/-- VFCMP: float lanes, R176. -/
def execVfcmp (i : IsleIdx) (f : VFields) (s : State) : Host.Outcome State Fault Refusal :=
  .next (s.issueAt i (.vec .vfcmp f))

/-- VFDIV: float lanes, R176. -/
def execVfdiv (i : IsleIdx) (f : VFields) (s : State) : Host.Outcome State Fault Refusal :=
  .next (s.issueAt i (.vec .vfdiv f))

/-- VFSQRT: float lanes, R176. -/
def execVfsqrt (i : IsleIdx) (f : VFields) (s : State) : Host.Outcome State Fault Refusal :=
  .next (s.issueAt i (.vec .vfsqrt f))

/-- VGELU: float lanes, R176. -/
def execVgelu (i : IsleIdx) (f : VFields) (s : State) : Host.Outcome State Fault Refusal :=
  .next (s.issueAt i (.vec .vgelu f))

/-- VSILU: float lanes, R176. -/
def execVsilu (i : IsleIdx) (f : VFields) (s : State) : Host.Outcome State Fault Refusal :=
  .next (s.issueAt i (.vec .vsilu f))

/-- VTANH: float lanes, R176. -/
def execVtanh (i : IsleIdx) (f : VFields) (s : State) : Host.Outcome State Fault Refusal :=
  .next (s.issueAt i (.vec .vtanh f))

/-- VEXP: float lanes, R176. -/
def execVexp (i : IsleIdx) (f : VFields) (s : State) : Host.Outcome State Fault Refusal :=
  .next (s.issueAt i (.vec .vexp f))

/-- VCVT: float lanes, R176. -/
def execVcvt (i : IsleIdx) (f : VFields) (s : State) : Host.Outcome State Fault Refusal :=
  .next (s.issueAt i (.vec .vcvt f))

/-- VBCAST: lane movement, R181. -/
def execVbcast (i : IsleIdx) (f : VFields) (s : State) : Host.Outcome State Fault Refusal :=
  .next (s.issueAt i (.vec .vbcast f))

/-- VSLIDE: lane movement, R181. -/
def execVslide (i : IsleIdx) (f : VFields) (s : State) : Host.Outcome State Fault Refusal :=
  .next (s.issueAt i (.vec .vslide f))

/-- VPERM: lane movement, R181. -/
def execVperm (i : IsleIdx) (f : VFields) (s : State) : Host.Outcome State Fault Refusal :=
  .next (s.issueAt i (.vec .vperm f))

/-- VRSUM: a summary into a scalar register, R179. -/
def execVrsum (i : IsleIdx) (f : VFields) (s : State) : Host.Outcome State Fault Refusal :=
  .next (s.issueAt i (.vec .vrsum f))

/-- VRMAX: a summary into a scalar register, R179. -/
def execVrmax (i : IsleIdx) (f : VFields) (s : State) : Host.Outcome State Fault Refusal :=
  .next (s.issueAt i (.vec .vrmax f))

/-- VRMIN: a summary into a scalar register, R179. -/
def execVrmin (i : IsleIdx) (f : VFields) (s : State) : Host.Outcome State Fault Refusal :=
  .next (s.issueAt i (.vec .vrmin f))

/-- VRMAXI: a summary into a scalar register, R179. -/
def execVrmaxi (i : IsleIdx) (f : VFields) (s : State) : Host.Outcome State Fault Refusal :=
  .next (s.issueAt i (.vec .vrmaxi f))

/-- VRCNT: a summary into a scalar register, R179. -/
def execVrcnt (i : IsleIdx) (f : VFields) (s : State) : Host.Outcome State Fault Refusal :=
  .next (s.issueAt i (.vec .vrcnt f))

/-- VRFSUM: a summary into a scalar register, R179. -/
def execVrfsum (i : IsleIdx) (f : VFields) (s : State) : Host.Outcome State Fault Refusal :=
  .next (s.issueAt i (.vec .vrfsum f))

/-- VRFMAX: a summary into a scalar register, R179. -/
def execVrfmax (i : IsleIdx) (f : VFields) (s : State) : Host.Outcome State Fault Refusal :=
  .next (s.issueAt i (.vec .vrfmax f))

/-- VRFMIN: a summary into a scalar register, R179. -/
def execVrfmin (i : IsleIdx) (f : VFields) (s : State) : Host.Outcome State Fault Refusal :=
  .next (s.issueAt i (.vec .vrfmin f))

/-- VMOVS: a summary into a scalar register, R179. -/
def execVmovs (i : IsleIdx) (f : VFields) (s : State) : Host.Outcome State Fault Refusal :=
  .next (s.issueAt i (.vec .vmovs f))

/-- VLD: 256 bytes from the store into a register, R182. -/
def execVld (i : IsleIdx) (f : VFields) (s : State) : Host.Outcome State Fault Refusal :=
  .next (s.issueAt i (.vec .vld f))

/-- VST: a register into the store, R182. -/
def execVst (i : IsleIdx) (f : VFields) (s : State) : Host.Outcome State Fault Refusal :=
  .next (s.issueAt i (.vec .vst f))

/-- VTLD: a tile-register row into a register, R183. -/
def execVtld (i : IsleIdx) (f : VFields) (s : State) : Host.Outcome State Fault Refusal :=
  .next (s.issueAt i (.vec .vtld f))

/-- VTST: a register into a tile-register row, R183. -/
def execVtst (i : IsleIdx) (f : VFields) (s : State) : Host.Outcome State Fault Refusal :=
  .next (s.issueAt i (.vec .vtst f))

end Sys2Proof.Machine
end

