-- ==== Sys2Proof/Machine/Dispatch.lean ====
section
/-! DEFINITION. The dispatch of commands to their meanings: one arm per constructor of `Instr`. -/

namespace Sys2Proof.Machine

def exec (i : Instr) (s : State) : Host.Outcome State Fault Refusal :=
  match i with
  | .hello p => Sys2Proof.Machine.execHello p s
  | .loadProgram p img => Sys2Proof.Machine.execLoadProgram p img s
  | .loadProgramComplete id => Sys2Proof.Machine.execLoadProgramComplete id s
  | .loadParamset p rec => Sys2Proof.Machine.execLoadParamset p rec s
  | .loadKeyset p man => Sys2Proof.Machine.execLoadKeyset p man s
  | .loadKeysetComplete id => Sys2Proof.Machine.execLoadKeysetComplete id s
  | .submitJob p => Sys2Proof.Machine.execSubmitJob p s
  | .armJob p => Sys2Proof.Machine.execArmJob p s
  | .abortJob p => Sys2Proof.Machine.execAbortJob p s
  | .releaseResult p => Sys2Proof.Machine.execReleaseResult p s
  | .openWindow p => Sys2Proof.Machine.execOpenWindow p s
  | .closeWindow p => Sys2Proof.Machine.execCloseWindow p s
  | .windowCloseComplete port handle => Sys2Proof.Machine.execWindowCloseComplete port handle s
  | .modexp p data => Sys2Proof.Machine.execModexp p data s
  | .ecmul p data => Sys2Proof.Machine.execEcmul p data s
  | .verify p data => Sys2Proof.Machine.execVerify p data s
  | .sign p data => Sys2Proof.Machine.execSign p data s
  | .kaStart p => Sys2Proof.Machine.execKaStart p s
  | .kaFinish p data => Sys2Proof.Machine.execKaFinish p data s
  | .ownkey p data => Sys2Proof.Machine.execOwnkey p data s
  | .curveload p data => Sys2Proof.Machine.execCurveload p data s
  | .anchor p data => Sys2Proof.Machine.execAnchor p data s
  | .atollOpStart => Sys2Proof.Machine.execAtollOpStart s
  | .atollOpEnd => Sys2Proof.Machine.execAtollOpEnd s
  | .entropyFailure => Sys2Proof.Machine.execEntropyFailure s
  | .setOwner p => Sys2Proof.Machine.execSetOwner p s
  | .wipeStart id => Sys2Proof.Machine.execWipeStart id s
  | .wipeEnd id => Sys2Proof.Machine.execWipeEnd id s
  | .logRead p => Sys2Proof.Machine.execLogRead p s
  | .logClear p auth => Sys2Proof.Machine.execLogClear p auth s
  | .logClearEffect => Sys2Proof.Machine.execLogClearEffect s
  | .bistSlice p => Sys2Proof.Machine.execBistSlice p s
  | .depotTest p => Sys2Proof.Machine.execDepotTest p s
  | .retirePage p => Sys2Proof.Machine.execRetirePage p s
  | .queryHealth p => Sys2Proof.Machine.execQueryHealth p s
  | .invalidOpcode p => Sys2Proof.Machine.execInvalidOpcode p s
  | .commandFetch fn q entry => Sys2Proof.Machine.execCommandFetch fn q entry s
  | .fetchError fn q => Sys2Proof.Machine.execFetchError fn q s
  | .sqDoorbell fn q v => Sys2Proof.Machine.execSqDoorbell fn q v s
  | .cqDoorbell fn q v => Sys2Proof.Machine.execCqDoorbell fn q v s
  | .hbrQcfgWrite fn q v => Sys2Proof.Machine.execHbrQcfgWrite fn q v s
  | .hbrCtrlWrite v => Sys2Proof.Machine.execHbrCtrlWrite v s
  | .admClsmapWrite k v => Sys2Proof.Machine.execAdmClsmapWrite k v s
  | .reefEvpop v => Sys2Proof.Machine.execReefEvpop v s
  | .faultInjectArm v => Sys2Proof.Machine.execFaultInjectArm v s
  | .handover v => Sys2Proof.Machine.execHandover v s
  | .handoverAccept => Sys2Proof.Machine.execHandoverAccept s
  | .handoverTimeout => Sys2Proof.Machine.execHandoverTimeout s
  | .recoveryUpdate v => Sys2Proof.Machine.execRecoveryUpdate v s
  | .recoveryProgramComplete => Sys2Proof.Machine.execRecoveryProgramComplete s
  | .devidWrite v => Sys2Proof.Machine.execDevidWrite v s
  | .skerryStep isle v => Sys2Proof.Machine.execSkerryStep isle v s
  | .skerryHalt isle v => Sys2Proof.Machine.execSkerryHalt isle v s
  | .registerWrite fn offset wide v => Sys2Proof.Machine.execRegisterWrite fn offset wide v s
  | .hostDramRead fn addr len => Sys2Proof.Machine.execHostDramRead fn addr len s
  | .hostDramWrite fn addr data => Sys2Proof.Machine.execHostDramWrite fn addr data s
  | .hostReadExpired fn chan waited => Sys2Proof.Machine.execHostReadExpired fn chan waited s
  | .resultRead fn window offset len => Sys2Proof.Machine.execResultRead fn window offset len s
  | .functionLevelReset fn => Sys2Proof.Machine.execFunctionLevelReset fn s
  | .pfD3hotEntry => Sys2Proof.Machine.execPfD3hotEntry s
  | .pfD0Entry => Sys2Proof.Machine.execPfD0Entry s
  | .vfD3hotEntry vf => Sys2Proof.Machine.execVfD3hotEntry vf s
  | .vfD0Entry vf => Sys2Proof.Machine.execVfD0Entry vf s
  | .perstNAssert => Sys2Proof.Machine.execPerstNAssert s
  | .perstNDeassert genCompat holmPref modesel tsyncEn => Sys2Proof.Machine.execPerstNDeassert genCompat holmPref modesel tsyncEn s
  | .pllLock => Sys2Proof.Machine.execPllLock s
  | .firmwareBoot d0 d1 => Sys2Proof.Machine.execFirmwareBoot d0 d1 s
  | .startupTimeout pllFailed northDead southDead => Sys2Proof.Machine.execStartupTimeout pllFailed northDead southDead s
  | .dramTrainingComplete failed hot => Sys2Proof.Machine.execDramTrainingComplete failed hot s
  | .ready => Sys2Proof.Machine.execReady s
  | .tsyncEdge => Sys2Proof.Machine.execTsyncEdge s
  | .tsyncTimeout => Sys2Proof.Machine.execTsyncTimeout s
  | .timelineOrigin => Sys2Proof.Machine.execTimelineOrigin s
  | .preOriginRefresh ctrl => Sys2Proof.Machine.execPreOriginRefresh ctrl s
  | .aliveToggle => Sys2Proof.Machine.execAliveToggle s
  | .refreshSlot chan => Sys2Proof.Machine.execRefreshSlot chan s
  | .powerFail => Sys2Proof.Machine.execPowerFail s
  | .flushComplete => Sys2Proof.Machine.execFlushComplete s
  | .claimRenew south => Sys2Proof.Machine.execClaimRenew south s
  | .claimLapse => Sys2Proof.Machine.execClaimLapse s
  | .authorityDispute => Sys2Proof.Machine.execAuthorityDispute s
  | .tokenClaim => Sys2Proof.Machine.execTokenClaim s
  | .claimTimeout => Sys2Proof.Machine.execClaimTimeout s
  | .admPublish => Sys2Proof.Machine.execAdmPublish s
  | .admRequest cls req gen => Sys2Proof.Machine.execAdmRequest cls req gen s
  | .protectedPlacementLapse => Sys2Proof.Machine.execProtectedPlacementLapse s
  | .jobPrepare id => Sys2Proof.Machine.execJobPrepare id s
  | .jobStart id => Sys2Proof.Machine.execJobStart id s
  | .jobCommit id => Sys2Proof.Machine.execJobCommit id s
  | .jobEnd id => Sys2Proof.Machine.execJobEnd id s
  | .heldLoadWrite id => Sys2Proof.Machine.execHeldLoadWrite id s
  | .scheduleOverrun isle => Sys2Proof.Machine.execScheduleOverrun isle s
  | .correctedFault r => Sys2Proof.Machine.execCorrectedFault r s
  | .containedFault r => Sys2Proof.Machine.execContainedFault r s
  | .fatalFault r => Sys2Proof.Machine.execFatalFault r s
  | .driverActionEvent r => Sys2Proof.Machine.execDriverActionEvent r s
  | .captureReadComplete => Sys2Proof.Machine.execCaptureReadComplete s
  | .captureReadAbandoned => Sys2Proof.Machine.execCaptureReadAbandoned s
  | .dramHot package => Sys2Proof.Machine.execDramHot package s
  | .dramHotClear row => Sys2Proof.Machine.execDramHotClear row s
  | .retirementWindowStart id => Sys2Proof.Machine.execRetirementWindowStart id s
  | .retirementWindowEnd id => Sys2Proof.Machine.execRetirementWindowEnd id s
  | .sliceStart id => Sys2Proof.Machine.execSliceStart id s
  | .sliceEnd id scanOk signature patrolled => Sys2Proof.Machine.execSliceEnd id scanOk signature patrolled s
  | .periodicSlicePlace => Sys2Proof.Machine.execPeriodicSlicePlace s
  | .depotTestStart refclkOk vcoreOk => Sys2Proof.Machine.execDepotTestStart refclkOk vcoreOk s
  | .depotTestEnd failedIsles otherFailed signature => Sys2Proof.Machine.execDepotTestEnd failedIsles otherFailed signature s
  | .linkUp port frames => Sys2Proof.Machine.execLinkUp port frames s
  | .linkDown l => Sys2Proof.Machine.execLinkDown l s
  | .frameTransmit port => Sys2Proof.Machine.execFrameTransmit port s
  | .wstate port cw => Sys2Proof.Machine.execWstate port cw s
  | .nack port cw => Sys2Proof.Machine.execNack port cw s
  | .keyFlit port wire => Sys2Proof.Machine.execKeyFlit port wire s
  | .winFlit port wire => Sys2Proof.Machine.execWinFlit port wire s
  | .redFlit port wire => Sys2Proof.Machine.execRedFlit port wire s
  | .idleFlit port wire => Sys2Proof.Machine.execIdleFlit port wire s
  | .meshFlitDelivery stop hdr payload => Sys2Proof.Machine.execMeshFlitDelivery stop hdr payload s
  | .debugPreempt chan => Sys2Proof.Machine.execDebugPreempt chan s
  | .smbReadVin pecOk now => Sys2Proof.Machine.execSmbReadVin pecOk now s
  | .smbReadCurrent pecOk now => Sys2Proof.Machine.execSmbReadCurrent pecOk now s
  | .smbReadPower pecOk now => Sys2Proof.Machine.execSmbReadPower pecOk now s
  | .smbReadDieTemp pecOk now => Sys2Proof.Machine.execSmbReadDieTemp pecOk now s
  | .smbReadDramTemp pecOk now => Sys2Proof.Machine.execSmbReadDramTemp pecOk now s
  | .smbReadCoolant pecOk now => Sys2Proof.Machine.execSmbReadCoolant pecOk now s
  | .smbReadPowerState pecOk => Sys2Proof.Machine.execSmbReadPowerState pecOk s
  | .smbReadAlertSources pecOk => Sys2Proof.Machine.execSmbReadAlertSources pecOk s
  | .add isle f => Sys2Proof.Machine.execAdd isle f s
  | .sub isle f => Sys2Proof.Machine.execSub isle f s
  | .and isle f => Sys2Proof.Machine.execAnd isle f s
  | .or isle f => Sys2Proof.Machine.execOr isle f s
  | .xor isle f => Sys2Proof.Machine.execXor isle f s
  | .sll isle f => Sys2Proof.Machine.execSll isle f s
  | .srl isle f => Sys2Proof.Machine.execSrl isle f s
  | .sra isle f => Sys2Proof.Machine.execSra isle f s
  | .slt isle f => Sys2Proof.Machine.execSlt isle f s
  | .sltu isle f => Sys2Proof.Machine.execSltu isle f s
  | .seq isle f => Sys2Proof.Machine.execSeq isle f s
  | .sne isle f => Sys2Proof.Machine.execSne isle f s
  | .mul isle f => Sys2Proof.Machine.execMul isle f s
  | .mulh isle f => Sys2Proof.Machine.execMulh isle f s
  | .mulhu isle f => Sys2Proof.Machine.execMulhu isle f s
  | .div isle f => Sys2Proof.Machine.execDiv isle f s
  | .divu isle f => Sys2Proof.Machine.execDivu isle f s
  | .rem isle f => Sys2Proof.Machine.execRem isle f s
  | .remu isle f => Sys2Proof.Machine.execRemu isle f s
  | .fadd isle f => Sys2Proof.Machine.execFadd isle f s
  | .fsub isle f => Sys2Proof.Machine.execFsub isle f s
  | .fmul isle f => Sys2Proof.Machine.execFmul isle f s
  | .fma isle f => Sys2Proof.Machine.execFma isle f s
  | .fdiv isle f => Sys2Proof.Machine.execFdiv isle f s
  | .fsqrt isle f => Sys2Proof.Machine.execFsqrt isle f s
  | .fcvtws isle f => Sys2Proof.Machine.execFcvtws isle f s
  | .fcvtsw isle f => Sys2Proof.Machine.execFcvtsw isle f s
  | .ld8 isle f => Sys2Proof.Machine.execLd8 isle f s
  | .ld8u isle f => Sys2Proof.Machine.execLd8u isle f s
  | .ld16 isle f => Sys2Proof.Machine.execLd16 isle f s
  | .ld16u isle f => Sys2Proof.Machine.execLd16u isle f s
  | .ld32 isle f => Sys2Proof.Machine.execLd32 isle f s
  | .st8 isle f => Sys2Proof.Machine.execSt8 isle f s
  | .st16 isle f => Sys2Proof.Machine.execSt16 isle f s
  | .st32 isle f => Sys2Proof.Machine.execSt32 isle f s
  | .beq isle f => Sys2Proof.Machine.execBeq isle f s
  | .bne isle f => Sys2Proof.Machine.execBne isle f s
  | .blt isle f => Sys2Proof.Machine.execBlt isle f s
  | .bge isle f => Sys2Proof.Machine.execBge isle f s
  | .bltu isle f => Sys2Proof.Machine.execBltu isle f s
  | .bgeu isle f => Sys2Proof.Machine.execBgeu isle f s
  | .j isle imm => Sys2Proof.Machine.execJ isle imm s
  | .loop isle sa ci maxcnt body => Sys2Proof.Machine.execLoop isle sa ci maxcnt body s
  | .lexit isle sa => Sys2Proof.Machine.execLexit isle sa s
  | .lidx isle sd k => Sys2Proof.Machine.execLidx isle sd k s
  | .swap isle page imm => Sys2Proof.Machine.execSwap isle page imm s
  | .waitcyc isle target => Sys2Proof.Machine.execWaitcyc isle target s
  | .csrr isle sd num => Sys2Proof.Machine.execCsrr isle sd num s
  | .csrw isle sa num => Sys2Proof.Machine.execCsrw isle sa num s
  | .agld isle ag sa imm => Sys2Proof.Machine.execAgld isle ag sa imm s
  | .agw isle ag field sb => Sys2Proof.Machine.execAgw isle ag field sb s
  | .fence isle qmask => Sys2Proof.Machine.execFence isle qmask s
  | .iend isle => Sys2Proof.Machine.execIend isle s
  | .wload isle f => Sys2Proof.Machine.execWload isle f s
  | .wswap isle y => Sys2Proof.Machine.execWswap isle y s
  | .mmul isle f => Sys2Proof.Machine.execMmul isle f s
  | .chainh isle sa sb f => Sys2Proof.Machine.execChainh isle sa sb f s
  | .chaina isle f => Sys2Proof.Machine.execChaina isle f s
  | .vadd isle f => Sys2Proof.Machine.execVadd isle f s
  | .vsub isle f => Sys2Proof.Machine.execVsub isle f s
  | .vadds isle f => Sys2Proof.Machine.execVadds isle f s
  | .vsubs isle f => Sys2Proof.Machine.execVsubs isle f s
  | .vmullo isle f => Sys2Proof.Machine.execVmullo isle f s
  | .vmax isle f => Sys2Proof.Machine.execVmax isle f s
  | .vmin isle f => Sys2Proof.Machine.execVmin isle f s
  | .vand isle f => Sys2Proof.Machine.execVand isle f s
  | .vor isle f => Sys2Proof.Machine.execVor isle f s
  | .vxor isle f => Sys2Proof.Machine.execVxor isle f s
  | .vnot isle f => Sys2Proof.Machine.execVnot isle f s
  | .vshl isle f => Sys2Proof.Machine.execVshl isle f s
  | .vshr isle f => Sys2Proof.Machine.execVshr isle f s
  | .vsra isle f => Sys2Proof.Machine.execVsra isle f s
  | .vcmp isle f => Sys2Proof.Machine.execVcmp isle f s
  | .vsel isle f => Sys2Proof.Machine.execVsel isle f s
  | .vprime isle f => Sys2Proof.Machine.execVprime isle f s
  | .vmadd isle f => Sys2Proof.Machine.execVmadd isle f s
  | .vmsub isle f => Sys2Proof.Machine.execVmsub isle f s
  | .vmneg isle f => Sys2Proof.Machine.execVmneg isle f s
  | .vmmul isle f => Sys2Proof.Machine.execVmmul isle f s
  | .vmred isle f => Sys2Proof.Machine.execVmred isle f s
  | .vmreds isle f => Sys2Proof.Machine.execVmreds isle f s
  | .vmctr isle f => Sys2Proof.Machine.execVmctr isle f s
  | .vfadd isle f => Sys2Proof.Machine.execVfadd isle f s
  | .vfsub isle f => Sys2Proof.Machine.execVfsub isle f s
  | .vfmul isle f => Sys2Proof.Machine.execVfmul isle f s
  | .vfma isle f => Sys2Proof.Machine.execVfma isle f s
  | .vfmax isle f => Sys2Proof.Machine.execVfmax isle f s
  | .vfmin isle f => Sys2Proof.Machine.execVfmin isle f s
  | .vfcmp isle f => Sys2Proof.Machine.execVfcmp isle f s
  | .vfdiv isle f => Sys2Proof.Machine.execVfdiv isle f s
  | .vfsqrt isle f => Sys2Proof.Machine.execVfsqrt isle f s
  | .vgelu isle f => Sys2Proof.Machine.execVgelu isle f s
  | .vsilu isle f => Sys2Proof.Machine.execVsilu isle f s
  | .vtanh isle f => Sys2Proof.Machine.execVtanh isle f s
  | .vexp isle f => Sys2Proof.Machine.execVexp isle f s
  | .vcvt isle f => Sys2Proof.Machine.execVcvt isle f s
  | .vbcast isle f => Sys2Proof.Machine.execVbcast isle f s
  | .vslide isle f => Sys2Proof.Machine.execVslide isle f s
  | .vperm isle f => Sys2Proof.Machine.execVperm isle f s
  | .vrsum isle f => Sys2Proof.Machine.execVrsum isle f s
  | .vrmax isle f => Sys2Proof.Machine.execVrmax isle f s
  | .vrmin isle f => Sys2Proof.Machine.execVrmin isle f s
  | .vrmaxi isle f => Sys2Proof.Machine.execVrmaxi isle f s
  | .vrcnt isle f => Sys2Proof.Machine.execVrcnt isle f s
  | .vrfsum isle f => Sys2Proof.Machine.execVrfsum isle f s
  | .vrfmax isle f => Sys2Proof.Machine.execVrfmax isle f s
  | .vrfmin isle f => Sys2Proof.Machine.execVrfmin isle f s
  | .vmovs isle f => Sys2Proof.Machine.execVmovs isle f s
  | .vld isle f => Sys2Proof.Machine.execVld isle f s
  | .vst isle f => Sys2Proof.Machine.execVst isle f s
  | .vtld isle f => Sys2Proof.Machine.execVtld isle f s
  | .vtst isle f => Sys2Proof.Machine.execVtst isle f s
  | .mvissue isle count addr y => Sys2Proof.Machine.execMvissue isle count addr y s
  | .imload isle page f => Sys2Proof.Machine.execImload isle page f s
  | .imloadComplete isle => Sys2Proof.Machine.execImloadComplete isle s
  | .ttake isle f => Sys2Proof.Machine.execTtake isle f s
  | .tput isle f => Sys2Proof.Machine.execTput isle f s
  | .zfill isle f => Sys2Proof.Machine.execZfill isle f s
  | .iadd isle f => Sys2Proof.Machine.execIadd isle f s
  | .madd isle f => Sys2Proof.Machine.execMadd isle f s
  | .msub isle f => Sys2Proof.Machine.execMsub isle f s
  | .fadd32 isle f => Sys2Proof.Machine.execFadd32 isle f s
  | .madds isle f => Sys2Proof.Machine.execMadds isle f s
  | .mmuls isle f => Sys2Proof.Machine.execMmuls isle f s
  | .mmult isle f => Sys2Proof.Machine.execMmult isle f s
  | .mmack isle f => Sys2Proof.Machine.execMmack isle f s
  | .mmace isle f => Sys2Proof.Machine.execMmace isle f s
  | .ccf32 isle f => Sys2Proof.Machine.execCcf32 isle f s
  | .ccb16 isle f => Sys2Proof.Machine.execCcb16 isle f s
  | .cci32 isle f => Sys2Proof.Machine.execCci32 isle f s
  | .ccu32 isle f => Sys2Proof.Machine.execCcu32 isle f s
  | .copy isle d => Sys2Proof.Machine.execCopy isle d s
  | .transpose isle d => Sys2Proof.Machine.execTranspose isle d s
  | .windowx isle d => Sys2Proof.Machine.execWindowx isle d s
  | .automorph isle d => Sys2Proof.Machine.execAutomorph isle d s
  | .reverse isle d => Sys2Proof.Machine.execReverse isle d s
  | .seedx isle d => Sys2Proof.Machine.execSeedx isle d s
  | .forward isle d => Sys2Proof.Machine.execForward isle d s
  | .descriptorWritePhase isle => Sys2Proof.Machine.execDescriptorWritePhase isle s
  | .powerUp => Sys2Proof.Machine.execPowerUp s
  | .holdUpEnd => Sys2Proof.Machine.execHoldUpEnd s
  | .pcieLinkL0 => Sys2Proof.Machine.execPcieLinkL0 s
  | .statusCodeword port cw => Sys2Proof.Machine.execStatusCodeword port cw s
  | .smbAlertNAssert now => Sys2Proof.Machine.execSmbAlertNAssert now s

end Sys2Proof.Machine
end

