-- ==== Sys2Proof/Machine/Tick.lean ====
section
/-! DEFINITION. One management cycle of the module while no command waits: latched aborts and releases, due replies, the Isle
cycles of the running jobs, and the waits of the Strait reduction units. -/

namespace Sys2Proof.Machine

/-- The Isle cycles that an Isle's Skerry is to have counted by now: six a management cycle from the job's start boundary, or with
no job, in bring-up mode, while a HALT written 0 lets it run (Table ORG-2, R188). -/
def State.isleTarget (s : State) (i : IsleIdx) : Nat :=
  match s.jobAt i with
  | some j => 6 * (s.now - j.start)
  | none => if s.bringUp && s.gates.isleOn i && ((s.isle i).sk.st == .running || (s.isle i).sk.st == .stalled) then (s.isle i).sk.cyc + 1 else 0

/-- One Isle cycle of an Isle that has one due. -/
def State.isleTick (s : State) (i : IsleIdx) : State :=
  if (s.isle i).sk.cyc < s.isleTarget i then s.isleCycle i else s

/-- A management cycle of the running module. -/
def State.runCycle (s : State) : State :=
  let s := s.latches.gateCycle
  if s.reef.fatal then s
  else
    let s := s.heldTick.saveRetires
    let s := (List.range 6).foldl (fun (s : State) _ => (List.finRange 64).foldl (fun (s : State) i => s.isleTick i) s) s
    (List.finRange 8).foldl (fun (s : State) y => s.redTick y) s

/-- The clock: nothing in the states without one; before the origin only the time since PERST_N was deasserted advances. -/
def State.tick (s : State) : State :=
  if !s.clocked then s
  else
    let s := { s with sinceReset := s.sinceReset + 1 }
    if s.running then s.runCycle else s

end Sys2Proof.Machine
end

