-- ==== Sys2Proof/Safety.lean ====
section
/-! DEFINITION. What counts as a safe state, in the terms the statements use: every memory in its canonical form, and the
hard-wired content of the Atoll's curve slot 0; and the states in which an instruction meets nothing else under way. -/

namespace Sys2Proof

open Machine

/-- Every memory is in canonical form: addresses strictly rising, no entry equal to what an unlisted address reads as. -/
def memoriesCanonical (s : State) : Prop :=
  (∀ i : IsleIdx, Memory.wf (s.isle i).sto.mem ∧ Memory.wf (s.isle i).me.tiles) ∧
  (∀ c : ChanIdx, Memory.wf (s.chan c).mem) ∧ (∀ l : SliceIdx, Memory.wf (s.lagoon l).mem)

/-- Slot 0 of the Atoll holds P-384 (R391). -/
def slotZeroFixed (s : State) : Prop := s.atl.curves[0] = some Curve.p384

/-- A state every claim about a run may rely on. -/
def Safe (s : State) : Prop := memoriesCanonical s ∧ slotZeroFixed s

/-- The Isle's instruction queues are empty. -/
def queuesEmpty (is : Isle) : Prop := is.mq = [] ∧ is.vq = [] ∧ is.dq = [] ∧ is.bq = []

/-- The mover has no descriptor to fetch, read or write, no words to land and none to forward. -/
def moverIdle (m : Mover) : Prop :=
  m.batch = [] ∧ m.staged = [] ∧ m.arrivals = [] ∧ m.unread = 0 ∧ ∀ f ∈ m.fwds, f.pend = []

/-- No unit of the Isle works, and no result is on its way. -/
def unitsIdle (u : Units) : Prop := u.busy = false ∧ u.chK = none ∧ u.chE = none

/-- The module runs without a fatal fault, the Isle's Skerry can issue, its queues are empty, its units are idle and no mover
works: an instruction issued now meets nothing else under way. -/
structure Calm (s : State) (i : IsleIdx) : Prop where
  power : s.power = .running
  alive : s.reef.fatal = false
  issues : (s.isle i).canIssue = true
  queues : queuesEmpty (s.isle i)
  units : unitsIdle (s.isle i).un
  movers : ∀ k, moverIdle (s.isle k).mov

/-- `c` is the scalar instruction of an operation (Table ISA-2). -/
def IsScalar (c : Instr) (op : SOp) (i : IsleIdx) (f : SFields) : Prop :=
  match op with
  | .add => c = .add i f
  | .sub => c = .sub i f
  | .and => c = .and i f
  | .or => c = .or i f
  | .xor => c = .xor i f
  | .sll => c = .sll i f
  | .srl => c = .srl i f
  | .sra => c = .sra i f
  | .slt => c = .slt i f
  | .sltu => c = .sltu i f
  | .seq => c = .seq i f
  | .sne => c = .sne i f
  | .mul => c = .mul i f
  | .mulh => c = .mulh i f
  | .mulhu => c = .mulhu i f
  | .div => c = .div i f
  | .divu => c = .divu i f
  | .rem => c = .rem i f
  | .remu => c = .remu i f
  | .fadd => c = .fadd i f
  | .fsub => c = .fsub i f
  | .fmul => c = .fmul i f
  | .fma => c = .fma i f
  | .fdiv => c = .fdiv i f
  | .fsqrt => c = .fsqrt i f
  | .fcvtws => c = .fcvtws i f
  | .fcvtsw => c = .fcvtsw i f
  | .ld8 => c = .ld8 i f
  | .ld8u => c = .ld8u i f
  | .ld16 => c = .ld16 i f
  | .ld16u => c = .ld16u i f
  | .ld32 => c = .ld32 i f
  | .st8 => c = .st8 i f
  | .st16 => c = .st16 i f
  | .st32 => c = .st32 i f

/-- `c` is the conditional branch of an operation (Table ISA-3). -/
def IsBranch (c : Instr) (op : BrOp) (i : IsleIdx) (f : BrFields) : Prop :=
  match op with
  | .beq => c = .beq i f
  | .bne => c = .bne i f
  | .blt => c = .blt i f
  | .bge => c = .bge i f
  | .bltu => c = .bltu i f
  | .bgeu => c = .bgeu i f

/-- `c` is the vector instruction of an operation (Table ISA-5). -/
def IsVector (c : Instr) (op : VOp) (i : IsleIdx) (f : VFields) : Prop :=
  match op with
  | .vadd => c = .vadd i f
  | .vsub => c = .vsub i f
  | .vadds => c = .vadds i f
  | .vsubs => c = .vsubs i f
  | .vmullo => c = .vmullo i f
  | .vmax => c = .vmax i f
  | .vmin => c = .vmin i f
  | .vand => c = .vand i f
  | .vor => c = .vor i f
  | .vxor => c = .vxor i f
  | .vnot => c = .vnot i f
  | .vshl => c = .vshl i f
  | .vshr => c = .vshr i f
  | .vsra => c = .vsra i f
  | .vcmp => c = .vcmp i f
  | .vsel => c = .vsel i f
  | .vprime => c = .vprime i f
  | .vmadd => c = .vmadd i f
  | .vmsub => c = .vmsub i f
  | .vmneg => c = .vmneg i f
  | .vmmul => c = .vmmul i f
  | .vmred => c = .vmred i f
  | .vmreds => c = .vmreds i f
  | .vmctr => c = .vmctr i f
  | .vfadd => c = .vfadd i f
  | .vfsub => c = .vfsub i f
  | .vfmul => c = .vfmul i f
  | .vfma => c = .vfma i f
  | .vfmax => c = .vfmax i f
  | .vfmin => c = .vfmin i f
  | .vfcmp => c = .vfcmp i f
  | .vfdiv => c = .vfdiv i f
  | .vfsqrt => c = .vfsqrt i f
  | .vgelu => c = .vgelu i f
  | .vsilu => c = .vsilu i f
  | .vtanh => c = .vtanh i f
  | .vexp => c = .vexp i f
  | .vcvt => c = .vcvt i f
  | .vbcast => c = .vbcast i f
  | .vslide => c = .vslide i f
  | .vperm => c = .vperm i f
  | .vrsum => c = .vrsum i f
  | .vrmax => c = .vrmax i f
  | .vrmin => c = .vrmin i f
  | .vrmaxi => c = .vrmaxi i f
  | .vrcnt => c = .vrcnt i f
  | .vrfsum => c = .vrfsum i f
  | .vrfmax => c = .vrfmax i f
  | .vrfmin => c = .vrfmin i f
  | .vmovs => c = .vmovs i f
  | .vld => c = .vld i f
  | .vst => c = .vst i f
  | .vtld => c = .vtld i f
  | .vtst => c = .vtst i f

/-- `c` is the bank-side instruction of an operation (Table ST-3). -/
def IsBank (c : Instr) (op : BOp) (i : IsleIdx) (f : BFields) : Prop :=
  match op with
  | .zfill => c = .zfill i f
  | .iadd => c = .iadd i f
  | .madd => c = .madd i f
  | .msub => c = .msub i f
  | .fadd32 => c = .fadd32 i f
  | .madds => c = .madds i f
  | .mmuls => c = .mmuls i f
  | .mmult => c = .mmult i f
  | .mmack => c = .mmack i f
  | .mmace => c = .mmace i f
  | .ccf32 => c = .ccf32 i f
  | .ccb16 => c = .ccb16 i f
  | .cci32 => c = .cci32 i f
  | .ccu32 => c = .ccu32 i f

/-- `c` is the mover descriptor of an operation (Table DM-4). -/
def IsDescriptor (c : Instr) (op : DOp) (i : IsleIdx) (f : DescFields) : Prop :=
  match op with
  | .copy => c = .copy i f
  | .transpose => c = .transpose i f
  | .windowx => c = .windowx i f
  | .automorph => c = .automorph i f
  | .reverse => c = .reverse i f
  | .seedx => c = .seedx i f
  | .forward => c = .forward i f

/-- Only Isle `i` changes. -/
def OnlyIsle (s t : State) (i : IsleIdx) : Prop := t = { s with isles := t.isles } ∧ ∀ k, k ≠ i → t.isle k = s.isle k

/-- An instruction of the Skerry alone: nothing but scalar registers, the program counter with its loops and CYC (`n` Isle
cycles later) changes; no token wait of the mover is under way afterwards. -/
def SkerryStep (s t : State) (i : IsleIdx) (n : Nat) : Prop :=
  OnlyIsle s t i ∧
  t.isle i = { s.isle i with
    mov := { (s.isle i).mov with rwait := 0 }
    sk := { (s.isle i).sk with
      s := (t.isle i).sk.s, pc := (t.isle i).sk.pc, loops := (t.isle i).sk.loops, cyc := (s.isle i).sk.cyc + n } }

/-- No scalar register of Isle `i` changes but `rd`. -/
def RegsKept (s t : State) (i : IsleIdx) (rd : Fin 32) : Prop := ∀ r, r ≠ rd → (t.isle i).reg r = (s.isle i).reg r

/-- Issue goes on at byte offset `pc`; a loop whose body ends there is repeated or left (R194). -/
def ContinuesAt (s t : State) (i : IsleIdx) (pc : Nat) : Prop :=
  ((t.isle i).sk.loops, (t.isle i).sk.pc) = settleLoops (s.isle i).sk.loops pc

/-- The command answers a next state in which the value is in `rd` (s0 reads 0), one Isle cycle later, and nothing else of
the Isle but its program counter has changed. -/
def WritesScalar (c : Instr) (s : State) (i : IsleIdx) (rd : Fin 32) (v : Word) : Prop :=
  ∃ t, exec c s = .next t ∧ SkerryStep s t i 1 ∧ ContinuesAt s t i ((s.isle i).sk.pc + 8) ∧ RegsKept s t i rd ∧
    (t.isle i).reg rd = if rd = 0 then 0 else v

/-- The branch completes: taken, issue goes on at PC + imm three Isle cycles later, else at the next instruction; no register
changes (R193). -/
def Branches (c : Instr) (s : State) (i : IsleIdx) (imm : Word) (taken : Prop) : Prop :=
  ∃ t, exec c s = .next t ∧ (t.isle i).sk.s = (s.isle i).sk.s ∧
    (taken → SkerryStep s t i 3 ∧ (t.isle i).sk.loops = (s.isle i).sk.loops ∧
      (t.isle i).sk.pc = ((((s.isle i).sk.pc : Int) + imm.toInt) % 2 ^ 32).toNat) ∧
    (¬ taken → SkerryStep s t i 1 ∧ ContinuesAt s t i ((s.isle i).sk.pc + 8))

/-- Bytes the Isle's instructions see of its store (R185). -/
def visibleBytes (s : State) (i : IsleIdx) : Nat := if s.isleCompat i then 0x200000 else 0x300000

/-- `new` is `old` with the bytes at address `a` upward replaced; every other byte reads as before. -/
def WritesBytes (old new : Mem) (a : Nat) (bytes : List Byte) : Prop :=
  (∀ k (h : k < bytes.length), memRead new (a + k) = bytes[k]) ∧
  ∀ x, (x < a ∨ a + bytes.length ≤ x) → memRead new x = memRead old x

/-- No block of any DRAM channel has a wrong symbol. -/
def dramClean (s : State) : Prop := ∀ c, (s.chan c).errs = [] ∧ (s.chan c).chk = []

/-- No byte of a memory changes. -/
def SameBytes (old new : Mem) : Prop := ∀ x, memRead new x = memRead old x

/-- Only Isle `i` changes, but for an armed injection that a write of its memories uses up (R408). -/
def OnlyIsleAndInjection (s t : State) (i : IsleIdx) : Prop :=
  t = { s with isles := t.isles, reef := { s.reef with injArmed := t.reef.injArmed } } ∧ ∀ k, k ≠ i → t.isle k = s.isle k

/-- The store completes: `n` bytes of the word go to the computed address and nowhere else; no scalar register, tile register,
vector register, queue or slot changes. -/
def StoresScalar (c : Instr) (s : State) (i : IsleIdx) (a : Nat) (bytes : List Byte) : Prop :=
  ∃ t, exec c s = .next t ∧ OnlyIsleAndInjection s t i ∧ ContinuesAt s t i ((s.isle i).sk.pc + 8) ∧
    t.isle i = { s.isle i with
      mov := { (s.isle i).mov with rwait := 0 }
      sto := { (s.isle i).sto with mem := (t.isle i).sto.mem, errs := (t.isle i).sto.errs, inj := (t.isle i).sto.inj }
      sk := { (s.isle i).sk with
        pc := (t.isle i).sk.pc, loops := (t.isle i).sk.loops, cyc := (s.isle i).sk.cyc + 1 } } ∧
    WritesBytes (s.isle i).sto.mem (t.isle i).sto.mem a bytes

/-- The Skerry trapped at its instruction with a cause, and a contained fault was counted (R185, R187). -/
def Traps (c : Instr) (s : State) (i : IsleIdx) (cause : BitVec 6) : Prop :=
  ∃ t, exec c s = .next t ∧ (t.isle i).sk.st = .trapped ∧ (t.isle i).sk.cause = cause ∧
    (t.isle i).sk.pc = (s.isle i).sk.pc ∧ (s.chargedJob i.row = none → (t.isle i).sk.s = (s.isle i).sk.s) ∧
    (t.isle i).sto.mem = (s.isle i).sto.mem ∧ t.reef.cont = satInc32 s.reef.cont

/-- What an instruction of the vector engine leaves of its Isle: the token changes of its sync field, one Isle cycle at the
Skerry, sticky flags that only ever rise, and no memory, prime, generator or queue. -/
def VectorStep (s t : State) (i : IsleIdx) (y : Sync) : Prop :=
  OnlyIsle s t i ∧ ContinuesAt s t i ((s.isle i).sk.pc + 8) ∧
  t.isle i = { s.isle i with
    mov := { (s.isle i).mov with rwait := 0 }
    sto := { (s.isle i).sto with slots := ((s.isle i).syncDone y).sto.slots }
    ve := { (s.isle i).ve with
      v := (t.isle i).ve.v, sat := (t.isle i).ve.sat, ovf := (t.isle i).ve.ovf, nan := (t.isle i).ve.nan }
    sk := { (s.isle i).sk with
      s := (t.isle i).sk.s, pc := (t.isle i).sk.pc, loops := (t.isle i).sk.loops, cyc := (s.isle i).sk.cyc + 1 } }

/-- A vector instruction without a generator can execute at once: the Isle is calm and its tokens allow it. -/
structure VectorReady (s : State) (i : IsleIdx) (f : VFields) : Prop where
  calm : Calm s i
  once : f.ag = 15
  tokens : (s.isle i).ready f.sync = true

/-- Lane `k` of register `r`. -/
def vlane (s : State) (i : IsleIdx) (w : Nat) (r : Fin 32) (k : Nat) : Nat := lane w (s.isle i).ve.v[r] k

/-- The b operand of lane `k`: register vb, or the scalar in every lane where bit `sel` of AUX selects it. -/
def blane (s : State) (i : IsleIdx) (w : Nat) (f : VFields) (sel k : Nat) : Nat :=
  if f.aux.getLsbD sel then ((s.isle i).reg f.sn).toNat % 2 ^ w else vlane s i w f.vb k

/-- The sticky flags of ISL_VESTAT after an instruction are those before, and what it adds (R177). -/
def AddsFlags (s t : State) (i : IsleIdx) (fl : FlagSet) : Prop :=
  (t.isle i).ve.sat = ((s.isle i).ve.sat || fl.sat) ∧ (t.isle i).ve.ovf = ((s.isle i).ve.ovf || fl.ovf) ∧
  (t.isle i).ve.nan = ((s.isle i).ve.nan || fl.nan)

/-- The instruction writes `g k` into lane `k` of vd for every lane of width `w`, adds the flags, and writes no other
register. -/
def WritesLanes (c : Instr) (s : State) (i : IsleIdx) (f : VFields) (w : Nat) (g : Nat → Nat) (fl : FlagSet) : Prop :=
  ∃ t, exec c s = .next t ∧ VectorStep s t i f.sync ∧ (t.isle i).sk.s = (s.isle i).sk.s ∧ AddsFlags s t i fl ∧
    (∀ r, r ≠ f.vd → (t.isle i).ve.v[r] = (s.isle i).ve.v[r]) ∧ ∀ k, k < 2048 / w → vlane t i w f.vd k = g k

/-- The same for a float operation: lane `k` holds the bits of a rounded result, whose flags are added. -/
def WritesFloats (c : Instr) (s : State) (i : IsleIdx) (f : VFields) (g : Nat → FRes) : Prop :=
  let w := typeWidth f.ty
  WritesLanes c s i f w (fun k => (g k).bits)
    ⟨false, decide (∃ k, k < 2048 / w ∧ (g k).ovf = true), decide (∃ k, k < 2048 / w ∧ (g k).nan = true)⟩

/-- The instruction writes the summary to s_sN, adds the flags, and writes no vector register. -/
def WritesSummary (c : Instr) (s : State) (i : IsleIdx) (f : VFields) (x : Word × FlagSet) : Prop :=
  ∃ t, exec c s = .next t ∧ VectorStep s t i f.sync ∧ (t.isle i).ve.v = (s.isle i).ve.v ∧ AddsFlags s t i x.2 ∧
    RegsKept s t i f.sn ∧ (t.isle i).reg f.sn = if f.sn = 0 then 0 else x.1

/-- A packet of opcode `op` that the authority holder interprets as a command: the gate of R342, R347 and R405 lets it pass, and
its VERSION is its queue's. -/
structure PacketReady (s : State) (op : BitVec 16) (p : Packet) : Prop where
  opcode : p.opcode = op
  can : s.canInterpret p = true
  alive : s.reef.fatal = false
  greeted : p.version ≠ 0
  version : (s.queue p.fn p.q).version = p.version

/-- The OPCODE of a host packet beside HELLO (Table HC-6). -/
def opcodeOf : Instr → BitVec 16
  | .loadProgram _ _ => 0x10
  | .loadParamset _ _ => 0x11
  | .loadKeyset _ _ => 0x12
  | .submitJob _ | .armJob _ => 0x20
  | .abortJob _ => 0x21
  | .releaseResult _ => 0x22
  | .openWindow _ => 0x30
  | .closeWindow _ => 0x31
  | .setOwner _ => 0x50
  | .logRead _ => 0x60
  | .logClear _ _ => 0x61
  | .bistSlice _ | .depotTest _ => 0x70
  | .retirePage _ => 0x80
  | .queryHealth _ => 0x90
  | _ => 0x40

/-- `c` is the Atoll packet of an operation, with its operands and the functions that may issue it (Table AT-1, Table AT-2). -/
def atollOf : Instr → Option (AtollOp × Packet × List Byte × Bool × Bool)
  | .modexp p d => some (.modexp, p, d, true, true)
  | .ecmul p d => some (.ecmul, p, d, true, true)
  | .verify p d => some (.verify, p, d, true, true)
  | .sign p d => some (.sign, p, d, true, true)
  | .kaStart p => some (.kaStart, p, [], false, true)
  | .kaFinish p d => some (.kaFinish, p, d, false, true)
  | .ownkey p d => some (.ownkey, p, d, false, true)
  | .curveload p d => some (.curveload, p, d, true, true)
  | .anchor p d => some (.anchor, p, d, true, false)
  | _ => none

/-- The host packets beside HELLO: the packet, whether the PF and a VF may issue it, and whether the PF's is served after a
fatal fault (Table HC-6, R405). -/
def gateOf : Instr → Option (Packet × Bool × Bool × Bool)
  | .loadProgram p _ | .loadParamset p _ | .loadKeyset p _ | .submitJob p | .armJob p | .abortJob p | .releaseResult p
  | .openWindow p | .closeWindow p | .kaStart p | .kaFinish p _ | .ownkey p _ => some (p, false, true, false)
  | .modexp p _ | .ecmul p _ | .verify p _ | .sign p _ | .curveload p _ => some (p, true, true, false)
  | .anchor p _ | .setOwner p | .logClear p _ | .bistSlice p | .depotTest p | .retirePage p => some (p, true, false, false)
  | .logRead p => some (p, true, false, true)
  | .queryHealth p => some (p, true, true, true)
  | _ => none

/-- The packet's OPCODE, and an ATOLL_OP's OP, are the command's (R346, R385). -/
def spells (c : Instr) (p : Packet) : Prop := p.opcode = opcodeOf c ∧ ∀ x, atollOf c = some x → opNamed p = x.1.code

end Sys2Proof
end

