-- ==== Sys2Proof/WellFormed.lean ====
section
/-! DEFINITION. Which commands are well formed: the lengths of the byte strings they carry, and the bounds of what an image
declares. -/

namespace Sys2Proof

/-- The values a job's program can name: its inputs, then each operation's output. -/
def HeOp.operands : HeOp → List Nat
  | .add a b | .sub a b | .pmul a b | .mul a b | .mulr a b => [a, b]
  | .rescale a | .moddrop a _ | .rot a _ | .conj a | .ntt a | .intt a | .levelRefresh a _ | .extract a _ _ _ _ _
  | .bitRefresh a _ _ => [a]
  | .repack as _ => as

/-- Operands name earlier values, and a Galois element is odd and below 2N (R78). -/
def progOk : Nat → List HeOp → Bool
  | _, [] => true
  | n, op :: t =>
    op.operands.all (· < n) && (match op with
      | .rot _ g => g % 2 == 1
      | .moddrop _ k => decide (1 ≤ k)
      | _ => true) && progOk (n + 1) t

/-- The sections of an image agree with one another: results name values of the program, one slot table and mover plan per
Isle position of the run at most, page sizes of R214 and slot tables of R204. -/
def ImageSections.ok (x : ImageSections) : Bool :=
  progOk x.inputs.length x.prog && x.results.all (fun r => r.value < x.inputs.length + x.prog.length) &&
  decide (1 ≤ x.pages.length) && decide (x.pages.length ≤ 16) && x.pages.all (fun p => p.length ≤ 4096) &&
  decide (x.slotTables.length ≤ 64) && x.slotTables.all (fun t => t.length ≤ 128) && decide (x.moverPlans.length ≤ 64) &&
  decide (x.lagoonPlan.length ≤ 16) && x.lagoonPlan.all (· != 3) && decide (x.results.length ≤ 63) &&
  x.luts.all (fun l => l.length == 256)

/-- The run that an image's header gives lies in rows 0 to 7 or names none (R353). -/
def ImageData.ok (d : ImageData) : Bool := d.sections.ok && decide (256 ≤ d.raw.length)

/-- Header and record table of a manifest, and one body per entry (R355). -/
def ManifestData.ok (m : ManifestData) : Bool :=
  decide (64 ≤ m.raw.length) && m.raw.length == 64 + 16 * m.records.length && m.records.all (fun r => 16384 ≤ r.length)

/-- Bytes of a flit on a Strait, of a control codeword, and of a mesh flit (R294, R296, R24). -/
def flitBytes : Nat := 294
def codewordBytes : Nat := 34

/-- Well-formedness of a command. -/
def Instr.wellFormed : Instr → Bool
  | .commandFetch _ _ e => e.length == 64 || e.length == 48
  | .loadParamset _ r => r.length == 1024
  | .loadProgram _ d => d.ok
  | .loadKeyset _ m => m.ok
  | .keyFlit _ w | .winFlit _ w | .redFlit _ w | .idleFlit _ w => w.length == flitBytes
  | .wstate _ w | .nack _ w | .statusCodeword _ w => w.length == codewordBytes
  | .meshFlitDelivery _ h p => h.length == 27 && p.length == 140
  | .hostDramWrite _ _ d => decide (1 ≤ d.length)
  | .hostDramRead _ _ n => decide (1 ≤ n)
  | .resultRead _ _ o n => decide (1 ≤ n) && decide (o + n ≤ 2 ^ 34)
  | _ => true

end Sys2Proof
end

