-- ==== Sys2Proof/Certificates/Slice0/Obligations.lean ====
section
/-! DEFINITION. The statements about the model for the provers: what each command does, what it leaves alone, and what every
step keeps. A statement that joins several claims names them, and each claim stands before it. -/

open Sys2Proof Sys2Proof.Machine

/-! ## Skerry -/

/-- The integer operations of Table ISA-2 write their results: s_sd gets the value, every other register stays. Divisions by
zero and −2^31 by −1 as R185 gives them. -/
def Obligations.ScalarIntegerResults : Prop :=
  ∀ (s : State) (i : IsleIdx) (f : SFields), Calm s i →
    let a := (s.isle i).reg f.sa
    let b := if f.useImm then f.imm else (s.isle i).reg f.sb
    let n := b.toNat % 32
    WritesScalar (.add i f) s i f.sd (a + b) ∧ WritesScalar (.sub i f) s i f.sd (a - b) ∧
    WritesScalar (.and i f) s i f.sd (a &&& b) ∧ WritesScalar (.or i f) s i f.sd (a ||| b) ∧
    WritesScalar (.xor i f) s i f.sd (a ^^^ b) ∧ WritesScalar (.sll i f) s i f.sd (a <<< n) ∧
    WritesScalar (.srl i f) s i f.sd (a >>> n) ∧ WritesScalar (.sra i f) s i f.sd (a.sshiftRight n) ∧
    WritesScalar (.slt i f) s i f.sd (if a.toInt < b.toInt then 1 else 0) ∧
    WritesScalar (.sltu i f) s i f.sd (if a.toNat < b.toNat then 1 else 0) ∧
    WritesScalar (.seq i f) s i f.sd (if a = b then 1 else 0) ∧ WritesScalar (.sne i f) s i f.sd (if a = b then 0 else 1) ∧
    WritesScalar (.mul i f) s i f.sd (a * b) ∧
    WritesScalar (.mulh i f) s i f.sd (BitVec.ofInt 32 (a.toInt * b.toInt / 2 ^ 32)) ∧
    WritesScalar (.mulhu i f) s i f.sd (BitVec.ofNat 32 (a.toNat * b.toNat / 2 ^ 32)) ∧
    WritesScalar (.div i f) s i f.sd (if b = 0 then 0xFFFFFFFF else BitVec.ofInt 32 (a.toInt.tdiv b.toInt)) ∧
    WritesScalar (.divu i f) s i f.sd (if b = 0 then 0xFFFFFFFF else BitVec.ofNat 32 (a.toNat / b.toNat)) ∧
    WritesScalar (.rem i f) s i f.sd (if b = 0 then a else BitVec.ofInt 32 (a.toInt.tmod b.toInt)) ∧
    WritesScalar (.remu i f) s i f.sd (if b = 0 then a else BitVec.ofNat 32 (a.toNat % b.toNat))

/-- The float operations write the fp32 result of one rounding, and no NaN but the canonical one; FMA reads s_sc as well. -/
def Sys2Proof.Claims.ScalarFloats : Prop :=
  ∀ (s : State) (i : IsleIdx) (f : SFields), Calm s i →
    let a := (s.isle i).reg f.sa
    let b := (s.isle i).opB f
    let x := FV.ofBits fp32 a.toNat
    let y := FV.ofBits fp32 b.toNat
    let z := FV.ofBits fp32 ((s.isle i).reg f.sc).toNat
    let out := fun (v : FV) => BitVec.ofNat 32 (v.round fp32).bits
    WritesScalar (.fadd i f) s i f.sd (out (x.add y)) ∧ WritesScalar (.fsub i f) s i f.sd (out (x.sub y)) ∧
    WritesScalar (.fmul i f) s i f.sd (out (x.mul y)) ∧ WritesScalar (.fma i f) s i f.sd (out ((x.mul y).add z)) ∧
    WritesScalar (.fdiv i f) s i f.sd (out (x.div y)) ∧ WritesScalar (.fsqrt i f) s i f.sd (out x.sqrt) ∧
    WritesScalar (.fcvtws i f) s i f.sd (f32toInt a) ∧ WritesScalar (.fcvtsw i f) s i f.sd (out (.ofInt a.toInt)) ∧
    (∀ v : FV, (FV.ofBits fp32 (v.round fp32).bits).isNan = true → (v.round fp32).bits = 0x7FC00000)

/-- Rounding is to the nearest value, ties to even: the shift that ends every float operation leaves an error of at most half
a unit of the last place, and an even result when the error is exactly half. -/
def Sys2Proof.Claims.RoundingIsNearestEven : Prop :=
  ∀ (m k : Nat),
    2 * (rneShift m k * 2 ^ k) ≤ 2 * m + 2 ^ k ∧ 2 * m ≤ 2 * (rneShift m k * 2 ^ k) + 2 ^ k ∧
    (2 * m + 2 ^ k = 2 * (rneShift m k * 2 ^ k) ∨ 2 * m = 2 * (rneShift m k * 2 ^ k) + 2 ^ k → rneShift m k % 2 = 0)

/-- The scalar float operations: results rounded once, and the rounding is to the nearest value with ties to even (R185). -/
def Obligations.ScalarFloatResults : Prop :=
  Claims.ScalarFloats ∧ Claims.RoundingIsNearestEven

/-- Loads within the visible store and aligned write the bytes at s_sa + IMM32, little-endian, sign- or zero-extended. -/
def Sys2Proof.Claims.ScalarLoads : Prop :=
  ∀ (s : State) (i : IsleIdx) (f : SFields), Calm s i → (s.isle i).sto.errs = [] →
    let a := ((s.isle i).reg f.sa + f.imm).toNat
    let b := fun k => memRead (s.isle i).sto.mem (a + k)
    (a + 1 ≤ visibleBytes s i → WritesScalar (.ld8 i f) s i f.sd ((b 0).signExtend 32) ∧
      WritesScalar (.ld8u i f) s i f.sd ((b 0).zeroExtend 32)) ∧
    (a + 2 ≤ visibleBytes s i → a % 2 = 0 → WritesScalar (.ld16 i f) s i f.sd ((b 1 ++ b 0).signExtend 32) ∧
      WritesScalar (.ld16u i f) s i f.sd ((b 1 ++ b 0).zeroExtend 32)) ∧
    (a + 4 ≤ visibleBytes s i → a % 4 = 0 → WritesScalar (.ld32 i f) s i f.sd (b 3 ++ b 2 ++ b 1 ++ b 0))

/-- Stores write the low bytes of s_sb at s_sa + IMM32 and nothing else of any memory, register or queue. -/
def Sys2Proof.Claims.ScalarStores : Prop :=
  ∀ (s : State) (i : IsleIdx) (f : SFields), Calm s i → Memory.wf (s.isle i).sto.mem = true →
    let a := ((s.isle i).reg f.sa + f.imm).toNat
    let x := (s.isle i).reg f.sb
    (a + 1 ≤ visibleBytes s i → StoresScalar (.st8 i f) s i a [x.extractLsb' 0 8]) ∧
    (a + 2 ≤ visibleBytes s i → a % 2 = 0 → StoresScalar (.st16 i f) s i a [x.extractLsb' 0 8, x.extractLsb' 8 8]) ∧
    (a + 4 ≤ visibleBytes s i → a % 4 = 0 → StoresScalar (.st32 i f) s i a
      [x.extractLsb' 0 8, x.extractLsb' 8 8, x.extractLsb' 16 8, x.extractLsb' 24 8])

/-- An access beyond the visible store traps with cause 1 (that cause also where the access is misaligned as well, the model's choice, notes/assumptions/20.md);
one within it that is not aligned to its width traps with cause 2. The module counts a contained fault and no store byte
changes. -/
def Sys2Proof.Claims.ScalarAccessTraps : Prop :=
  ∀ (s : State) (i : IsleIdx) (f : SFields) (op : SOp) (c : Instr), Calm s i → IsScalar c op i f → accessBytes op ≠ 0 →
    let a := ((s.isle i).reg f.sa + f.imm).toNat
    (visibleBytes s i < a + accessBytes op → Traps c s i 1) ∧
    (a + accessBytes op ≤ visibleBytes s i → a % accessBytes op ≠ 0 → Traps c s i 2)

/-- Scalar loads, stores and the traps of both (R185, R192). -/
def Obligations.ScalarLoadsStoresAndTraps : Prop :=
  Claims.ScalarLoads ∧ Claims.ScalarStores ∧ Claims.ScalarAccessTraps

/-- Conditional branches and J (Table ISA-3). -/
def Obligations.BranchesAndJump : Prop :=
  ∀ (s : State) (i : IsleIdx) (f : BrFields) (imm : Word), Calm s i →
    let a := (s.isle i).reg f.sa
    let b := (s.isle i).reg f.sb
    Branches (.beq i f) s i f.imm (a = b) ∧ Branches (.bne i f) s i f.imm (a ≠ b) ∧
    Branches (.blt i f) s i f.imm (a.toInt < b.toInt) ∧ Branches (.bge i f) s i f.imm (b.toInt ≤ a.toInt) ∧
    Branches (.bltu i f) s i f.imm (a.toNat < b.toNat) ∧ Branches (.bgeu i f) s i f.imm (b.toNat ≤ a.toNat) ∧
    Branches (.j i imm) s i imm True

/-- LOOP opens a loop with the latched count, or skips its body when the count is 0 (R194). -/
def Sys2Proof.Claims.LoopOpens : Prop :=
  ∀ (s : State) (i : IsleIdx) (sa : Fin 32) (ci : Bool) (maxcnt : BitVec 24) (body : BitVec 16), Calm s i →
    let k := (s.isle i).sk
    let count := if ci then maxcnt.toNat else min (((s.isle i).reg sa).toNat % 2 ^ 24) maxcnt.toNat
    let past := k.pc + 8 + 8 * body.toNat
    ∃ t, exec (.loop i sa ci maxcnt body) s = .next t ∧ (t.isle i).sk.s = k.s ∧
      (count = 0 → SkerryStep s t i 3 ∧ ContinuesAt s t i past) ∧
      (count ≠ 0 → body ≠ 0 → SkerryStep s t i 1 ∧ (t.isle i).sk.pc = k.pc + 8 ∧
        (t.isle i).sk.loops = { first := k.pc + 8, past := past, count := count, idx := 0 } :: k.loops) ∧
      (count ≠ 0 → body = 0 → SkerryStep s t i 1 ∧ ContinuesAt s t i past)

/-- A loop repeats its body while iterations remain: at the end of the innermost body the index advances and issue goes back
to the first body instruction; after the last iteration the loop is gone. -/
def Sys2Proof.Claims.LoopRepeatsOrEnds : Prop :=
  ∀ (l : LoopFrame) (rest : List LoopFrame) (pc : Nat),
    (pc = l.past → l.idx + 1 < l.count → settleLoops (l :: rest) pc = ({ l with idx := l.idx + 1 } :: rest, l.first)) ∧
    (pc = l.past → l.count ≤ l.idx + 1 → settleLoops (l :: rest) pc = settleLoops rest pc) ∧
    (pc ≠ l.past → settleLoops (l :: rest) pc = (l :: rest, pc)) ∧
    (∀ f ∈ (settleLoops (l :: rest) pc).1, f ∈ rest ∨ f = l ∨ ∃ g ∈ l :: rest, f = { g with idx := g.idx + 1 } ∧ f.idx < f.count)

/-- LEXIT leaves the innermost loop when s_sa is not 0, and LIDX writes the index of the k-th loop outward. -/
def Sys2Proof.Claims.LoopExitAndIndex : Prop :=
  ∀ (s : State) (i : IsleIdx) (sa sd : Fin 32) (k : Fin 8), Calm s i →
    (∃ t, exec (.lexit i sa) s = .next t ∧ (t.isle i).sk.s = (s.isle i).sk.s ∧
      ((s.isle i).reg sa = 0 → SkerryStep s t i 1 ∧ ContinuesAt s t i ((s.isle i).sk.pc + 8)) ∧
      (∀ l rest, (s.isle i).reg sa ≠ 0 → (s.isle i).sk.loops = l :: rest →
        SkerryStep s t i 3 ∧ ((t.isle i).sk.loops, (t.isle i).sk.pc) = settleLoops rest l.past)) ∧
    (∀ l, (s.isle i).sk.loops[k.val]? = some l → WritesScalar (.lidx i sd k) s i sd (BitVec.ofNat 32 l.idx)) ∧
    ∃ v, WritesScalar (.lidx i sd k) s i sd v

/-- Hardware loops: opening, repeating, leaving and reading an index (R194, R195). -/
def Obligations.LoopsOpenRepeatAndExit : Prop :=
  Claims.LoopOpens ∧ Claims.LoopRepeatsOrEnds ∧ Claims.LoopExitAndIndex

/-- CSRR reads the registers of Table VS-3. -/
def Sys2Proof.Claims.ControlRegisterReads : Prop :=
  ∀ (s : State) (i : IsleIdx) (sd : Fin 32), Calm s i →
    let k := (s.isle i).sk
    let v := (s.isle i).ve
    let reads := fun (n : BitVec 12) (x : Word) => WritesScalar (.csrr i sd n) s i sd x
    reads 0x000 (BitVec.ofNat 32 i.val) ∧ reads 0x001 (0#16 ++ k.runFirst ++ k.runRows) ∧ reads 0x002 (k.owner.zeroExtend 32) ∧
    reads 0x003 k.jobtag ∧ reads 0x005 k.cycHi ∧ reads 0x006 (if k.active then 1 else 0) ∧
    reads 0x007 (0#29 ++ BitVec.ofBool v.sat ++ BitVec.ofBool v.ovf ++ BitVec.ofBool v.nan) ∧
    reads 0x010 k.scr[0] ∧ reads 0x011 k.scr[1] ∧ reads 0x012 k.scr[2] ∧ reads 0x013 k.scr[3] ∧
    (∃ t, exec (.csrr i sd 0x004) s = .next t ∧ OnlyIsle s t i ∧ RegsKept s t i sd ∧
      (t.isle i).reg sd = (if sd = 0 then 0 else BitVec.ofNat 32 k.cyc) ∧
      (t.isle i).sk.cycHi = BitVec.ofNat 32 (k.cyc / 2 ^ 32) ∧ (t.isle i).sk.cyc = k.cyc + 1 ∧
      (t.isle i).sto = (s.isle i).sto ∧ (t.isle i).me = (s.isle i).me ∧ (t.isle i).ve = v)

/-- CSRW writes SCR0 to SCR3 and no other control register. -/
def Sys2Proof.Claims.ControlRegisterWrites : Prop :=
  ∀ (s : State) (i : IsleIdx) (sa : Fin 32) (n : BitVec 12), Calm s i →
    ∃ t, exec (.csrw i sa n) s = .next t ∧ OnlyIsle s t i ∧ ContinuesAt s t i ((s.isle i).sk.pc + 8) ∧
      t.isle i = { s.isle i with
        mov := { (s.isle i).mov with rwait := 0 }
        sk := { (s.isle i).sk with
          scr := (t.isle i).sk.scr, pc := (t.isle i).sk.pc, loops := (t.isle i).sk.loops, cyc := (s.isle i).sk.cyc + 1 } } ∧
      ∀ k : Fin 4, (t.isle i).sk.scr[k] = if n.toNat = 0x10 + k.val then (s.isle i).reg sa else (s.isle i).sk.scr[k]

/-- CSRR and CSRW (Table VS-3). -/
def Obligations.ControlRegisterReadsAndWrites : Prop :=
  Claims.ControlRegisterReads ∧ Claims.ControlRegisterWrites

/-- AGLD writes a generator from 64 store bytes, 7 Isle cycles later, and AGW the field it names, 2 Isle cycles later (R209, R212).
Beyond the visible store AGLD traps; a FIELD that names none changes nothing. -/
def Sys2Proof.Claims.GeneratorWrites : Prop :=
  ∀ (s : State) (i : IsleIdx) (ag : Fin 16) (sa : Fin 32) (imm : Word) (fld : BitVec 6), Calm s i →
    let k := (s.isle i).sk
    let a := ((s.isle i).reg sa + imm).toNat
    let writes := fun (c : Instr) (n : Nat) (x : AgSet) => ∃ t, exec c s = .next t ∧ OnlyIsle s t i ∧ ContinuesAt s t i (k.pc + 8) ∧
      t.isle i = { s.isle i with
        mov := { (s.isle i).mov with rwait := 0 }
        sk := { k.agPut ag n x with pc := (t.isle i).sk.pc, loops := (t.isle i).sk.loops, cyc := k.cyc + 1 } }
    (a + 64 ≤ visibleBytes s i → (s.isle i).sto.errs = [] →
      writes (.agld i ag sa imm) 7 (.whole (agOfBytes ((s.isle i).storeRead a 64)))) ∧
    (visibleBytes s i < a + 64 → Traps (.agld i ag sa imm) s i 1) ∧
    (fld.toNat ≤ 14 → writes (.agw i ag fld sa) 2 (.field fld.toNat ((s.isle i).reg sa))) ∧
    (14 < fld.toNat → ∃ t, exec (.agw i ag fld sa) s = .next t ∧ SkerryStep s t i 1 ∧ ContinuesAt s t i (k.pc + 8) ∧
      (t.isle i).sk.s = k.s)

/-- A write to a generator is what an instruction captures that issues in the cycle it lands or later; one that issues before
captures the old contents (R212). The fields that AGW writes (Table ISA-8, R209). -/
def Sys2Proof.Claims.GeneratorWritesLand : Prop :=
  (∀ (x : Skerry) (k j : Fin 16) (n c : Nat) (w : AgSet), x.agw = [] →
    (x.agPut k n w).agAt j c = if j = k ∧ x.cyc + n ≤ c then w.apply x.ags[j] else x.ags[j]) ∧
  ∀ (g : AddrGen) (v : Word) (k : Fin 6),
    (AgSet.field 0 v).apply g = { g with base := v.setWidth 22 } ∧
    (AgSet.field 1 v).apply g = { g with oreg := finOf 31 (v.toNat / 2 ^ 27), omask := v.setWidth 22 } ∧
    (AgSet.field (2 + k.val) v).apply g = { g with counts := vset g.counts k (v.setWidth 24) } ∧
    (AgSet.field (8 + k.val) v).apply g = { g with strides := vset g.strides k v } ∧
    (AgSet.field 14 v).apply g = { g with rotmask := v.extractLsb' 3 4, rotlog := v.extractLsb' 0 3 }

/-- CHAINH latches its header, or ends the chain with a header of zeros (with whose last tile the row statistics of a NORMSTAT link
are written, R165); CHAINA binds captured operands (R199). Both make the token changes of their sync field at MQ's head. -/
def Sys2Proof.Claims.ChainLatches : Prop :=
  ∀ (s : State) (i : IsleIdx) (sa sb : Fin 32) (x : ChainhFields) (f : ChainaFields), Calm s i →
    let r := fun k => (s.isle i).reg k
    let h : DWord := r sb ++ r sa
    let old := (s.isle i).sk.chain
    let latches := fun (c : Instr) (y : Sync) (x : Chain) => ∃ t, exec c s = .next t ∧ OnlyIsle s t i ∧
      ContinuesAt s t i ((s.isle i).sk.pc + 8) ∧
      t.isle i = { s.isle i with
        mov := { (s.isle i).mov with rwait := 0 }
        sto := { (s.isle i).sto with slots := ((s.isle i).syncDone y).sto.slots }
        sk := { (s.isle i).sk with
          chain := x, pc := (t.isle i).sk.pc, loops := (t.isle i).sk.loops, cyc := (s.isle i).sk.cyc + 1 } }
    let ended : Isle := { (s.isle i).retire 1 with
      sk := { ((s.isle i).retire 1).sk with chain := { Chain.none with gen := old.gen + 1 } } }
    ((s.isle i).ready x.sync = true →
      (h ≠ 0 → latches (.chainh i sa sb x) x.sync { old with header := h, link2 := x.link2 }) ∧
      (h = 0 → (s.isle i).me.norm = none → latches (.chainh i sa sb x) x.sync { Chain.none with gen := old.gen + 1 }) ∧
      (h = 0 → exec (.chainh i sa sb x) s = .next (s.putIsle i ((ended.normWrite (s.isleCompat i)).syncDone x.sync)))) ∧
    ((s.isle i).ready f.sync = true → latches (.chaina i f) f.sync { old with
      agp := (s.isle i).capOpt f.agp, age := (s.isle i).capOpt f.age, ags := (s.isle i).capOpt f.ags,
      sx := r f.sx, sy := r f.sy, sz := r f.sz })

/-- Address generators and chain latches (R199, R209, R212). -/
def Obligations.GeneratorAndChainLatches : Prop :=
  Claims.GeneratorWrites ∧ Claims.GeneratorWritesLand ∧ Claims.ChainLatches

/-- WAITCYC lets the next instruction issue in cycle max(c + 1, TARGET); a lateness beyond ISL_SLACK is a contained
SCHEDULE_OVERRUN with OVERRUN set (R196). -/
def Obligations.WaitForCycle : Prop :=
  ∀ (s : State) (i : IsleIdx) (target : BitVec 48), Calm s i →
    let c := (s.isle i).sk.cyc
    ∃ t, exec (.waitcyc i target) s = .next t ∧
      (c + 1 - target.toNat ≤ (s.isle i).slack.toNat → OnlyIsle s t i ∧ ContinuesAt s t i ((s.isle i).sk.pc + 8) ∧
        (t.isle i).sk.cyc = max (c + 1) target.toNat ∧ (t.isle i).sk.s = (s.isle i).sk.s ∧
        (t.isle i).sto = (s.isle i).sto ∧ (t.isle i).me = (s.isle i).me ∧ (t.isle i).ve = (s.isle i).ve ∧
        (t.isle i).tokOvr = (s.isle i).tokOvr) ∧
      ((s.isle i).slack.toNat < c + 1 - target.toNat → (t.isle i).tokOvr = true ∧ t.reef.cont = satInc32 s.reef.cont)

/-- FENCE passes and END ends the Isle once the queues they name are empty and done; SWAP makes the shadow bank active once
it holds the page (R193, R197, R216). While they must wait, they are held at issue. -/
def Obligations.FenceEndAndSwap : Prop :=
  ∀ (s : State) (i : IsleIdx) (q : BitVec 4) (page : Fin 16) (imm : Word), Calm s i →
    let k := (s.isle i).sk
    let held := fun (c : Instr) (ins : IsleInstr) => ∃ t, exec c s = .next t ∧ OnlyIsle s t i ∧
      t.isle i = { s.isle i with sk := { k with held := some ins, heldWait := 0, st := .stalled } }
    ((s.isle i).quiet q.toNat = true → ∃ t, exec (.fence i q) s = .next t ∧ SkerryStep s t i 1 ∧
      ContinuesAt s t i (k.pc + 8) ∧ (t.isle i).sk.s = k.s) ∧
    ((s.isle i).quiet q.toNat = false → held (.fence i q) (.fence q)) ∧
    ((s.isle i).quiet 15 = true →
      let e : Isle := { s.isle i with sk := { k with ended := true, st := .halted } }
      exec (.iend i) s = .next (s.putIsle i (e.normWrite (s.isleCompat i))) ∧
      ((s.isle i).me.norm = none → ∃ t, exec (.iend i) s = .next t ∧ OnlyIsle s t i ∧ t.isle i = e)) ∧
    ((s.isle i).quiet 15 = false → held (.iend i) .iend) ∧
    (k.imload = none → k.hasPage k.shadow page.val = true → ∃ t, exec (.swap i page imm) s = .next t ∧ OnlyIsle s t i ∧
      t.isle i = { s.isle i with
        mov := { (s.isle i).mov with rwait := 0 }
        sk := { k with active := !k.active, pc := imm.toNat, cyc := k.cyc + 3 } }) ∧
    (k.hasPage k.shadow page.val = false → held (.swap i page imm) (.swap page imm))

/-! ## Vector engine -/

/-- A vector instruction whose tokens are ready joins VQ, executes as often as its generator asks (once without one, R201),
and makes its token changes. -/
def Sys2Proof.Claims.VectorInstructionsComplete : Prop :=
  ∀ (s : State) (i : IsleIdx) (c : Instr) (op : VOp) (f : VFields), Calm s i → IsVector c op i f → vecOk op f = true →
    (s.isle i).ready f.sync = true →
    let r := ((s.isle i).retire 1).vecRun i (s.isleCompat i) op f ((s.isle i).reg f.sn) ((s.isle i).capOpt f.ag)
    r.2 = [] → exec c s = .next (s.putIsle i (r.1.syncDone f.sync))

/-- An operation on a lane type it does not support, or with a reserved code, is a no-operation of one Isle cycle (R171). -/
def Sys2Proof.Claims.UnsupportedLaneTypes : Prop :=
  ∀ (s : State) (i : IsleIdx) (c : Instr) (op : VOp) (f : VFields), Calm s i → IsVector c op i f → vecOk op f = false →
    ∃ t, exec c s = .next t ∧ SkerryStep s t i 1 ∧ ContinuesAt s t i ((s.isle i).sk.pc + 8) ∧ (t.isle i).sk.s = (s.isle i).sk.s

/-- Every vector instruction completes: on a supported lane type it executes, on any other it is a no-operation (R171, R201). -/
def Obligations.VectorInstructionsFinish : Prop :=
  Claims.VectorInstructionsComplete ∧ Claims.UnsupportedLaneTypes

/-- The integer lane operations: add, subtract and multiply keep the low bits, the saturating forms clamp and set SAT, shifts
take their amount modulo the lane width (R174). -/
def Sys2Proof.Claims.VectorIntegerLanes : Prop :=
  ∀ (s : State) (i : IsleIdx) (f : VFields), VectorReady s i f → f.ty.toNat ≤ 2 →
    let w := typeWidth f.ty
    let a := fun k => vlane s i w f.va k
    let b := fun k => blane s i w f 0 k
    let sa := fun k => signedOf w (a k)
    let sb := fun k => signedOf w (b k)
    let uns := f.aux.getLsbD 2 = true
    let hi : Int := 2 ^ (w - 1) - 1
    let lo : Int := -2 ^ (w - 1)
    let clamp := fun (x : Int) => wrapOf w (max lo (min hi x))
    let out := fun (x : Nat → Int) => decide (∃ k, k < 2048 / w ∧ (x k < lo ∨ hi < x k))
    let lanes := fun (c : Instr) (g : Nat → Nat) => WritesLanes c s i f w g FlagSet.none
    lanes (.vadd i f) (fun k => (a k + b k) % 2 ^ w) ∧ lanes (.vsub i f) (fun k => wrapOf w ((a k : Int) - b k)) ∧
    lanes (.vmullo i f) (fun k => a k * b k % 2 ^ w) ∧
    WritesLanes (.vadds i f) s i f w (fun k => clamp (sa k + sb k)) ⟨out (fun k => sa k + sb k), false, false⟩ ∧
    WritesLanes (.vsubs i f) s i f w (fun k => clamp (sa k - sb k)) ⟨out (fun k => sa k - sb k), false, false⟩ ∧
    (uns → lanes (.vmax i f) (fun k => max (a k) (b k)) ∧ lanes (.vmin i f) (fun k => min (a k) (b k))) ∧
    (¬ uns → lanes (.vmax i f) (fun k => wrapOf w (max (sa k) (sb k))) ∧ lanes (.vmin i f) (fun k => wrapOf w (min (sa k) (sb k)))) ∧
    lanes (.vand i f) (fun k => a k &&& b k) ∧ lanes (.vor i f) (fun k => a k ||| b k) ∧
    lanes (.vxor i f) (fun k => a k ^^^ b k) ∧ lanes (.vnot i f) (fun k => 2 ^ w - 1 - a k) ∧
    lanes (.vshl i f) (fun k => a k * 2 ^ (b k % w) % 2 ^ w) ∧ lanes (.vshr i f) (fun k => a k / 2 ^ (b k % w)) ∧
    lanes (.vsra i f) (fun k => wrapOf w (sa k / 2 ^ (b k % w)))

/-- Comparisons write all ones or zero, and VSEL picks the lane of vb where the mask lane is not 0. -/
def Sys2Proof.Claims.VectorComparesAndSelects : Prop :=
  ∀ (s : State) (i : IsleIdx) (f : VFields), VectorReady s i f →
    let w := typeWidth f.ty
    let a := fun k => vlane s i w f.va k
    let b := fun k => blane s i w f 3 k
    let val := fun (x : Nat) => if f.aux.getLsbD 2 then (x : Int) else signedOf w x
    let fl := fun (x : Nat) => FV.ofBits (typeFmt f.ty) x
    let mask := fun (p : Bool) => if p then 2 ^ w - 1 else 0
    let cond := f.aux.toNat % 4
    (f.ty.toNat ≤ 2 →
      (cond = 0 → WritesLanes (.vcmp i f) s i f w (fun k => mask (decide (val (a k) = val (b k)))) FlagSet.none) ∧
      (cond = 1 → WritesLanes (.vcmp i f) s i f w (fun k => mask (decide (val (a k) ≠ val (b k)))) FlagSet.none) ∧
      (cond = 2 → WritesLanes (.vcmp i f) s i f w (fun k => mask (decide (val (a k) < val (b k)))) FlagSet.none) ∧
      (cond = 3 → WritesLanes (.vcmp i f) s i f w (fun k => mask (decide (val (a k) ≤ val (b k)))) FlagSet.none) ∧
      WritesLanes (.vsel i f) s i f w (fun k => if vlane s i w f.vc k = 0 then a k else vlane s i w f.vb k) FlagSet.none) ∧
    (3 ≤ f.ty.toNat → f.ty.toNat ≤ 5 →
      WritesLanes (.vfcmp i f) s i f w (fun k => mask (FV.cmp cond (fl (a k)) (fl (b k)))) FlagSet.none)

/-- Integer lanes, comparisons and selection (R174). -/
def Obligations.VectorIntegerAndCompareLanes : Prop :=
  Claims.VectorIntegerLanes ∧ Claims.VectorComparesAndSelects

/-- The modular lanes: every operand is read modulo the lane's prime and the result lies below it; VPRIME loads the primes
with bit 31 dropped and bit 0 set (R175). -/
def Obligations.VectorModularLanes : Prop :=
  ∀ (s : State) (i : IsleIdx) (f : VFields), VectorReady s i f → f.ty = 2 →
    let a := fun k => vlane s i 32 f.va k
    let b := fun k => vlane s i 32 f.vb k
    let p := fun k => primeOf ((s.isle i).ve.primes.getD k 0)
    let lanes := fun (c : Instr) (g : Nat → Nat) => WritesLanes c s i f 32 g FlagSet.none
    lanes (.vmadd i f) (fun k => (a k + b k) % p k) ∧ lanes (.vmsub i f) (fun k => (((a k : Int) - b k) % p k).toNat) ∧
    lanes (.vmneg i f) (fun k => ((-(a k : Int)) % p k).toNat) ∧ lanes (.vmmul i f) (fun k => a k * b k % p k) ∧
    lanes (.vmred i f) (fun k => a k % p k) ∧ lanes (.vmreds i f) (fun k => (signedOf 32 (a k) % p k).toNat) ∧
    lanes (.vmctr i f) (fun k => if a k % p k ≤ (p k - 1) / 2 then a k % p k else wrapOf 32 ((a k % p k : Nat) - (p k : Int))) ∧
    ∃ t, exec (.vprime i f) s = .next t ∧ OnlyIsle s t i ∧ (t.isle i).ve.v = (s.isle i).ve.v ∧ (t.isle i).sk.s = (s.isle i).sk.s ∧
      (t.isle i).sto.mem = (s.isle i).sto.mem ∧ (t.isle i).me = (s.isle i).me ∧
      ∀ k, k < 64 → ((t.isle i).ve.primes.getD k 0).toNat = (a k % 2 ^ 31) ||| 1

/-- The float lanes: one rounding of the exact result in the lane format, OVF and NAN sticky (R176). -/
def Obligations.VectorFloatLanes : Prop :=
  ∀ (s : State) (i : IsleIdx) (f : VFields), VectorReady s i f → 3 ≤ f.ty.toNat → f.ty.toNat ≤ 5 →
    let w := typeWidth f.ty
    let fm := typeFmt f.ty
    let x := fun k => FV.ofBits fm (vlane s i w f.va k)
    let y := fun k => FV.ofBits fm (blane s i w f 0 k)
    let z := fun k => FV.ofBits fm (vlane s i w f.vc k)
    let word := fun k => BitVec.ofNat 32 (vlane s i w f.va k)
    WritesFloats (.vfadd i f) s i f (fun k => ((x k).add (y k)).round fm) ∧
    WritesFloats (.vfsub i f) s i f (fun k => ((x k).sub (y k)).round fm) ∧
    WritesFloats (.vfmul i f) s i f (fun k => ((x k).mul (y k)).round fm) ∧
    WritesFloats (.vfma i f) s i f (fun k => (((x k).mul (y k)).add (z k)).round fm) ∧
    WritesFloats (.vfmax i f) s i f (fun k => ((x k).maxMin true (y k)).round fm) ∧
    WritesFloats (.vfmin i f) s i f (fun k => ((x k).maxMin false (y k)).round fm) ∧
    (f.ty = 3 → WritesFloats (.vfdiv i f) s i f (fun k => ((x k).div (y k)).round fm) ∧
      WritesFloats (.vfsqrt i f) s i f (fun k => (x k).sqrt.round fm) ∧
      WritesFloats (.vgelu i f) s i f (fun k => transf 0 (word k)) ∧ WritesFloats (.vsilu i f) s i f (fun k => transf 1 (word k)) ∧
      WritesFloats (.vtanh i f) s i f (fun k => transf 2 (word k)) ∧ WritesFloats (.vexp i f) s i f (fun k => transf 3 (word k)))

/-- VBCAST, VSLIDE, VPERM and VCVT (R176, R179). -/
def Obligations.VectorMoves : Prop :=
  ∀ (s : State) (i : IsleIdx) (f : VFields), VectorReady s i f →
    let w := typeWidth f.ty
    let n := 2048 / w
    let a := fun k => vlane s i w f.va k
    let x := ((s.isle i).reg f.sn).toNat
    let d := x % 256
    (f.ty.toNat ≤ 2 → WritesLanes (.vbcast i f) s i f w (fun _ => x % 2 ^ w) FlagSet.none ∧
      (f.aux.getLsbD 0 = true → WritesLanes (.vslide i f) s i f w (fun k => if k + d < n then a (k + d) else 0) FlagSet.none) ∧
      (f.aux.getLsbD 0 = false → WritesLanes (.vslide i f) s i f w (fun k => if d ≤ k then a (k - d) else 0) FlagSet.none)) ∧
    (f.ty = 0 → WritesLanes (.vperm i f) s i f 8 (fun k => vlane s i 8 f.va (vlane s i 8 f.vb k % 256)) FlagSet.none) ∧
    (vecOk .vcvt f = true →
      let ws := cvtWidth (cvtSrc f)
      let wd := cvtWidth f.aux.toNat
      let m := 2048 / max ws wd
      let soff := if ws < wd then m * (cvtPart f % (wd / ws)) else 0
      let doff := if wd < ws then m * (cvtPart f % (ws / wd)) else 0
      let r := fun k => cvtTo f.aux.toNat (cvtValue (cvtSrc f) (vlane s i ws f.va (soff + k)))
      WritesLanes (.vcvt i f) s i f wd (fun k => if doff ≤ k ∧ k < doff + m then (r (k - doff)).1 else vlane s i wd f.vd k)
        ⟨decide (∃ k, k < m ∧ (r k).2.sat = true), decide (∃ k, k < m ∧ (r k).2.ovf = true),
         decide (∃ k, k < m ∧ (r k).2.nan = true)⟩)

/-- The summaries write s_sN: a saturated sum, the largest or smallest lane, the lowest index of the largest, the number of
lanes that are not 0, one lane (R179). -/
def Obligations.VectorSummaries : Prop :=
  ∀ (s : State) (i : IsleIdx) (f : VFields), VectorReady s i f →
    let w := typeWidth f.ty
    let n := 2048 / w
    let a := fun k => vlane s i w f.va k
    let uns := f.aux.getLsbD 2
    let val := fun (x : Nat) => if uns then (x : Int) else signedOf w x
    let sum : Int := ((List.range n).map (fun k => signedOf w (a k))).foldl (· + ·) 0
    (f.ty.toNat ≤ 2 →
      WritesSummary (.vrsum i f) s i f (BitVec.ofInt 32 (max (-2 ^ 31) (min (2 ^ 31 - 1) sum)),
        ⟨decide (sum < -2 ^ 31 ∨ 2 ^ 31 - 1 < sum), false, false⟩) ∧
      (∃ m, m < n ∧ (∀ k, k < n → val (a k) ≤ val (a m)) ∧ (∀ k, k < m → val (a k) < val (a m)) ∧
        WritesSummary (.vrmax i f) s i f (BitVec.ofInt 32 (val (a m)), FlagSet.none) ∧
        WritesSummary (.vrmaxi i f) s i f (BitVec.ofNat 32 m, FlagSet.none)) ∧
      (∃ m, m < n ∧ (∀ k, k < n → val (a m) ≤ val (a k)) ∧
        WritesSummary (.vrmin i f) s i f (BitVec.ofInt 32 (val (a m)), FlagSet.none)) ∧
      WritesSummary (.vrcnt i f) s i f (BitVec.ofNat 32 ((List.range n).countP (fun k => a k != 0)), FlagSet.none) ∧
      (movsLane f < n → WritesSummary (.vmovs i f) s i f (BitVec.ofInt 32 (val (a (movsLane f))), FlagSet.none)) ∧
      ∃ x, WritesSummary (.vmovs i f) s i f (x, FlagSet.none)) ∧
    (3 ≤ f.ty.toNat → f.ty.toNat ≤ 5 →
      let x := fun k => FV.ofBits (typeFmt f.ty) (a k)
      WritesSummary (.vrfsum i f) s i f (treeSum 8 ((List.range n).map (fun k => (f32r (x k), FlagSet.none)))) ∧
      (let m := (List.range (n - 1)).foldl (fun y k => FV.maxMin true y (x (k + 1))) (x 0)
       WritesSummary (.vrfmax i f) s i f (BitVec.ofNat 32 (m.round fp32).bits, (m.round fp32).flags)) ∧
      (let m := (List.range (n - 1)).foldl (fun y k => FV.maxMin false y (x (k + 1))) (x 0)
       WritesSummary (.vrfmin i f) s i f (BitVec.ofNat 32 (m.round fp32).bits, (m.round fp32).flags)))

/-- The transfers of one register: VLD and VST through eight store words in distinct banks that a generator names, VTLD and
VTST through 256 bytes of a tile register (R182, R183). A transfer without a generator performs nothing (the model's reading,
notes/assumptions/22.md). -/
def Obligations.VectorTransfers : Prop :=
  ∀ (s : State) (i : IsleIdx) (f : VFields), Calm s i → f.ag ≠ 15 → f.ty.toNat ≤ 5 → (s.isle i).ready f.sync = true →
    let g := (s.isle i).cap f.ag
    let cp := s.isleCompat i
    let e := fun k => g.elem cp k
    let frame := fun (t : State) => ContinuesAt s t i ((s.isle i).sk.pc + 8) ∧ (t.isle i).sk.s = (s.isle i).sk.s ∧
      (∀ k, k ≠ i → t.isle k = s.isle k) ∧ t.chans = s.chans ∧ t.lagoons = s.lagoons
    (g.size cp = 8 → (∀ k, k < 8 → e k + 32 ≤ 0x300000) → banksDistinct ((List.range 8).map e) = true →
      (s.isle i).sto.errs = [] →
      ∃ t, exec (.vld i f) s = .next t ∧ frame t ∧ SameBytes (s.isle i).sto.mem (t.isle i).sto.mem ∧
        SameBytes (s.isle i).me.tiles (t.isle i).me.tiles ∧ (∀ r, r ≠ f.vd → (t.isle i).ve.v[r] = (s.isle i).ve.v[r]) ∧
        ∀ k b, k < 8 → b < 32 → vlane t i 8 f.vd (32 * k + b) = (memRead (s.isle i).sto.mem (e k + b)).toNat) ∧
    (g.size cp = 8 → (∀ k, k < 8 → e k % 32 = 0 ∧ e k + 32 ≤ 0x300000) → banksDistinct ((List.range 8).map e) = true →
      Memory.wf (s.isle i).sto.mem = true →
      ∃ t, exec (.vst i f) s = .next t ∧ frame t ∧ SameBytes (s.isle i).me.tiles (t.isle i).me.tiles ∧
        (t.isle i).ve = (s.isle i).ve ∧
        (∀ k b, k < 8 → b < 32 → (memRead (t.isle i).sto.mem (e k + b)).toNat = vlane s i 8 f.va (32 * k + b)) ∧
        ∀ x, (∀ k, k < 8 → x < e k ∨ e k + 32 ≤ x) → memRead (t.isle i).sto.mem x = memRead (s.isle i).sto.mem x) ∧
    (g.size cp = 1 → (s.isle i).me.tileErrs = [] →
      ∃ t, exec (.vtld i f) s = .next t ∧ frame t ∧ SameBytes (s.isle i).sto.mem (t.isle i).sto.mem ∧
        SameBytes (s.isle i).me.tiles (t.isle i).me.tiles ∧ (∀ r, r ≠ f.vd → (t.isle i).ve.v[r] = (s.isle i).ve.v[r]) ∧
        ∀ b, b < 256 → vlane t i 8 f.vd b = (memRead (s.isle i).me.tiles ((e 0 % 131072 + b) % 131072)).toNat) ∧
    (g.size cp = 1 → e 0 % 131072 + 256 ≤ 131072 → Memory.wf (s.isle i).me.tiles = true →
      ∃ t, exec (.vtst i f) s = .next t ∧ frame t ∧ SameBytes (s.isle i).sto.mem (t.isle i).sto.mem ∧
        (t.isle i).ve = (s.isle i).ve ∧
        (∀ b, b < 256 → (memRead (t.isle i).me.tiles (e 0 % 131072 + b)).toNat = vlane s i 8 f.va b) ∧
        ∀ x, (x < e 0 % 131072 ∨ e 0 % 131072 + 256 ≤ x) → memRead (t.isle i).me.tiles x = memRead (s.isle i).me.tiles x)

/-! ## Bank-side units -/

/-- A BSOP whose tokens are ready joins BQ, runs over its elements in order and makes its token changes. MMACK does once its key slot
holds a word for each element, and gives the slot's chunk to lane E; MMACE once lane E has eight words for each (R237, R238). -/
def Obligations.BankOperationsComplete : Prop :=
  ∀ (s : State) (i : IsleIdx) (c : Instr) (op : BOp) (f : BFields), Calm s i → IsBank c op i f →
    (s.isle i).ready f.sync = true →
    let is := s.isle i
    let cp := s.isleCompat i
    let a := is.cap f.aga
    let b := is.cap f.agb
    let p := is.reg f.sn
    let x := is.reg (finOf 31 (f.sn.val + 1))
    let n := bankCount cp op a b
    let runs := fun (y : Isle) => (List.range n).foldl (fun (z : Isle × List Report) j =>
      ((Isle.bankStep false i cp op f a b p x j z.1).1, z.2 ++ (Isle.bankStep false i cp op f a b p x j z.1).2)) (y, [])
    let done := fun (r : Isle × List Report) => r.2 = [] → exec c s = .next (s.putIsle i (r.1.syncDone f.sync))
    (onLane op = false → done ((is.retire 1).bankRun i cp op f a b p x)) ∧
    (op = .mmack → f.sync.rv = true → n ≤ (is.slot f.sync.rslot).len →
      done (runs { is.retire 1 with laneE := is.laneE ++ (is.tagAt (is.slot f.sync.rslot).base).toList })) ∧
    (op = .mmace → 8 * n ≤ laneLeft is.laneE is.lanePos → done (runs (is.retire 1)))

/-- The steps of Table ST-3 on one store word of eight lanes: each lane of the word at AGA becomes the step's result on it, the
lane of the word at AGB, and the scalar s_(sN+1); every other byte of the store and every register stays (R232, R234). Lanes of
MMACK and MMACE take their third operand from lane K and lane E. -/
def Sys2Proof.Claims.BankWordResults : Prop :=
  ∀ (s : State) (i : IsleIdx) (f : BFields), Calm s i → (s.isle i).ready f.sync = true → (s.isle i).sto.errs = [] →
    Memory.wf (s.isle i).sto.mem = true →
    let is := s.isle i
    let cp := s.isleCompat i
    let d := (is.cap f.aga).elem cp 0
    let e := (is.cap f.agb).elem cp 0
    (is.cap f.aga).size cp = 1 → (is.cap f.agb).size cp = 1 → d % 32 = 0 → e % 32 = 0 → d < 0x300000 → e < 0x300000 →
    let p := primeOf (is.reg f.sn)
    let x := (is.reg (finOf 31 (f.sn.val + 1))).toNat
    let dw := fun k => (is.storeW (d + 4 * k)).toNat
    let bw := fun k => (is.storeW (e + 4 * k)).toNat
    let word := fun (c : Instr) (g : Nat → Nat) => ∃ t, exec c s = .next t ∧ (∀ k, k ≠ i → t.isle k = s.isle k) ∧
      ContinuesAt s t i (is.sk.pc + 8) ∧ (t.isle i).sk.s = is.sk.s ∧ (t.isle i).ve = is.ve ∧ (t.isle i).me = is.me ∧
      (∀ k, k < 8 → ((t.isle i).storeW (d + 4 * k)).toNat = g k) ∧
      ∀ a, (a < d ∨ d + 32 ≤ a) → memRead (t.isle i).sto.mem a = memRead is.sto.mem a
    word (.zfill i f) (fun _ => 0) ∧ word (.iadd i f) (fun k => (dw k + bw k) % 2 ^ 32) ∧
    word (.madd i f) (fun k => (dw k + bw k) % p) ∧ word (.msub i f) (fun k => (((dw k : Int) - bw k) % p).toNat) ∧
    word (.fadd32 i f) (fun k => (((FV.ofBits fp32 (dw k)).add (FV.ofBits fp32 (bw k))).round fp32).bits) ∧
    word (.mmuls i f) (fun k => dw k * x % p) ∧ word (.mmult i f) (fun k => dw k * bw k % p) ∧
    word (.madds i f) (fun k => (dw k + x * bw k) % p) ∧
    (f.sync.rv = true → 0 < (is.slot f.sync.rslot).len → word (.mmack i f) (fun k => (dw k + is.laneKWord f.sync k * bw k) % p)) ∧
    (8 ≤ laneLeft is.laneE is.lanePos → word (.mmace i f) (fun k => (dw k + laneWord is.laneE (is.lanePos + k) * bw k) % p))

/-- A CC operation counts, over all its words, the lanes at or above the threshold in s_sN and writes nothing but the total,
in s_(sN+1); NaN lanes are not counted (R235). -/
def Sys2Proof.Claims.BankCounts : Prop :=
  ∀ (s : State) (i : IsleIdx) (f : BFields), Calm s i → (s.isle i).ready f.sync = true → (s.isle i).sto.errs = [] →
    let is := s.isle i
    let cp := s.isleCompat i
    let g := is.cap f.aga
    let t0 := (is.reg f.sn).toNat
    let rd := finOf 31 (f.sn.val + 1)
    let count := fun (c : Instr) (step : Nat) (hit : Nat → Bool) => ∃ t, exec c s = .next t ∧ OnlyIsle s t i ∧
      ContinuesAt s t i (is.sk.pc + 8) ∧ RegsKept s t i rd ∧ (t.isle i).sto.mem = is.sto.mem ∧ (t.isle i).ve = is.ve ∧
      (t.isle i).me = is.me ∧ (t.isle i).reg rd = if rd = 0 then 0 else BitVec.ofNat 32
        (((List.range (g.size cp)).map (fun j => (List.range (32 / step)).countP
          (fun k => hit (leNat (is.storeRead (g.elem cp j + step * k) step))))).foldl (· + ·) 0)
    count (.ccu32 i f) 4 (fun x => decide (t0 ≤ x)) ∧
    count (.cci32 i f) 4 (fun x => decide (t0 ≤ (signedOf 32 x).natAbs)) ∧
    count (.ccf32 i f) 4 (fun x => decide (t0 % 2 ^ 31 ≤ x % 2 ^ 31) && decide (x % 2 ^ 31 ≤ 0x7F800000)) ∧
    count (.ccb16 i f) 2 (fun x => decide (t0 % 2 ^ 15 ≤ x % 2 ^ 15) && decide (x % 2 ^ 15 ≤ 0x7F80))

/-- What the bank-side steps write and count (R232 to R235). -/
def Obligations.BankResultsAndCounts : Prop :=
  Claims.BankWordResults ∧ Claims.BankCounts

/-! ## Matrix engine -/

/-- WLOAD loads the standby set alone, WSWAP exchanges the sets, and MMUL runs its rows on the active set (R141, R142, R144);
each makes its token changes. -/
def Sys2Proof.Claims.MatrixInstructionsComplete : Prop :=
  ∀ (s : State) (i : IsleIdx) (w : WloadFields) (y : Sync) (f : MmulFields), Calm s i →
    let is := s.isle i
    let x := is.retire 1
    (w.mode.toNat < 7 → is.ready w.sync = true → is.me.tileErrs = [] →
      let r := x.wload i w
      exec (.wload i w) s = .next (s.putIsle i (r.1.syncDone w.sync)) ∧
      r.1.me.active = is.me.active ∧ r.1.me.activeSet = is.me.activeSet ∧ r.1.me.tiles = is.me.tiles ∧
      (if is.me.active then r.1.me.wA else r.1.me.wB).mode = w.mode) ∧
    (is.ready y = true → exec (.wswap i y) s = .next (s.putIsle i (x.wswap.syncDone y)) ∧
      x.wswap.me = { is.me with active := !is.me.active }) ∧
    (f.mode.toNat < 7 → is.ready f.sync = true →
      let r := x.mmul i (s.isleCompat i) f is.sk.chain (is.cap f.ag)
      r.2 = [] → exec (.mmul i f) s = .next (s.putIsle i (r.1.syncDone f.sync)))

/-- The weights a WLOAD of an integer or float mode puts into the standby set: element (k, n) of the tile register from row
WROW on, unchanged (R141). -/
def Sys2Proof.Claims.WeightLoads : Prop :=
  ∀ (i : IsleIdx) (x : Isle) (w : WloadFields) (k n : Nat), w.mode.toNat ≤ 4 → x.me.tileErrs = [] →
    k < modeRows w.mode.toNat → n < modeRows w.mode.toNat →
    let m := (x.wload i w).1.me
    let bytes := if w.mode.toNat ≤ 2 then 1 else 2
    (if x.me.active then m.wA else m.wB).weight w.mode k n = x.tileElem w.st.val bytes (w.wrow.toNat + k) n

/-- The matrix instructions complete, and a load puts the weights of the tile register into the standby set (R141, R142, R144). -/
def Obligations.MatrixInstructionsFinish : Prop :=
  Claims.MatrixInstructionsComplete ∧ Claims.WeightLoads

/-- The products of one feed row: an INT8 sum saturates to int32 and sets SAT; a float column rounds once per term in
ascending order; a modular column is the Montgomery product reduced modulo its prime when RED is 1 (R134, R135, R138, R140). -/
def Obligations.ProductElements : Prop :=
  ∀ (f : MmulFields) (w : WeightSet) (feed : List Nat) (n d : Nat),
    (f.mode = 0 →
      let sum : Int := (feed.zipIdx.map (fun t => signedOf 8 t.1 * signedOf 8 (w.weight 0 t.2 n))).foldl (· + ·) 0 +
        if f.acc then signedOf 32 d else 0
      productElem f w feed n d = (wrapOf 32 (max (-2 ^ 31) (min (2 ^ 31 - 1) sum)),
        ⟨decide (sum < -2 ^ 31 ∨ 2 ^ 31 - 1 < sum), false, false⟩)) ∧
    (2 ≤ f.mode.toNat → f.mode.toNat ≤ 4 →
      (productElem f w [] n d).1 = (if f.acc then d % 2 ^ 32 else 0) ∧
      ∀ x, (productElem f w (feed ++ [x]) n d).1 =
        (((FV.ofBits fp32 (productElem f w feed n d).1).add ((FV.ofBits (feedFmt f.mode.toNat f.ff) x).mul
          (FV.ofBits (feedFmt f.mode.toNat w.wf) (w.weight f.mode feed.length n)))).round fp32).bits % 2 ^ 32) ∧
    (f.mode = 5 → f.red = true → feed.length = 16 → n < 16 → w.prime 5 n % 2 = 1 → 1 < w.prime 5 n → w.prime 5 n < 2 ^ 31 →
      (∀ x ∈ feed, x < w.prime 5 n) → (∀ k, w.weight 5 k n < w.prime 5 n) →
      let p := w.prime 5 n
      let r := (productElem f w feed n d).1
      r < p ∧ r * 2 ^ 32 % p =
        ((feed.zipIdx.map (fun t => t.1 * w.weight 5 t.2 n)).foldl (· + ·) 0 + if f.acc then d * 2 ^ 32 else 0) % p)

/-! ## Tokens and the mover -/

/-- TTAKE and TPUT act on their sync field at a queue head or in the issue stage, and change nothing but the slots (R202,
R205): the last reader empties the slot and ends a round, the writer fills it. -/
def Obligations.TokenInstructions : Prop :=
  ∀ (s : State) (i : IsleIdx) (f : TFields), Calm s i → (s.isle i).ready f.sync = true →
    let is := s.isle i
    let acts := fun (c : Instr) => ∃ t, exec c s = .next t ∧ OnlyIsle s t i ∧ ContinuesAt s t i (is.sk.pc + 8) ∧
      t.isle i = { is with
        mov := { is.mov with rwait := 0 }
        sto := { is.sto with slots := (is.syncDone f.sync).sto.slots }
        sk := { is.sk with pc := (t.isle i).sk.pc, loops := (t.isle i).sk.loops, cyc := is.sk.cyc + 1 } }
    acts (.ttake i f) ∧ acts (.tput i f) ∧
    (f.sync.rv = true → f.sync.wv = false → f.sync.rslot.val < is.sto.slots.length →
      let x := is.slot f.sync.rslot
      let y := (is.syncDone f.sync).slot f.sync.rslot
      (x.drain + 1 < x.readers → y.full = x.full ∧ y.drain = x.drain + 1 ∧ y.rounds = x.rounds) ∧
      (x.readers ≤ x.drain + 1 → y.full = false ∧ y.drain = 0 ∧ y.rounds = min (x.rounds + 1) 0xFFFFFF)) ∧
    (f.sync.wv = true → f.sync.rv = false → f.sync.wslot.val < is.sto.slots.length →
      ((is.syncDone f.sync).slot f.sync.wslot).full = true)

/-- MVISSUE hands its descriptors to the mover: with COUNT 0 it is a no-operation; else the mover fetches bursts of 16 while 16 or
fewer fetched descriptors are not begun, here those of at most two bursts, since its first descriptor waits for its RSLOT. IMLOAD
starts a copy into the shadow bank, whichever bank it names, and the bank's tag is invalid until the copy has landed (R190, R215, R242). -/
def Sys2Proof.Claims.MoverAndPageLoads : Prop :=
  ∀ (s : State) (i : IsleIdx) (count : BitVec 12) (addr : BitVec 22) (y : Sync) (page : Fin 16) (f : ImloadFields), Calm s i →
    let is := s.isle i
    let n := min count.toNat 32
    let batch := (List.range n).map (fun k =>
      let d := (descOf (is.storeRead (addr.toNat / 64 * 64 + 64 * k) 64)).getD (.copy, DescFields.idle)
      (d.1, d.2, k))
    (count = 0 → ∃ t, exec (.mvissue i count addr y) s = .next t ∧ SkerryStep s t i 1 ∧ ContinuesAt s t i (is.sk.pc + 8) ∧
      (t.isle i).sk.s = is.sk.s) ∧
    (count ≠ 0 → is.sto.errs = [] → is.ready y = true → is.mov.batchWv = none →
      (∀ b ∈ batch.head?, b.2.1.sync.rv = true ∧ ((is.syncRead y).slot b.2.1.sync.rslot).full = false) →
      ∃ t, exec (.mvissue i count addr y) s = .next t ∧ OnlyIsle s t i ∧ (t.isle i).mov.batch = batch ∧
        (t.isle i).mov.unread = count.toNat - n ∧ (t.isle i).mov.batchWv = (if y.wv then some y.wslot else none) ∧
        (t.isle i).dq = [] ∧ (t.isle i).sto.mem = is.sto.mem ∧ (t.isle i).sk.s = is.sk.s ∧ (t.isle i).ve = is.ve ∧
        (t.isle i).me = is.me) ∧
    (is.sk.imload = none → is.ready f.sync = true → ∃ t, exec (.imload i page f) s = .next t ∧ OnlyIsle s t i ∧
      (t.isle i).sk.imload = some (BitVec.ofNat 4 page.val) ∧ (t.isle i).sk.imSync = f.sync ∧ (t.isle i).sk.shadow.valid = false ∧
      (t.isle i).sk.activeBank = is.sk.activeBank ∧ (t.isle i).sk.active = is.sk.active ∧ (t.isle i).sk.s = is.sk.s ∧
      (t.isle i).sto = is.sto ∧ (t.isle i).ve = is.ve ∧ (t.isle i).me = is.me)

/-- A page copy that lands fills the shadow bank with the words of the image's copy in the Isle's near channel, sets its tag, and
makes the token changes of its IMLOAD; the running bank is untouched (R205, R215, R216, R353). -/
def Sys2Proof.Claims.PageLoadLands : Prop :=
  ∀ (s : State) (i : IsleIdx) (page : BitVec 4) (fn : Fn) (h : BitVec 16) (m : Image), Calm s i → dramClean s →
    let is := s.isle i
    let off := m.ioff + 8 * ((m.sections.pages.take page.toNat).map List.length).sum
    let len := 8 * (m.sections.pages.getD page.toNat []).length
    let words := (chunks 8 ((List.range len).map (s.devByteAt (2 ^ 39 + i.val * 2 ^ 33 + off)))).map
      (fun w => (BitVec.ofNat 64 (leNat w) : DWord))
    is.sk.imload = some page → is.sk.run = some (fn, h) → s.imageOf fn h = some m →
    ∃ t, exec (.imloadComplete i) s = .next t ∧ OnlyIsle s t i ∧ (t.isle i).sk.imload = none ∧
      (t.isle i).sk.activeBank = is.sk.activeBank ∧
      (t.isle i).sk.shadow = { valid := true, fn := fn, image := h, page := page, words := words } ∧
      (t.isle i).sk.hasPage (t.isle i).sk.shadow page.toNat = true ∧
      (t.isle i).sto = (is.syncDone is.sk.imSync).sto ∧ (t.isle i).ve = is.ve ∧ (t.isle i).me = is.me

/-- Handing descriptors to the mover, and loading a page into the shadow bank (R215, R216, R242). -/
def Obligations.PageAndMoverIssue : Prop :=
  Claims.MoverAndPageLoads ∧ Claims.PageLoadLands

/-- A descriptor from STORE to STORE without tokens, when the mover works and idles, its source being of at most 4,000 blocks of
16 KiB: the pieces of its transformation are written in order as the run-ahead credits let its blocks in, the mover has moved their
bytes, and no other Isle, channel or slice changes (R242, R252, R254 to R259). The transposition, expansion, permutation and
reversal are `transform`'s; a standing FORWARD, of at most four, is registered and moves nothing by itself (R264). -/
def Sys2Proof.Claims.DescriptorsComplete : Prop :=
  ∀ (s : State) (i : IsleIdx) (c : Instr) (op : DOp) (d : DescFields), Calm s i → IsDescriptor c op i d → s.moverLive i = true →
    let is := s.isle i
    d.srcsp = 0 → d.dstsp = 0 → d.sync = Sync.none → is.mov.stopped = false → is.sto.errs = [] → is.mov.batchWv = none →
    s.misaligned i d = none → (op = .forward → is.mov.fwds.length < 4) →
    let r := s.transform i op d
    let runs := cutRuns r.runs
    r.len ≤ 65536000 →
    ∃ t, exec c s = .next t ∧ (∀ k, k ≠ i → t.isle k = s.isle k) ∧ t.chans = s.chans ∧ t.lagoons = s.lagoons ∧ t.ports = s.ports ∧
      (t.isle i).sto.mem = runs.foldl (fun m x => memWriteN m (d.dst.toNat % 2 ^ 22 + x.1)
        (x.2.take (0x300000 - (d.dst.toNat % 2 ^ 22 + x.1)))) (r.s.isle i).sto.mem ∧
      (t.isle i).mov.bytes = is.mov.bytes + BitVec.ofNat 64 (runs.map (·.2.length)).sum ∧
      (t.isle i).mov.batch = [] ∧ (t.isle i).mov.staged = [] ∧ (t.isle i).sk = is.sk ∧ (t.isle i).ve = is.ve ∧
      (t.isle i).me = is.me ∧ (t.isle i).mov.fwds = if op = .forward ∧ d.length ≠ 0 then is.mov.fwds ++
        [{ slot := finOf 127 (d.param.toNat % 128), d := d, left := d.length.toNat, pend := [], wait := 0 }] else is.mov.fwds

/-- A plain COPY from STORE to STORE: the LENGTH bytes at SRC stand at DST afterwards, and every other byte is as before
(R254). -/
def Sys2Proof.Claims.PlainCopy : Prop :=
  ∀ (s : State) (i : IsleIdx) (d : DescFields), Calm s i → s.moverLive i = true →
    let is := s.isle i
    let a := d.src.toNat % 2 ^ 22
    let b := d.dst.toNat % 2 ^ 22
    let n := d.length.toNat
    d.srcsp = 0 → d.dstsp = 0 → d.sync = Sync.none → d.param.toNat % 2 ^ 64 = 0 → is.mov.stopped = false → is.sto.errs = [] →
    is.mov.batchWv = none → s.misaligned i d = none → a + n ≤ 0x300000 → b + n ≤ 0x300000 → n % esizeOf d.esize = 0 →
    Memory.wf is.sto.mem = true →
    ∃ t, exec (.copy i d) s = .next t ∧ (∀ k, k < n → memRead (t.isle i).sto.mem (b + k) = memRead is.sto.mem (a + k)) ∧
      ∀ x, (x < b ∨ b + n ≤ x) → memRead (t.isle i).sto.mem x = memRead is.sto.mem x

/-- The descriptors complete, and a plain COPY moves its bytes and no others (R242, R252, R254 to R259). -/
def Obligations.DescriptorsMoveTheirBytes : Prop :=
  Claims.DescriptorsComplete ∧ Claims.PlainCopy

/-- The index maps of AUTOMORPH and REVERSE are permutations of a limb's indices, and REVERSE's two directions undo each other
(R39, R257). -/
def Obligations.IndexMapsArePermutations : Prop :=
  ∀ (logn g k : Nat), 8 ≤ logn → logn ≤ 17 → k < 2 ^ logn →
    rho logn k < 2 ^ logn ∧ rhoInv logn k < 2 ^ logn ∧ rhoInv logn (rho logn k) = k ∧ rho logn (rhoInv logn k) = k ∧
    galoisIndex logn g k < 2 ^ logn ∧
    (g % 2 = 1 → 2 * rho logn (galoisIndex logn g k) + 1 = g * (2 * rho logn k + 1) % 2 ^ (logn + 1))

/-- A write phase goes on only when its tokens and credits allow: then the oldest staged descriptor's runs are written (into
the store, where its destination is STORE and all its blocks are in), and it leaves the staging blocks; else nothing changes (R252). -/
def Obligations.WritePhaseWritesOldest : Prop :=
  ∀ (s : State) (i : IsleIdx) (g : Staged) (rest : List Staged), s.moverLive i = true → (s.isle i).mov.staged = g :: rest →
    (s.canWrite i g = false → exec (.descriptorWritePhase i) s = .next s) ∧
    (s.canWrite i g = true → g.d.dstsp = 0 → g.blocks ≤ g.inn → g.pieces = g.done + g.runs.length →
      ∃ u, s.writePhase false i = some u ∧ (u.isle i).mov.staged = rest ∧
      (u.isle i).sto.mem = g.runs.foldl (fun m x => memWriteN m (g.d.dst.toNat % 2 ^ 22 + x.1)
        (x.2.take (0x300000 - (g.d.dst.toNat % 2 ^ 22 + x.1)))) (s.isle i).sto.mem ∧
      (u.isle i).mov.bytes = (s.isle i).mov.bytes + BitVec.ofNat 64 (g.runs.map (·.2.length)).sum ∧
      (∀ k, k ≠ i → u.isle k = s.isle k) ∧ u.chans = s.chans ∧ u.lagoons = s.lagoons ∧
      exec (.descriptorWritePhase i) s = .next (State.settle i settleFuel u))

/-! ## Host queues -/

/-- H1-compatible mode: on while GEN_COMPAT was sampled high as PERST_N was deasserted (at once, or when the flush under way
ends), or HBR_CTRL.COMPAT is 1; under the strap COMPAT reads 1 and a write to it is ignored (R6). -/
def Obligations.CompatMode : Prop :=
  ∀ (s : State) (v : Word) (g h : Bool) (m : BitVec 2) (ts : Bool),
    (s.perst = true → (s.power = .reset ∨ s.power = .dark) → s.pwrGood = true →
      ∃ t, exec (.perstNDeassert g h m ts) s = .next t ∧ t.boot.genCompat = g) ∧
    (∀ x, s.perst = true → s.power = .resetting x → ∃ t u, exec (.perstNDeassert g h m ts) s = .next t ∧
      exec .flushComplete { t with evr := { t.evr with flushing := true } } = .next u ∧ u.boot.genCompat = g) ∧
    (s.h1Mode = true ↔ s.boot.genCompat = true ∨ s.compat = true) ∧
    (s.takesWrite = true → s.boot.genCompat = false → exec (.hbrCtrlWrite v) s = .next { s with compat := v.getLsbD 0 }) ∧
    (s.boot.genCompat = true → exec (.hbrCtrlWrite v) s = .next s ∧ s.regRead Fn.pf 0 false % 2 = 1)

/-- What a packet meets before it is a command: none is interpreted while no controller may; after a fatal fault only the PF's
LOG_READ and QUERY_HEALTH are; one whose OPCODE (or OP) is another command's is not run as this one; before HELLO, from a function that
may not issue it, and with an unknown opcode, a packet does nothing but answer ADMISSION_REFUSED, with its JOBID where the opcode's
RESULT1 is one (R9, R346, R347, R349, R405). -/
def Obligations.PacketGate : Prop :=
  ∀ (s : State),
    (∀ (c : Instr) (p : Packet) (pf vf health : Bool), gateOf c = some (p, pf, vf, health) →
      let u := s.takePacket p
      let v := (s.queue p.fn p.q).version
      let refused := fun (d : Nat) => u.answer p
        { Answer.of 0x0070 d with result1 := if p.opcode = 0x20 ∨ p.opcode = 0x21 then p.jobid.toNat else 0 }
      (s.canInterpret p = false ∨ ¬ spells c p → exec c s = .next s) ∧
      (spells c p → s.canInterpret p = true →
        (s.reef.fatal = true → (health && p.fn == Fn.pf) = false → exec c s = .next (refused 0xFE)) ∧
        (s.reef.fatal = false → v = 0 → exec c s = .next (refused 0xFF)) ∧
        (s.reef.fatal = false → v ≠ 0 → (if p.fn == Fn.pf then pf else vf) = false → exec c s = .next (refused 0xFF)))) ∧
    ∀ p : Packet, s.canInterpret p = true →
      (opcodeOk p.fn p.opcode.toNat = false ∨ p.opcode ≠ 1 ∧ (s.queue p.fn p.q).version = 0) →
      exec (.invalidOpcode p) s = .next ((s.takePacket p).answer p { Answer.of 0x0070 (if s.reef.fatal then 0xFE else 0xFF) with
        result1 := if p.opcode = 0x20 ∨ p.opcode = 0x21 then p.jobid.toNat else 0 })

/-- HELLO puts the lower of the offered and the device's version in force and answers both with HLM_TOPO (R352); a changed
stride starts the queue anew (R340). -/
def Sys2Proof.Claims.Hello : Prop :=
  ∀ (s : State) (p : Packet), p.opcode = 1 → s.canInterpret p = true → s.reef.fatal = false →
      let d := if s.boot.genCompat || s.compat then 1 else 2
      let w := min (max 1 p.version.toNat) d
      let x := s.queue p.fn p.q
      let short := x.version = 1 ∨ x.version = 0 ∧ x.compatAtEn = true
      let y := { x with version := BitVec.ofNat 4 w, sqHead := if (w = 1 ↔ short) then x.sqHead else 0 }
      exec (.hello p) s = .next ((((s.takePacket p).setQueue p.fn p.q y).clampQ p.fn p.q (if p.version = 0 then 1 else 0)).answer p
        { status := 0, detail := 0, result0 := w + 16 * d, result1 := s.topo.toNat, time := 0 })

/-- A queue is configured while EN is 0: sizes, vector and, with EN, a fresh head, tail, phase and version; while EN is 1 a
write changes EN alone (R339). Doorbells keep TAIL and HEAD within the queue (R341). Values outside their ranges take the
nearest one and are counted (R348). -/
def Sys2Proof.Claims.QueueRegisters : Prop :=
  ∀ (s : State) (fn : Fn) (q : Fin 8) (v : Word), (fn ≠ Fn.pf ∨ q = 0) →
    let x := s.queue fn q
    let n := v.toNat
    let near := fun (lo hi n : Nat) => max lo (min hi n)
    let off := fun (lo hi n : Nat) => if n < lo ∨ hi < n then 1 else 0
    let sq := n / 2 ^ 24 % 16
    let cq := n / 2 ^ 20 % 16
    let ve := n / 2 ^ 8 % 256
    let top := if fn = Fn.pf then 31 else 27
    let on := v.getLsbD 31
    (s.takesWrite = true → x.en = false → exec (.hbrQcfgWrite fn q v) s = .next ((s.setQueue fn q
      (let y := { x with
        sqlog := BitVec.ofNat 4 (near 1 12 sq), cqlog := BitVec.ofNat 4 (near 1 12 cq), vector := BitVec.ofNat 8 (near 0 top ve) }
       if on then { y with
        en := true, sqHead := 0, cqTail := 0, phase := true, version := 0, err := false, stall := false
        compatAtEn := s.boot.genCompat || s.compat } else y)).clamp8 fn (off 1 12 sq + off 1 12 cq + off 0 top ve))) ∧
    (s.takesWrite = true → x.en = true → exec (.hbrQcfgWrite fn q v) s = .next ((s.setQueue fn q { x with en := on }).clamp8 fn
      (if sq = x.sqlog.toNat ∧ cq = x.cqlog.toNat ∧ ve = x.vector.toNat then 0 else 1))) ∧
    (s.busServes = true → exec (.sqDoorbell fn q v) s = .next ((s.setQueue fn q
      { x with sqTail := min (2 ^ x.sqlog.toNat - 1) (n % 4096) }).clamp8 fn (off 0 (2 ^ x.sqlog.toNat - 1) (n % 4096)))) ∧
    (s.busServes = true → exec (.cqDoorbell fn q v) s = .next ((s.setQueue fn q
      { x with cqHead := min (2 ^ x.cqlog.toNat - 1) (n % 4096) }).clamp8 fn (off 0 (2 ^ x.cqlog.toNat - 1) (n % 4096))))

/-- HELLO and the registers of a queue (R339, R340, R341, R348, R352). -/
def Obligations.QueueSetup : Prop :=
  Claims.Hello ∧ Claims.QueueRegisters

/-- The entry at SQHEAD, read at its place behind BASE with the queue's stride, goes to the authority holder when its queue is next in
turn and has room for the replies; without room the queue stalls; a fetch error sets ERR and hands over nothing (R340, R342, R343). -/
def Sys2Proof.Claims.CommandFetches : Prop :=
  ∀ (s : State) (fn : Fn) (q : Fin 8) (entry : List Byte), (fn ≠ Fn.pf ∨ q = 0) →
    let x := s.queue fn q
    s.power = .running → s.hasHolder = true → (s.fnOf Fn.pf).d3hot = false → (s.fnOf fn).d3hot = false → s.gates.resumeAt ≤ s.now → x.en = true →
    x.err = false → x.sqHead ≠ x.sqTail →
    (s.hasRoom fn q = false → exec (.commandFetch fn q entry) s = .next (s.setQueue fn q { x with stall := true })) ∧
    (s.hasRoom fn q = true → exec (.fetchError fn q) s = .next (s.setQueue fn q { x with err := true })) ∧
    (s.hasRoom fn q = true → s.isNext fn q = true →
      ∃ p t, exec (.commandFetch fn q entry) s = .next t ∧ t.fetched = s.fetched ++ [p] ∧ p.fn = fn ∧ p.q = q ∧ p.idx = x.sqHead ∧
        p.opcode = BitVec.ofNat 16 (leAt entry 2 2) ∧ p.cid = BitVec.ofNat 16 (leAt entry 4 2) ∧
        p.jobid = BitVec.ofNat 64 (leAt entry 8 8) ∧ p.body = BitVec.ofNat 256 (leAt entry 16 32) ∧
        t.queue fn q = { x with sqHead := (x.sqHead + 1) % 2 ^ x.sqlog.toNat, stall := false } ∧
        (let stride := if x.version = 1 ∨ x.version = 0 ∧ x.compatAtEn = true then 48 else 64
         t.out = Out.fetch fn (x.sqBase + BitVec.ofNat 64 (stride * x.sqHead)) stride :: s.out) ∧
        t = { s.setQueue fn q (t.queue fn q) with out := t.out, fetched := t.fetched, lastServed := serveRank fn q })

/-- A status reply is written at CQTAIL of its queue, 32 bytes for each entry behind BASE, with the fields of Table HC-7; the tail advances and the phase inverts as
it wraps; the queue's vector follows unless NOIRQ; a disabled queue gets nothing; nothing else changes (R343, R349). -/
def Sys2Proof.Claims.StatusReplies : Prop :=
  ∀ (s : State) (p : Packet) (a : Answer),
    let x := s.queue p.fn p.q
    let t := s.answer p a
    (x.en = false → t = s) ∧
    (x.en = true →
      let r : Reply := {
        status := a.status, abortLate := false, ruleSub := false, cid := p.cid, sqhd := BitVec.ofNat 16 x.sqHead
        version := x.version, qid := BitVec.ofNat 3 p.q.val, phase := x.phase, detail := BitVec.ofNat 8 a.detail
        opcode := p.opcode, result0 := BitVec.ofNat 32 a.result0, result1 := BitVec.ofNat 64 a.result1
        time := BitVec.ofNat 28 a.time, kind := 0 }
      let last := 2 ^ x.cqlog.toNat ≤ x.cqTail + 1
      t.out = (if p.noirq then [] else [Out.msix s.now p.fn x.vector]) ++ Out.reply s.now p.fn p.q (x.cqBase + BitVec.ofNat 64 (32 * x.cqTail)) r :: s.out ∧
      t.queue p.fn p.q = { x with cqTail := if last then 0 else x.cqTail + 1, phase := if last then !x.phase else x.phase } ∧
      (∀ f q, ¬ (f = p.fn ∧ q = p.q) → t.queue f q = s.queue f q) ∧
      (∀ f, t.fnOf f = { s.fnOf f with queues := (t.fnOf f).queues }) ∧ t = { s with out := t.out, fns := t.fns })

/-- Fetching command packets and writing replies (R341, R342, R343, R349). -/
def Obligations.QueueTraffic : Prop :=
  Claims.CommandFetches ∧ Claims.StatusReplies

/-! ## Loads and jobs -/

/-- LOAD_PARAMSET: a record that passes the checks of Table CT-3 is bound to its function at its index, with the constants derived from
it, and the reply carries its fingerprint; TYPE 0 empties the index; the first check that fails is the DETAIL of PARAMSET_REFUSED, and nothing is
stored (R42 to R44). -/
def Obligations.ParameterSetLoads : Prop :=
  ∀ (s : State) (p : Packet) (rec : List Byte), PacketReady s 0x11 p → p.fn ≠ Fn.pf →
    let k : Fin 16 := finOf 15 (pktBytes p 24 1 % 16)
    let q := p.version.toNat
    let n := leAt rec 0 1
    let stored := byteOf (n % 16 + 16 * min (n / 16) q) :: rec.drop 1
    let fp := BitVec.ofNat 32 (crc32 (stored.take 672))
    let x := paramOf p.fn stored fp
    let w := if q < n / 16 then (s.takePacket p).clampQ p.fn p.q 1 else s.takePacket p
    let refused := fun (d : Nat) => exec (.loadParamset p rec) s = .next (w.answer p (Answer.of 0x0081 d))
    (∀ d, x.failing (p.version == 1) (decide (q ≤ n / 16)) = some d → refused d) ∧
    (x.failing (p.version == 1) (decide (q ≤ n / 16)) = none →
      ((∃ y, s.psets[k] = some y ∧ y.fn ≠ p.fn) → refused 9) ∧
      ((∀ y, s.psets[k] = some y → y.fn = p.fn) → s.psetUsed k = true → refused 10) ∧
      ((∀ y, s.psets[k] = some y → y.fn = p.fn) → s.psetUsed k = false →
        exec (.loadParamset p rec) s = .next (({ w with psets := vset s.psets k (if n % 16 = 0 then none else some { x with consts := x.derive }) }).answer p
          { status := 0, detail := 0, result0 := fp.toNat, result1 := 0, time := 0 })))

/-- LOAD_PROGRAM and LOAD_KEYSET that pass their first judgement wait for the Atoll's check and change nothing else; one that
does not is refused. Of a manifest it takes the bytes that MLEN, NREC and the entries' lengths give; replaced and clamped fields are
counted first. LOAD_PROGRAM with LENGTH 0 ends the binding of its handle (R353, R355). -/
def Sys2Proof.Claims.LoadsBegin : Prop :=
  ∀ (s : State) (p : Packet) (img : ImageData) (sent : ManifestData), p.fn ≠ Fn.pf →
    let u := s.takePacket p
    let kf := s.keyFields p
    let man := manifestOf (pktBytes p 24 4) sent
    let tag := s.ownTag p.fn (leAt man.raw 4 4)
    let bad := if p.version.toNat < leAt man.raw 0 1 / 16 then 1 else 0
    let runOk := s.keyRunOk p.fn (pktFirstRow p 28).val kf.1
    let wk := u.clampQ p.fn p.q (kf.2.2.2.2 + bad + tag.2)
    let wp := u.clampQ p.fn p.q (s.chanOffset (pktBytes p 32 8)).2
    (PacketReady s 0x10 p → (pktBytes p 24 4 ≠ 0 → (∀ d, s.loadRefusal p (hdrOf img.raw) = some d →
        exec (.loadProgram p img) s = .next (wp.answer p (Answer.of 0x0070 d))) ∧
      (s.loadRefusal p (hdrOf img.raw) = none → exec (.loadProgram p img) s = .next { wp with
        nextId := s.nextId + 1, atl := s.atl.enqueue (.checkSeal s.nextId)
        progLoads := s.progLoads ++ [{ id := s.nextId, p := p, img := img, checked := none, interp := s.now }] })) ∧
    (pktBytes p 24 4 = 0 → s.handleUsed p.fn (pktHandle p) = true →
      exec (.loadProgram p img) s = .next (u.answer p (Answer.of 0x0070 4))) ∧
    (pktBytes p 24 4 = 0 → s.handleUsed p.fn (pktHandle p) = false → ∃ t, exec (.loadProgram p img) s = .next t ∧
      t.images = (match s.imageOf p.fn (pktHandle p) with
        | some m => s.images.filter (fun x => x.bind != m.bind)
        | none => s.images) ∧ t.keysets = s.keysets ∧ t.rows = s.rows ∧ t.psets = s.psets)) ∧
    (PacketReady s 0x12 p → (runOk = false → exec (.loadKeyset p sent) s = .next (wk.answer p (Answer.of 0x0070 2))) ∧
    (runOk = true → s.tagUsed tag.1 = true → exec (.loadKeyset p sent) s = .next (wk.answer p (Answer.of 0x0070 0))) ∧
    (runOk = true → s.tagUsed tag.1 = false → exec (.loadKeyset p sent) s = .next { wk with
      nextId := s.nextId + 1, atl := s.atl.enqueue (.checkManifest s.nextId)
      keyLoads := s.keyLoads ++ [{
        id := s.nextId, p := p, man := man, version := p.version, tag := tag.1, checked := none, interp := s.now }] }))

/-- A load whose check has ended takes effect. A program whose seal verified, with no admitted job in the way, is bound under
its handle, its page 0 stands in the shadow bank of every Isle of its run, and the reply says OK; a held load is written the
same way once the jobs it waits for have ended or its interval has come. A key set whose signature verified is held under its tag and
answers MFP; one whose signature did not is not stored, and a record that fails its checks refuses the set, after the fields replaced
in the records are counted (R46, R214, R353, R355, R370). -/
def Sys2Proof.Claims.LoadsTakeEffect : Prop :=
  ∀ (s : State) (l : ProgLoad) (k : KeyLoad) (h : HeldLoad), s.power = .running → s.reef.fatal = false →
    let page0 := fun (t : State) (m : Image) (i : IsleIdx) => (t.isle i).sk.shadow =
      { valid := true, fn := m.fn, image := m.handle, page := 0, words := m.sections.pages.getD 0 [] }
    (∀ ok, s.progLoads.find? (fun x => x.id == l.id) = some l → l.checked = some ok →
      (∀ d, s.loadRefusal l.p (hdrOf l.img.raw) = some d → exec (.loadProgramComplete l.id) s =
        .next (({ s with progLoads := s.progLoads.filter (fun x => x.id != l.id) }).answer l.p { Answer.of 0x0070 d with result1 := result1Of l.p })) ∧
      (s.loadRefusal l.p (hdrOf l.img.raw) = none → s.engaged = [] →
        let m : Image := {
          bind := l.id, fn := l.p.fn, handle := pktHandle l.p, hdr := hdrOf l.img.raw, sections := imageSections l.img
          firstRow := pktFirstRow l.p 30, ioff := (s.chanOffset (pktBytes l.p 32 8)).1, valid := ok }
        ∃ u : State, exec (.loadProgramComplete l.id) s = .next (u.answer l.p (loadAnswer m)) ∧
          u.images = (match s.imageOf m.fn m.handle with
            | some old => s.images.filter (fun x => x.bind != old.bind)
            | none => s.images) ++ [m] ∧
          u.progLoads = s.progLoads.filter (fun x => x.id != l.id) ∧ (∀ i ∈ m.isles, page0 u m i) ∧ u.heldLoads = s.heldLoads ∧
          u.rows = s.rows ∧ u.lagoons = s.lagoons)) ∧
    (s.heldLoads.find? (fun x => x.id == h.id) = some h →
      let waits := ∃ w ∈ h.waits, ∃ j ∈ s.engaged, j.id = w
      let begun := ∃ o, s.occs.find? (fun o => o.id == h.occ) = some o ∧ o.start ≤ s.now
      (waits → ¬ begun → exec (.heldLoadWrite h.id) s = .next s) ∧
      (¬ waits ∨ begun → ∀ m, s.images.find? (fun m => m.bind == h.bind) = some m →
      ∃ u : State, exec (.heldLoadWrite h.id) s = .next (u.answer h.p (loadAnswer m)) ∧ (∀ i ∈ h.isles, page0 u m i) ∧
        u.heldLoads = s.heldLoads.filter (fun x => x.id != h.id) ∧ u.occs = endOccs s.now (fun o => o.id == h.occ) s.occs ∧
        (∀ i, i ∉ h.isles → u.isle i = s.isle i))) ∧
    (s.keyLoads.find? (fun x => x.id == k.id) = some k →
      let w := { s with keyLoads := s.keyLoads.filter (fun x => x.id != k.id) }
      (k.checked = some false → exec (.loadKeysetComplete k.id) s = .next (w.answer k.p (Answer.of 0x00A0 0))) ∧
      (k.checked = some true →
        let f := s.keyFields k.p
        let recs := k.man.records.map (s.keyRecOf k.p.fn k.version.toNat)
        let good := ∀ r ∈ recs.zip k.man.records, s.recordOk k.p.fn r.1.1 r.2.length = true
        let v := w.clampQ k.p.fn k.p.q (recs.map (·.2)).sum
        let set : KeySet := {
          tag := k.tag, fn := k.p.fn, firstRow := pktFirstRow k.p 28, nrows := f.1, m := f.2.1, mTotal := f.2.2.1
          koff := f.2.2.2.1, mfp := manifestMfp k.man.raw k.tag, records := recs.map (·.1) }
        (¬ good → exec (.loadKeysetComplete k.id) s = .next (v.answer k.p (Answer.of 0x0081 0))) ∧
        (good → s.keyRunOk k.p.fn (pktFirstRow k.p 28).val f.1 = true →
        s.tagUsed k.tag = false → (∀ c, (s.chan c).prot = []) →
        ∃ u : State, exec (.loadKeysetComplete k.id) s = .next (u.answer k.p
            { status := 0, detail := 0, result0 := set.mfp.toNat, result1 := 0, time := 0 }) ∧
          u.keysets = s.keysets.filter (fun x => x.tag != k.tag) ++ [set] ∧ u.keyLoads = w.keyLoads ∧ u.isles = s.isles ∧
          u.images = s.images)))

/-- Loads of programs and key sets, from their packet to their effect (R214, R353, R355). -/
def Obligations.LoadsOfProgramsAndKeySets : Prop :=
  Claims.LoadsBegin ∧ Claims.LoadsTakeEffect

/-- SUBMIT_JOB and its armed form: a job that fails a check is refused with that check's status and leaves no trace; one that
passes is placed at the earliest interval of R371 and its reply ACCEPTED carries the promise, or with FLAGS.ARM it joins its
class's arm queue; its slot is PENDING; a refusal carries the JOBID (R349, R356, R365, R367, R368). ABORT_JOB and RELEASE_RESULT are latched in the next
management cycle (R358, R360). -/
def Obligations.SubmissionsPlaceOrRefuse : Prop :=
  ∀ (s : State) (p : Packet), p.fn ≠ Fn.pf →
    (PacketReady s 0x21 p → exec (.abortJob p) s = .next { s.takePacket p with aborts := s.aborts ++ [(p, s.now + 1, none)] }) ∧
    (PacketReady s 0x22 p → exec (.releaseResult p) s = .next { s.takePacket p with releases := s.releases ++ [(p, s.now + 1)] }) ∧
    ∀ c : Instr, PacketReady s 0x20 p → s.boot.mode ≠ 3 → (c = .submitJob p ∨ c = .armJob p) →
    let m := s.imageOf p.fn (BitVec.ofNat 16 (pktBytes p 16 2))
    let ia := s.pktAddr p.fn (pktBytes p 24 8) 64 false
    let ra := s.pktAddr p.fn (pktBytes p 32 8) 64 false
    let ca := s.pktAddr p.fn (s.extAt p 48 8) 1 true
    let ma := s.pktAddr p.fn (s.extAt p 56 8) 1 true
    let r := ((s.takePacket p).clampQ p.fn p.q (ia.2 + ra.2 + ca.2 + ma.2)).readMembers ma.1 (m.elim 0 planMembers)
    let w := r.1
    let slot := finOf 63 (pktBytes p 18 1)
    let refusal := w.refusal p.fn m p.version slot p.jobid (BitVec.ofNat 64 ca.1) (BitVec.ofNat 64 ma.1) r.2 none
    let refused := fun (d : Nat) => exec c s = .next (({ w with nextId := w.nextId + 1 }).answer p { Answer.of 0x0070 d with result1 := p.jobid.toNat })
    (∀ x, refusal = some x → exec c s = .next (w.answer p { Answer.of x.1 x.2 with result1 := p.jobid.toNat })) ∧
    (∀ im, refusal = none → m = some im →
      let j := jobOf p w.nextId w.now im p.version ia.1 ra.1 ca.1 r.2
      let takes := fun (t : State) (j : Job) => t.jobs = w.jobs ++ [j] ∧ t.slotOf p.fn slot = { w.slotOf p.fn slot with st := .pending, jobid := p.jobid } ∧
        (∀ k, k ≠ slot → t.slotOf p.fn k = w.slotOf p.fn k) ∧ t.rows = s.rows ∧ t.images = s.images ∧ t.isles = w.isles
      let mine := w.adm.clsmap[im.hdr.cls.toNat]'(im.hdr.cls.isLt) = BitVec.ofNat 4 p.fn.val
      (p.arm = false → ∀ d, w.timelyRefusal im [] none = some d → refused d) ∧
      (p.arm = false → w.timelyRefusal im [] none = none → w.place w.timeline im w.now false = none → refused 14) ∧
      (p.arm = true → ¬ mine → refused 5) ∧
      (p.arm = true → mine → 4 ≤ (w.armQueue im.hdr.cls.toNat).length → refused 6) ∧
      (p.arm = false → w.timelyRefusal im [] none = none → ∀ pl, w.place w.timeline im w.now false = some pl →
        ∃ t, exec c s = .next t ∧ takes t { j with phase := .admitted, start := pl.1, cp := pl.2.1, prep := pl.2.2 } ∧
          (∃ o, t.occs = w.occs ++ [o] ∧ o.rows = im.run ∧ o.start = pl.1 - pl.2.2 ∧ o.stop = o.start + (pl.2.1 + 1 + pl.2.2 - pl.1) ∧
            o.kind = .job j.id)) ∧
      (p.arm = true → mine → (w.armQueue im.hdr.cls.toNat).length < 4 → ∃ t, exec c s = .next t ∧ takes t j ∧ t.occs = w.occs))

/-- A job's interval is clear of every occupancy on its rows, begins at or after its preparation, on the start grid where its
plan uses a Strait, and no earlier start would do (R370, R371, R379). -/
def Obligations.PlacementIsEarliest : Prop :=
  ∀ (occs : List Occ) (rows : BitVec 8) (c0 p J : Nat) (grid : Bool),
    let S := placeJob occs rows c0 p J grid
    let good := fun (S : Nat) => c0 + p ≤ S ∧ (grid = true → 131072 ∣ S) ∧
      ∀ o ∈ occs, o.rows &&& rows ≠ 0 → o.start + o.len ≤ S - p ∨ S + J ≤ o.start
    good S ∧ ∀ x, good x → S ≤ x

/-- A job from its preparation to its end. JOB_PREPARE asks for the run's domains, which have their clocks 4 cycles later, and gives its
slices their planned modes; JOB_START begins every Isle
of the run at page 0 with the job's identity, or discards the job with FAULTED where a row is hot; JOB_COMMIT makes the slot
READY with the job's status from the next cycle on, when its refreshes count too; JOB_END fills the run and removes its occupancy (R26, R33, R132, R186,
R188, R197, R214, R276, R278, R357, R372). -/
def Sys2Proof.Claims.JobLife : Prop :=
  ∀ (s : State) (j : Job), s.power = .running → s.reef.fatal = false → s.jobById j.id = some j →
    let isRow := fun (y : RowIdx) => j.run.getLsbD y.val = true
    let on := fun (g : Gate) => (g.due (s.now + 4)).on = true
    (j.phase = .admitted → j.ending = none → s.now + j.prep = j.start → ∃ t, exec (.jobPrepare j.id) s = .next t ∧
      (∀ l : SliceIdx, isRow (SliceIdx.row l) → (t.lagoon l).mode = j.img.sliceMode l ∧ (t.lagoon l).lines = []) ∧
      (∀ l : SliceIdx, ¬ isRow (SliceIdx.row l) → t.lagoon l = s.lagoon l) ∧ t.jobById j.id = some { j with phase := .prepared } ∧
      (∀ i : IsleIdx, if isRow i.row then on t.gates.cores[i] ∧ on t.gates.stores[i] ∧ on t.gates.movers[i]
        else t.gates.cores[i] = s.gates.cores[i] ∧ t.gates.stores[i] = s.gates.stores[i] ∧ t.gates.movers[i] = s.gates.movers[i]) ∧
      (∀ l : SliceIdx, if isRow (SliceIdx.row l) then on t.gates.slices[l] else t.gates.slices[l] = s.gates.slices[l]) ∧
      (∀ y : RowIdx, if isRow y then on t.gates.ports[y] else t.gates.ports[y] = s.gates.ports[y]) ∧
      (∀ p : Fin 16, if j.run.getLsbD (p.val / 2) then on t.gates.drams[p] else t.gates.drams[p] = s.gates.drams[p]) ∧
      t.isles = s.isles ∧ t.chans = s.chans ∧ t.occs = s.occs) ∧
    ((j.phase = .admitted ∨ j.phase = .prepared) → j.ending = none → s.now = j.start →
      ((∃ y : RowIdx, isRow y ∧ s.hot[y] = true) → ∃ t, exec (.jobStart j.id) s = .next t ∧
        t.slotOf j.fn j.slot = ResultSlot.reset ∧ t.isles = s.isles ∧ t.occs = endOccs s.now (fun o => o.kind == .job j.id) s.occs ∧
        t.jobById j.id = some { j with ending := some {
          cyc := s.now, status := 0x0030, result0 := 0x0030, time := BitVec.ofNat 28 (usOf (s.now - j.c0)), done := false } }) ∧
      ((∀ y : RowIdx, isRow y → s.hot[y] = false ∧ s.runningOn y = none) → dramClean s →
        ∃ t, exec (.jobStart j.id) s = .next t ∧ (∀ c, (t.chan c).mem = (s.chan c).mem) ∧ (∃ x, t.jobById j.id = some x ∧ x.phase = .started ∧ x.ending = none) ∧
          (∀ i : IsleIdx, isRow i.row →
            let k := (t.isle i).sk
            k.pc = 0 ∧ k.loops = [] ∧ k.st = .running ∧ k.halt = false ∧ k.cyc = 0 ∧ k.ended = false ∧ k.held = none ∧
            k.owner = BitVec.ofNat 4 j.fn.val ∧ k.jobtag = j.jobid.setWidth 32 ∧ k.run = some (j.fn, j.img.handle) ∧
            (t.isle i).slack = BitVec.ofNat 24 j.img.hdr.slack ∧ (t.isle i).tokOvr = false ∧ (t.isle i).mov.stopped = false) ∧
          ((∀ i ∈ circulation j.img.firstRow.val j.img.hdr.rows, isRow i.row) →
            (∀ x, j.img.sections.strait = some x → ∀ d ∈ x.reductions, isRow d.scalar.isle.row) →
            ∀ i : IsleIdx, ¬ isRow i.row → t.isle i = s.isle i))) ∧
    (s.canFinish j = true → j.img.sections.results ≠ [] →
      let r := s.heRun j
      let w := (s.revive j).writeResults j (j.outputs r)
      w.stillRuns j.id = true →
      ∃ t, exec (.jobCommit j.id) s = .next t ∧ (t.slotOf j.fn j.slot).st = .ready ∧ (t.slotOf j.fn j.slot).since = s.now + 1 ∧
        (t.slotOf j.fn j.slot).jobid = j.jobid ∧ (t.slotOf j.fn j.slot).status = r.status ∧
        (t.slotOf j.fn j.slot).results = (j.outputs r).map (fun o => (s.resultInfo j o)) ∧
        (∀ f k, ¬ (f = j.fn ∧ k = j.slot) → t.slotOf f k = w.slotOf f k) ∧ t.rows = s.rows ∧
        (∀ v, vfOf j.fn = some v → t.rfLevel = w.rfLevel ∧ t.rfBit = w.rfBit ∧ t.rfDue = w.rfDue ++ [(v, r.level, r.bit)]) ∧
        (∀ v, vfOf j.fn = some v → w.rfDue = [] →
          t.rfSettle.rfLevel[v] = satAdd w.rfLevel[v] r.level ∧ t.rfSettle.rfBit[v] = satAdd w.rfBit[v] r.bit) ∧
        ∃ x, t.jobById j.id = some x ∧ ∃ e, x.ending = some e ∧ e.done = true ∧ e.cyc = s.now ∧ e.status = r.status) ∧
    (s.canFinish j = true → j.img.sections.results = [] →
      ∃ t, exec (.jobEnd j.id) s = .next t ∧ (t.slotOf j.fn j.slot).st = .ready ∧ (t.slotOf j.fn j.slot).since = s.now + 1 ∧
        (t.slotOf j.fn j.slot).jobid = j.jobid ∧ (t.slotOf j.fn j.slot).status = (s.heRun j).status ∧
        (t.slotOf j.fn j.slot).results = []) ∧
    (∀ o, j.ending ≠ none → s.jobOcc j.id = some o → s.allEnded o.rows = true →
      (∀ y : RowIdx, o.rows.getLsbD y.val = true → s.runningOn y = none) →
      ∃ t, exec (.jobEnd j.id) s = .next t ∧ t.occs = endOccs s.now (fun o => o.kind == .job j.id) s.occs ∧
        (∀ i : IsleIdx, o.rows.getLsbD i.row.val = true → t.isle i = (s.isle i).endFill) ∧
        (∀ i : IsleIdx, ¬ o.rows.getLsbD i.row.val = true → t.isle i = s.isle i) ∧ t.chans = s.chans ∧ t.lagoons = s.lagoons)

/-- What the end fill leaves of an Isle: nothing of the job in its tile registers, latches, vector and scalar registers, queues
and mover, OWNER none and the Skerry halted; its store keeps its bytes (R132, R188). -/
def Sys2Proof.Claims.EndFill : Prop :=
  ∀ (is : Isle),
    let e := is.endFill
    (∀ r : Fin 32, e.reg r = 0 ∧ e.ve.v[r] = 0) ∧ (∀ n : Fin 4, e.sk.scr[n] = 0) ∧ (∀ n : Fin 64, e.ve.primes[n] = 0) ∧
    (∀ a, memRead e.me.tiles a = 0) ∧ e.me.wA = { WeightSet.reset with mode := is.me.wA.mode } ∧
    e.me.wB = { WeightSet.reset with mode := is.me.wB.mode } ∧ queuesEmpty e ∧ moverIdle e.mov ∧ e.un = Units.none ∧
    e.mov.fwds = [] ∧ e.sk.owner = 8 ∧ e.sk.halt = true ∧ (e.sk.st = .halted ∨ e.sk.st = .trapped) ∧ e.canIssue = false ∧ e.sto = is.sto

/-- A job from its preparation to its end, and what the end leaves of an Isle. -/
def Obligations.JobLifeAndEndFill : Prop :=
  Claims.JobLife ∧ Claims.EndFill

/-! ## Windows -/

/-- OPEN_WINDOW opens a CLOSED entry at its epoch for its function, and its WSTATE waits to be sent; on an OPEN entry it begins
a close that reopens, and on a CLOSING one it waits. CLOSE_WINDOW puts an OPEN entry into CLOSING from the next management
cycle, joins a close under way, and answers at once for a CLOSED one. Only the row's owner may (R305, R306, R308, R309). -/
def Sys2Proof.Claims.WindowCommands : Prop :=
  ∀ (s : State) (p : Packet) (v : RowIdx), vfOf p.fn = some v →
    let y : RowIdx := finOf 7 (pktBytes p 18 1)
    let h : Fin 1024 := finOf 1023 (pktBytes p 16 2)
    let u := s.takePacket p
    let x := s.windowTarget y p
    let w := (s.port y).window h
    let others := fun (t : State) => (∀ k, k ≠ h → (t.port y).window k = (s.port y).window k) ∧ (∀ z, z ≠ y → t.port z = s.port z) ∧
      t.isles = s.isles ∧ t.chans = s.chans ∧ t.lagoons = s.lagoons ∧ t.jobs = s.jobs
    (PacketReady s 0x30 p → s.holds p.fn y = false → exec (.openWindow p) s = .next (u.answer p (Answer.of 0x0070 0))) ∧
    (PacketReady s 0x31 p → s.holds p.fn y = false → exec (.closeWindow p) s = .next (u.answer p (Answer.of 0x0070 0))) ∧
    (PacketReady s 0x30 p → s.holds p.fn y = true →
      ∃ t, exec (.openWindow p) s = .next t ∧ others t ∧
        (w.st = .closed → (t.port y).window h = { w with owner := some v, st := .opened, target := x.1, quiet := false } ∧
          ((s.port y).waiting < 32 → ∃ m, (t.port y).wstateMsgs = (s.port y).wstateMsgs ++ [m] ∧ m.nack = false ∧
            m.handle = BitVec.ofNat 16 h.val ∧ m.epoch = w.epoch ∧ m.arg = 1 ∧ m.mdest = (s.port y).rxpeer ∧ m.msrc = s.devid ∧
            m.openPkt = some p ∧ t.out = s.out)) ∧
        (w.st = .opened → (t.port y).window h = { w with st := .closing, closeAt := s.now + 1, quiet := true, reopen := [(p, x.1)] }) ∧
        (w.st = .closing → (t.port y).window h = { w with reopen := w.reopen ++ [(p, x.1)] })) ∧
    (PacketReady s 0x31 p → s.holds p.fn y = true →
      (w.st = .closed → exec (.closeWindow p) s = .next (u.answer p { Answer.of 0 1 with result0 := w.epoch.toNat })) ∧
      (w.st ≠ .closed → ∃ t, exec (.closeWindow p) s = .next t ∧ others t ∧ t.out = s.out ∧
        (w.st = .opened → (t.port y).window h = { w with st := .closing, closeAt := s.now + 1, quiet := false, closers := [p] }) ∧
        (w.st = .closing → (t.port y).window h = { w with closers := w.closers ++ [p] })))

/-- A latched close ends once everything accepted has been written: the entry is CLOSED at the next epoch, and a stale epoch is
not accepted there any more; an OPEN_WINDOW that waits reopens it at that epoch. Before that nothing changes (R307, R308, R309). -/
def Sys2Proof.Claims.WindowCloses : Prop :=
  ∀ (s : State) (y : RowIdx) (h : Fin 1024), s.power = .running →
    let w := (s.port y).window h
    w.st = .closing →
    ((s.now < w.closeAt ∨ s.drainedWin w = false) → exec (.windowCloseComplete y h) s = .next s) ∧
    (w.closeAt ≤ s.now → s.drainedWin w = true → w.reopen = [] → ∃ t, exec (.windowCloseComplete y h) s = .next t ∧
      (t.port y).window h = { w with
        owner := none, st := .closed, epoch := w.epoch + 1, target := .none, quiet := false, closers := [] } ∧
      (∀ e off n, t.winCause y ((t.port y).window h) e off n = 1) ∧
      (∀ k, k ≠ h → (t.port y).window k = (s.port y).window k) ∧ (∀ z, z ≠ y → t.port z = s.port z)) ∧
    (∀ p x v, w.closeAt ≤ s.now → s.drainedWin w = true → w.reopen = [(p, x)] → w.quiet = true → w.closers = [] →
      vfOf p.fn = some v → s.holds p.fn y = true → ∃ t, exec (.windowCloseComplete y h) s = .next t ∧
      (t.port y).window h = { w with
        owner := some v, st := .opened, epoch := w.epoch + 1, target := x, quiet := false, closers := [], reopen := [] })

/-- Opening and closing windows (R305 to R309). -/
def Obligations.WindowsOpenAndClose : Prop :=
  Claims.WindowCommands ∧ Claims.WindowCloses

/-! ## Atoll -/

/-- An Atoll packet of the OP that names the operation joins the operation queue of 16, and is refused with DETAIL 8 when it is full; the next operation starts
when none runs, reading its curve and key then and for its fixed duration (R383, R385, R397). -/
def Sys2Proof.Claims.AtollQueue : Prop :=
  ∀ (s : State),
    (∀ (c : Instr) (o : AtollOp) (p : Packet) (d : List Byte) (pf vf : Bool), atollOf c = some (o, p, d, pf, vf) → PacketReady s 0x40 p →
      opNamed p = o.code → (if p.fn = Fn.pf then pf else vf) = true →
      let u := s.takePacket p
      (s.atl.queue.length < 16 → s.atl.waiting = [] → exec c s = .next { u.clampQ p.fn p.q (opClamps o p) with
        atl := { s.atl with queue := s.atl.queue ++ [.op o p d] } }) ∧
      (16 ≤ s.atl.queue.length → exec c s = .next (u.answer p (Answer.of 0x0070 8)))) ∧
    (∀ w rest, s.clocked = true → s.atl.running = none → s.atl.queue = w :: rest → s.atl.waiting = [] →
      let k := s.atl.workKey s.progLoads s.keyLoads w
      exec .atollOpStart s = .next { s with atl := { s.atl with
        queue := rest
        running := some {
          work := w, curve := s.atl.workCurve w, key := k, keyCurve := s.atl.keyCurve k, dur := s.workCost w, started := s.now } } })

/-- An operation ends after its duration and not before: its output goes to DST and the reply carries OK, its length and its
time, and it counts (R387). A health test that fails sets ENTFAIL (R396). -/
def Sys2Proof.Claims.AtollEnds : Prop :=
  ∀ (s : State) (r : AtollRun) (o : AtollOp) (p : Packet) (d : List Byte), s.clocked = true → s.atl.running = some r →
    r.work = .op o p d →
    let w := { s with atl := { s.atl with running := none } }
    let time := (r.dur + 149) / 150
    (s.now < r.started + r.dur → exec .atollOpEnd s = .next s) ∧
    (r.started + r.dur ≤ s.now →
      (∀ out t, w.opResult r o p d = some (out, t) →
        let x := { t with atl := { t.atl with done := satInc32 t.atl.done } }
        let x := if out = [] then x else { x with out := .dma p.fn (BitVec.ofNat 64 (pktBytes p 40 8 / 8 * 8)) out :: x.out }
        exec .atollOpEnd s = .next (x.answer p { status := 0, detail := 0, result0 := out.length, result1 := 0, time := time }))) ∧
    (∃ t, exec .entropyFailure s = .next t ∧ t.atl = { s.atl with entfail := true })

/-- The results of the plain operations: MODEXP answers the power modulo an odd modulus above 1 and rejects any other; ECMUL
rejects a scalar outside [1, n − 1] and a point that is not on its curve (R384, R387). -/
def Sys2Proof.Claims.AtollArithmetic : Prop :=
  (∀ m b e, 1 < m → powMod m b e = b ^ e % m) ∧
  ∀ (s : State) (p : Packet) (d : List Byte) (c : Curve),
    let w := opW p
    let n := leAt d 0 (8 * w)
    let b := leAt d (8 * w) (8 * w)
    let e := leAt d (16 * w) (8 * opEW p)
    (s.opModexp p d = if n % 2 = 1 ∧ 1 < n then some (leBytes (8 * w) (b ^ e % n), s) else none) ∧
    (∀ r, s.opEcmul c d = some r → 1 ≤ leAt d 0 (8 * c.wn) ∧ leAt d 0 (8 * c.wn) < c.n ∧ r.2 = s ∧
      let x := leAt d (8 * c.wn) (8 * c.wp)
      let y := leAt d (8 * c.wn + 8 * c.wp) (8 * c.wp)
      x < c.p ∧ y < c.p ∧ y * y % c.p = (x * x * x + c.a * x + c.b) % c.p ∧ r.1.length = 16 * c.wp)

/-- Operations of the Atoll from their packet to their reply (R383, R384, R387, R396, R397). -/
def Obligations.AtollOperations : Prop :=
  Claims.AtollQueue ∧ Claims.AtollEnds ∧ Claims.AtollArithmetic

/-- Every failure inside the Atoll shows as the one status ATOLL_REJECT with DETAIL 0 and RESULT0 0, whatever failed: an operation
whose check fails or that ends after an entropy failure changes nothing but the count of rejections, and one that a wipe discards
answers the same; so does a LOG_CLEAR whose authorisation does not verify or is discarded. A manifest that does not verify is kept as
failed for its LOAD_KEYSET (R388). -/
def Obligations.AtollFailures : Prop :=
  ∀ (s : State) (r : AtollRun) (dur : Nat), s.clocked = true → s.atl.running = some r → r.started + r.dur ≤ s.now →
    let w := { s with atl := { s.atl with running := none } }
    let fails := fun (p : Packet) (n : Nat) (x : State) => ({ x with atl := { x.atl with rejects := satInc32 x.atl.rejects } }).answer p
      { status := 0x00A0, detail := 0, result0 := 0, result1 := 0, time := (n + 149) / 150 }
    (∀ (o : AtollOp) (p : Packet) (d : List Byte), r.work = .op o p d →
      (w.opResult r o p d = none → exec .atollOpEnd s = .next (fails p r.dur w)) ∧
      (s.atl.entfail = true → exec .atollOpEnd s = .next (fails p r.dur w)) ∧
      (fails p r.dur w).atl = { s.atl with running := none, rejects := satInc32 s.atl.rejects } ∧
      s.discardedWork dur (.op o p d) = s.nextCycle (fails p dur)) ∧
    (∀ (p : Packet) (auth : List Byte), r.work = .checkAuth p auth →
      (s.atl.entfail = true ∨ s.atl.keyVerifies 1 r.key r.keyCurve (auth.take 16) (auth.drop 16) = false →
        exec .atollOpEnd s = .next (fails p 0 w)) ∧
      s.discardedWork dur (.checkAuth p auth) = s.nextCycle (fails p 0)) ∧
    (∀ (l : KeyLoad), r.work = .checkManifest l.id → s.keyLoads.find? (fun k => k.id == l.id) = some l →
      (s.atl.entfail = true ∨ s.atl.keyVerifies (0x10 + l.p.fn.val) r.key r.keyCurve (manifestMessage l.man) l.man.sig = false) →
      ∃ t, exec .atollOpEnd s = .next t ∧ t.atl = { s.atl with running := none, rejects := satInc32 s.atl.rejects } ∧
        (t.keyLoads.find? (fun k => k.id == l.id)).map (·.checked) = some (some false) ∧ t.keysets = s.keysets ∧ t.out = s.out)

/-! ## Owners -/

/-- SET_OWNER with nothing to move answers HLM_ROWOWNER; else it places a wipe of 435,000 cycles and moves no row yet. The
wipe's first cycle clears its rows' stores and slices and leaves them without an owner; its end hands them to the VF and
answers. No other row changes hands (R32, R434, R435, R436). -/
def Obligations.OwnerChanges : Prop :=
  ∀ (s : State),
    (∀ p : Packet, PacketReady s 0x50 p → p.fn = Fn.pf →
      let mask := BitVec.ofNat 8 (pktBytes p 16 1)
      let n := pktBytes p 17 1 % 16
      let v : Option RowIdx := if h : n < 8 then some ⟨n, h⟩ else none
      let asked := BitVec.ofNat 16 (pktBytes p 18 2)
      let no := (v.bind (fun v => s.ownerNo[v])).getD asked
      let w := (s.takePacket p).clampQ p.fn p.q ((if 8 < n then 1 else 0) + if v ≠ none ∧ no ≠ asked then 1 else 0)
      let moves := fun (y : RowIdx) => mask.getLsbD y.val = true ∧ s.rowTarget y ≠ v
      (∀ y : RowIdx, mask.getLsbD y.val = true → s.rowDead y = false) →
      (∀ u : RowIdx, v ≠ none → v ≠ some u → s.ownerNo[u] ≠ some no) →
      ((∀ y, ¬ moves y) → exec (.setOwner p) s = .next (w.answer p
        { status := 0, detail := 0, result0 := s.rowOwner.toNat, result1 := 0, time := 0 })) ∧
      ((∃ y, moves y) → ∃ t x o, exec (.setOwner p) s = .next t ∧ t.wipes = s.wipes ++ [x] ∧ t.rows = s.rows ∧
        x.vf = v ∧ x.number = no ∧ x.begun = false ∧ x.p = p ∧ (∀ y : RowIdx, x.rows.getLsbD y.val = true ↔ moves y) ∧
        o ∈ t.occs ∧ o.id = x.id ∧ o.rows = x.rows ∧ o.len = 435000 ∧ o.kind = .wipe ∧ s.now ≤ o.start ∧
        (∀ v', v = some v' → t.ownerNo[v'] = some no) ∧ t.isles = s.isles ∧ t.chans = s.chans ∧ t.lagoons = s.lagoons)) ∧
    (∀ w : Wipe, s.power = .running → s.wipes.find? (fun x => x.id == w.id) = some w →
      let on := fun (y : RowIdx) => w.rows.getLsbD y.val = true
      (w.begun = false → (∃ o, s.occOf w.id = some o ∧ o.start = s.now) → ∃ t, exec (.wipeStart w.id) s = .next t ∧
        (∀ y, on y → t.rows[y] = { owner := none, wiping := true }) ∧ (∀ y, ¬ on y → t.rows[y] = s.rows[y]) ∧
        (∀ i : IsleIdx, on i.row → ∀ a, memRead (t.isle i).sto.mem a = 0) ∧
        (∀ i : IsleIdx, ¬ on i.row → (t.isle i).sto = (s.isle i).sto) ∧
        (∀ l : SliceIdx, on (SliceIdx.row l) → (t.lagoon l).mode = 0 ∧ ∀ a, memRead (t.lagoon l).mem a = 0) ∧
        (∀ l : SliceIdx, ¬ on (SliceIdx.row l) → t.lagoon l = s.lagoon l)) ∧
      (w.begun = true → (∃ o, s.occOf w.id = some o ∧ o.stop = s.now) → ∃ (t u : State), exec (.wipeEnd w.id) s = .next t ∧
        (∀ y, on y → t.rows[y] = { owner := w.vf, wiping := false }) ∧ (∀ y, ¬ on y → t.rows[y] = s.rows[y]) ∧
        t.wipes = s.wipes.filter (fun x => x.id != w.id) ∧ t.occs = endOccs s.now (fun o => o.id == w.id) s.occs ∧
        t = u.answer w.p { Answer.of 0 0 with result0 := t.rowOwner.toNat, time := usOf (s.now - w.interp) }))

/-- HLM_ROWOWNER, which every function reads, has one field of four bits per row: the VF that owns it, 8 for none, 9 while it is
wiped (R32). -/
def Obligations.RowOwnerRegister : Prop :=
  ∀ (s : State), regAt Fn.pf 0x20004 = some .rowowner ∧ (∀ v : RowIdx, regAt (fnOfVf v) 0x8004 = some .rowowner) ∧
    ∀ (fn : Fn) (o : Nat) (y : RowIdx), regAt fn o = some .rowowner →
      let x := s.regRead fn o false / 16 ^ y.val % 16
      ((s.rows[y]).wiping = true → x = 9) ∧ ((s.rows[y]).wiping = false → (s.rows[y]).owner = none → x = 8) ∧
      ∀ v, (s.rows[y]).wiping = false → (s.rows[y]).owner = some v → x = v.val

/-- Function Level Reset of a VF drops everything that belongs to it, without replies: its jobs, loads, sets, images and
results; its queues are disabled and its counters read 0. Rows keep their owners, and no other function's queues or slots
change (R363). -/
def Obligations.FunctionLevelResets : Prop :=
  ∀ (s : State) (fn : Fn) (v : RowIdx), (s.power = .ready ∨ s.power = .running) → vfOf fn = some v →
    ∃ t, exec (.functionLevelReset fn) s = .next t ∧ (∀ j ∈ t.jobs, j.fn ≠ fn) ∧ (∀ m ∈ t.images, m.fn ≠ fn) ∧
      (∀ k ∈ t.keysets, k.fn ≠ fn) ∧ (∀ k : Fin 16, ∀ x, t.psets[k] = some x → x.fn ≠ fn) ∧ (∀ l ∈ t.progLoads, l.p.fn ≠ fn) ∧
      (∀ l ∈ t.keyLoads, l.p.fn ≠ fn) ∧ (∀ p ∈ t.fetched, p.fn ≠ fn) ∧ (∀ k, t.slotOf fn k = ResultSlot.reset) ∧
      (∀ q, (t.queue fn q).en = false ∧ (t.queue fn q).version = 0) ∧ (t.fnOf fn).clamp8 = 0 ∧ t.rfLevel[v] = 0 ∧ t.rfBit[v] = 0 ∧
      (∀ j ∈ s.jobs, j.fn ≠ fn → j ∈ t.jobs ∨ ∃ g ∈ s.jobs, g.fn = fn ∧ g.id = j.id) ∧
      (∀ f, f ≠ fn → t.fnOf f = s.fnOf f) ∧ t.rows = s.rows ∧ t.out = s.out ∧ t.atl.owners[v] = none ∧ t.atl.sessions[v] = none

/-! ## Self-test and page retirement -/

/-- BIST_SLICE places a slice of 60,000 cycles on its Isle's row, or in test mode with every row unowned the depot test; the
periodic slices take the Isles in turn. A slice ungates its Isle and zero-fills it at its start and end, and its verdict stands in BST_FAIL
and BST_STAT; the depot test's likewise for all (R437 to R442). -/
def Obligations.SelfTests : Prop :=
  ∀ (s : State), s.power = .running → s.reef.fatal = false →
    (∀ (p : Packet) (c : Instr), PacketReady s 0x70 p → p.fn = Fn.pf → (c = .bistSlice p ∨ c = .depotTest p) →
      let k := pktBytes p 17 1 % 4
      let w := (s.takePacket p).clampQ p.fn p.q (if 1 < k then 1 else 0)
      let i : IsleIdx := finOf 63 (pktBytes p 16 1)
      (k = 0 → ∃ t o, exec c s = .next t ∧ t.occs = s.occs ++ [o] ∧ o.rows = rowMask i.row.val 1 ∧ o.len = 60000 ∧ s.now ≤ o.start ∧
        o.kind = .slice ∧ t.slices = s.slices ++ [{ id := o.id, isle := i, p := some p, begun := false }] ∧ t.isles = s.isles) ∧
      (k ≠ 0 → s.boot.mode = 2 → (∀ y : RowIdx, (s.rows[y]).code = 8) → s.wipes = [] → ∃ t o, exec c s = .next t ∧
        t.occs = s.occs ++ [o] ∧ o.rows = 0xFF ∧ o.len = 2250000000 ∧ t.depots = s.depots ++ [{ id := o.id, p := p, begun := false }]) ∧
      (k ≠ 0 → s.boot.mode ≠ 2 → exec c s = .next (w.answer p (Answer.of 0x0070 12)))) ∧
    (∀ (x : Slice) (ok : Bool) (sig : DWord) (n : Nat), s.slices.find? (fun y => y.id == x.id) = some x →
      let clean := fun (t : State) => (∀ a, memRead (t.isle x.isle).sto.mem a = 0) ∧ (∀ a, memRead (t.isle x.isle).me.tiles a = 0) ∧
        (∀ r : Fin 32, (t.isle x.isle).reg r = 0 ∧ (t.isle x.isle).ve.v[r] = 0) ∧ ∀ k, k ≠ x.isle → t.isle k = s.isle k
      (x.begun = false → (∃ o, s.occOf x.id = some o ∧ o.start = s.now) → ∃ t, exec (.sliceStart x.id) s = .next t ∧ clean t ∧
        t.chans = s.chans ∧ t.bstFail = s.bstFail ∧ t.gates.isleOn x.isle = true) ∧
      (x.begun = true → (∃ o, s.occOf x.id = some o ∧ o.stop = s.now) → ∃ t, exec (.sliceEnd x.id ok sig n) s = .next t ∧
        clean t ∧ t.slices = s.slices.filter (fun y => y.id != x.id) ∧ t.bstLastIsle.toNat = x.isle.val ∧
        t.bstLastResult = (if ok then 0 else 1) ∧
        ∀ k, k < 64 → t.bstFail.getLsbD k = if k = x.isle.val then !ok else s.bstFail.getLsbD k)) ∧
    (let P := 150000 * s.bstPeriod.toNat
     s.boot.mode = 0 → P ≠ 0 → (s.bstNext - 1) * P ≤ s.now → ∃ t o, exec .periodicSlicePlace s = .next t ∧
       t.bstNext = s.bstNext + 1 ∧ t.occs = s.occs ++ [o] ∧ o.len = 60000 ∧ max (s.bstNext * P) s.now ≤ o.start ∧
       t.slices = s.slices ++ [{ id := o.id, isle := finOf 63 (s.bstNext - 1), p := none, begun := false }]) ∧
    (∀ d : Depot, s.depots = [d] →
      (d.begun = false → (∃ o, s.occOf d.id = some o ∧ o.start = s.now) →
        (∃ t, exec (.depotTestStart true true) s = .next t ∧ t.depots = [{ d with begun := true }] ∧
          ∀ i a, memRead (t.isle i).sto.mem a = 0) ∧
        ∃ u : State, exec (.depotTestStart false true) s = .next (State.answer u d.p (Answer.of 0 3)) ∧ u.depots = [] ∧ u.isles = s.isles) ∧
      (d.begun = true → (∃ o, s.occOf d.id = some o ∧ o.stop = s.now) → ∀ (bad : BitVec 64) (other : Bool) (sig : DWord),
        ∃ u : State, exec (.depotTestEnd bad other sig) s = .next (State.answer u d.p (Answer.of 0 (if other ∨ bad ≠ 0 then 1 else 0))) ∧
          u.depots = [] ∧ u.bstFail = bad ∧ u.bstDepotFail = other ∧ ∀ i a, memRead (u.isle i).sto.mem a = 0))

/-- RETIRE_PAGE answers at once for a page that needs no retirement and for a full table, which sets FULL; else it places a
window of 3,000 cycles after the row's admitted jobs. At its end the page's 256 blocks stand in its spare, later accesses to
the page reach the spare, and no other page moves; the entry is in flash, and the reply given, in the cycle after (R286, R288). -/
def Obligations.PageRetirement : Prop :=
  ∀ (s : State),
    (∀ p : Packet, PacketReady s 0x80 p → p.fn = Fn.pf →
      let c : ChanIdx := finOf 63 (4 * (pktBytes p 16 1 % 16) + pktBytes p 17 1 % 4)
      let page := pktBytes p 20 4 % 2 ^ 19
      page ≤ pageTop s.big512 →
      (∀ i, s.retiredAs c page = some i → exec (.retirePage p) s = .next (((s.takePacket p).clampQ p.fn p.q 0).retireDone p c page i 1)) ∧
      (s.retiredAs c page = none → 64 ≤ (s.chan c).retired.length → ∃ t, exec (.retirePage p) s = .next t ∧
        t.chan c = { s.chan c with retireFull := true } ∧ ∀ k, k ≠ c → t.chan k = s.chan k) ∧
      (s.retiredAs c page = none → (s.chan c).retired.length < 64 → ∃ t o, exec (.retirePage p) s = .next t ∧
        t.occs = s.occs ++ [o] ∧ o.rows = rowMask (ChanIdx.row c).val 1 ∧ o.len = 3000 ∧ s.afterJobs o.rows ≤ o.start ∧
        t.retires = s.retires ++ [{ id := o.id, p := p, chan := c, page := page, begun := false, saving := none }] ∧
        t.chans = s.chans)) ∧
    (∀ (r : Retire) (n : Nat), s.retires = [r] → r.saving = some n →
      s.saveRetires = ({ s with retires := [] }).retireDone r.p r.chan r.page n 0) ∧
    (∀ r : Retire, s.power = .running → s.retires.find? (fun x => x.id == r.id) = some r →
      (r.begun = false → (∃ o, s.occOf r.id = some o ∧ o.start = s.now) → exec (.retirementWindowStart r.id) s = .next
        { s with retires := s.retires.map (fun x => if x.id == r.id then { x with begun := true } else x) }) ∧
      (r.begun = true → r.saving = none → (∃ o, s.occOf r.id = some o ∧ o.stop = s.now) → s.retiredAs r.chan r.page = none →
        (s.chan r.chan).retired.length < 64 → (s.chan r.chan).errs = [] → (s.chan r.chan).chk = [] → (s.chan r.chan).inj = none →
        Memory.wf (s.chan r.chan).mem = true →
        let n := (s.chan r.chan).retired.length
        let spare := pageTop s.big512 - n
        r.page < spare → ∃ t, exec (.retirementWindowEnd r.id) s = .next t ∧
          (t.chan r.chan).retired = (s.chan r.chan).retired ++ [r.page] ∧ t.out = s.out ∧
          t.retires = s.retires.map (fun x => if x.id == r.id then { x with saving := some n } else x) ∧
          (∀ k, k < 16384 → memRead (t.chan r.chan).mem (16384 * spare + k) = memRead (s.chan r.chan).mem (16384 * r.page + k)) ∧
          (∀ a, (a < 16384 * spare ∨ 16384 * (spare + 1) ≤ a) →
            memRead (t.chan r.chan).mem a = memRead (s.chan r.chan).mem a) ∧
          (∀ x, x / 16384 = r.page → (t.chan r.chan).home (pageTop s.big512) x = 16384 * spare + x % 16384) ∧
          (∀ x, x / 16384 ≠ r.page → (t.chan r.chan).home (pageTop s.big512) x = (s.chan r.chan).home (pageTop s.big512) x) ∧
          ∀ k, k ≠ r.chan → t.chan k = s.chan k))

/-! ## Event recorder and registers -/

/-- A record takes the next SEQ at the end of the log; once its buffer or the flash has no room it is lost and counted, and
the last record before a full flash is FULL (R409, R410, R412, R414). -/
def Sys2Proof.Claims.RecorderWrites : Prop :=
  ∀ (s : State) (ty : Nat) (payload : List Byte),
    let e := s.evr
    let r := s.record ty payload
    let size := 24 + (payload.length + 3) / 4 * 4
    r.1 = { s with evr := r.1.evr } ∧ e.log <+: r.1.evr.log ∧ r.1.evr.flash = e.flash ∧
    (e.full = true ∨ 524288 < sizeOf' e.buf + size → r.2 = 0xFFFFFFFF ∧ r.1.evr = { e with lost := satInc32 e.lost }) ∧
    (e.full = false → sizeOf' e.buf + size ≤ 524288 → sizeOf' e.flash + sizeOf' e.buf + size + 28 ≤ 268435456 →
      r.2 = e.next ∧ r.1.evr.next = e.next + 1 ∧ r.1.evr.lost = e.lost ∧ r.1.evr.log = e.log ++
        [{ ty := BitVec.ofNat 16 ty, seq := e.next, time := BitVec.ofNat 64 s.now, payload := payload }]) ∧
    (e.full = false → sizeOf' e.buf + size ≤ 524288 → 268435456 < sizeOf' e.flash + sizeOf' e.buf + size + 28 →
      r.1.evr.full = true ∧ r.1.evr.lost = satInc32 e.lost ∧ r.2 = 0xFFFFFFFF ∧ ∃ x, r.1.evr.log = e.log ++ [x] ∧ x.ty = 3 ∧ x.seq = e.next)

/-- LOG_READ sends whole records from FIRST on, at most LENGTH bytes, and answers where the next read goes on. LOG_CLEAR is
handed to the Atoll, and takes effect when no flush runs: the log is then its CLEARED record. QUERY_HEALTH sends its 256-byte
record. A flush leaves everything recorded in flash (R412, R415 to R418). -/
def Sys2Proof.Claims.RecorderCommands : Prop :=
  ∀ (s : State) (p : Packet) (auth : List Byte),
    (p.fn = Fn.pf →
      let u := s.takePacket p
      let dst := BitVec.ofNat 64 (pktBytes p 16 8)
      (PacketReady s 0x60 p → ∃ sent rest, s.evr.log.filter (fun r => decide (pktBytes p 28 4 ≤ r.seq.toNat)) = sent ++ rest ∧
        (sent.flatMap Record.bytes).length ≤ pktBytes p 24 4 ∧
        (∀ r ∈ rest.head?, pktBytes p 24 4 < (sent.flatMap Record.bytes).length + r.size) ∧
        exec (.logRead p) s = .next (({ u with out := .dma p.fn dst (sent.flatMap Record.bytes) :: s.out }).answer p
          { status := 0, detail := 0, result0 := (sent.flatMap Record.bytes).length
            result1 := (rest.head?.elim s.evr.next (·.seq)).toNat, time := 0 })) ∧
      (PacketReady s 0x61 p → s.atl.queue.length < 16 → s.atl.waiting = [] → exec (.logClear p auth) s = .next {
        u.clampQ p.fn p.q (if p.version.toNat < leAt auth 0 1 / 16 then 1 else 0) with
        atl := { s.atl with queue := s.atl.queue ++ [.checkAuth p auth] } })) ∧
    (PacketReady s 0x90 p → (s.health p.fn).length = 256 ∧
      exec (.queryHealth p) s = .next (({ s.takePacket p with out := .dma p.fn (BitVec.ofNat 64 (pktBytes p 16 8)) (s.health p.fn) :: s.out }).answer p
        { status := 0, detail := 0, result0 := 256, result1 := 0, time := 0 })) ∧
    (∀ up n rest, s.clocked = true → s.evr.clearing = (p, up, n) :: rest → s.evr.flushing = false →
      ∃ u r, exec .logClearEffect s = .next (State.answer u p { status := 0, detail := 0, result0 := 0, result1 := s.evr.next.toNat, time := 0 }) ∧
        u.evr.flash = [r] ∧ u.evr.buf = [] ∧ r.ty = 2 ∧ r.seq = s.evr.next ∧ u.evr.next = s.evr.next + 1 ∧ u.evr.full = false ∧
        u.evr.clearing = rest ∧ u = { s with evr := u.evr }) ∧
    (s.evr.flushing = true → s.power = .running → exec .flushComplete s = .next { s with
      evr := { s.evr with flash := s.evr.flash ++ s.evr.buf, buf := [], flushing := false } }) ∧
    (∀ c page block asked rest, s.power = .running → s.evr.captures = (c, page, block, asked) :: rest →
      (asked + 150000 < s.now → exec .captureReadAbandoned s = .next { s with evr := { s.evr with captures := rest } }) ∧
      (s.now ≤ asked + 150000 → ∃ t, exec .captureReadComplete s = .next t ∧ t.evr.captures = rest ∧
        t = (({ s with evr := { s.evr with captures := rest } }).record 0x14 (leBytes 2 (0x6000 + c.val) ++ [0, 0] ++
          ((s.chan c).rawBlock (256 * page + block)).1 ++ ((s.chan c).rawBlock (256 * page + block)).2)).1))

/-- The event recorder: its records and its commands (R409 to R418). -/
def Obligations.RecorderKeepsAndClears : Prop :=
  Claims.RecorderWrites ∧ Claims.RecorderCommands

/-- A write stores into the fields a register lets it: read-write fields change, a bit written 1 to clear reads 0, a counter
written 0 clears, and every other register keeps its value; an access to an offset no register has, and a write of the result aperture, is
discarded and counted (R27, R337, R348, R361, R461). A VF reaches its own queues and copies alone (Table HC-4). -/
def Sys2Proof.Claims.RegisterWrites : Prop :=
  ∀ (s : State) (fn : Fn) (o : Nat) (v : DWord), s.busServes = true →
    let n := v.toNat % 2 ^ 32
    let w := exec (.registerWrite fn o false v) s
    (regAt fn o = none → regAt fn (o - 4) = none → w = .next (s.clamp8 fn 1) ∧ s.regRead fn o false = 0) ∧
    (2 ^ 40 ≤ o → ∀ wide, exec (.registerWrite fn o wide v) s = .next (s.clamp8 fn 1)) ∧
    (∀ r, regAt fn o = some r → s.regRead fn o false = s.regValue fn r % 2 ^ 32) ∧
    (s.reef.fatal = false →
      (regAt fn o = some .admSel → w = .next { s with adm := { s.adm with sel := BitVec.ofNat 8 n } }) ∧
      (regAt fn o = some .admCtrl → w = .next { s with adm := { s.adm with en := n % 2 == 1 } }) ∧
      (regAt fn o = some .bstPlan → w = .next { s with bstPeriod := BitVec.ofNat 16 (n / 2 ^ 16) }) ∧
      (regAt fn o = some .atlKeysel → w = .next { s with atl := { s.atl with keysel := BitVec.ofNat 8 n } }) ∧
      (regAt fn o = some .winsel → w = .next { s with winSel := BitVec.ofNat 14 n }) ∧
      (∀ i, regAt fn o = some (.vestat i) → w = .next (s.setIsle i { s.isle i with ve := { (s.isle i).ve with
        sat := (s.isle i).ve.sat && !n.testBit 2, ovf := (s.isle i).ve.ovf && !n.testBit 1, nan := (s.isle i).ve.nan && !n.testBit 0 } })) ∧
      (∀ i, regAt fn o = some (.ecccnt i) → w = .next (s.setIsle i { s.isle i with sto := { (s.isle i).sto with
        eccCnt := if n = 0 then 0 else (s.isle i).sto.eccCnt } })) ∧
      (∀ y, regAt fn o = some (.windrop y) → w = .next (s.setPort y { s.port y with
        windrop := if n = 0 then 0 else (s.port y).windrop })) ∧
      (regAt fn o = some .topo ∨ regAt fn o = some .rowowner ∨ (∃ v, regAt fn o = some (.rfcnt v)) ∨
        regAt fn o = some .evrUsed ∨ regAt fn o = some .evrClears ∨ (∃ i, regAt fn o = some (.skstat i)) → w = .next s)) ∧
    (∀ u : RowIdx, vfOf fn = some u → ∀ r, regAt fn o = some r → (∃ q, r = .sqbase q ∨ r = .cqbase q ∨ r = .qcfg q ∨ r = .qstat q ∨
      r = .sqdb q ∨ r = .cqdb q) ∨ (∃ q, r = .clampcnt q) ∨ r = .topo ∨ r = .rowowner ∨ r = .rfcnt u)

/-- Register writes that are commands of their own: ADM_CLSMAP assigns eight classes, an armed class keeping its function;
REEF_EVPOP drops the oldest event; REEF_INJ arms one injection in bring-up and test mode; STR_DEVID is written in bring-up
mode; ISL_SKCTL halts, releases and steps a Skerry there, after the next ungating when its Isle is gated (R27, R188, R298, R367, R407,
R408). -/
def Sys2Proof.Claims.RegisterCommands : Prop :=
  ∀ (s : State) (v : Word),
    (∀ k : Fin 32, s.takesWrite = true → ∃ t, exec (.admClsmapWrite k v) s = .next t ∧
      (∀ c : Fin 256, t.adm.clsmap[c] = if c.val / 8 = k.val ∧ s.armQueue c.val = []
        then BitVec.ofNat 4 (min 8 (v.toNat / 16 ^ (c.val % 8) % 16)) else s.adm.clsmap[c]) ∧
      t = { s with adm := { s.adm with clsmap := t.adm.clsmap }, fns := t.fns } ∧ ∀ f, f ≠ Fn.pf → t.fnOf f = s.fnOf f) ∧
    (s.busServes = true → exec (.reefEvpop v) s = .next
      { s with reef := { s.reef with events := if v.getLsbD 0 then s.reef.events.drop 1 else s.reef.events } }) ∧
    (s.busServes = true → s.boot.mode ≠ 1 → s.boot.mode ≠ 2 → exec (.faultInjectArm v) s = .next (s.clamp8 Fn.pf 1)) ∧
    (s.busServes = true → (s.boot.mode = 1 ∨ s.boot.mode = 2) →
      let m := v.toNat / 2 ^ 16 % 4
      let chk := v.toNat % 2 ^ 16
      ∃ t, exec (.faultInjectArm v) s = .next t ∧ t.reef.injMode.toNat = min 2 m ∧ t.reef.injChk.toNat = chk ∧
        (m = 0 ∨ injectable chk = false → t.reef.injArmed = false ∧ (∀ i, (t.isle i).sto.inj = none) ∧ ∀ c, (t.chan c).inj = none) ∧
        (m ≠ 0 → injectable chk = true → t.reef.injArmed = true ∧
          (∀ c : ChanIdx, (t.chan c).inj = if chk = 0x6000 + c.val then some (decide (2 ≤ m)) else none) ∧
          ∀ i : IsleIdx, (t.isle i).sto.inj = if chk = 0x2000 + i.val then some (decide (2 ≤ m)) else none)) ∧
    (s.takesWrite = true → s.boot.mode = 1 → ∃ t, exec (.devidWrite v) s = .next t ∧ t.devid = BitVec.ofNat 20 v.toNat ∧
      (∀ y, (s.port y).up = true → t.port y = { s.port y with
        dupid := decide (t.devid = (s.port y).rxpeer ∨ t.devid = 0xFFFFF ∨ (s.port y).rxpeer = 0xFFFFF) }) ∧
      (∀ y, (s.port y).up = false → t.port y = s.port y) ∧ t = { s with devid := t.devid, ports := t.ports }) ∧
    (s.boot.mode ≠ 1 → exec (.devidWrite v) s = .next s) ∧
    (∀ i, s.busServes = true → s.reef.fatal = false → s.boot.mode = 1 →
      let put := fun (h : Bool) (st : SkState) => s.setIsle i { s.isle i with sk := { (s.isle i).sk with halt := h, st := st } }
      let owed := fun (l : List IsleIdx) => i :: l.filter (· != i)
      (s.gates.isleOn i = true →
        (v.getLsbD 0 = true → (s.isle i).sk.st ≠ .trapped → exec (.skerryHalt i v) s = .next (put true .halted)) ∧
        (v.getLsbD 0 = false → (s.isle i).sk.st = .halted → (s.isle i).sk.ended = false →
          exec (.skerryHalt i v) s = .next (put false (if (s.isle i).sk.held = none then .running else .stalled)))) ∧
      (s.gates.isleOn i = false → exec (.skerryHalt i v) s = .next { put (v.getLsbD 0) (s.isle i).sk.st with
        gates := { s.gates with haltOwed := owed s.gates.haltOwed } }) ∧
      (∀ sd sa sb, v.getLsbD 1 = true → s.power = .running → (s.isle i).sk.halt = true → (s.isle i).sk.st = .halted →
        (s.isle i).sk.held = none → queuesEmpty (s.isle i) → unitsIdle (s.isle i).un → (∀ k, moverIdle (s.isle k).mov) →
        s.gates.isleOn i = true →
        (s.isle i).fetch = some (.scalar .add { sd := sd, sa := sa, sb := sb, sc := 0, useImm := false, imm := 0 }) → sd ≠ 0 →
        ∃ t, exec (.skerryStep i v) s = .next t ∧ (t.isle i).reg sd = (s.isle i).reg sa + (s.isle i).reg sb ∧
          (t.isle i).sk.st = .halted ∧ ∀ k, k ≠ i → t.isle k = s.isle k) ∧
      (v.getLsbD 1 = true → s.power = .running → (s.isle i).sk.halt = true → (s.isle i).sk.st = .halted → s.gates.isleOn i = false →
        exec (.skerryStep i v) s = .next { s with gates := { s.gates with stepOwed := owed s.gates.stepOwed } })) ∧
    (∀ i, s.boot.mode ≠ 1 → exec (.skerryHalt i v) s = .next s ∧ exec (.skerryStep i v) s = .next s)

/-- Writes of registers, and the ones that are commands of their own. -/
def Obligations.RegisterReadsAndWrites : Prop :=
  Claims.RegisterWrites ∧ Claims.RegisterCommands

/-! ## Host accesses -/

/-- Within the rows a function reaches, a host read of DRAM returns the stored bytes, and a host write of one block outside the
protected ranges stores its bytes there and nowhere else. Elsewhere a read returns zeros, a write does nothing, and both
count; a protected block is not written (R272, R338, R354, R422). -/
def Sys2Proof.Claims.HostDramAccesses : Prop :=
  ∀ (s : State) (fn : Fn) (addr : BitVec 40) (data : List Byte) (len : Nat), s.busServes = true →
    let a := addr.toNat
    let y := devRow a
    let reach := if fn = Fn.pf then (s.rows[y]).code = 8 else s.holds fn y = true
    let p := devByte s.big512 a 0
    let h := s.devHome a 0
    (¬ reach → exec (.hostDramWrite fn addr data) s = .next (s.clamp8 fn 1) ∧ ∃ t, exec (.hostDramRead fn addr len) s = .next t ∧
      t.out = .completion fn (List.replicate len 0) false :: s.out ∧ t.chans = s.chans) ∧
    (reach → s.rowDead y = true → exec (.hostDramWrite fn addr data) s = .next s ∧ exec (.hostDramRead fn addr len) s = .next s) ∧
    (reach → s.rowDead y = false → dramClean s →
      (∃ t, exec (.hostDramRead fn addr len) s = .next t ∧
        t.out = .completion fn ((List.range len).map (fun k => memRead (s.chan (s.devHome a k).1).mem (s.devHome a k).2)) false :: s.out ∧
        t.chans = s.chans) ∧
      (data ≠ [] → a % 64 + data.length ≤ 64 → (s.chan p.1).isProtected p.2 = true →
        exec (.hostDramWrite fn addr data) s = .next (s.clamp8 fn 1)) ∧
      (data ≠ [] → a % 64 + data.length ≤ 64 → (s.chan p.1).isProtected p.2 = false → Memory.wf (s.chan h.1).mem = true →
        ∃ t, exec (.hostDramWrite fn addr data) s = .next t ∧ WritesBytes (s.chan h.1).mem (t.chan h.1).mem h.2 data ∧
          (∀ c, c ≠ h.1 → t.chan c = s.chan c) ∧ t.fns = s.fns ∧ t.isles = s.isles ∧
          ∀ l : SliceIdx, (devMode1 a = true ∨ l.val ≠ p.1.val / 4 ∨ (s.lagoon l).mode ≠ 2) → t.lagoon l = s.lagoon l))

/-- A MODE 0 address is spread over the eight channels of its row in units of 16 KiB, a MODE 1 address lies in one channel; every
byte lies in its row's channels, below the channel's capacity, and two offsets below the row's capacity never meet (R270, R271). -/
def Sys2Proof.Claims.DeviceAddresses : Prop :=
  ∀ (big : Bool) (a k : Nat), a < 2 ^ 40 →
    let x := devByte big a k
    x.2 < chanCap big ∧ x.1.val / 8 = (devRow a).val ∧
    (devMode1 a = true → x.1.val = a / 2 ^ 33 % 64 ∧ (a % 2 ^ 33 + k < chanCap big → x.2 = a % 2 ^ 33 + k)) ∧
    (devMode1 a = false → a % 2 ^ 36 + k < 8 * chanCap big →
      (x.2 / 16384 * 8 + x.1.val % 8) * 16384 + x.2 % 16384 = a % 2 ^ 36 + k)

/-- A read of the result aperture shows NOT_READY until the slot is READY; then its header, and each payload 16 KiB aligned
after the first page. A host read that waited 1 ms ends with Completer Abort and is counted (R285, R361, R362). -/
def Sys2Proof.Claims.ResultWindows : Prop :=
  ∀ (s : State) (fn : Fn) (k : Fin 64) (off len : Nat), s.busServes = true → fn ≠ Fn.pf →
    let x := s.slotOf fn k
    let shows := fun (f : Nat → Byte) => ∃ t b, exec (.resultRead fn k off len) s = .next t ∧
      t.out.head? = some (.completion fn ((List.range len).map (fun i => f (off + i))) b) ∧ t.rows = s.rows ∧ t.isles = s.isles
    ((x.st ≠ .ready ∨ s.now < x.since) → shows (fun o => if o = 0 then 0x10 else 0)) ∧
    (x.st = .ready → x.since ≤ s.now → x.results = [] → shows (fun o => (slotPage k.val x).getD o 0)) ∧
    (∀ r rest, x.st = .ready → x.since ≤ s.now → x.results = r :: rest → off + len ≤ 16384 + r.len → 16384 ≤ off →
      shows (fun o => s.devByteAt r.payload.toNat (o - 16384))) ∧
    (slotPage k.val x).take 2 = leBytes 2 x.status.toNat ∧ (slotPage k.val x).getD 4 0 = BitVec.ofNat 8 k.val ∧
    ∀ (c : ChanIdx) (waited : Nat), 150000 ≤ waited → ∃ t, exec (.hostReadExpired fn c waited) s = .next t ∧
      t.out = .completerAbort fn :: s.out ∧ (t.dram (finOf 15 (c.val / 4))).expired = satInc32 (s.dram (finOf 15 (c.val / 4))).expired ∧
      (t.dram (finOf 15 (c.val / 4))).maxwait.toNat = max (s.dram (finOf 15 (c.val / 4))).maxwait.toNat (min waited 0xFFFFFF) ∧
      t.chans = s.chans

/-- Accesses of the host to DRAM and to the result windows (R269 to R272, R285, R338, R354, R361, R362). -/
def Obligations.HostAccesses : Prop :=
  Claims.HostDramAccesses ∧ Claims.DeviceAddresses ∧ Claims.ResultWindows

/-- A host access of a VF to a row that it does not hold: a write is discarded, a read returns zeros, and each counts once in the
VF's HBR_CLAMPCNT (R272). -/
def Obligations.ForeignRowAccesses : Prop :=
  ∀ (s : State) (fn : Fn) (addr : BitVec 40) (data : List Byte) (len : Nat), s.busServes = true → fn ≠ Fn.pf →
    s.holds fn (devRow addr.toNat) = false →
    ∃ t u, exec (.hostDramWrite fn addr data) s = .next t ∧ exec (.hostDramRead fn addr len) s = .next u ∧ t = { s with fns := t.fns } ∧
      u = { s with fns := u.fns, out := .completion fn (List.replicate len 0) false :: s.out } ∧
      (t.fnOf fn).clamp8 = satAdd (s.fnOf fn).clamp8 1 ∧ (u.fnOf fn).clamp8 = satAdd (s.fnOf fn).clamp8 1 ∧
      t.fnOf fn = { s.fnOf fn with clamp8 := (t.fnOf fn).clamp8 } ∧ u.fns = t.fns ∧ ∀ f, f ≠ fn → t.fnOf f = s.fnOf f

/-! ## Start-up, power, authority -/

/-- Start-up (Table SU-1): each stage needs the ones before it; the firmware slot of the higher version whose image verifies under VENDOR is
booted and the preferred holm gets the token, or recovery mode is entered; ready needs them all; the origin sets the timeline to 0 and
begins ALIVE, the Straits' transmitters and the record, with the sync pulse where TSYNC is strapped (R420 to R423, R428). -/
def Sys2Proof.Claims.StartUp : Prop :=
  ∀ (s : State),
    let b := s.boot
    (s.power = .starting →
      exec .pllLock s = .next { s with boot := { b with pll := true } } ∧
      (b.pll = true → exec .pcieLinkL0 s = .next { s with boot := { b with l0 := true } }) ∧
      (b.pll = false → exec .pcieLinkL0 s = .next s) ∧
      (∀ d0 d1, (b.pll = false ∨ b.fw = true) → exec (.firmwareBoot d0 d1) s = .next s) ∧
      (b.pll = true → b.fw = false → ∀ d0 d1, ∃ t, exec (.firmwareBoot d0 d1) s = .next t ∧ t.boot.fw = true ∧
        (t.auth.claimN, t.auth.claimS) = (!b.holmPref, b.holmPref) ∧
        (let good0 := b.slot0.valid = true ∧ b.slot0.verifies d0 = true
         let good1 := b.slot1.valid = true ∧ b.slot1.verifies d1 = true
         (good0 → ¬ good1 → t.boot.fwslot = false ∧ t.boot.fwver = b.slot0.version ∧ t.boot.mode = b.mode) ∧
         (good1 → ¬ good0 → t.boot.fwslot = true ∧ t.boot.fwver = b.slot1.version ∧ t.boot.mode = b.mode) ∧
         (good0 → good1 → b.slot0.version.toNat < b.slot1.version.toNat → t.boot.fwslot = true ∧ t.boot.fallback = false) ∧
         (good0 → good1 → b.slot1.version.toNat < b.slot0.version.toNat → t.boot.fwslot = false ∧ t.boot.fallback = false) ∧
         (¬ good0 → ¬ good1 → t.boot.mode = 3 ∧ t.boot.fallback = true))) ∧
      (b.pll = true → b.dram = false → ∀ (failed : List ChanIdx) (hot : List (Fin 16)), ∃ t, exec (.dramTrainingComplete failed hot) s = .next t ∧ t.boot.dram = true ∧
        (∀ y : RowIdx, t.hot[y] = (s.hot[y] || decide (∃ p ∈ hot, p.val / 2 = y.val))) ∧
        (∀ y : RowIdx, t.boot.trainFail.getLsbD y.val = decide (∃ c ∈ failed, c.val / 8 = y.val)) ∧
        ∀ c, (t.chan c).trained = decide (c ∉ failed)) ∧
      ((b.pll = false ∨ b.fw = false ∨ b.dram = false) → exec .ready s = .next s) ∧
      (b.pll = true → b.fw = true → b.dram = true →
        exec .ready s = .next { s with power := .ready, boot := { b with readyAt := s.sinceReset } }) ∧
      (∀ f n u, s.sinceReset < 6150000 → exec (.startupTimeout f n u) s = .next s) ∧
      (∀ n u : Bool, 6150000 ≤ s.sinceReset → b.pll = false → ∃ t, exec (.startupTimeout true n u) s = .next t ∧ t.power = .stuck ∧
        t.reef.fatal = true)) ∧
    (s.power = .ready → s.reef.early = [] →
      let born := fun (c : Instr) (nosync : Bool) => ∃ t, exec c s = .next t ∧ t.power = .running ∧ t.now = 0 ∧ t.lasers = true ∧
        t.reef.aliveOn = true ∧ t.evr.bootCount = s.evr.bootCount + 1 ∧ t.boot.nosync = nosync ∧
        t.evr = (({ s.evr with bootCount := s.evr.bootCount + 1 }).write 0 1
          (leBytes 4 (s.evr.bootCount + 1).toNat ++ leBytes 4 s.topo.toNat)).1
      (b.tsyncEn = false → born .timelineOrigin b.nosync ∧ exec .tsyncEdge s = .next s) ∧
      (b.tsyncEn = true → born .tsyncEdge b.nosync ∧ exec .timelineOrigin s = .next s ∧
        (b.readyAt + 1500000000 ≤ s.sinceReset → born .tsyncTimeout true)))

/-- HLM_RECOV: LENGTH is kept below 8 MiB; with GO in recovery mode the bytes at device address 0 go to the Atoll for
verification; a verified image is programmed into the slot not booted, with a count above the other's (R421, R427). -/
def Sys2Proof.Claims.FirmwareUpdate : Prop :=
  ∀ (s : State) (v : Word),
    let n := min (v.toNat % 2 ^ 24) 0x7FFFFF
    let beyond := if 0x7FFFFF < v.toNat % 2 ^ 24 then 1 else 0
    (s.takesWrite = true → v.getLsbD 31 = false →
      exec (.recoveryUpdate v) s = .next (({ s with boot := { s.boot with recovLen := BitVec.ofNat 24 n } }).clamp8 Fn.pf beyond)) ∧
    (s.takesWrite = true → v.getLsbD 31 = true → s.boot.mode = 3 → s.boot.recovResult ≠ 1 → dramClean s →
      s.atl.queue.length < 16 → s.atl.waiting = [] → ∃ t, exec (.recoveryUpdate v) s = .next t ∧ t.boot.recovResult = 1 ∧
        t.boot.recovImage = (List.range n).map (s.devByteAt 0) ∧ t.atl = { s.atl with queue := s.atl.queue ++ [.checkFirmware] }) ∧
    (s.clocked = true → s.boot.recovOk = true → ∃ t, exec .recoveryProgramComplete s = .next t ∧ t = { s with boot := t.boot } ∧
      t.boot.recovResult = 2 ∧ t.boot.recovOk = false ∧ t.boot.fwslot = s.boot.fwslot ∧
      (s.boot.fwslot = false → t.boot.slot0 = s.boot.slot0 ∧ t.boot.slot1.valid = true ∧ t.boot.slot1.count = s.boot.slot0.count + 1 ∧
        t.boot.slot1.image = s.boot.recovImage ∧ t.boot.slot1.version = Config.firmwareVersion s.boot.recovImage) ∧
      (s.boot.fwslot = true → t.boot.slot1 = s.boot.slot1 ∧ t.boot.slot0.valid = true ∧ t.boot.slot0.count = s.boot.slot1.count + 1 ∧
        t.boot.slot0.image = s.boot.recovImage))

/-- Start-up in its stages, and programming a firmware image in recovery mode (R420 to R423, R427). -/
def Obligations.StartUpAndFirmware : Prop :=
  Claims.StartUp ∧ Claims.FirmwareUpdate

/-- With TSYNC_EN low the origin is the first cycle after ready; with TSYNC_EN high it is the cycle of the first edge of TSYNC after
ready, or, when none arrives within 10 s of ready, that point, and NOSYNC is set (R428). -/
def Obligations.TimelineOrigin : Prop :=
  ∀ (s : State), s.power = .ready →
    let origin := fun (c : Instr) => ∃ t, exec c s = .next t ∧ t.power = .running ∧ t.now = 0 ∧ t.boot = s.boot
    (s.boot.tsyncEn = false → origin .timelineOrigin ∧ exec .tsyncEdge s = .next s ∧ exec .tsyncTimeout s = .next s) ∧
    (s.boot.tsyncEn = true → exec .timelineOrigin s = .next s ∧ origin .tsyncEdge ∧
      (s.sinceReset < s.boot.readyAt + 1500000000 → exec .tsyncTimeout s = .next s) ∧
      (s.boot.readyAt + 1500000000 ≤ s.sinceReset → ∃ t, exec .tsyncTimeout s = .next t ∧ t.power = .running ∧ t.now = 0 ∧
        t.boot = { s.boot with nosync := true }))

/-- PERST_N asserted stops the module and starts a flush of the recorder; once that ends the module is in RESET,
and a deassertion begins start-up with the straps sampled. Input power lost: PWR_GOOD and PWRFAIL_N go low, the record is
written and flushed, and what has not reached flash when hold-up ends is lost. DRAM contents, retired pages, anchors and the
flash outlive all of it, but for the entry of a page retired in the very cycle before (R288, R389, R413, R419, R420, R425, R446,
R448). -/
def Sys2Proof.Claims.Resets : Prop :=
  ∀ (s : State) (g h : Bool) (m : BitVec 2) (ts : Bool),
    let kept := fun (t : State) => (∀ c, (t.chan c).mem = (s.chan c).mem ∧
        (t.chan c).retired = (s.chan c).retired.take ((s.chan c).retired.length - s.retires.countP (fun r => r.chan == c && r.saving.isSome))) ∧
      t.atl.devown = s.atl.devown ∧ t.atl.seal0 = s.atl.seal0 ∧ t.atl.seal1 = s.atl.seal1 ∧ t.devid = s.devid ∧
      (∀ k : Fin 16, k.val < 8 → t.atl.curves[k] = s.atl.curves[k]) ∧ t.boot.slot0 = s.boot.slot0 ∧ t.boot.slot1 = s.boot.slot1
    let cold := fun (t : State) => (∀ i, t.isle i = Isle.reset) ∧ (∀ f, t.fnOf f = FnState.reset) ∧ t.jobs = [] ∧ t.images = [] ∧
      t.keysets = [] ∧ t.occs = [] ∧ (∀ l, t.lagoon l = Lagoon.reset) ∧ (∀ y, t.port y = Port.reset) ∧
      (∀ y : RowIdx, t.rows[y] = { owner := none, wiping := false }) ∧ t.adm = Adm.reset ∧ t.lasers = false
    let gated := fun (t : State) => t.gates = Gates.all false
    ((s.power = .starting ∨ s.power = .stuck ∨ s.power = .ready ∨ s.power = .running) → ∃ t, exec .perstNAssert s = .next t ∧
      t.power = .resetting none ∧ t.perst = true ∧ t.evr.flushing = true ∧ t.evr.log = s.evr.log ∧ cold t ∧ kept t ∧ gated t) ∧
    (s.evr.flushing = true → s.power = .resetting none → exec .flushComplete s = .next { s with
      power := .reset, evr := { s.evr with flash := s.evr.log, buf := [], flushing := false } }) ∧
    (s.perst = true → (s.power = .reset ∨ s.power = .dark) → s.pwrGood = true → ∃ t, exec (.perstNDeassert g h m ts) s = .next t ∧
      t.power = .starting ∧ t.perst = false ∧ t.pwrfailN = true ∧ (t.boot.genCompat, t.boot.holmPref, t.boot.mode, t.boot.tsyncEn) = (g, h, m, ts) ∧
      t.boot.pll = false ∧ t.evr.flash = s.evr.flash ∧ t.evr.buf = [] ∧ t.reef = Reef.reset ∧ cold t ∧ kept t) ∧
    (s.perst = true → s.pwrGood = false → (s.power = .reset ∨ s.power = .dark) →
      exec (.perstNDeassert g h m ts) s = .next { s with perst := false }) ∧
    (s.power ≠ .holdUp → s.power ≠ .dark → ∃ t, exec .powerFail s = .next t ∧ t.power = .holdUp ∧ t.pwrGood = false ∧ t.pwrfailN = false ∧
      t.reef.pwrfail = true ∧ t.evr.flushing = true ∧ cold t ∧ kept t ∧ gated t ∧
      (s.power = .running → t.evr.log = ((s.record 0x30 [0, 0, 0, 0]).1).evr.log)) ∧
    (s.power = .holdUp → ∃ t, exec .holdUpEnd s = .next t ∧ t.power = .dark ∧ t.evr.flash = s.evr.flash ∧ t.evr.buf = [] ∧ cold t ∧ kept t) ∧
    exec .powerUp s = .next { s with pwrGood := true }

/-- Each stage of start-up completes once the ones before it have: lock, link, the boot of slot 0 or of recovery mode where slot 1 holds no
image, training, ready, and the timeout; HLM_RECOV takes its length, and a verified image is programmed (R420 to R422, R427). -/
def Sys2Proof.Claims.StartUpCompletes : Prop :=
  ∀ (s : State),
    let b := s.boot
    (s.power = .starting →
      exec .pllLock s = .next { s with boot := { b with pll := true } } ∧
      (b.pll = true → exec .pcieLinkL0 s = .next { s with boot := { b with l0 := true } }) ∧
      (∀ d0 d1, b.pll = true → b.fw = false → b.slot1.valid = false → exec (.firmwareBoot d0 d1) s = .next { s with
        boot := if b.slot0.valid = true ∧ b.slot0.verifies d0 = true
          then { b with fw := true, fwslot := false, fallback := false, fwver := b.slot0.version }
          else { b with fw := true, fallback := true, mode := 3 }
        auth := s.auth.give b.holmPref s.now }) ∧
      (b.pll = true → b.dram = false → ∀ failed, ∃ t, exec (.dramTrainingComplete failed []) s = .next t ∧ t.boot.dram = true ∧
        (∀ c, (t.chan c).trained = decide (c ∉ failed)) ∧ t.hot = s.hot ∧ t.reef = s.reef) ∧
      (b.pll = true → b.fw = true → b.dram = true →
        exec .ready s = .next { s with power := .ready, boot := { b with readyAt := s.sinceReset } }) ∧
      (∀ n u, 6150000 ≤ s.sinceReset → b.pll = false → s.reef.fatal = false → exec (.startupTimeout true n u) s = .next { s with
        power := .stuck, reef := { s.reef with fatal := true, fchk := 0xE000 } })) ∧
    (∀ v : Word, s.takesWrite = true → v.toNat < 0x800000 → exec (.recoveryUpdate v) s =
      .next (({ s with boot := { b with recovLen := BitVec.ofNat 24 v.toNat } }).clamp8 Fn.pf 0)) ∧
    (s.clocked = true → b.recovOk = true → exec .recoveryProgramComplete s = .next { s with boot := b.program })

/-- Resets, loss of power, and the start-up that follows (R288, R389, R413, R419 to R422, R425, R427, R446, R448). -/
def Obligations.ResetsAndPowerLoss : Prop :=
  Claims.Resets ∧ Claims.StartUpCompletes

/-- A function in D3hot is left alone and back in D0 gets what fell due: the PF one message for the events queued meanwhile, with
fetching and publication from the next cycle on, or from STANDBY after the four cycles that ungate the host block; a
VF its completion replies, in order. The monitor answers each SMBus command with its reading, and SMB_ALERT_N stands from a
reading outside its range until the sources are read; a wrong PEC is not answered (R407, R449, R450, R456). -/
def Obligations.PowerStatesAndMonitor : Prop :=
  ∀ (s : State) (v : RowIdx) (m : MonSample) (ok : Bool),
    let f := fnOfVf v
    ((s.power = .ready ∨ s.power = .running) →
      exec .pfD3hotEntry s = .next (s.setFn Fn.pf { s.fnOf Fn.pf with d3hot := true }) ∧
      exec (.vfD3hotEntry v) s = .next (s.setFn f { s.fnOf f with d3hot := true }) ∧
      ((s.fnOf Fn.pf).d3hot = true → ∃ t, exec .pfD0Entry s = .next t ∧ t.fnOf Fn.pf = { s.fnOf Fn.pf with d3hot := false } ∧
        t.out = (if s.reef.owedIrq ∧ s.reef.irqen ∧ s.reef.events ≠ [] then [.msix (s.now + 1) Fn.pf (s.reef.vector.setWidth 8)] else []) ++ s.out ∧
        t.reef = { s.reef with owedIrq := false } ∧
        (s.power = .running → t.gates.resumeAt = s.now + if s.standby then 5 else 1) ∧
        (s.standby = true → (t.gates.host.due (s.now + 4)).on = true ∧
          (s.slices = [] → ∀ i : IsleIdx, (t.gates.cores[i].due (s.now + 2)).on = false))) ∧
      ((s.fnOf f).d3hot = true → ∃ t, exec (.vfD0Entry v) s = .next t ∧ (t.fnOf f).d3hot = false ∧ (t.fnOf f).deferred = [] ∧
        ((s.fnOf f).deferred = [] → t.out = s.out) ∧
        (∀ d, (s.fnOf f).deferred = [d] → (s.queue f d.q).en = true → d.noirq = true → ∃ r k, t.out = .reply s.now f d.q k r :: s.out ∧
          r.status = d.r.status ∧ r.cid = d.r.cid ∧ r.result1 = d.r.result1))) ∧
    (let reads := fun (c : Instr) (x : BitVec 16) => ∃ t, exec c s = .next t ∧ t.mon.now = m ∧
       t = { s with mon := t.mon, out := (if ok then [.smb x] else []) ++ s.out } ∧ t.mon.alert = s.mon.alert ∧
       (t.mon.sources = 0 ↔ 4000 ≤ m.vin.toNat ∧ m.vin.toNat ≤ 6000 ∧ m.die.toNat ≤ 950 ∧ m.dram.toNat ≤ 850 ∧
         150 ≤ m.cool.toNat ∧ m.cool.toNat ≤ 400)
     reads (.smbReadVin ok m) m.vin ∧ reads (.smbReadCurrent ok m) m.cur ∧ reads (.smbReadPower ok m) m.pow ∧
     reads (.smbReadDieTemp ok m) m.die ∧ reads (.smbReadDramTemp ok m) m.dram ∧ reads (.smbReadCoolant ok m) m.cool) ∧
    exec (.smbReadPowerState true) s = .next { s with out := .smb s.powerCode :: s.out } ∧
    exec (.smbReadPowerState false) s = .next s ∧ exec (.smbReadAlertSources false) s = .next s ∧
    exec (.smbReadAlertSources true) s = .next { s with out := .smb (s.mon.sources.setWidth 16) :: s.out, mon := { s.mon with alert := false } } ∧
    ∃ t, exec (.smbAlertNAssert m) s = .next t ∧ t.mon.now = m ∧ t.mon.sources = monOutside m ∧
      t.mon.alert = (s.mon.alert || decide (monOutside m ≠ 0)) ∧ t = { s with mon := t.mon }

/-- A claim lasts 150,000 management cycles unless renewed; exactly one claim holds the authority. Two claims, or none for
600,000 cycles, are a dispute: every unfinished job is discarded with AUTHORITY_DISPUTE, which one discarded before without its reply
takes too, nothing more is fetched, and the
packets fetched are fetched again; the preferred holm claims the token in time, or its checker is fatal. A handover is offered,
accepted within 1,500 cycles or lapses with HOFAIL (R21, R430 to R433). -/
def Obligations.AuthorityEvents : Prop :=
  ∀ (s : State) (south : Bool),
    let a := s.auth
    (s.clocked = true → s.boot.fw = true → a.dispute = none → ∃ t, exec (.claimRenew south) s = .next t ∧
      t = { s with auth := t.auth } ∧ (if south then t.auth.claimS = true ∧ t.auth.renewS = s.now ∧ t.auth.claimN = a.claimN
        else t.auth.claimN = true ∧ t.auth.renewN = s.now ∧ t.auth.claimS = a.claimS)) ∧
    (s.power = .running → ∃ t, exec .claimLapse s = .next t ∧ t = { s with auth := t.auth } ∧
      t.auth.claimN = (a.claimN && decide (s.now < a.renewN + 150000)) ∧ t.auth.claimS = (a.claimS && decide (s.now < a.renewS + 150000))) ∧
    (s.hasHolder = true ↔ a.dispute = none ∧ (a.claimN = true ∧ a.claimS = false ∨ a.claimN = false ∧ a.claimS = true)) ∧
    (s.power = .running → a.dispute = none →
      (a.claimN = true ∧ a.claimS = true ∨ ∃ t, a.noneSince = some t ∧ t + 600000 ≤ s.now) →
      ∃ t, exec .authorityDispute s = .next t ∧ t.auth.dispute = some s.now ∧ t.auth.offer = none ∧ t.hasHolder = false ∧
        t.auth.disputes.toNat = min (a.disputes.toNat + 1) 255 ∧ t.fetched = [] ∧ (∀ j ∈ t.jobs, j.ending ≠ none) ∧
        (∀ j ∈ s.jobs, (∀ e, j.ending = some e → e.done = false) → ∃ x ∈ t.jobs, x.id = j.id ∧ ∃ e, x.ending = some e ∧ e.status = 0x00F0) ∧
        (∀ p, s.fetched = [p] → (t.queue p.fn p.q).sqHead = p.idx) ∧ t.rows = s.rows ∧ t.images = s.images) ∧
    (∀ d, s.power = .running → a.dispute = some d →
      (s.now ≤ d + 600000 → ∃ t, exec .tokenClaim s = .next t ∧ t.auth.dispute = none ∧
        (t.auth.claimN, t.auth.claimS) = (!s.boot.holmPref, s.boot.holmPref) ∧ t.jobs = s.jobs) ∧
      (d + 600000 ≤ s.now → s.reef.fatal = false → ∃ t, exec .claimTimeout s = .next t ∧ t.reef.fatal = true ∧
        t.reef.fchk = (if s.boot.holmPref then 0xE061 else 0xE060) ∧ t.jobs = [])) ∧
    (∀ v : Word, s.takesWrite = true → s.hasHolder = true → a.offer = none → s.disputeDue = false →
      let recv := v.toNat % 4
      ∃ t, exec (.handover v) s = .next t ∧ t = { s with auth := { a with hofail := t.auth.hofail, offer := t.auth.offer } } ∧
        t.auth.hofail = (a.hofail && !v.getLsbD 16) ∧
        t.auth.offer = if recv = 1 ∧ a.claimS = true then some (false, s.now) else if recv = 2 ∧ a.claimS = false then some (true, s.now) else none) ∧
    (∀ recv at', s.power = .running → a.offer = some (recv, at') →
      (s.hasHolder = true → s.now ≤ at' + 1500 → ∃ t, exec .handoverAccept s = .next t ∧ t.auth.offer = none ∧
        (t.auth.claimN, t.auth.claimS) = (!recv, recv) ∧ t.jobs = s.jobs) ∧
      (at' + 1500 < s.now → exec .handoverTimeout s = .next { s with auth := { a with offer := none, hofail := true } }))

/-! ## Admission -/

/-- The table published in a management cycle shows OK only for a class with an armed job at its head that passes the checks of
R356, and then its promise; nothing while the port is closed. A request against a generation that shows OK admits that job at
the published place, from that generation's cycle on; any other request is ignored and counted; each shows the copy's outputs. A copy
comes from a generation that was published, no older than the copy before it or than the newest that has crossed in every case
(R365, R369, R374, R376, R377, R380). -/
def Obligations.AdmissionPort : Prop :=
  ∀ (s : State), s.power = .running →
    (∃ t, exec .admPublish s = .next t ∧ t = { s with adm := t.adm } ∧ t.adm.gen = s.now ∧ (s.now, t.adm.table) ∈ t.adm.past ∧
      (s.admOpen = false → t.adm.table = []) ∧ (∀ g ∈ t.adm.past, s.now ≤ g.1 + 32) ∧
      ∀ e ∈ t.adm.table, e.ok = true → ∃ j rest, s.armQueue e.cls = j :: rest ∧ e.job = j.id ∧ s.headFits j [] = true) ∧
    exec .protectedPlacementLapse s = .next { s with adm := { s.adm with past := s.adm.past.filter (fun g => decide (s.now ≤ g.1 + 32)) } } ∧
    ∀ (c : Fin 256) (g : Nat),
      let k := s.copyGen g
      let u := { s with adm := { s.adm with copy := k } }
      let e := s.copyEntry k c.val
      let ok := s.copyOk k e
      let shown : Out := .adm ok (e.elim 0xFFFFFFF (·.time))
      let cls := BitVec.ofNat 8 c.val
      s.adm.copy ≤ k ∧ (∀ x ∈ s.adm.past, x.1 + 13 ≤ s.now → x.1 ≤ k) ∧ (k = s.adm.copy ∨ ∃ x ∈ s.adm.past, x.1 = k) ∧
      exec (.admRequest cls false g) s = .next { u with out := shown :: s.out } ∧
      (ok = false → exec (.admRequest cls true g) s = .next
        { u with out := shown :: s.out, adm := { u.adm with ignored := satInc32 s.adm.ignored } }) ∧
      (∀ e' j, e = some e' → ok = true → s.entryJob e' = some j → s.abortMet j = false →
        ∃ t o, exec (.admRequest cls true g) s = .next t ∧ t.out = shown :: s.out ∧ t.adm.admitted = satInc32 s.adm.admitted ∧
          t.occs = s.occs ++ [o] ∧ o.rows = j.run ∧ o.start = e'.start - e'.prep ∧ o.kind = .job j.id ∧
          (∃ x ∈ t.jobs, x.id = j.id ∧ x.phase = .admitted ∧ x.byAdm = true ∧ x.c0 = k ∧ x.start = e'.start ∧ x.cp = e'.cp) ∧
          t.adm.lastTime = e'.time ∧ t.adm.lastVf.toNat = j.fn.val ∧ t.adm.lastSlot.toNat = j.slot.val ∧ t.adm.copy = k ∧
          t.adm.lockout = some (s.now + 1) ∧ (∀ x ∈ s.jobs, x.id ≠ j.id → x ∈ t.jobs) ∧ t.rows = s.rows)

/-! ## Faults -/

/-- A corrected error counts in its row and in the module and changes nothing that runs. A contained fault counts, and discards
the job that runs on the row charged: its status is FAULTED, the Isles of its run are filled and its slot is FREE; every other
Isle goes on. A fatal fault stops every Isle and drops every job; the first one's checker stays in REEF_STAT. Driver-action
reports stop nothing (R400, R403, R404, R405). -/
def Obligations.FaultReports : Prop :=
  ∀ (s : State) (r : Report), s.power = .running →
    (correctsErrors r = true → s.reef.corr ≠ 0xFFFFFFFFFFFFFFFF → ∃ t, exec (.correctedFault r) s = .next t ∧
      t.reef.corr = s.reef.corr + 1 ∧ t.reef.cont = s.reef.cont ∧ t.reef.fatal = s.reef.fatal ∧ t.jobs = s.jobs ∧ t.occs = s.occs ∧
      (∀ y, repRow r = some y → t.reef.rowCorr[y] = satInc32 s.reef.rowCorr[y]) ∧ ∀ i, (t.isle i).sk = (s.isle i).sk) ∧
    (knownChecker r = true → repKind r ≠ 7 → ∃ t, exec (.containedFault r) s = .next t ∧
      t.reef.cont = satInc32 s.reef.cont ∧ t.evr.flushing = true ∧ t.reef.fatal = s.reef.fatal ∧
      (∀ y, repRow r = some y → t.reef.rowCont[y] = satInc32 s.reef.rowCont[y]) ∧
      (∀ y j, repRow r = some y → s.chargedJob y = some j → j.ending = none → r.nack = false → (s.jobById j.id) = some j →
        (∃ x e, t.jobById j.id = some x ∧ x.ending = some e ∧ e.status = 0x0030 ∧
          e.result0 = (if r.overrun then 0x00B0 else 0x0030) ∧ e.cyc = s.now ∧ e.done = false) ∧
        t.slotOf j.fn j.slot = ResultSlot.reset ∧ (∀ o ∈ t.occs, o.kind ≠ .job j.id) ∧
        (∀ i : IsleIdx, j.run.getLsbD i.row.val = true → (t.isle i).reg 1 = 0 ∧ queuesEmpty (t.isle i) ∧ moverIdle (t.isle i).mov ∧
          (t.isle i).canIssue = false) ∧
        ((r.rowOverride = none ∨ repKind r ≠ 9) →
          ∀ i : IsleIdx, ¬ j.run.getLsbD i.row.val = true → (t.isle i).sk = (s.isle i).sk ∧ (t.isle i).mq = (s.isle i).mq ∧
          (t.isle i).mov.batch = (s.isle i).mov.batch)) ∧
      ((∀ y, repRow r = some y → s.chargedJob y = none) → t.jobs = s.jobs ∧ t.occs = s.occs)) ∧
    (fatalChecker r = true → ∃ t, exec (.fatalFault r) s = .next t ∧ t.reef.fatal = true ∧
      t.reef.fchk = (if s.reef.fatal then s.reef.fchk else r.checker) ∧ t.jobs = [] ∧
      (∀ i, (t.isle i).canIssue = false ∧ queuesEmpty (t.isle i) ∧ moverIdle (t.isle i).mov ∧ (t.isle i).sto = (s.isle i).sto) ∧
      t.evr.flushing = true ∧ t.rows = s.rows) ∧
    (driverChecker r = true → ∃ t, exec (.driverActionEvent r) s = .next t ∧ t.jobs = s.jobs ∧ t.isles = s.isles ∧ t.occs = s.occs ∧
      t.reef.cont = s.reef.cont ∧ (s.reef.events.length < 64 → ∃ e, t.reef.events = s.reef.events ++ [e] ∧ e.checker = r.checker ∧ e.cls = 2) ∧
      (64 ≤ s.reef.events.length → t.reef.evovf = true ∧ t.reef.events = s.reef.events))

/-- A token wait longer than ISL_SLACK, of a queue, the issue stage, the mover or a delivery, sets OVERRUN and ends the job of the Isle's row with SCHEDULE_OVERRUN. A row whose DRAM
asks for more than twice the base refresh rate is hot, and is no longer once it has been clean for 15,000,000 cycles
(R207, R276). -/
def Sys2Proof.Claims.OverrunsAndHotRows : Prop :=
  ∀ (s : State), s.power = .running →
    (∀ (i : IsleIdx) (j : Job), s.runningOn i.row = some j → s.chargedJob i.row = some j → s.jobById j.id = some j →
      (s.isle i).overdue = true → (s.isle i).tokOvr = false →
      ∃ t, exec (.scheduleOverrun i) s = .next t ∧ (t.isle i).tokOvr = true ∧
        (∃ x e, t.jobById j.id = some x ∧ x.ending = some e ∧ e.status = 0x0030 ∧ e.result0 = 0x00B0) ∧
        t.reef.cont = satInc32 s.reef.cont ∧ ∀ k : IsleIdx, ¬ j.run.getLsbD k.row.val = true → t.isle k = s.isle k) ∧
    (∀ i : IsleIdx, ((s.isle i).overdue = false ∨ (s.isle i).tokOvr = true) → exec (.scheduleOverrun i) s = .next s) ∧
    (∀ p : Fin 16, ∃ t, exec (.dramHot p) s = .next t ∧ (∀ y : RowIdx, t.hot[y] = (decide (y.val = p.val / 2) || s.hot[y])) ∧
      (∀ y : RowIdx, y.val = p.val / 2 → t.cleanSince[y] = s.now) ∧ t.chans = s.chans ∧ t.rows = s.rows) ∧
    (∀ y : RowIdx, s.hot[y] = true →
      (s.cleanSince[y] + 15000000 ≤ s.now → ∃ t, exec (.dramHotClear y) s = .next t ∧ t.hot[y] = false ∧
        (∀ z, z ≠ y → t.hot[z] = s.hot[z]) ∧ t = { s with hot := t.hot, drams := t.drams }) ∧
      (s.now < s.cleanSince[y] + 15000000 → exec (.dramHotClear y) s = .next s))

/-- Events at a fixed time: ALIVE inverts every 7,500 cycles until a fatal fault or a power failure; a channel's refresh slot
begins every 585 cycles at its own phase, with two commands while its row is hot; before the origin a controller refreshes its
four channels, and no row is hot before its DRAM is trained; debug traffic, in bring-up and test mode alone, delays the transfers of the
row's job and changes no data (R275, R276, R284, R406, R424). -/
def Sys2Proof.Claims.ClockedEvents : Prop :=
  ∀ (s : State) (c : ChanIdx) (d : Fin 16),
    let slot := fun (n : Nat) => ∃ t, exec (.refreshSlot c) s = .next t ∧
      t = { s with free := t.free, chans := vset s.chans c { s.chan c with slots := (s.chan c).slots + 1, refreshes := (s.chan c).refreshes + n } }
    (s.power = .running → s.reef.aliveOn = true → s.now % 7500 = 0 → s.reef.fatal = false → s.reef.pwrfail = false →
      exec .aliveToggle s = .next { s with reef := { s.reef with alive := !s.reef.alive } }) ∧
    ((s.reef.fatal = true ∨ s.reef.pwrfail = true ∨ s.now % 7500 ≠ 0) → exec .aliveToggle s = .next s) ∧
    (s.power = .running → 36 * (c.val % 16) ≤ s.now → (s.now - 36 * (c.val % 16)) % 585 = 0 →
      (s.hot[(finOf 7 (c.val / 8) : RowIdx)] = true → slot 2) ∧ (slot 1 ∨ slot 2)) ∧
    ((s.now < 36 * (c.val % 16) ∨ (s.now - 36 * (c.val % 16)) % 585 ≠ 0) → exec (.refreshSlot c) s = .next s) ∧
    ((s.power = .starting ∨ s.power = .ready) → s.boot.dram = true → ∃ t n, exec (.preOriginRefresh d) s = .next t ∧ 1 ≤ n ∧ n ≤ 2 ∧
      (∀ k : ChanIdx, t.chan k = if k.val / 4 = d.val then { s.chan k with refreshes := (s.chan k).refreshes + n } else s.chan k) ∧
      t = { s with free := t.free, chans := t.chans }) ∧
    ((s.boot.mode ≠ 1 ∧ s.boot.mode ≠ 2 ∨ s.runningOn (ChanIdx.row c) = none) → exec (.debugPreempt c) s = .next s) ∧
    (∀ j, (s.boot.mode = 1 ∨ s.boot.mode = 2) → s.power = .running → s.reef.fatal = false → s.runningOn (ChanIdx.row c) = some j →
      ∃ t, exec (.debugPreempt c) s = .next t ∧ t = { s with isles := t.isles, free := s.free + 1 } ∧
        (∀ i : IsleIdx, j.run.getLsbD i.row.val = false → t.isle i = s.isle i) ∧
        ∀ i : IsleIdx, (t.isle i).sk = (s.isle i).sk ∧ (t.isle i).me = (s.isle i).me ∧ (t.isle i).ve = (s.isle i).ve ∧
          (t.isle i).sto = (s.isle i).sto ∧ (t.isle i).mov.staged.length = (s.isle i).mov.staged.length) ∧
    ((s.power = .starting ∨ s.power = .ready) → s.boot.dram = false → exec (.dramHot d) s = .next s)

/-- Events that their time or their wait brings about (R207, R275, R276, R284, R406, R424). -/
def Obligations.TimedEvents : Prop :=
  Claims.OverrunsAndHotRows ∧ Claims.ClockedEvents

/-! ## Straits and mesh -/

/-- A port that shows the alignment pattern in its last 4 frames, with a clean status codeword among them, is UP, learns its peer and
compares identifiers; one that has lost the pattern in the last 4 goes DOWN, forgets both, discards its egress and mirror, and faults the
running job that uses it. A status codeword names the peer, acts at the module it names, travels on while hops remain, and does nothing
on a port that is DOWN; an uncorrectable one is counted (R290, R292, R293, R297, R299, R300, R306, R310). -/
def Sys2Proof.Claims.LinksAndControl : Prop :=
  ∀ (s : State) (y : RowIdx) (frames : List (List Byte)) (cw : List Byte) (c : Instr), s.power = .running →
    let q := s.port y
    let l := frames.drop (frames.length - 4)
    let learnt := fun (p : Port) (peer : BitVec 20) =>
      { p with rxpeer := peer, dupid := decide (s.devid = peer ∨ s.devid = 0xFFFFF ∨ peer = 0xFFFFF) }
    let down : Instr := .linkDown { port := y, frames := frames }
    (∀ d, q.up = false → l.length = 4 → (∀ h ∈ l, aligned h = true) → (l.filterMap cleanStatus).getLast? = some d →
      exec (.linkUp y frames) s = .next (s.setPort y (learnt { q with up := true } (BitVec.ofNat 20 (leAt d 0 3))))) ∧
    (q.up = true ∨ l.length ≠ 4 ∨ (∃ h ∈ l, aligned h = false) ∨ (∀ h ∈ l, cleanStatus h = none) →
      exec (.linkUp y frames) s = .next s) ∧
    (q.up = false ∨ l.length ≠ 4 ∨ (∃ h ∈ l, aligned h = true) → exec down s = .next s) ∧
    (q.up = true → l.length = 4 → (∀ h ∈ l, aligned h = false) → ∃ t, exec down s = .next t ∧ (t.port y).up = false ∧
      (t.port y).rxpeer = 0xFFFFF ∧ (t.port y).dupid = false ∧
      (t.port y).mirror = [] ∧ (t.port y).egress = [] ∧ (t.port y).downs.toNat = min (q.downs.toNat + 1) 0xFFFF ∧
      (t.port y).windows = q.windows ∧ (s.planOn y = none → t.isles = s.isles ∧ t.jobs = s.jobs ∧ ∀ z, z ≠ y → t.port z = s.port z) ∧
      (s.planOn y ≠ none → t.reef.cont = satInc32 s.reef.cont)) ∧
    (alignPattern.length = 80 ∧ (∀ k, k < 80 → alignPattern[k]? = some (if k % 2 = 0 then 0x5A else 0xA5)) ∧
      aligned (alignPattern ++ cw) = true) ∧
    ((c = .wstate y cw ∨ c = .nack y cw ∨ c = .statusCodeword y cw) →
      (q.up = false → exec c s = .next s) ∧
      (q.up = true → readCw cw = none → ∃ t, exec c s = .next t ∧ (t.port y).fecUnc = satInc32 q.fecUnc) ∧
      (∀ d, q.up = true → readCw cw = some (d, 0) →
        let dest := leAt d 12 3 % 2 ^ 20
        let hops := leAt d 9 3 % 2 ^ 20
        let h := leAt d 18 2
        let msg := leAt d 8 1
        let known := learnt q (BitVec.ofNat 20 (leAt d 0 3))
        (msg ≠ 1 → msg ≠ 2 → ∃ t, exec c s = .next t ∧ t = { s with ports := t.ports } ∧ t.port y = known ∧ ∀ z, z ≠ y → t.port z = s.port z) ∧
        (msg = 1 → dest = s.devid.toNat → h < 1024 → ∃ t, exec c s = .next t ∧ t = { s with ports := t.ports } ∧
          (leAt d 22 1 = 1 → ∃ m ∈ (t.port y).mirror, m.handle.val = h ∧ m.opened = true ∧ m.epoch.toNat = leAt d 20 2) ∧
          (leAt d 22 1 ≠ 1 → leAt d 20 2 = 0 → ∀ m ∈ (t.port y).mirror, m ∈ q.mirror) ∧ (t.port y).windows = q.windows) ∧
        (msg = 2 → dest = s.devid.toNat → s.runningOn y = none → ∃ t, exec c s = .next t ∧ (t.port y).nacklate = satInc32 q.nacklate ∧
          t.jobs = s.jobs ∧ t.isles = s.isles) ∧
        (∀ j, msg = 2 → dest = s.devid.toNat → s.runningOn y = some j → s.chargedJob y = some j → s.jobById j.id = some j →
          ∃ t x e, exec c s = .next t ∧ t.jobById j.id = some x ∧ x.ending = some e ∧ e.status = 0x0050 ∧ e.result0 = 0) ∧
        ((msg = 1 ∨ msg = 2) → dest ≠ s.devid.toNat → hops ≤ 1 → ∃ t, exec c s = .next t ∧ t.port y = known ∧
          ∀ z, z ≠ y → t.port z = s.port z) ∧
        ((msg = 1 ∨ msg = 2) → dest ≠ s.devid.toNat → 1 < hops → q.waiting < 32 → ∃ t m, exec c s = .next t ∧
          (t.port y).fwdMsgs = q.fwdMsgs ++ [m] ∧ m.mhops.toNat = hops - 1 ∧ m.mdest.toNat = dest ∧ m.nack = decide (msg = 2) ∧
          m.handle.toNat = h ∧ m.epoch.toNat = leAt d 20 2 ∧ m.arg.toNat = leAt d 22 1 ∧ m.openPkt = none)))

/-- A frame leaves every six management cycles: the alignment pattern, the status codeword with the port's next message, and 125 flit
slots, numbered across frames. Each slot carries a waiting flit of the class of its group of 64, else an IDLE flit (R100, R290, R294 to
R297). -/
def Sys2Proof.Claims.Frames : Prop :=
  ∀ (s : State) (y : RowIdx), s.power = .running →
    let q := s.port y
    let n := s.now / 6
    let cls := fun (k : Nat) => q.groupClass ((125 * n + k) / 64)
    ((s.now % 6 ≠ 0 ∨ n < q.frame) → exec (.frameTransmit y) s = .next s) ∧
    (s.now % 6 = 0 → q.frame ≤ n → s.planOn y = none → q.redBuf = [] → q.nackAcc = [] → q.inj = none →
      (∀ a ∈ q.wstateMsgs.head?, a.openPkt = none) →
      ∃ (t : State) (flits : List (List Byte)) (w : List Byte) (m : Option CtlMsg), exec (.frameTransmit y) s = .next t ∧
        t.out = (flits.zipIdx.map (fun f => Out.flit y (125 * n + f.2) f.1)).reverse ++ Out.frame y (alignPattern ++ w) :: s.out ∧
        w = codeCw (statusBytes s.devid n m) ∧ flits.length = 125 ∧
        (∀ k, k < 125 → ∃ raw, flits[k]? = some (codeFlit (q.finish raw) none) ∧
          (raw = idleFlit ∨ raw ∈ q.egress ∧ cls k ≠ 0 ∧ flitClass raw = (cls k).toNat) ∧
          ((cls k = 0 ∨ ∀ f ∈ q.egress, flitClass f ≠ (cls k).toNat) → raw = idleFlit)) ∧
        (∀ raw, cls 0 ≠ 0 → q.egress.find? (fun f => flitClass f == (cls 0).toNat) = some raw → flits[0]? = some (codeFlit (q.finish raw) none)) ∧
        (t.port y).egress.Sublist q.egress ∧ ((∀ k, k < 125 → cls k = 0) → (t.port y).egress = q.egress) ∧
        (t.port y).frame = n + 1 ∧ t.isles = s.isles ∧ t.jobs = s.jobs ∧
        (∀ z, z ≠ y → t.port z = s.port z) ∧
        (∀ a rest, q.fwdMsgs = a :: rest → m = some a ∧ (t.port y).fwdMsgs = rest) ∧
        (∀ a rest, q.fwdMsgs = [] → q.nackMsgs = a :: rest → m = some a ∧ (t.port y).nackMsgs = rest) ∧
        (∀ a rest, q.fwdMsgs = [] → q.nackMsgs = [] → q.wstateMsgs = a :: rest → m = some a ∧ (t.port y).wstateMsgs = rest) ∧
        (∀ w', q.waiting = 0 → q.windows = [w'] → w'.st = .opened → ∃ a, m = some a ∧ a.nack = false ∧ a.handle.toNat = w'.handle.val ∧
          a.epoch = w'.epoch ∧ a.arg = 1 ∧ a.mdest = q.rxpeer) ∧
        (q.waiting = 0 → q.windows = [] → m = none))

/-- An IDLE flit completes and changes no port. -/
def Sys2Proof.Claims.IdleFlits : Prop :=
  ∀ (s : State) (y : RowIdx) (wire raw : List Byte), s.power = .running → (s.port y).up = true → readFlit wire = some (raw, 0) →
    flitVersion raw = 2 → flitClass raw = 0 →
    ∃ t, exec (.idleFlit y wire) s = .next t ∧ t = { s with ports := t.ports } ∧ ∀ z, t.port z = s.port z

/-- A window write accepted by R307 stands in its target: of a Lagoon slice, or in the landing slot of an Isle store (R307). -/
def Sys2Proof.Claims.WindowFlits : Prop :=
  ∀ (s : State) (y : RowIdx) (wire raw : List Byte), s.power = .running → (s.port y).up = true → readFlit wire = some (raw, 0) →
    flitVersion raw = 2 → flitClass raw = 2 → (flitData raw).length = 256 →
    let f := flitFields raw
    let w := (s.port y).window (finOf 1023 (f / 2 ^ 20 % 2 ^ 16))
    let off := 32 * (f / 2 ^ 52 % 2 ^ 32)
    let n := 32 * (f / 2 ^ 84 % 8 + 1)
    s.winCause y w (f / 2 ^ 36 % 2 ^ 16) off n = 0 →
    (∀ l o len, w.target = .lagoon l o len → o + off + n ≤ 0x600000 → (s.lagoon l).junk = none → Memory.wf (s.lagoon l).mem = true →
      ∃ t, exec (.winFlit y wire) s = .next t ∧
        WritesBytes (s.lagoon l).mem (t.lagoon l).mem (o + off) ((flitData raw).take n) ∧ t.isles = s.isles ∧ t.chans = s.chans ∧
        ∀ k, k ≠ l → t.lagoon k = s.lagoon k) ∧
    (∀ i b len k, w.target = .store i b len → (∀ k, moverIdle (s.isle k).mov) → queuesEmpty (s.isle i) → unitsIdle (s.isle i).un →
      (s.isle i).sk.held = none → (s.isle i).mov.fwds = [] → (s.isle i).slotAt (b + off) = some k → ((s.isle i).slot k).full = false →
      b + off + n ≤ 0x300000 → Memory.wf (s.isle i).sto.mem = true →
      ∃ t, exec (.winFlit y wire) s = .next t ∧
        WritesBytes (s.isle i).sto.mem (t.isle i).sto.mem (b + off) ((flitData raw).take n) ∧
        ((t.isle i).slot k).got = ((s.isle i).slot k).got + n ∧ (t.isle i).sk = (s.isle i).sk ∧
        (t.isle i).ve = (s.isle i).ve ∧ (∀ k, k ≠ i → t.isle k = s.isle k) ∧ t.chans = s.chans ∧ t.lagoons = s.lagoons)

/-- A KEY flit of a running ring lands nowhere but in its chunk's slots and goes on while hops remain: the first of its group with one hop
less, the others unchanged. The job keeps the words that came (R71, R84, R99). -/
def Sys2Proof.Claims.KeyFlits : Prop :=
  ∀ (s : State) (y : RowIdx) (wire raw : List Byte) (j : Job) (p : StraitPlan), s.power = .running → (s.port y).up = true →
    readFlit wire = some (raw, 0) → flitVersion raw = 2 → flitClass raw = 1 → s.keyPlan y = some (j, p) →
    let q := s.port y
    let hops := flitFields raw / 2 ^ 84 % 2 ^ 20
    (∀ g, flitFirst raw = false → q.keyRx = some g → g.targets = [] →
      ∃ t, exec (.keyFlit y wire) s = .next t ∧ (t.port y).egress = (if g.fwd then q.egress ++ [raw] else q.egress) ∧
        (t.port y).keyRx = (if flitIdx raw = 63 then none else some g) ∧ t.isles = s.isles ∧
        t.jobs = s.jobs.map (fun x => if x.id == j.id then { x with
          keyIn := x.keyIn ++ (g.chunk.map (fun c => (c.record, c.chunk, 256 * flitIdx raw, flitData raw))).toList } else x)) ∧
    (flitFirst raw = true → p.keyLandings = [] → flitIdx raw = 0 → ∃ t, exec (.keyFlit y wire) s = .next t ∧ t.isles = s.isles ∧
      (hops ≤ 1 → (t.port y).egress = q.egress) ∧
      (1 < hops → ∃ out, (t.port y).egress = q.egress ++ [out] ∧
        out = raw.take 4 ++ leBytes 16 (flitFields raw - hops * 2 ^ 84 + (hops - 1) * 2 ^ 84) ++ flitData raw))

/-- A flit of a dense reduction meets the local tile element by element in the flit's TYPE and the sums go on, its owner apart; one
whose tile is not FULL waits (R311, R317, R318, R321). -/
def Sys2Proof.Claims.ReductionFlits : Prop :=
  (∀ (s : State) (y : RowIdx) (wire raw : List Byte) (r : Red), s.power = .running → (s.port y).up = true →
    readFlit wire = some (raw, 0) → flitVersion raw = 2 → flitClass raw = 3 → s.redOf y (redStream raw) = some r →
    redStream raw % 2 = 0 → (s.port y).redBuf = [] → r.thin = 0 →
    let q := s.port y
    let u := s.modPort y (fun p => p.digest false raw)
    let off := redOffset raw
    let at' := placeOf r.d.contrib (off / 64)
    let is := s.isle at'.isle
    let ty := r.flitType raw
    let e := redBytes ty
    (u.tileReady y r (off / 64) = false → ∃ t, exec (.redFlit y wire) s = .next t ∧
      (t.port y).redBuf = [{ raw := raw, wait := 0 }] ∧ (t.port y).egress = q.egress ∧ t.isles = s.isles) ∧
    (u.tileReady y r (off / 64) = true → r.owns (off / 64) = false → is.sto.errs = [] →
      let sums := (numsOf e (flitData raw)).zipWith (redAdd ty (s.redPrime r (off / 64)))
        (numsOf e (is.storeRead (at'.off + 256 * (off % 64)) 256))
      ∃ t, exec (.redFlit y wire) s = .next t ∧ (t.port y).redBuf = [] ∧
        (t.port y).egress = q.egress ++ [s.redRaw r ty false off (sums.flatMap (fun x => leBytes e (if ty = 1 then toBf16 x else x)))] ∧
        (t.isle at'.isle).sto.mem = is.sto.mem)) ∧
  (∀ p x z, redAdd 2 p x z = (x % p + z % p) % p) ∧
  ∀ x z : Word, redAdd 0 1 x.toNat z.toNat = (((FV.ofBits fp32 x.toNat).add (FV.ofBits fp32 z.toNat)).round fp32).bits % 2 ^ 32

/-- A mesh flit whose codewords all read clean is delivered at its destination stop with its circulation tag when that stop's row is held
by its owner slot, wherever on its route it is taken; a slot that does not hold the row makes it a contained fault against the row that
sent it. The route goes along the row first, then along the column (R15, R16, R29). -/
def Sys2Proof.Claims.MeshDeliveries : Prop :=
  (∀ (s : State) (stop : IsleIdx) (hdr payload h : List Byte) (data : List (List Byte)), s.power = .running → s.reef.injArmed = false →
    (hdr :: chunks 35 payload).map readMeshCw = (h :: data).map (fun d => (some d, false)) → leAt h 1 1 % 8 ≤ 3 →
    let dst : IsleIdx := finOf 63 (leAt h 0 1)
    let src : IsleIdx := finOf 63 (leAt h 3 1)
    let held := (s.rows[dst.row]).code = leAt h 2 1 % 8
    (held → exec (.meshFlitDelivery stop hdr payload) s = .next
      { s with out := .deliver dst (leAt h 1 1 % 8) (slice h 4 16) data.flatten :: s.out }) ∧
    (¬ held → ∃ t, exec (.meshFlitDelivery stop hdr payload) s = .next t ∧
      t.reef.cont = satInc32 s.reef.cont ∧ t.reef.rowCont[src.row] = satInc32 s.reef.rowCont[src.row] ∧
      ∀ st p g d, .deliver st p g d ∈ t.out → .deliver st p g d ∈ s.out)) ∧
  ∀ a b : IsleIdx, a.col ≠ b.col → (nextStop a b).row = a.row

/-- Every kind of flit completes with its own effect: IDLE, WIN, KEY, RED and mesh flits. -/
def Sys2Proof.Claims.FlitsComplete : Prop :=
  Claims.IdleFlits ∧ Claims.WindowFlits ∧ Claims.KeyFlits ∧ Claims.ReductionFlits ∧ Claims.MeshDeliveries

/-- Links, status codewords, the frames a port sends, and every kind of flit it receives doing its work (R290 to R300, R306, R310). -/
def Obligations.LinksAndFrames : Prop :=
  Claims.LinksAndControl ∧ Claims.Frames ∧ Claims.FlitsComplete

/-- Every codeword of a Strait reads back as it was coded, and with one wrong symbol it is read corrected (R291, R292). -/
def Obligations.StraitCodewords : Prop :=
  ∀ (d : List Byte), d.length ≤ 32 →
    readCw (codeCw d) = some (d, 0) ∧
    ∀ (i : Nat) (x : Byte), i < d.length + 2 → (codeCw d).getD i 0 ≠ x → readCw ((codeCw d).set i x) = some (d, 1)

/-- A flit on a port that is DOWN does nothing; an uncorrectable one is counted; a window write with a stale epoch is counted and
named in a NACK; a KEY flit outside a ring and a RED flit of no reduction are dropped and counted (R102, R292, R293, R307, R311). -/
def Sys2Proof.Claims.FlitsDropped : Prop :=
  ∀ (s : State) (y : RowIdx) (wire raw : List Byte), s.power = .running →
    let q := s.port y
    let all := fun (P : Instr → Prop) => P (.keyFlit y wire) ∧ P (.winFlit y wire) ∧ P (.redFlit y wire) ∧ P (.idleFlit y wire)
    let f := flitFields raw
    let w := q.window (finOf 1023 (f / 2 ^ 20 % 2 ^ 16))
    let cause := s.winCause y w (f / 2 ^ 36 % 2 ^ 16) (32 * (f / 2 ^ 52 % 2 ^ 32)) (32 * (f / 2 ^ 84 % 8 + 1))
    (q.up = false → all (fun c => exec c s = .next s)) ∧
    (q.up = true → readFlit wire = none → all (fun c => ∃ t, exec c s = .next t ∧ (t.port y).fecUnc = satInc32 q.fecUnc)) ∧
    (q.up = true → readFlit wire = some (raw, 0) → flitVersion raw = 2 →
      (flitClass raw = 2 → cause ≠ 0 → ∃ t, exec (.winFlit y wire) s = .next t ∧ (t.port y).windrop = satInc32 q.windrop ∧
        t.isles = s.isles ∧ t.chans = s.chans ∧ t.lagoons = s.lagoons ∧ (t.port y).windows = q.windows ∧
        (∃ m ∈ (t.port y).nackAcc, m.handle.toNat = f / 2 ^ 20 % 1024 ∧
          (q.nackAcc = [] → m.nack = true ∧ m.arg.toNat = cause ∧ m.mdest.toNat = f % 2 ^ 20 ∧ m.msrc = s.devid))) ∧
      (flitClass raw = 1 → flitFirst raw = true → s.keyPlan y = none → ∃ t, exec (.keyFlit y wire) s = .next t ∧
        (t.port y).kcdrop = satInc32 q.kcdrop ∧ (t.port y).egress = q.egress ∧ t.isles = s.isles ∧ t.jobs = s.jobs) ∧
      (flitClass raw = 3 → s.redOf y (redStream raw) = none → ∃ t, exec (.redFlit y wire) s = .next t ∧
        (t.port y).reddrop = satInc32 q.reddrop ∧ (t.port y).redBuf = q.redBuf ∧ t.isles = s.isles ∧ t.jobs = s.jobs))

/-- What a window write needs (R307): the entry takes flits at the epoch in force, the bytes lie in its target, the row runs a job of
the entry's owner whose plan lands the handle there, and the place is one the plan reserves. -/
def Sys2Proof.Claims.WindowCauses : Prop :=
  ∀ (s : State) (y : RowIdx) (w : WinEntry) (epoch off n : Nat),
    let takes := (w.st = .opened ∨ w.st = .closing ∧ s.now < w.closeAt) ∧ w.epoch.toNat = epoch
    let lands := ∃ j v p, s.runningOn y = some j ∧ w.owner = some v ∧ fnOfVf v = j.fn ∧ j.img.sections.strait = some p ∧
      ∃ l ∈ p.landings, l.1 = y ∧ l.2 = w.handle.val
    (¬ takes → s.winCause y w epoch off n = 1) ∧ (takes → w.target.len < off + n → s.winCause y w epoch off n = 2) ∧
    (takes → off + n ≤ w.target.len → (¬ lands ∨ s.reserved w.target off n = false) → s.winCause y w epoch off n = 3) ∧
    (takes → off + n ≤ w.target.len → lands → s.reserved w.target off n = true → s.winCause y w epoch off n = 0)

/-- An uncorrectable codeword of a mesh flit is a contained fault of the stop, and the symbols corrected in the flit's other codewords
still count (R15). -/
def Sys2Proof.Claims.MeshErrors : Prop :=
  ∀ (s : State) (stop : IsleIdx) (hdr payload : List Byte), s.power = .running → s.reef.injArmed = false →
    let cws := (hdr :: chunks 35 payload).map readMeshCw
    (∃ c ∈ cws, c.1 = none) → ∃ t, exec (.meshFlitDelivery stop hdr payload) s = .next t ∧
      t.reef.cont = satInc32 s.reef.cont ∧ t.reef.rowCont[stop.row] = satInc32 s.reef.rowCont[stop.row] ∧
      (s.reef.corr.toNat + cws.countP (·.2) < 2 ^ 64 → t.reef.corr.toNat = s.reef.corr.toNat + cws.countP (·.2))

/-- Flits received: idle, window writes, key circulation, reductions, and the mesh (R15, R16, R29, R84, R99, R102, R307, R311, R317 to R321). -/
def Obligations.FlitsActAtTheIngress : Prop :=
  Claims.FlitsDropped ∧ Claims.WindowCauses ∧ Claims.MeshErrors ∧ Claims.FlitsComplete

/-! ## The whole machine -/

/-- A step carries out the command at the front of the queue on the state with the queue's rest. -/
def Sys2Proof.Claims.StepRunsFrontCommand : Prop :=
  ∀ (s : State) (c : Instr) (rest : List Instr), step { s with pending := c :: rest } = exec c { s with pending := rest }

/-- No command stops the machine: every one answers a next state, and leaves the queue of commands alone (the model's choice is
that a command whose condition does not hold changes nothing, notes/assumptions/2.md). -/
def Sys2Proof.Claims.NoCommandStops : Prop :=
  ∀ (s : State) (c : Instr), ∃ t, exec c s = .next t ∧ t.pending = s.pending

/-- On an empty queue one management cycle passes (DESIGN CHOICE, notes/assumptions/1.md): time advances from the origin on
alone, and nothing happens in the states without a clock. -/
def Sys2Proof.Claims.IdleCycle : Prop :=
  ∀ (s : State), s.pending = [] →
    (s.power ≠ .starting → s.power ≠ .ready → s.power ≠ .running → step s = .next s) ∧
    ((s.power = .starting ∨ s.power = .ready) → step s = .next { s with sinceReset := s.sinceReset + 1 }) ∧
    (s.power = .running → ∃ t, step s = .next t ∧ t.now = s.now + 1 ∧ t.sinceReset = s.sinceReset + 1 ∧ t.power = .running)

/-- A step runs the command at the front of the queue; no command stops the machine; on an empty queue a cycle passes. -/
def Obligations.StepsRunCommandsInOrder : Prop :=
  Claims.StepRunsFrontCommand ∧ Claims.NoCommandStops ∧ Claims.IdleCycle

/-- Every step keeps every memory in its canonical form and P-384 in the Atoll's slot 0 (R391), whatever command it takes and
from whatever state that has both. -/
def Obligations.StepKeepsSafe : Prop :=
  ∀ (s t : State), Safe s → step s = .next t → Safe t

/-- The state after reset is safe, and holds the reset values that the register tables give (Table EL-3, Tables of 01, 08, 10,
13, 15, 16, 18). -/
def Obligations.ResetState : Prop :=
  let s := State.reset
  Safe s ∧ s.pending = [] ∧ s.power = .reset ∧ (∀ y : RowIdx, (s.rows[y]).code = 8) ∧ s.rowOwner = 0x88888888 ∧
    (∀ i : IsleIdx, (s.isle i).sk.halt = true ∧ (s.isle i).sk.st = .halted ∧ (s.isle i).canIssue = false) ∧
    (∀ f q, (s.queue f q).en = false ∧ (s.queue f q).version = 0 ∧ (s.queue f q).phase = true) ∧
    (∀ f k, (s.slotOf f k).st = .free) ∧ s.adm.en = false ∧ (∀ c : Fin 256, s.adm.clsmap[c] = 8) ∧ s.adm.lastGrid = 0xFFFFFFFF ∧
    s.reef.fatal = false ∧ s.reef.events = [] ∧ (∀ y, (s.port y).up = false ∧ (s.port y).windows = []) ∧
    (∀ l, (s.lagoon l).mode = 0) ∧ s.bstPeriod = 1000 ∧ s.jobs = [] ∧ s.occs = []
end

