-- ==== Sys2Proof/Laws/State.lean ====
section
/-! SUPPORT. The fields of `State` under its updates: what each leaves unchanged, and what it stores. -/

namespace Sys2Proof.Machine

variable (s : State)

/-! ## setIsle: only `isles` changes -/

@[simp] theorem setIsle_pending (i : IsleIdx) (x : Isle) : (s.setIsle i x).pending = s.pending := rfl
@[simp] theorem setIsle_now (i : IsleIdx) (x : Isle) : (s.setIsle i x).now = s.now := rfl
@[simp] theorem setIsle_sinceReset (i : IsleIdx) (x : Isle) : (s.setIsle i x).sinceReset = s.sinceReset := rfl
@[simp] theorem setIsle_free (i : IsleIdx) (x : Isle) : (s.setIsle i x).free = s.free := rfl
@[simp] theorem setIsle_nextId (i : IsleIdx) (x : Isle) : (s.setIsle i x).nextId = s.nextId := rfl
@[simp] theorem setIsle_big512 (i : IsleIdx) (x : Isle) : (s.setIsle i x).big512 = s.big512 := rfl
@[simp] theorem setIsle_power (i : IsleIdx) (x : Isle) : (s.setIsle i x).power = s.power := rfl
@[simp] theorem setIsle_boot (i : IsleIdx) (x : Isle) : (s.setIsle i x).boot = s.boot := rfl
@[simp] theorem setIsle_auth (i : IsleIdx) (x : Isle) : (s.setIsle i x).auth = s.auth := rfl
@[simp] theorem setIsle_gates (i : IsleIdx) (x : Isle) : (s.setIsle i x).gates = s.gates := rfl
@[simp] theorem setIsle_rows (i : IsleIdx) (x : Isle) : (s.setIsle i x).rows = s.rows := rfl
@[simp] theorem setIsle_ownerNo (i : IsleIdx) (x : Isle) : (s.setIsle i x).ownerNo = s.ownerNo := rfl
@[simp] theorem setIsle_rfLevel (i : IsleIdx) (x : Isle) : (s.setIsle i x).rfLevel = s.rfLevel := rfl
@[simp] theorem setIsle_rfBit (i : IsleIdx) (x : Isle) : (s.setIsle i x).rfBit = s.rfBit := rfl
@[simp] theorem setIsle_rfDue (i : IsleIdx) (x : Isle) : (s.setIsle i x).rfDue = s.rfDue := rfl
@[simp] theorem setIsle_compat (i : IsleIdx) (x : Isle) : (s.setIsle i x).compat = s.compat := rfl
@[simp] theorem setIsle_fns (i : IsleIdx) (x : Isle) : (s.setIsle i x).fns = s.fns := rfl
@[simp] theorem setIsle_fetched (i : IsleIdx) (x : Isle) : (s.setIsle i x).fetched = s.fetched := rfl
@[simp] theorem setIsle_lastServed (i : IsleIdx) (x : Isle) : (s.setIsle i x).lastServed = s.lastServed := rfl
@[simp] theorem setIsle_psets (i : IsleIdx) (x : Isle) : (s.setIsle i x).psets = s.psets := rfl
@[simp] theorem setIsle_keysets (i : IsleIdx) (x : Isle) : (s.setIsle i x).keysets = s.keysets := rfl
@[simp] theorem setIsle_images (i : IsleIdx) (x : Isle) : (s.setIsle i x).images = s.images := rfl
@[simp] theorem setIsle_jobs (i : IsleIdx) (x : Isle) : (s.setIsle i x).jobs = s.jobs := rfl
@[simp] theorem setIsle_progLoads (i : IsleIdx) (x : Isle) : (s.setIsle i x).progLoads = s.progLoads := rfl
@[simp] theorem setIsle_keyLoads (i : IsleIdx) (x : Isle) : (s.setIsle i x).keyLoads = s.keyLoads := rfl
@[simp] theorem setIsle_heldLoads (i : IsleIdx) (x : Isle) : (s.setIsle i x).heldLoads = s.heldLoads := rfl
@[simp] theorem setIsle_releases (i : IsleIdx) (x : Isle) : (s.setIsle i x).releases = s.releases := rfl
@[simp] theorem setIsle_aborts (i : IsleIdx) (x : Isle) : (s.setIsle i x).aborts = s.aborts := rfl
@[simp] theorem setIsle_occs (i : IsleIdx) (x : Isle) : (s.setIsle i x).occs = s.occs := rfl
@[simp] theorem setIsle_wipes (i : IsleIdx) (x : Isle) : (s.setIsle i x).wipes = s.wipes := rfl
@[simp] theorem setIsle_slices (i : IsleIdx) (x : Isle) : (s.setIsle i x).slices = s.slices := rfl
@[simp] theorem setIsle_depots (i : IsleIdx) (x : Isle) : (s.setIsle i x).depots = s.depots := rfl
@[simp] theorem setIsle_retires (i : IsleIdx) (x : Isle) : (s.setIsle i x).retires = s.retires := rfl
@[simp] theorem setIsle_adm (i : IsleIdx) (x : Isle) : (s.setIsle i x).adm = s.adm := rfl
@[simp] theorem setIsle_reef (i : IsleIdx) (x : Isle) : (s.setIsle i x).reef = s.reef := rfl
@[simp] theorem setIsle_evr (i : IsleIdx) (x : Isle) : (s.setIsle i x).evr = s.evr := rfl
@[simp] theorem setIsle_atl (i : IsleIdx) (x : Isle) : (s.setIsle i x).atl = s.atl := rfl
@[simp] theorem setIsle_devid (i : IsleIdx) (x : Isle) : (s.setIsle i x).devid = s.devid := rfl
@[simp] theorem setIsle_winSel (i : IsleIdx) (x : Isle) : (s.setIsle i x).winSel = s.winSel := rfl
@[simp] theorem setIsle_digPort (i : IsleIdx) (x : Isle) : (s.setIsle i x).digPort = s.digPort := rfl
@[simp] theorem setIsle_digSlot (i : IsleIdx) (x : Isle) : (s.setIsle i x).digSlot = s.digSlot := rfl
@[simp] theorem setIsle_digAge (i : IsleIdx) (x : Isle) : (s.setIsle i x).digAge = s.digAge := rfl
@[simp] theorem setIsle_ports (i : IsleIdx) (x : Isle) : (s.setIsle i x).ports = s.ports := rfl
@[simp] theorem setIsle_chans (i : IsleIdx) (x : Isle) : (s.setIsle i x).chans = s.chans := rfl
@[simp] theorem setIsle_drams (i : IsleIdx) (x : Isle) : (s.setIsle i x).drams = s.drams := rfl
@[simp] theorem setIsle_hot (i : IsleIdx) (x : Isle) : (s.setIsle i x).hot = s.hot := rfl
@[simp] theorem setIsle_cleanSince (i : IsleIdx) (x : Isle) : (s.setIsle i x).cleanSince = s.cleanSince := rfl
@[simp] theorem setIsle_lagoons (i : IsleIdx) (x : Isle) : (s.setIsle i x).lagoons = s.lagoons := rfl
@[simp] theorem setIsle_bstPeriod (i : IsleIdx) (x : Isle) : (s.setIsle i x).bstPeriod = s.bstPeriod := rfl
@[simp] theorem setIsle_bstNext (i : IsleIdx) (x : Isle) : (s.setIsle i x).bstNext = s.bstNext := rfl
@[simp] theorem setIsle_bstDepotFail (i : IsleIdx) (x : Isle) : (s.setIsle i x).bstDepotFail = s.bstDepotFail := rfl
@[simp] theorem setIsle_bstLastIsle (i : IsleIdx) (x : Isle) : (s.setIsle i x).bstLastIsle = s.bstLastIsle := rfl
@[simp] theorem setIsle_bstLastResult (i : IsleIdx) (x : Isle) : (s.setIsle i x).bstLastResult = s.bstLastResult := rfl
@[simp] theorem setIsle_bstFail (i : IsleIdx) (x : Isle) : (s.setIsle i x).bstFail = s.bstFail := rfl
@[simp] theorem setIsle_perst (i : IsleIdx) (x : Isle) : (s.setIsle i x).perst = s.perst := rfl
@[simp] theorem setIsle_pwrGood (i : IsleIdx) (x : Isle) : (s.setIsle i x).pwrGood = s.pwrGood := rfl
@[simp] theorem setIsle_pwrfailN (i : IsleIdx) (x : Isle) : (s.setIsle i x).pwrfailN = s.pwrfailN := rfl
@[simp] theorem setIsle_lasers (i : IsleIdx) (x : Isle) : (s.setIsle i x).lasers = s.lasers := rfl
@[simp] theorem setIsle_mon (i : IsleIdx) (x : Isle) : (s.setIsle i x).mon = s.mon := rfl
@[simp] theorem setIsle_out (i : IsleIdx) (x : Isle) : (s.setIsle i x).out = s.out := rfl

/-! ## setFn: only `fns` changes -/

@[simp] theorem setFn_pending (f : Fn) (x : FnState) : (s.setFn f x).pending = s.pending := rfl
@[simp] theorem setFn_now (f : Fn) (x : FnState) : (s.setFn f x).now = s.now := rfl
@[simp] theorem setFn_sinceReset (f : Fn) (x : FnState) : (s.setFn f x).sinceReset = s.sinceReset := rfl
@[simp] theorem setFn_free (f : Fn) (x : FnState) : (s.setFn f x).free = s.free := rfl
@[simp] theorem setFn_nextId (f : Fn) (x : FnState) : (s.setFn f x).nextId = s.nextId := rfl
@[simp] theorem setFn_big512 (f : Fn) (x : FnState) : (s.setFn f x).big512 = s.big512 := rfl
@[simp] theorem setFn_power (f : Fn) (x : FnState) : (s.setFn f x).power = s.power := rfl
@[simp] theorem setFn_boot (f : Fn) (x : FnState) : (s.setFn f x).boot = s.boot := rfl
@[simp] theorem setFn_auth (f : Fn) (x : FnState) : (s.setFn f x).auth = s.auth := rfl
@[simp] theorem setFn_gates (f : Fn) (x : FnState) : (s.setFn f x).gates = s.gates := rfl
@[simp] theorem setFn_rows (f : Fn) (x : FnState) : (s.setFn f x).rows = s.rows := rfl
@[simp] theorem setFn_ownerNo (f : Fn) (x : FnState) : (s.setFn f x).ownerNo = s.ownerNo := rfl
@[simp] theorem setFn_rfLevel (f : Fn) (x : FnState) : (s.setFn f x).rfLevel = s.rfLevel := rfl
@[simp] theorem setFn_rfBit (f : Fn) (x : FnState) : (s.setFn f x).rfBit = s.rfBit := rfl
@[simp] theorem setFn_rfDue (f : Fn) (x : FnState) : (s.setFn f x).rfDue = s.rfDue := rfl
@[simp] theorem setFn_compat (f : Fn) (x : FnState) : (s.setFn f x).compat = s.compat := rfl
@[simp] theorem setFn_fetched (f : Fn) (x : FnState) : (s.setFn f x).fetched = s.fetched := rfl
@[simp] theorem setFn_lastServed (f : Fn) (x : FnState) : (s.setFn f x).lastServed = s.lastServed := rfl
@[simp] theorem setFn_psets (f : Fn) (x : FnState) : (s.setFn f x).psets = s.psets := rfl
@[simp] theorem setFn_keysets (f : Fn) (x : FnState) : (s.setFn f x).keysets = s.keysets := rfl
@[simp] theorem setFn_images (f : Fn) (x : FnState) : (s.setFn f x).images = s.images := rfl
@[simp] theorem setFn_jobs (f : Fn) (x : FnState) : (s.setFn f x).jobs = s.jobs := rfl
@[simp] theorem setFn_progLoads (f : Fn) (x : FnState) : (s.setFn f x).progLoads = s.progLoads := rfl
@[simp] theorem setFn_keyLoads (f : Fn) (x : FnState) : (s.setFn f x).keyLoads = s.keyLoads := rfl
@[simp] theorem setFn_heldLoads (f : Fn) (x : FnState) : (s.setFn f x).heldLoads = s.heldLoads := rfl
@[simp] theorem setFn_releases (f : Fn) (x : FnState) : (s.setFn f x).releases = s.releases := rfl
@[simp] theorem setFn_aborts (f : Fn) (x : FnState) : (s.setFn f x).aborts = s.aborts := rfl
@[simp] theorem setFn_occs (f : Fn) (x : FnState) : (s.setFn f x).occs = s.occs := rfl
@[simp] theorem setFn_wipes (f : Fn) (x : FnState) : (s.setFn f x).wipes = s.wipes := rfl
@[simp] theorem setFn_slices (f : Fn) (x : FnState) : (s.setFn f x).slices = s.slices := rfl
@[simp] theorem setFn_depots (f : Fn) (x : FnState) : (s.setFn f x).depots = s.depots := rfl
@[simp] theorem setFn_retires (f : Fn) (x : FnState) : (s.setFn f x).retires = s.retires := rfl
@[simp] theorem setFn_adm (f : Fn) (x : FnState) : (s.setFn f x).adm = s.adm := rfl
@[simp] theorem setFn_reef (f : Fn) (x : FnState) : (s.setFn f x).reef = s.reef := rfl
@[simp] theorem setFn_evr (f : Fn) (x : FnState) : (s.setFn f x).evr = s.evr := rfl
@[simp] theorem setFn_atl (f : Fn) (x : FnState) : (s.setFn f x).atl = s.atl := rfl
@[simp] theorem setFn_devid (f : Fn) (x : FnState) : (s.setFn f x).devid = s.devid := rfl
@[simp] theorem setFn_winSel (f : Fn) (x : FnState) : (s.setFn f x).winSel = s.winSel := rfl
@[simp] theorem setFn_digPort (f : Fn) (x : FnState) : (s.setFn f x).digPort = s.digPort := rfl
@[simp] theorem setFn_digSlot (f : Fn) (x : FnState) : (s.setFn f x).digSlot = s.digSlot := rfl
@[simp] theorem setFn_digAge (f : Fn) (x : FnState) : (s.setFn f x).digAge = s.digAge := rfl
@[simp] theorem setFn_ports (f : Fn) (x : FnState) : (s.setFn f x).ports = s.ports := rfl
@[simp] theorem setFn_chans (f : Fn) (x : FnState) : (s.setFn f x).chans = s.chans := rfl
@[simp] theorem setFn_drams (f : Fn) (x : FnState) : (s.setFn f x).drams = s.drams := rfl
@[simp] theorem setFn_hot (f : Fn) (x : FnState) : (s.setFn f x).hot = s.hot := rfl
@[simp] theorem setFn_cleanSince (f : Fn) (x : FnState) : (s.setFn f x).cleanSince = s.cleanSince := rfl
@[simp] theorem setFn_lagoons (f : Fn) (x : FnState) : (s.setFn f x).lagoons = s.lagoons := rfl
@[simp] theorem setFn_isles (f : Fn) (x : FnState) : (s.setFn f x).isles = s.isles := rfl
@[simp] theorem setFn_bstPeriod (f : Fn) (x : FnState) : (s.setFn f x).bstPeriod = s.bstPeriod := rfl
@[simp] theorem setFn_bstNext (f : Fn) (x : FnState) : (s.setFn f x).bstNext = s.bstNext := rfl
@[simp] theorem setFn_bstDepotFail (f : Fn) (x : FnState) : (s.setFn f x).bstDepotFail = s.bstDepotFail := rfl
@[simp] theorem setFn_bstLastIsle (f : Fn) (x : FnState) : (s.setFn f x).bstLastIsle = s.bstLastIsle := rfl
@[simp] theorem setFn_bstLastResult (f : Fn) (x : FnState) : (s.setFn f x).bstLastResult = s.bstLastResult := rfl
@[simp] theorem setFn_bstFail (f : Fn) (x : FnState) : (s.setFn f x).bstFail = s.bstFail := rfl
@[simp] theorem setFn_perst (f : Fn) (x : FnState) : (s.setFn f x).perst = s.perst := rfl
@[simp] theorem setFn_pwrGood (f : Fn) (x : FnState) : (s.setFn f x).pwrGood = s.pwrGood := rfl
@[simp] theorem setFn_pwrfailN (f : Fn) (x : FnState) : (s.setFn f x).pwrfailN = s.pwrfailN := rfl
@[simp] theorem setFn_lasers (f : Fn) (x : FnState) : (s.setFn f x).lasers = s.lasers := rfl
@[simp] theorem setFn_mon (f : Fn) (x : FnState) : (s.setFn f x).mon = s.mon := rfl
@[simp] theorem setFn_out (f : Fn) (x : FnState) : (s.setFn f x).out = s.out := rfl

/-! ## setQueue: only `fns` changes -/

@[simp] theorem setQueue_pending (f : Fn) (q : Fin 8) (x : Queue) : (s.setQueue f q x).pending = s.pending := rfl
@[simp] theorem setQueue_now (f : Fn) (q : Fin 8) (x : Queue) : (s.setQueue f q x).now = s.now := rfl
@[simp] theorem setQueue_sinceReset (f : Fn) (q : Fin 8) (x : Queue) : (s.setQueue f q x).sinceReset = s.sinceReset := rfl
@[simp] theorem setQueue_free (f : Fn) (q : Fin 8) (x : Queue) : (s.setQueue f q x).free = s.free := rfl
@[simp] theorem setQueue_nextId (f : Fn) (q : Fin 8) (x : Queue) : (s.setQueue f q x).nextId = s.nextId := rfl
@[simp] theorem setQueue_big512 (f : Fn) (q : Fin 8) (x : Queue) : (s.setQueue f q x).big512 = s.big512 := rfl
@[simp] theorem setQueue_power (f : Fn) (q : Fin 8) (x : Queue) : (s.setQueue f q x).power = s.power := rfl
@[simp] theorem setQueue_boot (f : Fn) (q : Fin 8) (x : Queue) : (s.setQueue f q x).boot = s.boot := rfl
@[simp] theorem setQueue_auth (f : Fn) (q : Fin 8) (x : Queue) : (s.setQueue f q x).auth = s.auth := rfl
@[simp] theorem setQueue_gates (f : Fn) (q : Fin 8) (x : Queue) : (s.setQueue f q x).gates = s.gates := rfl
@[simp] theorem setQueue_rows (f : Fn) (q : Fin 8) (x : Queue) : (s.setQueue f q x).rows = s.rows := rfl
@[simp] theorem setQueue_ownerNo (f : Fn) (q : Fin 8) (x : Queue) : (s.setQueue f q x).ownerNo = s.ownerNo := rfl
@[simp] theorem setQueue_rfLevel (f : Fn) (q : Fin 8) (x : Queue) : (s.setQueue f q x).rfLevel = s.rfLevel := rfl
@[simp] theorem setQueue_rfBit (f : Fn) (q : Fin 8) (x : Queue) : (s.setQueue f q x).rfBit = s.rfBit := rfl
@[simp] theorem setQueue_rfDue (f : Fn) (q : Fin 8) (x : Queue) : (s.setQueue f q x).rfDue = s.rfDue := rfl
@[simp] theorem setQueue_compat (f : Fn) (q : Fin 8) (x : Queue) : (s.setQueue f q x).compat = s.compat := rfl
@[simp] theorem setQueue_fetched (f : Fn) (q : Fin 8) (x : Queue) : (s.setQueue f q x).fetched = s.fetched := rfl
@[simp] theorem setQueue_lastServed (f : Fn) (q : Fin 8) (x : Queue) : (s.setQueue f q x).lastServed = s.lastServed := rfl
@[simp] theorem setQueue_psets (f : Fn) (q : Fin 8) (x : Queue) : (s.setQueue f q x).psets = s.psets := rfl
@[simp] theorem setQueue_keysets (f : Fn) (q : Fin 8) (x : Queue) : (s.setQueue f q x).keysets = s.keysets := rfl
@[simp] theorem setQueue_images (f : Fn) (q : Fin 8) (x : Queue) : (s.setQueue f q x).images = s.images := rfl
@[simp] theorem setQueue_jobs (f : Fn) (q : Fin 8) (x : Queue) : (s.setQueue f q x).jobs = s.jobs := rfl
@[simp] theorem setQueue_progLoads (f : Fn) (q : Fin 8) (x : Queue) : (s.setQueue f q x).progLoads = s.progLoads := rfl
@[simp] theorem setQueue_keyLoads (f : Fn) (q : Fin 8) (x : Queue) : (s.setQueue f q x).keyLoads = s.keyLoads := rfl
@[simp] theorem setQueue_heldLoads (f : Fn) (q : Fin 8) (x : Queue) : (s.setQueue f q x).heldLoads = s.heldLoads := rfl
@[simp] theorem setQueue_releases (f : Fn) (q : Fin 8) (x : Queue) : (s.setQueue f q x).releases = s.releases := rfl
@[simp] theorem setQueue_aborts (f : Fn) (q : Fin 8) (x : Queue) : (s.setQueue f q x).aborts = s.aborts := rfl
@[simp] theorem setQueue_occs (f : Fn) (q : Fin 8) (x : Queue) : (s.setQueue f q x).occs = s.occs := rfl
@[simp] theorem setQueue_wipes (f : Fn) (q : Fin 8) (x : Queue) : (s.setQueue f q x).wipes = s.wipes := rfl
@[simp] theorem setQueue_slices (f : Fn) (q : Fin 8) (x : Queue) : (s.setQueue f q x).slices = s.slices := rfl
@[simp] theorem setQueue_depots (f : Fn) (q : Fin 8) (x : Queue) : (s.setQueue f q x).depots = s.depots := rfl
@[simp] theorem setQueue_retires (f : Fn) (q : Fin 8) (x : Queue) : (s.setQueue f q x).retires = s.retires := rfl
@[simp] theorem setQueue_adm (f : Fn) (q : Fin 8) (x : Queue) : (s.setQueue f q x).adm = s.adm := rfl
@[simp] theorem setQueue_reef (f : Fn) (q : Fin 8) (x : Queue) : (s.setQueue f q x).reef = s.reef := rfl
@[simp] theorem setQueue_evr (f : Fn) (q : Fin 8) (x : Queue) : (s.setQueue f q x).evr = s.evr := rfl
@[simp] theorem setQueue_atl (f : Fn) (q : Fin 8) (x : Queue) : (s.setQueue f q x).atl = s.atl := rfl
@[simp] theorem setQueue_devid (f : Fn) (q : Fin 8) (x : Queue) : (s.setQueue f q x).devid = s.devid := rfl
@[simp] theorem setQueue_winSel (f : Fn) (q : Fin 8) (x : Queue) : (s.setQueue f q x).winSel = s.winSel := rfl
@[simp] theorem setQueue_digPort (f : Fn) (q : Fin 8) (x : Queue) : (s.setQueue f q x).digPort = s.digPort := rfl
@[simp] theorem setQueue_digSlot (f : Fn) (q : Fin 8) (x : Queue) : (s.setQueue f q x).digSlot = s.digSlot := rfl
@[simp] theorem setQueue_digAge (f : Fn) (q : Fin 8) (x : Queue) : (s.setQueue f q x).digAge = s.digAge := rfl
@[simp] theorem setQueue_ports (f : Fn) (q : Fin 8) (x : Queue) : (s.setQueue f q x).ports = s.ports := rfl
@[simp] theorem setQueue_chans (f : Fn) (q : Fin 8) (x : Queue) : (s.setQueue f q x).chans = s.chans := rfl
@[simp] theorem setQueue_drams (f : Fn) (q : Fin 8) (x : Queue) : (s.setQueue f q x).drams = s.drams := rfl
@[simp] theorem setQueue_hot (f : Fn) (q : Fin 8) (x : Queue) : (s.setQueue f q x).hot = s.hot := rfl
@[simp] theorem setQueue_cleanSince (f : Fn) (q : Fin 8) (x : Queue) : (s.setQueue f q x).cleanSince = s.cleanSince := rfl
@[simp] theorem setQueue_lagoons (f : Fn) (q : Fin 8) (x : Queue) : (s.setQueue f q x).lagoons = s.lagoons := rfl
@[simp] theorem setQueue_isles (f : Fn) (q : Fin 8) (x : Queue) : (s.setQueue f q x).isles = s.isles := rfl
@[simp] theorem setQueue_bstPeriod (f : Fn) (q : Fin 8) (x : Queue) : (s.setQueue f q x).bstPeriod = s.bstPeriod := rfl
@[simp] theorem setQueue_bstNext (f : Fn) (q : Fin 8) (x : Queue) : (s.setQueue f q x).bstNext = s.bstNext := rfl
@[simp] theorem setQueue_bstDepotFail (f : Fn) (q : Fin 8) (x : Queue) : (s.setQueue f q x).bstDepotFail = s.bstDepotFail := rfl
@[simp] theorem setQueue_bstLastIsle (f : Fn) (q : Fin 8) (x : Queue) : (s.setQueue f q x).bstLastIsle = s.bstLastIsle := rfl
@[simp] theorem setQueue_bstLastResult (f : Fn) (q : Fin 8) (x : Queue) : (s.setQueue f q x).bstLastResult = s.bstLastResult := rfl
@[simp] theorem setQueue_bstFail (f : Fn) (q : Fin 8) (x : Queue) : (s.setQueue f q x).bstFail = s.bstFail := rfl
@[simp] theorem setQueue_perst (f : Fn) (q : Fin 8) (x : Queue) : (s.setQueue f q x).perst = s.perst := rfl
@[simp] theorem setQueue_pwrGood (f : Fn) (q : Fin 8) (x : Queue) : (s.setQueue f q x).pwrGood = s.pwrGood := rfl
@[simp] theorem setQueue_pwrfailN (f : Fn) (q : Fin 8) (x : Queue) : (s.setQueue f q x).pwrfailN = s.pwrfailN := rfl
@[simp] theorem setQueue_lasers (f : Fn) (q : Fin 8) (x : Queue) : (s.setQueue f q x).lasers = s.lasers := rfl
@[simp] theorem setQueue_mon (f : Fn) (q : Fin 8) (x : Queue) : (s.setQueue f q x).mon = s.mon := rfl
@[simp] theorem setQueue_out (f : Fn) (q : Fin 8) (x : Queue) : (s.setQueue f q x).out = s.out := rfl

/-! ## setPort: only `ports` changes -/

@[simp] theorem setPort_pending (y : RowIdx) (x : Port) : (s.setPort y x).pending = s.pending := rfl
@[simp] theorem setPort_now (y : RowIdx) (x : Port) : (s.setPort y x).now = s.now := rfl
@[simp] theorem setPort_sinceReset (y : RowIdx) (x : Port) : (s.setPort y x).sinceReset = s.sinceReset := rfl
@[simp] theorem setPort_free (y : RowIdx) (x : Port) : (s.setPort y x).free = s.free := rfl
@[simp] theorem setPort_nextId (y : RowIdx) (x : Port) : (s.setPort y x).nextId = s.nextId := rfl
@[simp] theorem setPort_big512 (y : RowIdx) (x : Port) : (s.setPort y x).big512 = s.big512 := rfl
@[simp] theorem setPort_power (y : RowIdx) (x : Port) : (s.setPort y x).power = s.power := rfl
@[simp] theorem setPort_boot (y : RowIdx) (x : Port) : (s.setPort y x).boot = s.boot := rfl
@[simp] theorem setPort_auth (y : RowIdx) (x : Port) : (s.setPort y x).auth = s.auth := rfl
@[simp] theorem setPort_gates (y : RowIdx) (x : Port) : (s.setPort y x).gates = s.gates := rfl
@[simp] theorem setPort_rows (y : RowIdx) (x : Port) : (s.setPort y x).rows = s.rows := rfl
@[simp] theorem setPort_ownerNo (y : RowIdx) (x : Port) : (s.setPort y x).ownerNo = s.ownerNo := rfl
@[simp] theorem setPort_rfLevel (y : RowIdx) (x : Port) : (s.setPort y x).rfLevel = s.rfLevel := rfl
@[simp] theorem setPort_rfBit (y : RowIdx) (x : Port) : (s.setPort y x).rfBit = s.rfBit := rfl
@[simp] theorem setPort_rfDue (y : RowIdx) (x : Port) : (s.setPort y x).rfDue = s.rfDue := rfl
@[simp] theorem setPort_compat (y : RowIdx) (x : Port) : (s.setPort y x).compat = s.compat := rfl
@[simp] theorem setPort_fns (y : RowIdx) (x : Port) : (s.setPort y x).fns = s.fns := rfl
@[simp] theorem setPort_fetched (y : RowIdx) (x : Port) : (s.setPort y x).fetched = s.fetched := rfl
@[simp] theorem setPort_lastServed (y : RowIdx) (x : Port) : (s.setPort y x).lastServed = s.lastServed := rfl
@[simp] theorem setPort_psets (y : RowIdx) (x : Port) : (s.setPort y x).psets = s.psets := rfl
@[simp] theorem setPort_keysets (y : RowIdx) (x : Port) : (s.setPort y x).keysets = s.keysets := rfl
@[simp] theorem setPort_images (y : RowIdx) (x : Port) : (s.setPort y x).images = s.images := rfl
@[simp] theorem setPort_jobs (y : RowIdx) (x : Port) : (s.setPort y x).jobs = s.jobs := rfl
@[simp] theorem setPort_progLoads (y : RowIdx) (x : Port) : (s.setPort y x).progLoads = s.progLoads := rfl
@[simp] theorem setPort_keyLoads (y : RowIdx) (x : Port) : (s.setPort y x).keyLoads = s.keyLoads := rfl
@[simp] theorem setPort_heldLoads (y : RowIdx) (x : Port) : (s.setPort y x).heldLoads = s.heldLoads := rfl
@[simp] theorem setPort_releases (y : RowIdx) (x : Port) : (s.setPort y x).releases = s.releases := rfl
@[simp] theorem setPort_aborts (y : RowIdx) (x : Port) : (s.setPort y x).aborts = s.aborts := rfl
@[simp] theorem setPort_occs (y : RowIdx) (x : Port) : (s.setPort y x).occs = s.occs := rfl
@[simp] theorem setPort_wipes (y : RowIdx) (x : Port) : (s.setPort y x).wipes = s.wipes := rfl
@[simp] theorem setPort_slices (y : RowIdx) (x : Port) : (s.setPort y x).slices = s.slices := rfl
@[simp] theorem setPort_depots (y : RowIdx) (x : Port) : (s.setPort y x).depots = s.depots := rfl
@[simp] theorem setPort_retires (y : RowIdx) (x : Port) : (s.setPort y x).retires = s.retires := rfl
@[simp] theorem setPort_adm (y : RowIdx) (x : Port) : (s.setPort y x).adm = s.adm := rfl
@[simp] theorem setPort_reef (y : RowIdx) (x : Port) : (s.setPort y x).reef = s.reef := rfl
@[simp] theorem setPort_evr (y : RowIdx) (x : Port) : (s.setPort y x).evr = s.evr := rfl
@[simp] theorem setPort_atl (y : RowIdx) (x : Port) : (s.setPort y x).atl = s.atl := rfl
@[simp] theorem setPort_devid (y : RowIdx) (x : Port) : (s.setPort y x).devid = s.devid := rfl
@[simp] theorem setPort_winSel (y : RowIdx) (x : Port) : (s.setPort y x).winSel = s.winSel := rfl
@[simp] theorem setPort_digPort (y : RowIdx) (x : Port) : (s.setPort y x).digPort = s.digPort := rfl
@[simp] theorem setPort_digSlot (y : RowIdx) (x : Port) : (s.setPort y x).digSlot = s.digSlot := rfl
@[simp] theorem setPort_digAge (y : RowIdx) (x : Port) : (s.setPort y x).digAge = s.digAge := rfl
@[simp] theorem setPort_chans (y : RowIdx) (x : Port) : (s.setPort y x).chans = s.chans := rfl
@[simp] theorem setPort_drams (y : RowIdx) (x : Port) : (s.setPort y x).drams = s.drams := rfl
@[simp] theorem setPort_hot (y : RowIdx) (x : Port) : (s.setPort y x).hot = s.hot := rfl
@[simp] theorem setPort_cleanSince (y : RowIdx) (x : Port) : (s.setPort y x).cleanSince = s.cleanSince := rfl
@[simp] theorem setPort_lagoons (y : RowIdx) (x : Port) : (s.setPort y x).lagoons = s.lagoons := rfl
@[simp] theorem setPort_isles (y : RowIdx) (x : Port) : (s.setPort y x).isles = s.isles := rfl
@[simp] theorem setPort_bstPeriod (y : RowIdx) (x : Port) : (s.setPort y x).bstPeriod = s.bstPeriod := rfl
@[simp] theorem setPort_bstNext (y : RowIdx) (x : Port) : (s.setPort y x).bstNext = s.bstNext := rfl
@[simp] theorem setPort_bstDepotFail (y : RowIdx) (x : Port) : (s.setPort y x).bstDepotFail = s.bstDepotFail := rfl
@[simp] theorem setPort_bstLastIsle (y : RowIdx) (x : Port) : (s.setPort y x).bstLastIsle = s.bstLastIsle := rfl
@[simp] theorem setPort_bstLastResult (y : RowIdx) (x : Port) : (s.setPort y x).bstLastResult = s.bstLastResult := rfl
@[simp] theorem setPort_bstFail (y : RowIdx) (x : Port) : (s.setPort y x).bstFail = s.bstFail := rfl
@[simp] theorem setPort_perst (y : RowIdx) (x : Port) : (s.setPort y x).perst = s.perst := rfl
@[simp] theorem setPort_pwrGood (y : RowIdx) (x : Port) : (s.setPort y x).pwrGood = s.pwrGood := rfl
@[simp] theorem setPort_pwrfailN (y : RowIdx) (x : Port) : (s.setPort y x).pwrfailN = s.pwrfailN := rfl
@[simp] theorem setPort_lasers (y : RowIdx) (x : Port) : (s.setPort y x).lasers = s.lasers := rfl
@[simp] theorem setPort_mon (y : RowIdx) (x : Port) : (s.setPort y x).mon = s.mon := rfl
@[simp] theorem setPort_out (y : RowIdx) (x : Port) : (s.setPort y x).out = s.out := rfl

/-! ## setChan: only `chans` changes -/

@[simp] theorem setChan_pending (c : ChanIdx) (x : Channel) : (s.setChan c x).pending = s.pending := rfl
@[simp] theorem setChan_now (c : ChanIdx) (x : Channel) : (s.setChan c x).now = s.now := rfl
@[simp] theorem setChan_sinceReset (c : ChanIdx) (x : Channel) : (s.setChan c x).sinceReset = s.sinceReset := rfl
@[simp] theorem setChan_free (c : ChanIdx) (x : Channel) : (s.setChan c x).free = s.free := rfl
@[simp] theorem setChan_nextId (c : ChanIdx) (x : Channel) : (s.setChan c x).nextId = s.nextId := rfl
@[simp] theorem setChan_big512 (c : ChanIdx) (x : Channel) : (s.setChan c x).big512 = s.big512 := rfl
@[simp] theorem setChan_power (c : ChanIdx) (x : Channel) : (s.setChan c x).power = s.power := rfl
@[simp] theorem setChan_boot (c : ChanIdx) (x : Channel) : (s.setChan c x).boot = s.boot := rfl
@[simp] theorem setChan_auth (c : ChanIdx) (x : Channel) : (s.setChan c x).auth = s.auth := rfl
@[simp] theorem setChan_gates (c : ChanIdx) (x : Channel) : (s.setChan c x).gates = s.gates := rfl
@[simp] theorem setChan_rows (c : ChanIdx) (x : Channel) : (s.setChan c x).rows = s.rows := rfl
@[simp] theorem setChan_ownerNo (c : ChanIdx) (x : Channel) : (s.setChan c x).ownerNo = s.ownerNo := rfl
@[simp] theorem setChan_rfLevel (c : ChanIdx) (x : Channel) : (s.setChan c x).rfLevel = s.rfLevel := rfl
@[simp] theorem setChan_rfBit (c : ChanIdx) (x : Channel) : (s.setChan c x).rfBit = s.rfBit := rfl
@[simp] theorem setChan_rfDue (c : ChanIdx) (x : Channel) : (s.setChan c x).rfDue = s.rfDue := rfl
@[simp] theorem setChan_compat (c : ChanIdx) (x : Channel) : (s.setChan c x).compat = s.compat := rfl
@[simp] theorem setChan_fns (c : ChanIdx) (x : Channel) : (s.setChan c x).fns = s.fns := rfl
@[simp] theorem setChan_fetched (c : ChanIdx) (x : Channel) : (s.setChan c x).fetched = s.fetched := rfl
@[simp] theorem setChan_lastServed (c : ChanIdx) (x : Channel) : (s.setChan c x).lastServed = s.lastServed := rfl
@[simp] theorem setChan_psets (c : ChanIdx) (x : Channel) : (s.setChan c x).psets = s.psets := rfl
@[simp] theorem setChan_keysets (c : ChanIdx) (x : Channel) : (s.setChan c x).keysets = s.keysets := rfl
@[simp] theorem setChan_images (c : ChanIdx) (x : Channel) : (s.setChan c x).images = s.images := rfl
@[simp] theorem setChan_jobs (c : ChanIdx) (x : Channel) : (s.setChan c x).jobs = s.jobs := rfl
@[simp] theorem setChan_progLoads (c : ChanIdx) (x : Channel) : (s.setChan c x).progLoads = s.progLoads := rfl
@[simp] theorem setChan_keyLoads (c : ChanIdx) (x : Channel) : (s.setChan c x).keyLoads = s.keyLoads := rfl
@[simp] theorem setChan_heldLoads (c : ChanIdx) (x : Channel) : (s.setChan c x).heldLoads = s.heldLoads := rfl
@[simp] theorem setChan_releases (c : ChanIdx) (x : Channel) : (s.setChan c x).releases = s.releases := rfl
@[simp] theorem setChan_aborts (c : ChanIdx) (x : Channel) : (s.setChan c x).aborts = s.aborts := rfl
@[simp] theorem setChan_occs (c : ChanIdx) (x : Channel) : (s.setChan c x).occs = s.occs := rfl
@[simp] theorem setChan_wipes (c : ChanIdx) (x : Channel) : (s.setChan c x).wipes = s.wipes := rfl
@[simp] theorem setChan_slices (c : ChanIdx) (x : Channel) : (s.setChan c x).slices = s.slices := rfl
@[simp] theorem setChan_depots (c : ChanIdx) (x : Channel) : (s.setChan c x).depots = s.depots := rfl
@[simp] theorem setChan_retires (c : ChanIdx) (x : Channel) : (s.setChan c x).retires = s.retires := rfl
@[simp] theorem setChan_adm (c : ChanIdx) (x : Channel) : (s.setChan c x).adm = s.adm := rfl
@[simp] theorem setChan_reef (c : ChanIdx) (x : Channel) : (s.setChan c x).reef = s.reef := rfl
@[simp] theorem setChan_evr (c : ChanIdx) (x : Channel) : (s.setChan c x).evr = s.evr := rfl
@[simp] theorem setChan_atl (c : ChanIdx) (x : Channel) : (s.setChan c x).atl = s.atl := rfl
@[simp] theorem setChan_devid (c : ChanIdx) (x : Channel) : (s.setChan c x).devid = s.devid := rfl
@[simp] theorem setChan_winSel (c : ChanIdx) (x : Channel) : (s.setChan c x).winSel = s.winSel := rfl
@[simp] theorem setChan_digPort (c : ChanIdx) (x : Channel) : (s.setChan c x).digPort = s.digPort := rfl
@[simp] theorem setChan_digSlot (c : ChanIdx) (x : Channel) : (s.setChan c x).digSlot = s.digSlot := rfl
@[simp] theorem setChan_digAge (c : ChanIdx) (x : Channel) : (s.setChan c x).digAge = s.digAge := rfl
@[simp] theorem setChan_ports (c : ChanIdx) (x : Channel) : (s.setChan c x).ports = s.ports := rfl
@[simp] theorem setChan_drams (c : ChanIdx) (x : Channel) : (s.setChan c x).drams = s.drams := rfl
@[simp] theorem setChan_hot (c : ChanIdx) (x : Channel) : (s.setChan c x).hot = s.hot := rfl
@[simp] theorem setChan_cleanSince (c : ChanIdx) (x : Channel) : (s.setChan c x).cleanSince = s.cleanSince := rfl
@[simp] theorem setChan_lagoons (c : ChanIdx) (x : Channel) : (s.setChan c x).lagoons = s.lagoons := rfl
@[simp] theorem setChan_isles (c : ChanIdx) (x : Channel) : (s.setChan c x).isles = s.isles := rfl
@[simp] theorem setChan_bstPeriod (c : ChanIdx) (x : Channel) : (s.setChan c x).bstPeriod = s.bstPeriod := rfl
@[simp] theorem setChan_bstNext (c : ChanIdx) (x : Channel) : (s.setChan c x).bstNext = s.bstNext := rfl
@[simp] theorem setChan_bstDepotFail (c : ChanIdx) (x : Channel) : (s.setChan c x).bstDepotFail = s.bstDepotFail := rfl
@[simp] theorem setChan_bstLastIsle (c : ChanIdx) (x : Channel) : (s.setChan c x).bstLastIsle = s.bstLastIsle := rfl
@[simp] theorem setChan_bstLastResult (c : ChanIdx) (x : Channel) : (s.setChan c x).bstLastResult = s.bstLastResult := rfl
@[simp] theorem setChan_bstFail (c : ChanIdx) (x : Channel) : (s.setChan c x).bstFail = s.bstFail := rfl
@[simp] theorem setChan_perst (c : ChanIdx) (x : Channel) : (s.setChan c x).perst = s.perst := rfl
@[simp] theorem setChan_pwrGood (c : ChanIdx) (x : Channel) : (s.setChan c x).pwrGood = s.pwrGood := rfl
@[simp] theorem setChan_pwrfailN (c : ChanIdx) (x : Channel) : (s.setChan c x).pwrfailN = s.pwrfailN := rfl
@[simp] theorem setChan_lasers (c : ChanIdx) (x : Channel) : (s.setChan c x).lasers = s.lasers := rfl
@[simp] theorem setChan_mon (c : ChanIdx) (x : Channel) : (s.setChan c x).mon = s.mon := rfl
@[simp] theorem setChan_out (c : ChanIdx) (x : Channel) : (s.setChan c x).out = s.out := rfl

/-! ## setDram: only `drams` changes -/

@[simp] theorem setDram_pending (d : Fin 16) (x : DramCtrl) : (s.setDram d x).pending = s.pending := rfl
@[simp] theorem setDram_now (d : Fin 16) (x : DramCtrl) : (s.setDram d x).now = s.now := rfl
@[simp] theorem setDram_sinceReset (d : Fin 16) (x : DramCtrl) : (s.setDram d x).sinceReset = s.sinceReset := rfl
@[simp] theorem setDram_free (d : Fin 16) (x : DramCtrl) : (s.setDram d x).free = s.free := rfl
@[simp] theorem setDram_nextId (d : Fin 16) (x : DramCtrl) : (s.setDram d x).nextId = s.nextId := rfl
@[simp] theorem setDram_big512 (d : Fin 16) (x : DramCtrl) : (s.setDram d x).big512 = s.big512 := rfl
@[simp] theorem setDram_power (d : Fin 16) (x : DramCtrl) : (s.setDram d x).power = s.power := rfl
@[simp] theorem setDram_boot (d : Fin 16) (x : DramCtrl) : (s.setDram d x).boot = s.boot := rfl
@[simp] theorem setDram_auth (d : Fin 16) (x : DramCtrl) : (s.setDram d x).auth = s.auth := rfl
@[simp] theorem setDram_gates (d : Fin 16) (x : DramCtrl) : (s.setDram d x).gates = s.gates := rfl
@[simp] theorem setDram_rows (d : Fin 16) (x : DramCtrl) : (s.setDram d x).rows = s.rows := rfl
@[simp] theorem setDram_ownerNo (d : Fin 16) (x : DramCtrl) : (s.setDram d x).ownerNo = s.ownerNo := rfl
@[simp] theorem setDram_rfLevel (d : Fin 16) (x : DramCtrl) : (s.setDram d x).rfLevel = s.rfLevel := rfl
@[simp] theorem setDram_rfBit (d : Fin 16) (x : DramCtrl) : (s.setDram d x).rfBit = s.rfBit := rfl
@[simp] theorem setDram_rfDue (d : Fin 16) (x : DramCtrl) : (s.setDram d x).rfDue = s.rfDue := rfl
@[simp] theorem setDram_compat (d : Fin 16) (x : DramCtrl) : (s.setDram d x).compat = s.compat := rfl
@[simp] theorem setDram_fns (d : Fin 16) (x : DramCtrl) : (s.setDram d x).fns = s.fns := rfl
@[simp] theorem setDram_fetched (d : Fin 16) (x : DramCtrl) : (s.setDram d x).fetched = s.fetched := rfl
@[simp] theorem setDram_lastServed (d : Fin 16) (x : DramCtrl) : (s.setDram d x).lastServed = s.lastServed := rfl
@[simp] theorem setDram_psets (d : Fin 16) (x : DramCtrl) : (s.setDram d x).psets = s.psets := rfl
@[simp] theorem setDram_keysets (d : Fin 16) (x : DramCtrl) : (s.setDram d x).keysets = s.keysets := rfl
@[simp] theorem setDram_images (d : Fin 16) (x : DramCtrl) : (s.setDram d x).images = s.images := rfl
@[simp] theorem setDram_jobs (d : Fin 16) (x : DramCtrl) : (s.setDram d x).jobs = s.jobs := rfl
@[simp] theorem setDram_progLoads (d : Fin 16) (x : DramCtrl) : (s.setDram d x).progLoads = s.progLoads := rfl
@[simp] theorem setDram_keyLoads (d : Fin 16) (x : DramCtrl) : (s.setDram d x).keyLoads = s.keyLoads := rfl
@[simp] theorem setDram_heldLoads (d : Fin 16) (x : DramCtrl) : (s.setDram d x).heldLoads = s.heldLoads := rfl
@[simp] theorem setDram_releases (d : Fin 16) (x : DramCtrl) : (s.setDram d x).releases = s.releases := rfl
@[simp] theorem setDram_aborts (d : Fin 16) (x : DramCtrl) : (s.setDram d x).aborts = s.aborts := rfl
@[simp] theorem setDram_occs (d : Fin 16) (x : DramCtrl) : (s.setDram d x).occs = s.occs := rfl
@[simp] theorem setDram_wipes (d : Fin 16) (x : DramCtrl) : (s.setDram d x).wipes = s.wipes := rfl
@[simp] theorem setDram_slices (d : Fin 16) (x : DramCtrl) : (s.setDram d x).slices = s.slices := rfl
@[simp] theorem setDram_depots (d : Fin 16) (x : DramCtrl) : (s.setDram d x).depots = s.depots := rfl
@[simp] theorem setDram_retires (d : Fin 16) (x : DramCtrl) : (s.setDram d x).retires = s.retires := rfl
@[simp] theorem setDram_adm (d : Fin 16) (x : DramCtrl) : (s.setDram d x).adm = s.adm := rfl
@[simp] theorem setDram_reef (d : Fin 16) (x : DramCtrl) : (s.setDram d x).reef = s.reef := rfl
@[simp] theorem setDram_evr (d : Fin 16) (x : DramCtrl) : (s.setDram d x).evr = s.evr := rfl
@[simp] theorem setDram_atl (d : Fin 16) (x : DramCtrl) : (s.setDram d x).atl = s.atl := rfl
@[simp] theorem setDram_devid (d : Fin 16) (x : DramCtrl) : (s.setDram d x).devid = s.devid := rfl
@[simp] theorem setDram_winSel (d : Fin 16) (x : DramCtrl) : (s.setDram d x).winSel = s.winSel := rfl
@[simp] theorem setDram_digPort (d : Fin 16) (x : DramCtrl) : (s.setDram d x).digPort = s.digPort := rfl
@[simp] theorem setDram_digSlot (d : Fin 16) (x : DramCtrl) : (s.setDram d x).digSlot = s.digSlot := rfl
@[simp] theorem setDram_digAge (d : Fin 16) (x : DramCtrl) : (s.setDram d x).digAge = s.digAge := rfl
@[simp] theorem setDram_ports (d : Fin 16) (x : DramCtrl) : (s.setDram d x).ports = s.ports := rfl
@[simp] theorem setDram_chans (d : Fin 16) (x : DramCtrl) : (s.setDram d x).chans = s.chans := rfl
@[simp] theorem setDram_hot (d : Fin 16) (x : DramCtrl) : (s.setDram d x).hot = s.hot := rfl
@[simp] theorem setDram_cleanSince (d : Fin 16) (x : DramCtrl) : (s.setDram d x).cleanSince = s.cleanSince := rfl
@[simp] theorem setDram_lagoons (d : Fin 16) (x : DramCtrl) : (s.setDram d x).lagoons = s.lagoons := rfl
@[simp] theorem setDram_isles (d : Fin 16) (x : DramCtrl) : (s.setDram d x).isles = s.isles := rfl
@[simp] theorem setDram_bstPeriod (d : Fin 16) (x : DramCtrl) : (s.setDram d x).bstPeriod = s.bstPeriod := rfl
@[simp] theorem setDram_bstNext (d : Fin 16) (x : DramCtrl) : (s.setDram d x).bstNext = s.bstNext := rfl
@[simp] theorem setDram_bstDepotFail (d : Fin 16) (x : DramCtrl) : (s.setDram d x).bstDepotFail = s.bstDepotFail := rfl
@[simp] theorem setDram_bstLastIsle (d : Fin 16) (x : DramCtrl) : (s.setDram d x).bstLastIsle = s.bstLastIsle := rfl
@[simp] theorem setDram_bstLastResult (d : Fin 16) (x : DramCtrl) : (s.setDram d x).bstLastResult = s.bstLastResult := rfl
@[simp] theorem setDram_bstFail (d : Fin 16) (x : DramCtrl) : (s.setDram d x).bstFail = s.bstFail := rfl
@[simp] theorem setDram_perst (d : Fin 16) (x : DramCtrl) : (s.setDram d x).perst = s.perst := rfl
@[simp] theorem setDram_pwrGood (d : Fin 16) (x : DramCtrl) : (s.setDram d x).pwrGood = s.pwrGood := rfl
@[simp] theorem setDram_pwrfailN (d : Fin 16) (x : DramCtrl) : (s.setDram d x).pwrfailN = s.pwrfailN := rfl
@[simp] theorem setDram_lasers (d : Fin 16) (x : DramCtrl) : (s.setDram d x).lasers = s.lasers := rfl
@[simp] theorem setDram_mon (d : Fin 16) (x : DramCtrl) : (s.setDram d x).mon = s.mon := rfl
@[simp] theorem setDram_out (d : Fin 16) (x : DramCtrl) : (s.setDram d x).out = s.out := rfl

/-! ## setLagoon: only `lagoons` changes -/

@[simp] theorem setLagoon_pending (l : SliceIdx) (x : Lagoon) : (s.setLagoon l x).pending = s.pending := rfl
@[simp] theorem setLagoon_now (l : SliceIdx) (x : Lagoon) : (s.setLagoon l x).now = s.now := rfl
@[simp] theorem setLagoon_sinceReset (l : SliceIdx) (x : Lagoon) : (s.setLagoon l x).sinceReset = s.sinceReset := rfl
@[simp] theorem setLagoon_free (l : SliceIdx) (x : Lagoon) : (s.setLagoon l x).free = s.free := rfl
@[simp] theorem setLagoon_nextId (l : SliceIdx) (x : Lagoon) : (s.setLagoon l x).nextId = s.nextId := rfl
@[simp] theorem setLagoon_big512 (l : SliceIdx) (x : Lagoon) : (s.setLagoon l x).big512 = s.big512 := rfl
@[simp] theorem setLagoon_power (l : SliceIdx) (x : Lagoon) : (s.setLagoon l x).power = s.power := rfl
@[simp] theorem setLagoon_boot (l : SliceIdx) (x : Lagoon) : (s.setLagoon l x).boot = s.boot := rfl
@[simp] theorem setLagoon_auth (l : SliceIdx) (x : Lagoon) : (s.setLagoon l x).auth = s.auth := rfl
@[simp] theorem setLagoon_gates (l : SliceIdx) (x : Lagoon) : (s.setLagoon l x).gates = s.gates := rfl
@[simp] theorem setLagoon_rows (l : SliceIdx) (x : Lagoon) : (s.setLagoon l x).rows = s.rows := rfl
@[simp] theorem setLagoon_ownerNo (l : SliceIdx) (x : Lagoon) : (s.setLagoon l x).ownerNo = s.ownerNo := rfl
@[simp] theorem setLagoon_rfLevel (l : SliceIdx) (x : Lagoon) : (s.setLagoon l x).rfLevel = s.rfLevel := rfl
@[simp] theorem setLagoon_rfBit (l : SliceIdx) (x : Lagoon) : (s.setLagoon l x).rfBit = s.rfBit := rfl
@[simp] theorem setLagoon_rfDue (l : SliceIdx) (x : Lagoon) : (s.setLagoon l x).rfDue = s.rfDue := rfl
@[simp] theorem setLagoon_compat (l : SliceIdx) (x : Lagoon) : (s.setLagoon l x).compat = s.compat := rfl
@[simp] theorem setLagoon_fns (l : SliceIdx) (x : Lagoon) : (s.setLagoon l x).fns = s.fns := rfl
@[simp] theorem setLagoon_fetched (l : SliceIdx) (x : Lagoon) : (s.setLagoon l x).fetched = s.fetched := rfl
@[simp] theorem setLagoon_lastServed (l : SliceIdx) (x : Lagoon) : (s.setLagoon l x).lastServed = s.lastServed := rfl
@[simp] theorem setLagoon_psets (l : SliceIdx) (x : Lagoon) : (s.setLagoon l x).psets = s.psets := rfl
@[simp] theorem setLagoon_keysets (l : SliceIdx) (x : Lagoon) : (s.setLagoon l x).keysets = s.keysets := rfl
@[simp] theorem setLagoon_images (l : SliceIdx) (x : Lagoon) : (s.setLagoon l x).images = s.images := rfl
@[simp] theorem setLagoon_jobs (l : SliceIdx) (x : Lagoon) : (s.setLagoon l x).jobs = s.jobs := rfl
@[simp] theorem setLagoon_progLoads (l : SliceIdx) (x : Lagoon) : (s.setLagoon l x).progLoads = s.progLoads := rfl
@[simp] theorem setLagoon_keyLoads (l : SliceIdx) (x : Lagoon) : (s.setLagoon l x).keyLoads = s.keyLoads := rfl
@[simp] theorem setLagoon_heldLoads (l : SliceIdx) (x : Lagoon) : (s.setLagoon l x).heldLoads = s.heldLoads := rfl
@[simp] theorem setLagoon_releases (l : SliceIdx) (x : Lagoon) : (s.setLagoon l x).releases = s.releases := rfl
@[simp] theorem setLagoon_aborts (l : SliceIdx) (x : Lagoon) : (s.setLagoon l x).aborts = s.aborts := rfl
@[simp] theorem setLagoon_occs (l : SliceIdx) (x : Lagoon) : (s.setLagoon l x).occs = s.occs := rfl
@[simp] theorem setLagoon_wipes (l : SliceIdx) (x : Lagoon) : (s.setLagoon l x).wipes = s.wipes := rfl
@[simp] theorem setLagoon_slices (l : SliceIdx) (x : Lagoon) : (s.setLagoon l x).slices = s.slices := rfl
@[simp] theorem setLagoon_depots (l : SliceIdx) (x : Lagoon) : (s.setLagoon l x).depots = s.depots := rfl
@[simp] theorem setLagoon_retires (l : SliceIdx) (x : Lagoon) : (s.setLagoon l x).retires = s.retires := rfl
@[simp] theorem setLagoon_adm (l : SliceIdx) (x : Lagoon) : (s.setLagoon l x).adm = s.adm := rfl
@[simp] theorem setLagoon_reef (l : SliceIdx) (x : Lagoon) : (s.setLagoon l x).reef = s.reef := rfl
@[simp] theorem setLagoon_evr (l : SliceIdx) (x : Lagoon) : (s.setLagoon l x).evr = s.evr := rfl
@[simp] theorem setLagoon_atl (l : SliceIdx) (x : Lagoon) : (s.setLagoon l x).atl = s.atl := rfl
@[simp] theorem setLagoon_devid (l : SliceIdx) (x : Lagoon) : (s.setLagoon l x).devid = s.devid := rfl
@[simp] theorem setLagoon_winSel (l : SliceIdx) (x : Lagoon) : (s.setLagoon l x).winSel = s.winSel := rfl
@[simp] theorem setLagoon_digPort (l : SliceIdx) (x : Lagoon) : (s.setLagoon l x).digPort = s.digPort := rfl
@[simp] theorem setLagoon_digSlot (l : SliceIdx) (x : Lagoon) : (s.setLagoon l x).digSlot = s.digSlot := rfl
@[simp] theorem setLagoon_digAge (l : SliceIdx) (x : Lagoon) : (s.setLagoon l x).digAge = s.digAge := rfl
@[simp] theorem setLagoon_ports (l : SliceIdx) (x : Lagoon) : (s.setLagoon l x).ports = s.ports := rfl
@[simp] theorem setLagoon_chans (l : SliceIdx) (x : Lagoon) : (s.setLagoon l x).chans = s.chans := rfl
@[simp] theorem setLagoon_drams (l : SliceIdx) (x : Lagoon) : (s.setLagoon l x).drams = s.drams := rfl
@[simp] theorem setLagoon_hot (l : SliceIdx) (x : Lagoon) : (s.setLagoon l x).hot = s.hot := rfl
@[simp] theorem setLagoon_cleanSince (l : SliceIdx) (x : Lagoon) : (s.setLagoon l x).cleanSince = s.cleanSince := rfl
@[simp] theorem setLagoon_isles (l : SliceIdx) (x : Lagoon) : (s.setLagoon l x).isles = s.isles := rfl
@[simp] theorem setLagoon_bstPeriod (l : SliceIdx) (x : Lagoon) : (s.setLagoon l x).bstPeriod = s.bstPeriod := rfl
@[simp] theorem setLagoon_bstNext (l : SliceIdx) (x : Lagoon) : (s.setLagoon l x).bstNext = s.bstNext := rfl
@[simp] theorem setLagoon_bstDepotFail (l : SliceIdx) (x : Lagoon) : (s.setLagoon l x).bstDepotFail = s.bstDepotFail := rfl
@[simp] theorem setLagoon_bstLastIsle (l : SliceIdx) (x : Lagoon) : (s.setLagoon l x).bstLastIsle = s.bstLastIsle := rfl
@[simp] theorem setLagoon_bstLastResult (l : SliceIdx) (x : Lagoon) : (s.setLagoon l x).bstLastResult = s.bstLastResult := rfl
@[simp] theorem setLagoon_bstFail (l : SliceIdx) (x : Lagoon) : (s.setLagoon l x).bstFail = s.bstFail := rfl
@[simp] theorem setLagoon_perst (l : SliceIdx) (x : Lagoon) : (s.setLagoon l x).perst = s.perst := rfl
@[simp] theorem setLagoon_pwrGood (l : SliceIdx) (x : Lagoon) : (s.setLagoon l x).pwrGood = s.pwrGood := rfl
@[simp] theorem setLagoon_pwrfailN (l : SliceIdx) (x : Lagoon) : (s.setLagoon l x).pwrfailN = s.pwrfailN := rfl
@[simp] theorem setLagoon_lasers (l : SliceIdx) (x : Lagoon) : (s.setLagoon l x).lasers = s.lasers := rfl
@[simp] theorem setLagoon_mon (l : SliceIdx) (x : Lagoon) : (s.setLagoon l x).mon = s.mon := rfl
@[simp] theorem setLagoon_out (l : SliceIdx) (x : Lagoon) : (s.setLagoon l x).out = s.out := rfl

/-! ## emit: only `out` changes -/

@[simp] theorem emit_pending (o : Out) : (s.emit o).pending = s.pending := rfl
@[simp] theorem emit_now (o : Out) : (s.emit o).now = s.now := rfl
@[simp] theorem emit_sinceReset (o : Out) : (s.emit o).sinceReset = s.sinceReset := rfl
@[simp] theorem emit_free (o : Out) : (s.emit o).free = s.free := rfl
@[simp] theorem emit_nextId (o : Out) : (s.emit o).nextId = s.nextId := rfl
@[simp] theorem emit_big512 (o : Out) : (s.emit o).big512 = s.big512 := rfl
@[simp] theorem emit_power (o : Out) : (s.emit o).power = s.power := rfl
@[simp] theorem emit_boot (o : Out) : (s.emit o).boot = s.boot := rfl
@[simp] theorem emit_auth (o : Out) : (s.emit o).auth = s.auth := rfl
@[simp] theorem emit_gates (o : Out) : (s.emit o).gates = s.gates := rfl
@[simp] theorem emit_rows (o : Out) : (s.emit o).rows = s.rows := rfl
@[simp] theorem emit_ownerNo (o : Out) : (s.emit o).ownerNo = s.ownerNo := rfl
@[simp] theorem emit_rfLevel (o : Out) : (s.emit o).rfLevel = s.rfLevel := rfl
@[simp] theorem emit_rfBit (o : Out) : (s.emit o).rfBit = s.rfBit := rfl
@[simp] theorem emit_rfDue (o : Out) : (s.emit o).rfDue = s.rfDue := rfl
@[simp] theorem emit_compat (o : Out) : (s.emit o).compat = s.compat := rfl
@[simp] theorem emit_fns (o : Out) : (s.emit o).fns = s.fns := rfl
@[simp] theorem emit_fetched (o : Out) : (s.emit o).fetched = s.fetched := rfl
@[simp] theorem emit_lastServed (o : Out) : (s.emit o).lastServed = s.lastServed := rfl
@[simp] theorem emit_psets (o : Out) : (s.emit o).psets = s.psets := rfl
@[simp] theorem emit_keysets (o : Out) : (s.emit o).keysets = s.keysets := rfl
@[simp] theorem emit_images (o : Out) : (s.emit o).images = s.images := rfl
@[simp] theorem emit_jobs (o : Out) : (s.emit o).jobs = s.jobs := rfl
@[simp] theorem emit_progLoads (o : Out) : (s.emit o).progLoads = s.progLoads := rfl
@[simp] theorem emit_keyLoads (o : Out) : (s.emit o).keyLoads = s.keyLoads := rfl
@[simp] theorem emit_heldLoads (o : Out) : (s.emit o).heldLoads = s.heldLoads := rfl
@[simp] theorem emit_releases (o : Out) : (s.emit o).releases = s.releases := rfl
@[simp] theorem emit_aborts (o : Out) : (s.emit o).aborts = s.aborts := rfl
@[simp] theorem emit_occs (o : Out) : (s.emit o).occs = s.occs := rfl
@[simp] theorem emit_wipes (o : Out) : (s.emit o).wipes = s.wipes := rfl
@[simp] theorem emit_slices (o : Out) : (s.emit o).slices = s.slices := rfl
@[simp] theorem emit_depots (o : Out) : (s.emit o).depots = s.depots := rfl
@[simp] theorem emit_retires (o : Out) : (s.emit o).retires = s.retires := rfl
@[simp] theorem emit_adm (o : Out) : (s.emit o).adm = s.adm := rfl
@[simp] theorem emit_reef (o : Out) : (s.emit o).reef = s.reef := rfl
@[simp] theorem emit_evr (o : Out) : (s.emit o).evr = s.evr := rfl
@[simp] theorem emit_atl (o : Out) : (s.emit o).atl = s.atl := rfl
@[simp] theorem emit_devid (o : Out) : (s.emit o).devid = s.devid := rfl
@[simp] theorem emit_winSel (o : Out) : (s.emit o).winSel = s.winSel := rfl
@[simp] theorem emit_digPort (o : Out) : (s.emit o).digPort = s.digPort := rfl
@[simp] theorem emit_digSlot (o : Out) : (s.emit o).digSlot = s.digSlot := rfl
@[simp] theorem emit_digAge (o : Out) : (s.emit o).digAge = s.digAge := rfl
@[simp] theorem emit_ports (o : Out) : (s.emit o).ports = s.ports := rfl
@[simp] theorem emit_chans (o : Out) : (s.emit o).chans = s.chans := rfl
@[simp] theorem emit_drams (o : Out) : (s.emit o).drams = s.drams := rfl
@[simp] theorem emit_hot (o : Out) : (s.emit o).hot = s.hot := rfl
@[simp] theorem emit_cleanSince (o : Out) : (s.emit o).cleanSince = s.cleanSince := rfl
@[simp] theorem emit_lagoons (o : Out) : (s.emit o).lagoons = s.lagoons := rfl
@[simp] theorem emit_isles (o : Out) : (s.emit o).isles = s.isles := rfl
@[simp] theorem emit_bstPeriod (o : Out) : (s.emit o).bstPeriod = s.bstPeriod := rfl
@[simp] theorem emit_bstNext (o : Out) : (s.emit o).bstNext = s.bstNext := rfl
@[simp] theorem emit_bstDepotFail (o : Out) : (s.emit o).bstDepotFail = s.bstDepotFail := rfl
@[simp] theorem emit_bstLastIsle (o : Out) : (s.emit o).bstLastIsle = s.bstLastIsle := rfl
@[simp] theorem emit_bstLastResult (o : Out) : (s.emit o).bstLastResult = s.bstLastResult := rfl
@[simp] theorem emit_bstFail (o : Out) : (s.emit o).bstFail = s.bstFail := rfl
@[simp] theorem emit_perst (o : Out) : (s.emit o).perst = s.perst := rfl
@[simp] theorem emit_pwrGood (o : Out) : (s.emit o).pwrGood = s.pwrGood := rfl
@[simp] theorem emit_pwrfailN (o : Out) : (s.emit o).pwrfailN = s.pwrfailN := rfl
@[simp] theorem emit_lasers (o : Out) : (s.emit o).lasers = s.lasers := rfl
@[simp] theorem emit_mon (o : Out) : (s.emit o).mon = s.mon := rfl

/-! ## Vectors -/

@[simp] theorem vset_get_self {α : Type} {n : Nat} (v : Vector α n) (i : Fin n) (x : α) : (vset v i x)[i] = x := by
  simp [vset]

theorem vset_get_ne {α : Type} {n : Nat} (v : Vector α n) (i k : Fin n) (x : α) (h : k ≠ i) : (vset v i x)[k] = v[k] := by
  simp only [vset, Fin.getElem_fin]
  exact Vector.getElem_set_ne _ _ (fun e => h (Fin.ext e.symm))

theorem vmodAll_get {α : Type} {n : Nat} (v : Vector α n) (p : Fin n → Bool) (f : Fin n → α → α) (i : Fin n) :
    (vmodAll v p f)[i] = if p i then f i v[i] else v[i] := by
  simp [vmodAll]

/-! ## The stored element, and the others -/

@[simp] theorem isle_setIsle (i : IsleIdx) (x : Isle) : (s.setIsle i x).isle i = x := vset_get_self _ i x
theorem isle_setIsle_ne (i k : IsleIdx) (x : Isle) (h : k ≠ i) : (s.setIsle i x).isle k = s.isle k := vset_get_ne _ i k x h
@[simp] theorem fnOf_setFn (i : Fn) (x : FnState) : (s.setFn i x).fnOf i = x := vset_get_self _ i x
theorem fnOf_setFn_ne (i k : Fn) (x : FnState) (h : k ≠ i) : (s.setFn i x).fnOf k = s.fnOf k := vset_get_ne _ i k x h
@[simp] theorem port_setPort (i : RowIdx) (x : Port) : (s.setPort i x).port i = x := vset_get_self _ i x
theorem port_setPort_ne (i k : RowIdx) (x : Port) (h : k ≠ i) : (s.setPort i x).port k = s.port k := vset_get_ne _ i k x h
@[simp] theorem chan_setChan (i : ChanIdx) (x : Channel) : (s.setChan i x).chan i = x := vset_get_self _ i x
theorem chan_setChan_ne (i k : ChanIdx) (x : Channel) (h : k ≠ i) : (s.setChan i x).chan k = s.chan k := vset_get_ne _ i k x h
@[simp] theorem dram_setDram (i : Fin 16) (x : DramCtrl) : (s.setDram i x).dram i = x := vset_get_self _ i x
theorem dram_setDram_ne (i k : Fin 16) (x : DramCtrl) (h : k ≠ i) : (s.setDram i x).dram k = s.dram k := vset_get_ne _ i k x h
@[simp] theorem lagoon_setLagoon (i : SliceIdx) (x : Lagoon) : (s.setLagoon i x).lagoon i = x := vset_get_self _ i x
theorem lagoon_setLagoon_ne (i k : SliceIdx) (x : Lagoon) (h : k ≠ i) : (s.setLagoon i x).lagoon k = s.lagoon k := vset_get_ne _ i k x h

/-! ## Elements of the vectors that an update does not touch -/

@[simp] theorem fnOf_setIsle (k : Fn) (i : IsleIdx) (x : Isle) : (s.setIsle i x).fnOf k = s.fnOf k := rfl
@[simp] theorem port_setIsle (k : RowIdx) (i : IsleIdx) (x : Isle) : (s.setIsle i x).port k = s.port k := rfl
@[simp] theorem chan_setIsle (k : ChanIdx) (i : IsleIdx) (x : Isle) : (s.setIsle i x).chan k = s.chan k := rfl
@[simp] theorem dram_setIsle (k : Fin 16) (i : IsleIdx) (x : Isle) : (s.setIsle i x).dram k = s.dram k := rfl
@[simp] theorem lagoon_setIsle (k : SliceIdx) (i : IsleIdx) (x : Isle) : (s.setIsle i x).lagoon k = s.lagoon k := rfl
@[simp] theorem isle_setFn (k : IsleIdx) (f : Fn) (x : FnState) : (s.setFn f x).isle k = s.isle k := rfl
@[simp] theorem port_setFn (k : RowIdx) (f : Fn) (x : FnState) : (s.setFn f x).port k = s.port k := rfl
@[simp] theorem chan_setFn (k : ChanIdx) (f : Fn) (x : FnState) : (s.setFn f x).chan k = s.chan k := rfl
@[simp] theorem dram_setFn (k : Fin 16) (f : Fn) (x : FnState) : (s.setFn f x).dram k = s.dram k := rfl
@[simp] theorem lagoon_setFn (k : SliceIdx) (f : Fn) (x : FnState) : (s.setFn f x).lagoon k = s.lagoon k := rfl
@[simp] theorem isle_setQueue (k : IsleIdx) (f : Fn) (q : Fin 8) (x : Queue) : (s.setQueue f q x).isle k = s.isle k := rfl
@[simp] theorem port_setQueue (k : RowIdx) (f : Fn) (q : Fin 8) (x : Queue) : (s.setQueue f q x).port k = s.port k := rfl
@[simp] theorem chan_setQueue (k : ChanIdx) (f : Fn) (q : Fin 8) (x : Queue) : (s.setQueue f q x).chan k = s.chan k := rfl
@[simp] theorem dram_setQueue (k : Fin 16) (f : Fn) (q : Fin 8) (x : Queue) : (s.setQueue f q x).dram k = s.dram k := rfl
@[simp] theorem lagoon_setQueue (k : SliceIdx) (f : Fn) (q : Fin 8) (x : Queue) : (s.setQueue f q x).lagoon k = s.lagoon k := rfl
@[simp] theorem isle_setPort (k : IsleIdx) (y : RowIdx) (x : Port) : (s.setPort y x).isle k = s.isle k := rfl
@[simp] theorem fnOf_setPort (k : Fn) (y : RowIdx) (x : Port) : (s.setPort y x).fnOf k = s.fnOf k := rfl
@[simp] theorem chan_setPort (k : ChanIdx) (y : RowIdx) (x : Port) : (s.setPort y x).chan k = s.chan k := rfl
@[simp] theorem dram_setPort (k : Fin 16) (y : RowIdx) (x : Port) : (s.setPort y x).dram k = s.dram k := rfl
@[simp] theorem lagoon_setPort (k : SliceIdx) (y : RowIdx) (x : Port) : (s.setPort y x).lagoon k = s.lagoon k := rfl
@[simp] theorem isle_setChan (k : IsleIdx) (c : ChanIdx) (x : Channel) : (s.setChan c x).isle k = s.isle k := rfl
@[simp] theorem fnOf_setChan (k : Fn) (c : ChanIdx) (x : Channel) : (s.setChan c x).fnOf k = s.fnOf k := rfl
@[simp] theorem port_setChan (k : RowIdx) (c : ChanIdx) (x : Channel) : (s.setChan c x).port k = s.port k := rfl
@[simp] theorem dram_setChan (k : Fin 16) (c : ChanIdx) (x : Channel) : (s.setChan c x).dram k = s.dram k := rfl
@[simp] theorem lagoon_setChan (k : SliceIdx) (c : ChanIdx) (x : Channel) : (s.setChan c x).lagoon k = s.lagoon k := rfl
@[simp] theorem isle_setDram (k : IsleIdx) (d : Fin 16) (x : DramCtrl) : (s.setDram d x).isle k = s.isle k := rfl
@[simp] theorem fnOf_setDram (k : Fn) (d : Fin 16) (x : DramCtrl) : (s.setDram d x).fnOf k = s.fnOf k := rfl
@[simp] theorem port_setDram (k : RowIdx) (d : Fin 16) (x : DramCtrl) : (s.setDram d x).port k = s.port k := rfl
@[simp] theorem chan_setDram (k : ChanIdx) (d : Fin 16) (x : DramCtrl) : (s.setDram d x).chan k = s.chan k := rfl
@[simp] theorem lagoon_setDram (k : SliceIdx) (d : Fin 16) (x : DramCtrl) : (s.setDram d x).lagoon k = s.lagoon k := rfl
@[simp] theorem isle_setLagoon (k : IsleIdx) (l : SliceIdx) (x : Lagoon) : (s.setLagoon l x).isle k = s.isle k := rfl
@[simp] theorem fnOf_setLagoon (k : Fn) (l : SliceIdx) (x : Lagoon) : (s.setLagoon l x).fnOf k = s.fnOf k := rfl
@[simp] theorem port_setLagoon (k : RowIdx) (l : SliceIdx) (x : Lagoon) : (s.setLagoon l x).port k = s.port k := rfl
@[simp] theorem chan_setLagoon (k : ChanIdx) (l : SliceIdx) (x : Lagoon) : (s.setLagoon l x).chan k = s.chan k := rfl
@[simp] theorem dram_setLagoon (k : Fin 16) (l : SliceIdx) (x : Lagoon) : (s.setLagoon l x).dram k = s.dram k := rfl
@[simp] theorem isle_emit (k : IsleIdx) (o : Out) : (s.emit o).isle k = s.isle k := rfl
@[simp] theorem fnOf_emit (k : Fn) (o : Out) : (s.emit o).fnOf k = s.fnOf k := rfl
@[simp] theorem port_emit (k : RowIdx) (o : Out) : (s.emit o).port k = s.port k := rfl
@[simp] theorem chan_emit (k : ChanIdx) (o : Out) : (s.emit o).chan k = s.chan k := rfl
@[simp] theorem dram_emit (k : Fin 16) (o : Out) : (s.emit o).dram k = s.dram k := rfl
@[simp] theorem lagoon_emit (k : SliceIdx) (o : Out) : (s.emit o).lagoon k = s.lagoon k := rfl

/-! ## Queues and result slots -/

theorem fnOf_setQueue_self (f : Fn) (q : Fin 8) (x : Queue) :
    (s.setQueue f q x).fnOf f = { s.fnOf f with queues := vset (s.fnOf f).queues q x } := fnOf_setFn _ _ _

theorem fnOf_setQueue_ne (f g : Fn) (q : Fin 8) (x : Queue) (h : g ≠ f) : (s.setQueue f q x).fnOf g = s.fnOf g :=
  fnOf_setFn_ne _ _ _ _ h

@[simp] theorem queue_setQueue (f : Fn) (q : Fin 8) (x : Queue) : (s.setQueue f q x).queue f q = x :=
  (congrArg (fun y : FnState => y.queues[q]) (fnOf_setQueue_self s f q x)).trans (vset_get_self _ q x)

theorem queue_setQueue_ne (f : Fn) (q r : Fin 8) (x : Queue) (h : r ≠ q) : (s.setQueue f q x).queue f r = s.queue f r :=
  (congrArg (fun y : FnState => y.queues[r]) (fnOf_setQueue_self s f q x)).trans (vset_get_ne _ q r x h)

theorem queue_setQueue_fn (f g : Fn) (q r : Fin 8) (x : Queue) (h : g ≠ f) : (s.setQueue f q x).queue g r = s.queue g r :=
  congrArg (fun y : FnState => y.queues[r]) (fnOf_setQueue_ne s f g q x h)

@[simp] theorem slotOf_setSlot (f : Fn) (k : Fin 64) (x : ResultSlot) : (s.setSlot f k x).slotOf f k = x :=
  (congrArg (fun y : FnState => y.slots[k])
    (fnOf_setFn s f { s.fnOf f with slots := vset (s.fnOf f).slots k x })).trans (vset_get_self _ k x)

theorem modQueue_eq (f : Fn) (q : Fin 8) (g : Queue → Queue) : s.modQueue f q g = s.setQueue f q (g (s.queue f q)) := rfl

end Sys2Proof.Machine
end

