-- ==== Sys2Proof/Laws/Gating.lean ====
section
/-! SUPPORT. What ungating and gating do to each domain, and what the gating of a cycle leaves unchanged. -/

namespace Sys2Proof.Machine

/-! ## One domain (R26) -/

/-- A request changes nothing before its cycle has come. -/
@[simp] theorem want_on (g : Gate) (now : Nat) (b : Bool) : (g.want now b).on = g.on := by
  unfold Gate.want; split <;> simp

/-- Ungating takes effect within 4 management cycles and gating within 2, and then holds. -/
theorem want_due (g : Gate) (now t : Nat) (b : Bool) (h : now + (if b then 4 else 2) ≤ t) : ((g.want now b).due t).on = b := by
  unfold Gate.want
  split
  · rename_i e; simpa [Gate.due] using e
  · rename_i e
    have hn : (!g.on) = b := by cases hg : g.on <;> cases b <;> simp_all
    have hle : g.change.elim (now + (if b then 4 else 2)) (fun t => min t (now + (if b then 4 else 2))) ≤ t := by
      cases g.change with
      | none => exact h
      | some x => exact Nat.le_trans (Nat.min_le_right _ _) h
    simp only [Gate.due, hle, if_true]
    exact hn

/-- A domain without a pending change keeps its state. -/
@[simp] theorem due_still (b : Bool) (t : Nat) : Gate.due { on := b, change := none } t = { on := b, change := none } := rfl

/-! ## The domains of a run (R25, R26) -/

theorem ungate_cores (g : Gates) (now : Nat) (rows : BitVec 8) (i : IsleIdx) :
    (g.ungate now rows).cores[i] = if isleIn rows i then g.cores[i].want now true else g.cores[i] := vmodAll_get _ _ _ i
theorem ungate_stores (g : Gates) (now : Nat) (rows : BitVec 8) (i : IsleIdx) :
    (g.ungate now rows).stores[i] = if isleIn rows i then g.stores[i].want now true else g.stores[i] := vmodAll_get _ _ _ i
theorem ungate_movers (g : Gates) (now : Nat) (rows : BitVec 8) (i : IsleIdx) :
    (g.ungate now rows).movers[i] = if isleIn rows i then g.movers[i].want now true else g.movers[i] := vmodAll_get _ _ _ i
theorem ungate_slices (g : Gates) (now : Nat) (rows : BitVec 8) (l : SliceIdx) :
    (g.ungate now rows).slices[l] = if inRows rows (SliceIdx.row l) then g.slices[l].want now true else g.slices[l] :=
  vmodAll_get _ _ _ l
theorem ungate_ports (g : Gates) (now : Nat) (rows : BitVec 8) (y : RowIdx) :
    (g.ungate now rows).ports[y] = if inRows rows y then g.ports[y].want now true else g.ports[y] := vmodAll_get _ _ _ y
theorem ungate_drams (g : Gates) (now : Nat) (rows : BitVec 8) (p : Fin 16) :
    (g.ungate now rows).drams[p] = if inRows rows (dramRow p) then g.drams[p].want now true else g.drams[p] := vmodAll_get _ _ _ p

@[simp] theorem ungate_host (g : Gates) (now : Nat) (rows : BitVec 8) : (g.ungate now rows).host = g.host := by
  simp only [Gates.ungate, Gates.onRun]
@[simp] theorem ungate_holms (g : Gates) (now : Nat) (rows : BitVec 8) : (g.ungate now rows).holms = g.holms := by
  simp only [Gates.ungate, Gates.onRun]
@[simp] theorem ungate_stepOwed (g : Gates) (now : Nat) (rows : BitVec 8) : (g.ungate now rows).stepOwed = g.stepOwed := by
  simp only [Gates.ungate, Gates.onRun]
@[simp] theorem ungate_haltOwed (g : Gates) (now : Nat) (rows : BitVec 8) : (g.ungate now rows).haltOwed = g.haltOwed := by
  simp only [Gates.ungate, Gates.onRun]
@[simp] theorem ungate_resumeAt (g : Gates) (now : Nat) (rows : BitVec 8) : (g.ungate now rows).resumeAt = g.resumeAt := by
  simp only [Gates.ungate, Gates.onRun]

/-- The Isle of a self-test slice has its three clocks as the slice starts, and no other Isle changes. -/
theorem ungateIsle_isleOn (g : Gates) (i k : IsleIdx) : (g.ungateIsle i).isleOn k = (k == i || g.isleOn k) := by
  have a (v : Vector Gate 64) : (vmodAll v (fun k => k == i) (fun _ _ => ({ on := true, change := none } : Gate)))[k].on =
      (k == i || v[k].on) := by
    rw [vmodAll_get]; cases k == i <;> rfl
  simp only [Gates.ungateIsle, Gates.onRun, Gates.isleOn, a]
  cases k == i <;> rfl

/-! ## A cycle of gating -/

/-- In STANDBY every Isle but those in a self-test slice is to be gated (R450). -/
theorem standbyGates_cores (s : State) (i : IsleIdx) (h : s.slices.any (fun x => x.begun && x.isle == i) = false) :
    s.standbyGates.cores[i] = s.gates.cores[i].want s.now false := by
  have e : s.standbyGates.cores[i] = if !s.slices.any (fun x => x.begun && x.isle == i) then s.gates.cores[i].want s.now false
      else s.gates.cores[i] := vmodAll_get _ _ _ i
  rw [e, h]; rfl

/-- With no halt and no step owed, a cycle of gating changes the gates alone. -/
theorem gateCycle_eq (s : State) (hs : s.gates.stepOwed = []) (hh : s.gates.haltOwed = []) :
    s.gateCycle = { s with gates := s.gateCycle.gates } := by
  have hs' : (s.gates.settle s.now).stepOwed = [] := by simp only [Gates.settle, Gates.onRun, hs]
  have hh' : (s.gates.settle s.now).haltOwed = [] := by simp only [Gates.settle, Gates.onRun, hh]
  by_cases h : State.standby { s with gates := s.gates.settle s.now } = true <;>
    simp [State.gateCycle, h, State.standbyGates, Gates.onRun, hs', hh']

end Sys2Proof.Machine
end

