-- ==== Sys2Proof/Laws/Isle.lean ====
section
/-! SUPPORT. One Isle: what the engines leave alone, when nothing more moves, and what the issue of one instruction does in a
calm state. -/

namespace Sys2Proof.Machine

/-! ## What no engine touches: the queues, the mover, and the Skerry but for its scalar registers -/

/-- The parts of an Isle that only the Skerry, the token changes, the mover and the clock write. -/
def Isle.control (is : Isle) :
    List QEntry × List QEntry × List QEntry × List QEntry × Mover × List Slot × Units × Skerry :=
  (is.mq, is.vq, is.dq, is.bq, is.mov, is.sto.slots, is.un, { is.sk with s := Vector.replicate 32 0 })

@[simp] theorem setReg_control (is : Isle) (r : Fin 32) (v : Word) : (is.setReg r v).control = is.control := by
  simp only [Isle.setReg]
  split <;> rfl

@[simp] theorem setV_control (is : Isle) (r : Fin 32) (v : BitVec 2048) : (is.setV r v).control = is.control := rfl
@[simp] theorem veFlags_control (is : Isle) (f : FlagSet) : (is.veFlags f).control = is.control := rfl
@[simp] theorem meFlags_control (is : Isle) (f : FlagSet) : (is.meFlags f).control = is.control := rfl
@[simp] theorem bsFlags_control (is : Isle) (f : FlagSet) : (is.bsFlags f).control = is.control := rfl
@[simp] theorem storeWrite_control (is : Isle) (a : Nat) (l : List Byte) : (is.storeWrite a l).control = is.control := rfl
@[simp] theorem tileWrite_control (is : Isle) (a : Nat) (l : List Byte) : (is.tileWrite a l).control = is.control := rfl
@[simp] theorem wswap_control (is : Isle) : is.wswap.control = is.control := rfl
@[simp] theorem bankConflict_control (i : IsleIdx) (is : Isle) : (is.bankConflict i).1.control = is.control := rfl

/-- The port writes of one Isle cycle. -/
@[simp] theorem storeWrites_control (is : Isle) (l : List (Nat × List Byte)) : (is.storeWrites l).control = is.control := by
  have h : ∀ (l : List (Nat × List Byte)) (is : Isle),
      (l.foldl (fun s p => s.storeWrite p.1 p.2) is).control = is.control := by
    intro l
    induction l with
    | nil => intro is; rfl
    | cons a t ih => intro is; rw [List.foldl_cons, ih, storeWrite_control]
  exact h _ is

/-- What lands, other than the token changes of an instruction's end. -/
theorem landOp_control (is : Isle) (op : LandOp) (g : FlagSet) (h : ∀ y, op ≠ .sync y) : (is.landOp op g).control = is.control := by
  cases op with
  | sync y => exact absurd rfl (h y)
  | vreg r v => rfl
  | primes v => rfl
  | sreg r v => exact (veFlags_control _ _).trans (setReg_control _ _ _)
  | store l => exact storeWrites_control _ _
  | step a l => rfl
  | vtst a l => rfl
  | mtile a l => rfl

/-- A write that lands at once leaves the parts that decide progress. -/
theorem put_control (is : Isle) (op : LandOp) (g : FlagSet) (h : ∀ y, op ≠ .sync y) : (is.put 0 op g).control = is.control :=
  landOp_control is op g h

@[simp] theorem storeCheck1_control (i : IsleIdx) (is : Isle) (w : Nat) : (Isle.storeCheck1 i is w).1.control = is.control := by
  simp only [Isle.storeCheck1]
  split <;> rfl

@[simp] theorem tileCheck1_control (i : IsleIdx) (is : Isle) (w : Nat) : (Isle.tileCheck1 i is w).1.control = is.control := by
  simp only [Isle.tileCheck1]
  split <;> rfl

/-- A fold that carries an Isle keeps what each of its steps keeps. -/
theorem foldl_control {α : Type} (f : Isle → α → Isle) (hf : ∀ is a, (f is a).control = is.control) (l : List α) (is : Isle) :
    (l.foldl f is).control = is.control := by
  induction l generalizing is with
  | nil => rfl
  | cons a t ih => rw [List.foldl_cons, ih, hf]

/-- The same for a fold that carries reports beside the Isle. -/
theorem foldl_control_fst {α : Type} (f : Isle × List Report → α → Isle × List Report)
    (hf : ∀ x a, (f x a).1.control = x.1.control) (l : List α) (x : Isle × List Report) :
    (l.foldl f x).1.control = x.1.control := by
  induction l generalizing x with
  | nil => rfl
  | cons a t ih => rw [List.foldl_cons, ih, hf]

@[simp] theorem storeCheck_control (i : IsleIdx) (is : Isle) (ws : List Nat) : (is.storeCheck i ws).1.control = is.control := by
  simp only [Isle.storeCheck]
  split
  · rfl
  · refine foldl_control_fst _ (fun x a => ?_) _ _
    exact storeCheck1_control i x.1 a

@[simp] theorem tileCheck_control (i : IsleIdx) (is : Isle) (ws : List Nat) : (is.tileCheck i ws).1.control = is.control := by
  simp only [Isle.tileCheck]
  split
  · rfl
  · refine foldl_control_fst _ (fun x a => ?_) _ _
    exact tileCheck1_control i x.1 a

/-- An access without wrong symbols reports nothing and changes nothing. -/
@[simp] theorem storeCheck_clean (i : IsleIdx) (is : Isle) (ws : List Nat) (h : is.sto.errs = []) :
    is.storeCheck i ws = (is, []) := by
  simp [Isle.storeCheck, h]

@[simp] theorem tileCheck_clean (i : IsleIdx) (is : Isle) (ws : List Nat) (h : is.me.tileErrs = []) :
    is.tileCheck i ws = (is, []) := by
  simp [Isle.tileCheck, h]

theorem vecStep_control (i : IsleIdx) (c : Bool) (op : VOp) (f : VFields) (sc : Word) (ag : Option AgCap) (j : Nat)
    (is : Isle) : (Isle.vecStep false i c op f sc ag j is).1.control = is.control := by
  have p : ∀ (x : Isle) o g, (∀ y, o ≠ .sync y) → (x.put 0 o g).control = x.control := put_control
  cases op
  case vld =>
    simp only [Isle.vecStep, reduceIte, Bool.false_eq_true]
    split
    · rw [p _ _ _ (by simp), storeCheck_control]
    · rw [bankConflict_control, p _ _ _ (by simp), storeCheck_control]
  case vst =>
    simp only [Isle.vecStep, reduceIte, Bool.false_eq_true]
    split
    · rw [p _ _ _ (by simp)]
    · rw [bankConflict_control, p _ _ _ (by simp)]
  all_goals
    simp only [Isle.vecStep, isSummary, reduceIte, Bool.false_eq_true]
    rw [p _ _ _ (by simp)]
  exact tileCheck_control _ _ _

theorem vecRun_control (i : IsleIdx) (c : Bool) (op : VOp) (f : VFields) (sc : Word) (ag : Option AgCap) (is : Isle) :
    (is.vecRun i c op f sc ag).1.control = is.control := by
  unfold Isle.vecRun
  refine foldl_control_fst _ (fun x j => ?_) _ _
  exact vecStep_control i c op f sc ag j x.1

theorem bankStep_control (i : IsleIdx) (c : Bool) (op : BOp) (f : BFields) (a b : AgCap) (pw x : Word) (j : Nat)
    (is : Isle) : (Isle.bankStep false i c op f a b pw x j is).1.control = is.control := by
  simp only [Isle.bankStep, reduceIte, Bool.false_eq_true]
  split <;> exact (put_control _ _ _ (by simp)).trans (storeCheck_control _ _ _)

theorem bankRun_control (i : IsleIdx) (c : Bool) (op : BOp) (f : BFields) (a b : AgCap) (pw x : Word) (is : Isle) :
    (is.bankRun i c op f a b pw x).1.control = is.control := by
  simp only [Isle.bankRun]
  split
  · simp [Isle.ccRun]
  · refine foldl_control_fst _ (fun y j => ?_) _ _
    exact bankStep_control i c op f a b pw x j y.1

theorem wload_control (i : IsleIdx) (f : WloadFields) (is : Isle) : (is.wload i f).1.control = is.control := by
  simp only [Isle.wload, Isle.latch]
  exact tileCheck_control i is _

theorem putRow_control (is : Isle) (mode dt bytes r : Nat) (l : List Nat) : (is.putRow mode dt bytes r l).control = is.control :=
  foldl_control _ (fun x _ => tileWrite_control x _ _) _ is

theorem sinkRow_control (is : Isle) (c : Bool) (ch : Chain) (prime : Nat → Nat) (st : Bool) (bytes r : Nat) (l : List Nat) :
    (is.sinkRow false c ch prime st bytes r l).control = is.control := by
  refine foldl_control _ (fun x t => ?_) _ is
  dsimp only
  split
  · exact put_control _ _ _ (by simp)
  · exact put_control _ _ _ (by simp)

theorem closeRow_control (is : Isle) (c : Bool) (f : MmulFields) (ch : Chain) (w : WeightSet) (r : Nat) (l : List Nat) :
    (is.closeRow false c f ch w r l).control = is.control := by
  have put : ∀ (s : Isle) m dt p st bytes x,
      (if hdrSink ch.header = 1 then s.sinkRow false c ch p st bytes r x else s.putRow m dt bytes r x).control = s.control := by
    intro s m dt p st bytes x
    split
    · rw [sinkRow_control]
    · rw [putRow_control]
  unfold Isle.closeRow
  dsimp only
  split
  · exact put _ _ _ _ _ _ _
  · split
    · rw [put, meFlags_control]
    · split <;> (rw [put, meFlags_control]; rfl)

theorem feedCheck_control (i : IsleIdx) (is : Isle) (ws : List Nat) : (is.feedCheck i ws).1.control = is.control := by
  simp only [Isle.feedCheck]
  split
  · exact storeCheck_control ..
  · exact storeCheck_control ..

theorem mmulFeed_control (i : IsleIdx) (c : Bool) (f : MmulFields) (ch : Chain) (w : WeightSet) (feed : AgCap) (j : Nat)
    (is : Isle) : (Isle.mmulFeed i c f ch w feed j is).1.control = is.control := by
  simp only [Isle.mmulFeed, storeCheck_control]
  split
  · exact feedCheck_control ..
  · exact tileCheck_control ..

theorem finishCheck_control (i : IsleIdx) (c : Bool) (f : MmulFields) (ch : Chain) (r : Nat) (is : Isle) :
    (Isle.finishCheck i c f ch r is).1.control = is.control := by
  have h : (if f.acc = true then is.tileCheck i (accWords f r) else (is, [])).1.control = is.control := by
    split
    · exact tileCheck_control ..
    · rfl
  simp only [Isle.finishCheck]
  split
  · rw [storeCheck_control, h]
  · exact h

theorem mmulFinish_control (i : IsleIdx) (c : Bool) (f : MmulFields) (ch : Chain) (w : WeightSet) (r : Nat)
    (x : List Nat) (is : Isle) : (Isle.mmulFinish false i c f ch w r x is).1.control = is.control := by
  have h := finishCheck_control i c f ch r is
  unfold Isle.mmulFinish
  dsimp only
  split
  · exact h
  · generalize hy : (if 2 ≤ f.mode.toNat ∧ f.mode.toNat ≤ 4 ∧ ch.link2 = true then _ else _ : Isle) = y
    have hy' : y.control = is.control := by
      rw [← hy, ← h]
      split <;> rfl
    split
    · rw [closeRow_control, hy']
    · rw [putRow_control, hy']

theorem mmulCycle_control (i : IsleIdx) (c : Bool) (f : MmulFields) (ch : Chain) (feed : AgCap) (n F : Nat) (x : MmulRun) (t : Nat) :
    (x.cycle i c f ch feed n F t).is.control = x.is.control := by
  unfold MmulRun.cycle
  split
  · rfl
  · dsimp only
    generalize hx : (if t < n then _ else x : MmulRun) = y
    have hy : y.is.control = x.is.control := by
      rw [← hx]
      split
      · exact mmulFeed_control i c f ch x.is.me.activeSet feed t x.is
      · rfl
    split
    · exact hy
    · split
      · exact hy
      · exact (mmulFinish_control ..).trans hy

@[simp] theorem chainFor_control (is : Isle) (ch : Chain) : (is.chainFor ch).control = is.control := by
  simp only [Isle.chainFor]
  split <;> rfl

theorem mmul_control (i : IsleIdx) (c : Bool) (f : MmulFields) (ch : Chain) (feed : AgCap) (is : Isle) :
    (is.mmul i c f ch feed).1.control = is.control := by
  unfold Isle.mmul
  dsimp only
  split
  · exact (mmulFeed_control ..).trans (chainFor_control _ _)
  · have h : ∀ (l : List Nat) (x : MmulRun) n F, (l.foldl (MmulRun.cycle i c f ch feed n F) x).is.control = x.is.control := by
      intro l
      induction l with
      | nil => intros; rfl
      | cons a t ih => intro x n F; rw [List.foldl_cons, ih, mmulCycle_control]
    have e : ∀ y : Isle, (y.mmulClosed f ch).control = y.control := by
      intro y
      simp only [Isle.mmulClosed]
      split <;> rfl
    rw [e, h]
    exact chainFor_control _ _

end Sys2Proof.Machine
end

