-- ==== Sys2Proof/Laws/Issue.lean ====
section
/-! SUPPORT. The issue of one instruction in a calm state: nothing else moves, so the Isle ends as the instruction leaves it. -/

namespace Sys2Proof.Machine

/-! ## When nothing moves -/

theorem busy_idle {u : Units} (h : u.busy = false) : u.feed = none ∧ u.rows = [] ∧ u.load = none ∧ u.arith = none ∧
    u.vread = none ∧ u.vwrite = none ∧ u.chZ = none ∧ u.flight = [] ∧ u.regs = [] := by
  simpa [Units.busy, Units.matrixIdle, Units.vectorIdle, and_assoc] using h

theorem progress_none (i : IsleIdx) (c : Bool) (is : Isle) (hq : queuesEmpty is) (hu : unitsIdle is.un) (hm : moverIdle is.mov)
    (hh : is.sk.held = none) : is.progress i c = none := by
  obtain ⟨h1, h2, h3, h4⟩ := hq
  obtain ⟨_, u2, u3⟩ := hu
  obtain ⟨_, _, _, m4, _⟩ := hm
  simp [Isle.progress, Isle.runHead, Isle.laneProgress, Isle.laneRun, Isle.refetch, h1, h2, h3, h4, hh, u2, u3, m4]

theorem moverProgress_none (s : State) (clk : Bool) (i : IsleIdx) (hm : moverIdle (s.isle i).mov) : s.moverProgress clk i = none := by
  obtain ⟨h1, h2, h3, _, h5⟩ := hm
  have hf : s.forwardStep i = none := by
    have : (s.isle i).mov.fwds.find?
        (fun f => !f.pend.isEmpty && (f.d.dstsp == 5 || i == f.d.peer || s.deliveryFree f.d.peer)) = none := by
      simp only [List.find?_eq_none]
      intro f hf
      simp [h5 f hf]
    simp only [State.forwardStep, this]
  simp [State.moverProgress, State.readMore, State.readPhase, State.canRead, State.writePhase, State.landStep, Isle.land,
    Isle.nextLanding, h1, h2, h3, hf]

theorem isleProgress_none (s : State) (i : IsleIdx) (hq : queuesEmpty (s.isle i)) (hu : unitsIdle (s.isle i).un)
    (hh : (s.isle i).sk.held = none) (hm : moverIdle (s.isle i).mov) : s.isleProgress i = none := by
  simp [State.isleProgress, hu.1, progress_none i _ _ hq hu hm hh, moverProgress_none s _ i hm]

theorem busyIsles_idle (s : State) (i : IsleIdx) (hm : ∀ k, moverIdle (s.isle k).mov) : s.busyIsles i = [i] := by
  simp only [State.busyIsles, List.cons.injEq, true_and, List.filter_eq_nil_iff]
  intro k _
  obtain ⟨h1, h2, h3, _, h5⟩ := hm k
  have : (s.isle k).mov.fwds.all (fun f => f.pend.isEmpty) = true := by
    rw [List.all_eq_true]
    intro f hf
    simp [h5 f hf]
  simp [h1, h2, h3, this]

/-- With idle movers and units, empty queues and nothing held, settling changes nothing. -/
theorem settle_quiet (s : State) (i : IsleIdx) (n : Nat) (hq : queuesEmpty (s.isle i)) (hu : unitsIdle (s.isle i).un)
    (hh : (s.isle i).sk.held = none) (hm : ∀ k, moverIdle (s.isle k).mov) : State.settle i n s = s := by
  cases n with
  | zero => rfl
  | succ n =>
    simp [State.settle, busyIsles_idle s i hm, isleProgress_none s i hq hu hh (hm i)]

/-- One step of progress of the Isle, after which nothing moves. -/
theorem settle_once (s : State) (i : IsleIdx) (n : Nat) (y : Isle) (hm : ∀ k, moverIdle (s.isle k).mov)
    (hb : (s.isle i).un.busy = false) (hp : (s.isle i).progress i (s.isleCompat i) = some (y, [])) (hq : queuesEmpty y)
    (hu : unitsIdle y.un) (hh : y.sk.held = none) (hy : moverIdle y.mov) : State.settle i (n + 1) s = s.putIsle i y := by
  have hs : State.settle i (n + 1) s = State.settle i n (s.putIsle i y) := by
    simp [State.settle, busyIsles_idle s i hm, State.isleProgress, hb, hp, State.reports]
  have hi : (s.putIsle i y).isle i = y := by
    simp only [State.putIsle]
    split <;> exact isle_setIsle _ _ _
  rw [hs]
  refine settle_quiet _ i n (by rw [hi]; exact hq) (by rw [hi]; exact hu) (by rw [hi]; exact hh) (fun k => ?_)
  by_cases hk : k = i
  · rw [hk, hi]; exact hy
  · have : (s.putIsle i y).isle k = s.isle k := by
      simp only [State.putIsle]
      split <;> exact isle_setIsle_ne _ _ _ _ hk
    rw [this]; exact hm k

/-! ## Storing an Isle -/

/-- The armed injections of an Isle's own memories. -/
def Isle.armed (is : Isle) : Option Bool × Option Bool × Bool := (is.sto.inj, is.me.tileInj, is.me.latchInj)

/-- An Isle whose armed injections are as before is just stored. -/
theorem putIsle_same (s : State) (i : IsleIdx) (x : Isle) (h : x.armed = (s.isle i).armed) : s.putIsle i x = s.setIsle i x := by
  simp only [Isle.armed, Prod.mk.injEq] at h
  obtain ⟨h1, h2, h3⟩ := h
  have a1 : ((s.isle i).sto.inj.isSome && x.sto.inj.isNone) = false := by rw [h1]; cases (s.isle i).sto.inj <;> rfl
  have a2 : ((s.isle i).me.tileInj.isSome && x.me.tileInj.isNone) = false := by rw [h2]; cases (s.isle i).me.tileInj <;> rfl
  have a3 : ((s.isle i).me.latchInj && !x.me.latchInj) = false := by rw [h3]; cases (s.isle i).me.latchInj <;> rfl
  simp only [State.putIsle, a1, a2, a3, Bool.or_self]
  rfl

theorem isle_putIsle (s : State) (i : IsleIdx) (x : Isle) : (s.putIsle i x).isle i = x := by
  simp only [State.putIsle]
  split <;> exact isle_setIsle _ _ _

theorem isle_putIsle_ne (s : State) (i k : IsleIdx) (x : Isle) (h : k ≠ i) : (s.putIsle i x).isle k = s.isle k := by
  simp only [State.putIsle]
  split <;> exact isle_setIsle_ne _ _ _ _ h

theorem vset_vset {α : Type} {n : Nat} (v : Vector α n) (i : Fin n) (x y : α) : vset (vset v i x) i y = vset v i y := by
  simp [vset]

/-- Storing an Isle twice, the first time with its injections as they were. -/
theorem putIsle_putIsle (s : State) (i : IsleIdx) (x y : Isle) (h : x.armed = (s.isle i).armed) :
    (s.putIsle i x).putIsle i y = s.putIsle i y := by
  rw [putIsle_same s i x h]
  simp only [Isle.armed, Prod.mk.injEq] at h
  obtain ⟨h1, h2, h3⟩ := h
  simp only [State.putIsle, isle_setIsle, h1, h2, h3]
  split <;> simp [State.setIsle, vset_vset]

theorem putIsle_power (s : State) (i : IsleIdx) (x : Isle) : (s.putIsle i x).power = s.power := by
  simp only [State.putIsle]
  split <;> rfl

theorem putIsle_fatal (s : State) (i : IsleIdx) (x : Isle) : (s.putIsle i x).reef.fatal = s.reef.fatal := by
  simp only [State.putIsle]
  split <;> rfl

theorem putIsle_jobs (s : State) (i : IsleIdx) (x : Isle) : (s.putIsle i x).jobs = s.jobs := by
  simp only [State.putIsle]
  split <;> rfl

theorem putIsle_isleCompat (s : State) (i k : IsleIdx) (x : Isle) : (s.putIsle i x).isleCompat k = s.isleCompat k := by
  simp only [State.putIsle]
  split <;> rfl

/-! ## Time passes in a calm Isle -/

/-- Nothing waits outside the queues of an Isle with an idle mover that holds no instruction at issue. -/
theorem otherWaits_calm (is : Isle) (hm : moverIdle is.mov) (hh : is.sk.held = none) : is.otherWaits = [] := by
  obtain ⟨m1, m2, m3, _, m5⟩ := hm
  have hf : is.mov.fwds.filter (fun f => !f.pend.isEmpty) = [] := by
    rw [List.filter_eq_nil_iff]
    intro f hf
    simp [m5 f hf]
  simp [Isle.otherWaits, Isle.heldSlot, Isle.moverWaits, hh, m1, m2, m3, hf]

theorem noteWaits_calm (is : Isle) (hm : moverIdle is.mov) (hh : is.sk.held = none) : is.noteWaits = is := by
  simp [Isle.noteWaits, otherWaits_calm is hm hh]

theorem heldSlot_none (is : Isle) (hh : is.sk.held = none) : is.heldSlot = none := by simp [Isle.heldSlot, hh]

/-- A mover's standing forwards with nothing to send do not wait. -/
theorem fwds_calm (l : List Fwd) (n : Nat) (h : ∀ f ∈ l, f.pend = []) :
    l.map (fun f => if f.pend = [] then f else { f with wait := f.wait + n }) = l ∧ l.filter (fun f => !f.pend.isEmpty) = [] := by
  refine ⟨?_, ?_⟩
  · conv => rhs; rw [← List.map_id l]
    exact List.map_congr_left (fun f hf => by simp [h f hf])
  · rw [List.filter_eq_nil_iff]
    intro f hf
    simp [h f hf]

theorem pass_calm (is : Isle) (n : Nat) (hq : queuesEmpty is) (hm : moverIdle is.mov) (hh : is.sk.held = none) :
    is.pass n = { is with mov := { is.mov with rwait := 0 }, sk := { is.sk with cyc := is.sk.cyc + n } } := by
  obtain ⟨h1, h2, h3, h4⟩ := hq
  obtain ⟨m1, m2, m3, _, m5⟩ := hm
  obtain ⟨f1, f2⟩ := fwds_calm is.mov.fwds n m5
  obtain ⟨sk, me, ve, sto, mov, mq, vq, dq, bq, _, _, _, _, _, _, _⟩ := is
  simp only at h1 h2 h3 h4 m1 m2 m3 f1 f2 hh
  subst h1 h2 h3 h4
  simp [Isle.pass, Isle.bumpQ, Mover.pass, heldSlot_none, Isle.noteWaits, Isle.otherWaits, Isle.moverWaits, hh, m1, m2, m3, f1, f2]

theorem canIssue_held {is : Isle} (h : is.canIssue = true) : is.sk.held = none := by
  simp only [Isle.canIssue, Bool.and_eq_true] at h
  exact Option.isNone_iff_eq_none.mp h.2

theorem goto_queues (is : Isle) (pc : Nat) : (is.goto pc).mq = is.mq ∧ (is.goto pc).vq = is.vq ∧ (is.goto pc).dq = is.dq ∧
    (is.goto pc).bq = is.bq ∧ (is.goto pc).mov = is.mov ∧ (is.goto pc).sk.held = is.sk.held := ⟨rfl, rfl, rfl, rfl, rfl, rfl⟩

/-- An instruction of up to three Isle cycles that has issued, its cycles past. -/
theorem after_run (is : Isle) (n : Nat) (l : List Report) (h0 : n ≠ 0) (h3 : n ≤ 3) : (is.after n l).run = (is.retire n, l) := by
  simp only [Issued.run, Isle.after, h0, if_false, Nat.min_eq_left h3, Isle.retire]
  rw [Nat.sub_eq_zero_of_le h3]
  rfl

/-- The retirement of an instruction in a calm Isle: the program counter with its loops, and CYC. -/
theorem retire_calm (is : Isle) (n : Nat) (hq : queuesEmpty is) (hm : moverIdle is.mov) (hh : is.sk.held = none) :
    is.retire n = { is with
      mov := { is.mov with rwait := 0 }
      sk := { is.sk with
        loops := (settleLoops is.sk.loops (is.sk.pc + 8)).1, pc := (settleLoops is.sk.loops (is.sk.pc + 8)).2
        cyc := is.sk.cyc + n } } := by
  simp only [Isle.retire]
  rw [pass_calm (is.goto (is.sk.pc + 8)) n hq hm hh]
  rfl

theorem interlocked_calm (is : Isle) (ins : IsleInstr) (hq : queuesEmpty is) (hu : unitsIdle is.un) : is.interlocked ins = false := by
  obtain ⟨_, h2, _, h4⟩ := hq
  obtain ⟨_, _, _, u1, _, _, u2, u3, u4⟩ := busy_idle hu.1
  simp [Isle.interlocked, Isle.pendingRegs, h2, h4, u1, u2, u3, u4]

/-! ## Issue -/

/-- An instruction that needs no queue: the Isle it leaves is stored. -/
theorem issueAt_now (s : State) (i : IsleIdx) (ins : IsleInstr) (x : Isle) (h : Calm s i)
    (ht : (s.isle i).tryIssue i (s.isleCompat i) ins = some (x, [])) (hq : queuesEmpty x) (hu : unitsIdle x.un)
    (hh : x.sk.held = none) (hm : moverIdle x.mov) : s.issueAt i ins = s.putIsle i x := by
  have e : s.issueAt i ins = State.settle i settleFuel (s.putIsle i x) := by
    simp [State.issueAt, h.power, h.alive, h.issues, Isle.issue, ht, State.reports]
  rw [e]
  refine settle_quiet _ i _ ?_ ?_ ?_ (fun k => ?_)
  · rw [isle_putIsle]; exact hq
  · rw [isle_putIsle]; exact hu
  · rw [isle_putIsle]; exact hh
  · by_cases hk : k = i
    · rw [hk, isle_putIsle]; exact hm
    · rw [isle_putIsle_ne _ _ _ _ hk]; exact h.movers k

/-- An instruction that joins a queue and runs at once: the Isle its unit leaves is stored. -/
theorem issueAt_queued (s : State) (i : IsleIdx) (ins : IsleInstr) (x y : Isle) (h : Calm s i)
    (ht : (s.isle i).tryIssue i (s.isleCompat i) ins = some (x, []))
    (ha : x.armed = (s.isle i).armed) (hx : moverIdle x.mov) (hb : x.un.busy = false)
    (hp : x.progress i (s.isleCompat i) = some (y, [])) (hq : queuesEmpty y) (hu : unitsIdle y.un) (hh : y.sk.held = none)
    (hy : moverIdle y.mov) : s.issueAt i ins = s.putIsle i y := by
  have e : s.issueAt i ins = State.settle i (8191 + 1) (s.putIsle i x) := by
    simp [State.issueAt, h.power, h.alive, h.issues, Isle.issue, ht, State.reports, settleFuel]
  rw [e, settle_once (s.putIsle i x) i 8191 y ?_ ?_ ?_ hq hu hh hy, putIsle_putIsle s i x y ha]
  · intro k
    by_cases hk : k = i
    · rw [hk, isle_putIsle]; exact hx
    · rw [isle_putIsle_ne _ _ _ _ hk]; exact h.movers k
  · rw [isle_putIsle]; exact hb
  · rw [isle_putIsle, putIsle_isleCompat]; exact hp

/-! ## The commands of an Isle -/

theorem exec_scalar {c : Instr} {op : SOp} {i : IsleIdx} {f : SFields} (h : IsScalar c op i f) (s : State) :
    exec c s = .next (s.issueAt i (.scalar op f)) := by
  cases op <;> (cases h; rfl)

theorem exec_branch {c : Instr} {op : BrOp} {i : IsleIdx} {f : BrFields} (h : IsBranch c op i f) (s : State) :
    exec c s = .next (s.issueAt i (.branch op f)) := by
  cases op <;> (cases h; rfl)

theorem exec_vector {c : Instr} {op : VOp} {i : IsleIdx} {f : VFields} (h : IsVector c op i f) (s : State) :
    exec c s = .next (s.issueAt i (.vec op f)) := by
  cases op <;> (cases h; rfl)

theorem exec_bank {c : Instr} {op : BOp} {i : IsleIdx} {f : BFields} (h : IsBank c op i f) (s : State) :
    exec c s = .next (s.issueAt i (.bank op f)) := by
  cases op <;> (cases h; rfl)

theorem exec_descriptor {c : Instr} {op : DOp} {i : IsleIdx} {d : DescFields} (h : IsDescriptor c op i d) (s : State) :
    exec c s = .next (s.descriptor i op d) := by
  cases op <;> (cases h; rfl)

end Sys2Proof.Machine
end

