-- ==== Sys2Proof/Laws/Memory.lean ====
section
/-! SUPPORT. Memories: a read after a write, the bytes a write leaves alone, and the canonical form, which every memory
operation keeps. -/

namespace Sys2Proof.Machine

/-! ## One byte -/

theorem memRead_below (lo : Nat) (m : Mem) (x : Nat) (hw : memWfFrom lo m = true) (hx : x < lo) : memRead m x = 0 := by
  induction m generalizing lo with
  | nil => rfl
  | cons c t ih =>
    obtain ⟨a, b⟩ := c
    simp only [memWfFrom, Bool.and_eq_true, decide_eq_true_eq] at hw
    rw [memRead, if_neg (by omega)]
    exact ih (a + 1) hw.2 (by omega)

theorem memWfFrom_mono (lo hi : Nat) (m : Mem) (hw : memWfFrom hi m = true) (h : lo ≤ hi) : memWfFrom lo m = true := by
  cases m with
  | nil => rfl
  | cons c t =>
    obtain ⟨a, b⟩ := c
    simp only [memWfFrom, Bool.and_eq_true, decide_eq_true_eq] at hw ⊢
    exact ⟨⟨by omega, hw.1.2⟩, hw.2⟩

theorem memWrite_wfFrom (lo : Nat) (m : Mem) (x : Nat) (v : Byte) (hw : memWfFrom lo m = true) (hx : lo ≤ x) :
    memWfFrom lo (memWrite m x v) = true := by
  induction m generalizing lo with
  | nil =>
    simp only [memWrite]
    split
    · rfl
    · rename_i hv
      simp only [memWfFrom, Bool.and_eq_true, decide_eq_true_eq]
      exact ⟨⟨hx, hv⟩, trivial⟩
  | cons c t ih =>
    obtain ⟨a, b⟩ := c
    have hw' := hw
    simp only [memWfFrom, Bool.and_eq_true, decide_eq_true_eq] at hw
    simp only [memWrite]
    split
    · split
      · exact hw'
      · simp only [memWfFrom, Bool.and_eq_true, decide_eq_true_eq]
        exact ⟨⟨hx, by assumption⟩, ⟨by omega, hw.1.2⟩, hw.2⟩
    · split
      · split
        · exact memWfFrom_mono _ _ _ hw.2 (by omega)
        · rename_i h _
          subst h
          simp only [memWfFrom, Bool.and_eq_true, decide_eq_true_eq]
          exact ⟨⟨hx, by assumption⟩, hw.2⟩
      · simp only [memWfFrom, Bool.and_eq_true, decide_eq_true_eq]
        exact ⟨hw.1, ih (a + 1) hw.2 (by omega)⟩

/-- A write keeps the canonical form. -/
theorem memWrite_wf (m : Mem) (x : Nat) (v : Byte) (h : Memory.wf m = true) : Memory.wf (memWrite m x v) = true :=
  memWrite_wfFrom 0 m x v h (Nat.zero_le _)

theorem memRead_memWrite_from (lo : Nat) (m : Mem) (x y : Nat) (v : Byte) (hw : memWfFrom lo m = true) :
    memRead (memWrite m x v) y = if y = x then v else memRead m y := by
  induction m generalizing lo with
  | nil =>
    simp only [memWrite]
    split
    · simp_all [memRead]
    · simp only [memRead]
      by_cases h : y = x
      · simp [h]
      · simp [h, Ne.symm h]
  | cons c t ih =>
    obtain ⟨a, b⟩ := c
    simp only [memWfFrom, Bool.and_eq_true, decide_eq_true_eq] at hw
    have hlow : ∀ z, z < a + 1 → memRead t z = 0 := fun z hz => memRead_below (a + 1) t z hw.2 hz
    simp only [memWrite]
    split
    · rename_i hxa
      split
      · rename_i hv
        by_cases h : y = x
        · subst h
          rw [if_pos rfl, memRead, if_neg (by omega), hlow y (by omega), hv]
        · rw [if_neg h]
      · by_cases h : y = x
        · simp [memRead, h]
        · rw [memRead, if_neg (Ne.symm h), if_neg h]
    · split
      · rename_i hxa
        subst hxa
        split
        · rename_i hv
          by_cases h : y = x
          · subst h
            rw [if_pos rfl, hlow y (by omega), hv]
          · rw [if_neg h, memRead, if_neg (Ne.symm h)]
        · by_cases h : y = x
          · simp [memRead, h]
          · rw [memRead, if_neg (Ne.symm h), if_neg h, memRead, if_neg (Ne.symm h)]
      · rename_i h1 h2
        rw [memRead, ih (a + 1) hw.2]
        by_cases h : a = y
        · subst h
          rw [if_pos rfl, if_neg (Ne.symm h2), memRead, if_pos rfl]
        · rw [if_neg h, memRead, if_neg h]

/-- A read after a write: the byte written, and every other byte as before. -/
theorem memRead_memWrite (m : Mem) (x y : Nat) (v : Byte) (h : Memory.wf m = true) :
    memRead (memWrite m x v) y = if y = x then v else memRead m y :=
  memRead_memWrite_from 0 m x y v h

/-! ## Byte strings -/

/-- A write of a byte string keeps the canonical form. -/
theorem memWriteN_wf (l : List Byte) (m : Mem) (x : Nat) (h : Memory.wf m = true) : Memory.wf (memWriteN m x l) = true := by
  induction l generalizing m x with
  | nil => exact h
  | cons b t ih => exact ih _ _ (memWrite_wf m x b h)

/-- The bytes of a string are read back; every other byte is as before. -/
theorem memRead_memWriteN (l : List Byte) (m : Mem) (x y : Nat) (h : Memory.wf m = true) :
    memRead (memWriteN m x l) y = if x ≤ y ∧ y < x + l.length then l.getD (y - x) 0 else memRead m y := by
  induction l generalizing m x with
  | nil =>
    rw [memWriteN, if_neg]
    simp only [List.length_nil]
    omega
  | cons b t ih =>
    rw [memWriteN, ih _ _ (memWrite_wf m x b h), memRead_memWrite m x y b h]
    simp only [List.length_cons]
    by_cases h1 : y = x
    · subst h1
      rw [if_neg (by omega), if_pos rfl, if_pos (by omega)]
      simp
    · by_cases h2 : x + 1 ≤ y ∧ y < x + 1 + t.length
      · rw [if_pos h2, if_pos (by omega)]
        have : y - x = (y - (x + 1)) + 1 := by omega
        rw [this]
        simp
      · rw [if_neg h2, if_neg h1, if_neg (by omega)]

theorem memRead_memWriteN_outside (l : List Byte) (m : Mem) (x y : Nat) (h : Memory.wf m = true)
    (ho : y < x ∨ x + l.length ≤ y) : memRead (memWriteN m x l) y = memRead m y := by
  rw [memRead_memWriteN l m x y h, if_neg (by omega)]

theorem memReadN_length (m : Mem) (x n : Nat) : (memReadN m x n).length = n := by
  induction n generalizing x with
  | zero => rfl
  | succ n ih => simp [memReadN, ih]

/-! ## The canonical form under the operations of the stores -/

theorem storeWrite_wf (is : Isle) (a : Nat) (l : List Byte) (h : Memory.wf is.sto.mem = true) :
    Memory.wf (is.storeWrite a l).sto.mem = true := memWriteN_wf _ _ _ h

theorem tileWrite_wf (is : Isle) (a : Nat) (l : List Byte) (h : Memory.wf is.me.tiles = true) :
    Memory.wf (is.tileWrite a l).me.tiles = true := memWriteN_wf _ _ _ h

theorem Lagoon.store_wf (l : Lagoon) (x : Nat) (d : List Byte) (h : Memory.wf l.mem = true) : Memory.wf (l.store x d) = true :=
  memWriteN_wf _ _ _ h

theorem Lagoon.update_wf (l : Lagoon) (c x : Nat) (d : List Byte) (h : Memory.wf l.mem = true) :
    Memory.wf (l.update c x d).mem = true := by
  simp only [Lagoon.update]
  split
  · exact Lagoon.store_wf _ _ _ h
  · exact h

theorem Lagoon.zeroFill_wf (l : Lagoon) : Memory.wf l.zeroFill.mem = true := by
  simp only [Lagoon.zeroFill]
  split <;> rfl

theorem Lagoon.plan_wf (l : Lagoon) (m : BitVec 2) (n : Nat) (h : Memory.wf l.mem = true) : Memory.wf (l.plan m n).mem = true := by
  simp only [Lagoon.plan]
  split
  · rfl
  · exact h

theorem Isle.endFill_wf (is : Isle) (h : Memory.wf is.sto.mem = true) :
    Memory.wf is.endFill.sto.mem = true ∧ Memory.wf is.endFill.me.tiles = true := ⟨h, rfl⟩

end Sys2Proof.Machine
end

