-- ==== Sys2Proof/Laws/Skerry.lean ====
section
/-! SUPPORT. The Skerry's own instructions in a calm state: scalar registers, and instructions that write one of them. -/

namespace Sys2Proof.Machine

theorem reg_setReg (is : Isle) (r : Fin 32) (v : Word) : (is.setReg r v).reg r = if r = 0 then 0 else v := by
  simp only [Isle.reg, Isle.setReg]
  by_cases h : r = 0
  · simp [h]
  · simp only [h, if_false]; exact vset_get_self _ _ _

theorem reg_setReg_ne (is : Isle) (r k : Fin 32) (v : Word) (h : k ≠ r) : (is.setReg r v).reg k = is.reg k := by
  simp only [Isle.reg, Isle.setReg]
  by_cases h0 : r = 0
  · simp [h0]
  · simp only [h0, if_false]; rw [vset_get_ne _ _ _ _ h]

@[simp] theorem reg_retire (is : Isle) (n : Nat) (hq : queuesEmpty is) (hm : moverIdle is.mov) (hh : is.sk.held = none)
    (r : Fin 32) : (is.retire n).reg r = is.reg r := by
  rw [retire_calm is n hq hm hh]; rfl

theorem setReg_eq (is : Isle) (r : Fin 32) (v : Word) :
    is.setReg r v = { is with sk := { is.sk with s := (is.setReg r v).sk.s } } := by
  simp only [Isle.setReg]
  split <;> rfl

/-- An instruction of the Skerry that changes scalar registers, the program counter with its loops and CYC. -/
theorem skerry_now {c : Instr} {ins : IsleInstr} (s : State) (i : IsleIdx) (x : Isle) (h : Calm s i)
    (he : exec c s = .next (s.issueAt i ins)) (ht : (s.isle i).tryIssue i (s.isleCompat i) ins = some (x, []))
    (n : Nat) (hx : x = { s.isle i with
      mov := { (s.isle i).mov with rwait := 0 }
      sk := { (s.isle i).sk with s := x.sk.s, pc := x.sk.pc, loops := x.sk.loops, cyc := (s.isle i).sk.cyc + n } }) :
    exec c s = .next (s.setIsle i x) ∧ SkerryStep s (s.setIsle i x) i n := by
  have e := issueAt_now s i ins x h ht (by rw [hx]; exact h.queues) (by rw [hx]; exact h.units)
    (by rw [hx]; exact canIssue_held h.issues) (by rw [hx]; exact h.movers i)
  rw [putIsle_same s i x (by rw [hx]; rfl)] at e
  refine ⟨by rw [he, e], ⟨rfl, fun _ hk => isle_setIsle_ne _ _ _ _ hk⟩, ?_⟩
  simp only [isle_setIsle]
  exact hx

/-- An Isle with the queues, the units, the mover, the held instruction and the armed injections of another. -/
structure Alike (x is : Isle) : Prop where
  queues : x.mq = is.mq ∧ x.vq = is.vq ∧ x.dq = is.dq ∧ x.bq = is.bq
  units : x.un = is.un
  mov : x.mov = is.mov
  held : x.sk.held = is.sk.held
  armed : x.armed = is.armed

/-- An instruction of the Skerry alone that leaves `y` and retires after `n` cycles. -/
theorem exec_now {c : Instr} {ins : IsleInstr} (s : State) (i : IsleIdx) (y : Isle) (n : Nat) (h : Calm s i)
    (he : exec c s = .next (s.issueAt i ins)) (ht : (s.isle i).tryIssue i (s.isleCompat i) ins = some (y.retire n, []))
    (ha : Alike y (s.isle i)) :
    exec c s = .next (s.setIsle i (y.retire n)) ∧ y.retire n = { y with
      mov := { y.mov with rwait := 0 }
      sk := { y.sk with
        loops := (settleLoops y.sk.loops (y.sk.pc + 8)).1, pc := (settleLoops y.sk.loops (y.sk.pc + 8)).2
        cyc := y.sk.cyc + n } } := by
  have hq : queuesEmpty y := by
    obtain ⟨a, b, c, d⟩ := ha.queues
    obtain ⟨e, f, g, w⟩ := h.queues
    exact ⟨a.trans e, b.trans f, c.trans g, d.trans w⟩
  have hu : unitsIdle y.un := by rw [ha.units]; exact h.units
  have hm : moverIdle y.mov := by rw [ha.mov]; exact h.movers i
  have hh : y.sk.held = none := ha.held.trans (canIssue_held h.issues)
  have hr := retire_calm y n hq hm hh
  have e := issueAt_now s i ins (y.retire n) h ht (by rw [hr]; exact hq) (by rw [hr]; exact hu) (by rw [hr]; exact hh) (by rw [hr]; exact hm)
  rw [putIsle_same s i _ (by rw [hr]; exact ha.armed)] at e
  exact ⟨by rw [he, e], hr⟩

theorem onlyIsle_setIsle (s : State) (i : IsleIdx) (x : Isle) : OnlyIsle s (s.setIsle i x) i :=
  ⟨rfl, fun _ hk => isle_setIsle_ne _ _ _ _ hk⟩

/-! ## Scalar loads and stores -/

theorem scalarMem_load (is : Isle) (i : IsleIdx) (c : Bool) (op : SOp) (f : SFields) (hl : isStore op = false)
    (hv : is.scalarAddr f + accessBytes op ≤ visibleStore c) (hm : is.scalarAddr f % accessBytes op = 0)
    (he : is.sto.errs = []) :
    is.scalarMem i c op f =
      (is.setReg f.sd (loadExt op (leNat (is.storeRead (is.scalarAddr f) (accessBytes op))))).after 1 [] := by
  simp only [Isle.scalarMem]
  rw [if_neg (Nat.not_lt.mpr hv), if_neg (by simp [hm]), if_neg (by simp [hl]), storeCheck_clean _ _ _ he]

theorem scalarMem_store (is : Isle) (i : IsleIdx) (c : Bool) (op : SOp) (f : SFields) (hl : isStore op = true)
    (hv : is.scalarAddr f + accessBytes op ≤ visibleStore c) (hm : is.scalarAddr f % accessBytes op = 0) :
    is.scalarMem i c op f =
      (is.storeWrite (is.scalarAddr f) (leBytes (accessBytes op) (is.reg f.sb).toNat)).after 1 [] := by
  simp only [Isle.scalarMem]
  rw [if_neg (Nat.not_lt.mpr hv), if_neg (by simp [hm]), if_pos hl]

theorem scalarMem_beyond (is : Isle) (i : IsleIdx) (c : Bool) (op : SOp) (f : SFields)
    (hv : visibleStore c < is.scalarAddr f + accessBytes op) : is.scalarMem i c op f = is.trapped i 1 := by
  simp only [Isle.scalarMem]
  rw [if_pos hv]

theorem scalarMem_misaligned (is : Isle) (i : IsleIdx) (c : Bool) (op : SOp) (f : SFields)
    (hv : is.scalarAddr f + accessBytes op ≤ visibleStore c) (hm : is.scalarAddr f % accessBytes op ≠ 0) :
    is.scalarMem i c op f = is.trapped i 2 := by
  simp only [Isle.scalarMem]
  rw [if_neg (Nat.not_lt.mpr hv), if_pos hm]

/-- An instruction of the Skerry whose operation is a load or store. -/
theorem tryIssue_scalarMem (is : Isle) (i : IsleIdx) (c : Bool) (op : SOp) (f : SFields) (hq : queuesEmpty is)
    (hu : unitsIdle is.un) (hb : accessBytes op ≠ 0) :
    is.tryIssue i c (.scalar op f) = some (is.scalarMem i c op f).run := by
  simp [Isle.tryIssue, Isle.begin, interlocked_calm _ _ hq hu, Isle.scalar, hb]

/-- A trap passes no Isle cycle. -/
theorem trapped_run (is : Isle) (i : IsleIdx) (n : Nat) : (is.trapped i n).run = is.trap i n := by
  simp only [Issued.run, Isle.trapped, if_true]
  rfl

/-- An instruction that writes `v` to s_rd and retires after one Isle cycle. -/
theorem writes_scalar {c : Instr} {ins : IsleInstr} (s : State) (i : IsleIdx) (rd : Fin 32) (v : Word) (h : Calm s i)
    (he : exec c s = .next (s.issueAt i ins))
    (ht : (s.isle i).tryIssue i (s.isleCompat i) ins = some (((s.isle i).setReg rd v).retire 1, [])) :
    WritesScalar c s i rd v := by
  have hh : (s.isle i).sk.held = none := canIssue_held h.issues
  have hq : queuesEmpty ((s.isle i).setReg rd v) := by rw [setReg_eq]; exact h.queues
  have hm : moverIdle ((s.isle i).setReg rd v).mov := by rw [setReg_eq]; exact h.movers i
  have hs : ((s.isle i).setReg rd v).sk.held = none := by rw [setReg_eq]; exact hh
  have hr := retire_calm _ 1 hq hm hs
  have e := skerry_now s i _ h he ht 1 (by
    rw [hr]; simp only [Isle.setReg]; split <;> rfl)
  refine ⟨_, e.1, e.2, ?_, fun r hne => ?_, ?_⟩
  · simp only [ContinuesAt, isle_setIsle, hr]
    rw [setReg_eq]
  · rw [isle_setIsle, reg_retire _ _ hq hm hs, reg_setReg_ne _ _ _ _ hne]
  · rw [isle_setIsle, reg_retire _ _ hq hm hs, reg_setReg]

end Sys2Proof.Machine
end

