-- ==== Sys2Proof/Laws/Queues.lean ====
section
/-! SUPPORT. The issue queues of an Isle: the head of the one queue that holds an instruction runs, and what a push and the
retirement of its instruction leave. -/

namespace Sys2Proof.Machine

theorem runHead_ready (i : IsleIdx) (c : Bool) (is : Isle) (e : QEntry) (t : List QEntry) (put : Isle → List QEntry → Isle)
    (h : is.ready (headSync e) = true) : is.runHead i c (e :: t) put = (put is t).runEntry i c e := by
  simp only [Isle.runHead, h, if_true]

theorem progress_mq (i : IsleIdx) (c : Bool) (is : Isle) (e : QEntry) (t : List QEntry) (r : Isle × List Report)
    (h : is.mq = e :: t) (hr : is.ready (headSync e) = true) (he : Isle.runEntry i c e { is with mq := t } = some r) :
    is.progress i c = some r := by
  simp only [Isle.progress]
  rw [h, runHead_ready i c is e t _ hr, he]
  rfl

theorem progress_vq (i : IsleIdx) (c : Bool) (is : Isle) (e : QEntry) (t : List QEntry) (r : Isle × List Report)
    (h0 : is.mq = []) (h : is.vq = e :: t) (hr : is.ready (headSync e) = true)
    (he : Isle.runEntry i c e { is with vq := t } = some r) : is.progress i c = some r := by
  simp only [Isle.progress]
  rw [h0, h, runHead_ready i c is e t _ hr, he]
  rfl

theorem laneProgress_none (i : IsleIdx) (c : Bool) (is : Isle) (k : Bool) (hu : is.un.chK = none ∧ is.un.chE = none) :
    is.laneProgress i c k = none := by
  cases k <;> simp [Isle.laneProgress, Isle.laneRun, hu]

theorem progress_bq (i : IsleIdx) (c : Bool) (is : Isle) (e : QEntry) (t : List QEntry) (r : Isle × List Report)
    (h0 : is.mq = []) (h1 : is.vq = []) (hu : is.un.chK = none ∧ is.un.chE = none) (h : is.bq = e :: t) (hr : is.ready (headSync e) = true)
    (he : Isle.runEntry i c e { is with bq := t } = some r) : is.progress i c = some r := by
  simp only [Isle.progress]
  rw [h0, h1, h, runHead_ready i c is e t _ hr, he, laneProgress_none _ _ _ _ hu, laneProgress_none _ _ _ _ hu]
  rfl

theorem progress_dq (i : IsleIdx) (c : Bool) (is : Isle) (e : QEntry) (t : List QEntry) (r : Isle × List Report)
    (h0 : is.mq = []) (h1 : is.vq = []) (h2 : is.bq = []) (hu : is.un.chK = none ∧ is.un.chE = none) (h : is.dq = e :: t) (hr : is.ready (headSync e) = true)
    (he : Isle.runEntry i c e { is with dq := t } = some r) : is.progress i c = some r := by
  simp only [Isle.progress]
  rw [h0, h1, h2, h, runHead_ready i c is e t _ hr, he, laneProgress_none _ _ _ _ hu, laneProgress_none _ _ _ _ hu]
  rfl

/-- The token changes of a sync field touch the slots alone. -/
theorem syncDone_frame (is : Isle) (y : Sync) :
    is.syncDone y = { is with sto := { is.sto with slots := (is.syncDone y).sto.slots } } := by
  simp only [Isle.syncDone, Isle.syncWrite, Isle.syncRead]
  split <;> split <;> rfl

theorem syncDone_queues (is : Isle) (y : Sync) : (is.syncDone y).mq = is.mq ∧ (is.syncDone y).vq = is.vq ∧
    (is.syncDone y).dq = is.dq ∧ (is.syncDone y).bq = is.bq ∧ (is.syncDone y).mov = is.mov ∧ (is.syncDone y).sk = is.sk := by
  rw [syncDone_frame]
  exact ⟨rfl, rfl, rfl, rfl, rfl, rfl⟩

/-- An instruction in the queue with number `q` (MQ, VQ, DQ, BQ) and no other one. -/
def Isle.onlyIn (is : Isle) (q : Fin 4) (e : QEntry) : Isle :=
  { is with
    mq := if q = 0 then [e] else [], vq := if q = 1 then [e] else []
    dq := if q = 2 then [e] else [], bq := if q = 3 then [e] else [] }

/-- A head whose tokens are ready waits for nothing. -/
theorem ready_headSync (is : Isle) (e : QEntry) (h : is.ready e.sync = true) : is.ready (headSync e) = true := by
  simp only [headSync]
  split
  · simp only [Isle.ready, Bool.and_eq_true] at h ⊢
    exact ⟨h.1, by simp⟩
  · exact h

/-- A push into empty queues and the retirement of its instruction. -/
theorem pushed_calm (is : Isle) (q : Fin 4) (e : QEntry) (hq : queuesEmpty is) (hm : moverIdle is.mov) (hh : is.sk.held = none)
    (hw : e.wait = 0) (hr : is.ready e.sync = true) :
    (is.pushed q e).map Issued.run = some ((is.retire 1).onlyIn q e, []) := by
  rw [retire_calm is 1 hq hm hh]
  obtain ⟨m1, m2, m3, m4, m5⟩ := hm
  obtain ⟨f1, f2⟩ := fwds_calm is.mov.fwds 1 m5
  have hrun : ∀ x : Isle, (x.after 1 []).run = (x.retire 1, []) := fun x => after_run x 1 [] (by decide) (by decide)
  obtain ⟨q1, q2, q3, q4⟩ := hq
  have hr' : ∀ m a b c d k, Isle.ready { is with mov := m, mq := a, vq := b, dq := c, bq := d, sk := k } (headSync e) = true :=
    fun _ _ _ _ _ _ => ready_headSync is e hr
  obtain ⟨op, y, w⟩ := e
  simp only at hw hr'
  subst hw
  match q with
  | 0 | 1 | 2 | 3 =>
    simp [Isle.pushed, Isle.push, q1, q2, q3, q4, mqDepth, vqDepth, dqDepth, bqDepth, hrun, Isle.retire, Isle.pass, Isle.goto,
      Isle.bumpQ, hr', Mover.pass, m1, m2, m3, f1, f2, hh, heldSlot_none, Isle.noteWaits, Isle.otherWaits, Isle.moverWaits,
      Isle.onlyIn]

/-- The Isle that a queued instruction finds when it runs. -/
theorem onlyIn_empty (is : Isle) (hq : queuesEmpty is) :
    { is with mq := [], vq := [], dq := [], bq := [] } = is := by
  obtain ⟨q1, q2, q3, q4⟩ := hq
  obtain ⟨sk, me, ve, sto, mov, mq, vq, dq, bq, _, _, _, _, _, _, _⟩ := is
  simp only at q1 q2 q3 q4
  subst q1 q2 q3 q4
  rfl

/-- The head of the only queue that holds an instruction. -/
theorem progress_onlyIn (i : IsleIdx) (c : Bool) (is : Isle) (q : Fin 4) (e : QEntry) (r : Isle × List Report)
    (hq : queuesEmpty is) (hu : unitsIdle is.un) (hr : is.ready (headSync e) = true) (he : is.runEntry i c e = some r) :
    (is.onlyIn q e).progress i c = some r := by
  have hz := onlyIn_empty is hq
  match q with
  | 0 => exact progress_mq i c _ e [] r rfl hr (by rw [← he]; exact congrArg (Isle.runEntry i c e) hz)
  | 1 => exact progress_vq i c _ e [] r rfl rfl hr (by rw [← he]; exact congrArg (Isle.runEntry i c e) hz)
  | 2 => exact progress_dq i c _ e [] r rfl rfl rfl hu.2 rfl hr (by rw [← he]; exact congrArg (Isle.runEntry i c e) hz)
  | 3 => exact progress_bq i c _ e [] r rfl rfl hu.2 rfl hr (by rw [← he]; exact congrArg (Isle.runEntry i c e) hz)

/-- An instruction that joins an empty queue with its tokens ready runs at once on the retired Isle. -/
theorem issueAt_run (s : State) (i : IsleIdx) (ins : IsleInstr) (q : Fin 4) (e : QEntry) (y : Isle) (h : Calm s i)
    (ht : (s.isle i).tryIssue i (s.isleCompat i) ins = ((s.isle i).pushed q e).map Issued.run) (hw : e.wait = 0)
    (hr : (s.isle i).ready e.sync = true) (hr' : (s.isle i).ready (headSync e) = true)
    (hp : ((s.isle i).retire 1).runEntry i (s.isleCompat i) e = some (y, [])) (hq : queuesEmpty y) (hu : unitsIdle y.un)
    (hh : y.sk.held = none) (hm : moverIdle y.mov) : s.issueAt i ins = s.putIsle i y := by
  have hret := retire_calm _ 1 h.queues (h.movers i) (canIssue_held h.issues)
  refine issueAt_queued s i ins (((s.isle i).retire 1).onlyIn q e) y h ?_ ?_ ?_ ?_ ?_ hq hu hh hm
  · rw [ht, pushed_calm _ q e h.queues (h.movers i) (canIssue_held h.issues) hw hr]
  · rw [hret]; rfl
  · rw [hret]; exact h.movers i
  · rw [hret]; exact h.units.1
  · refine progress_onlyIn i _ _ q e (y, []) ?_ ?_ ?_ hp
    · rw [hret]; exact h.queues
    · rw [hret]; exact h.units
    · rw [hret]; exact hr'

/-- What an engine leaves of the parts that decide progress. -/
theorem control_calm (x is : Isle) (h : x.control = is.control) (hq : queuesEmpty is) (hm : moverIdle is.mov)
    (hh : is.sk.held = none) (y : Sync) :
    queuesEmpty (x.syncDone y) ∧ moverIdle (x.syncDone y).mov ∧ (x.syncDone y).un = is.un ∧ (x.syncDone y).sk.held = none := by
  obtain ⟨a1, a2, a3, a4, a5, a6⟩ := syncDone_queues x y
  simp only [Isle.control, Prod.mk.injEq] at h
  obtain ⟨c1, c2, c3, c4, c5, _, cu, c7⟩ := h
  refine ⟨⟨?_, ?_, ?_, ?_⟩, ?_, ?_, ?_⟩
  · rw [a1, c1]; exact hq.1
  · rw [a2, c2]; exact hq.2.1
  · rw [a3, c3]; exact hq.2.2.1
  · rw [a4, c4]; exact hq.2.2.2
  · rw [a5, c5]; exact hm
  · rw [syncDone_frame, ← cu]
  · rw [a6]
    have e : x.sk.held = is.sk.held := by simpa using congrArg Skerry.held c7
    exact e.trans hh

end Sys2Proof.Machine
end

