-- ==== Sys2Proof/Laws/Reef.lean ====
section
/-! SUPPORT. Faults: what a contained report changes. -/

namespace Sys2Proof.Machine

theorem orOpen_frame (s : State) (o : Option Nat) : (s.orOpen o).2 = { s with free := (s.orOpen o).2.free } := by
  cases o <;> rfl

theorem reefIrq_frame (s : State) :
    s.reefIrq = { s with out := s.reefIrq.out, reef := { s.reef with owedIrq := s.reefIrq.reef.owedIrq } } := by
  simp only [State.reefIrq]
  split
  · rfl
  · split <;> rfl

/-- An event touches the Reef's event queue and interrupt, and the outside. -/
theorem event_frame (s : State) (c : BitVec 16) (cls : BitVec 2) (row : Option RowIdx) (q : Word) :
    s.event c cls row q = { s with
      out := (s.event c cls row q).out
      reef := { s.reef with
        evovf := (s.event c cls row q).reef.evovf, events := (s.event c cls row q).reef.events
        owedIrq := (s.event c cls row q).reef.owedIrq } } := by
  simp only [State.event]
  split
  · rfl
  · rw [reefIrq_frame]

/-- A fault record touches the recorder, the event queue, the interrupt, the outside and the counter of open values. -/
theorem logFault_frame (s : State) (ty : Nat) (cls : BitVec 2) (r : Report) (row : Option RowIdx) (a b : Nat) :
    s.logFault ty cls r row a b = { s with
      free := (s.logFault ty cls r row a b).free
      evr := (s.logFault ty cls r row a b).evr
      out := (s.logFault ty cls r row a b).out
      reef := { s.reef with
        evovf := (s.logFault ty cls r row a b).reef.evovf, events := (s.logFault ty cls r row a b).reef.events
        owedIrq := (s.logFault ty cls r row a b).reef.owedIrq } } := by
  simp only [State.logFault]
  rw [event_frame]
  simp only [State.record]
  rw [orOpen_frame]

theorem setSlot_frame (s : State) (f : Fn) (k : Fin 64) (x : ResultSlot) :
    s.setSlot f k x = { s with fns := (s.setSlot f k x).fns } := rfl

/-- A fill changes the Isles of the run alone, and disarms an injection that it used up (R408). -/
theorem fillRun_frame (s : State) (m : BitVec 8) :
    s.fillRun m = { s with isles := (s.fillRun m).isles, reef := { s.reef with injArmed := (s.fillRun m).reef.injArmed } } := by
  simp only [State.fillRun]
  split <;> rfl

theorem quietPorts_frame (s : State) (m : BitVec 8) (d : Option (List (RowIdx × Nat × Word))) :
    s.quietPorts m d = { s with ports := (s.quietPorts m d).ports } := rfl

/-- A discarded job: its entry, its occupancies, its slot, and the Isles and ports of its run; the fill may use up an injection. -/
theorem discard_frame (s : State) (j : Job) (st : BitVec 16) (x : Word) :
    s.discard j st x = { s with
      jobs := (s.discard j st x).jobs, occs := (s.discard j st x).occs, fns := (s.discard j st x).fns
      isles := (s.discard j st x).isles, ports := (s.discard j st x).ports
      reef := { s.reef with injArmed := (s.discard j st x).reef.injArmed } } := by
  simp only [State.discard, State.freeSlot]
  split
  · rw [quietPorts_frame, fillRun_frame, setSlot_frame]; rfl
  · rw [setSlot_frame]; rfl

theorem fillRun_isle (s : State) (m : BitVec 8) (k : IsleIdx) :
    (s.fillRun m).isle k = if isleIn m k then (s.isle k).endFill else s.isle k := by
  simp only [State.isle, State.fillRun]
  exact vmodAll_get _ _ _ _

@[simp] theorem isle_quietPorts (s : State) (m : BitVec 8) (d : Option (List (RowIdx × Nat × Word))) (k : IsleIdx) :
    (s.quietPorts m d).isle k = s.isle k := rfl
@[simp] theorem isle_freeSlot (s : State) (f : Fn) (n : Fin 64) (k : IsleIdx) : (s.freeSlot f n).isle k = s.isle k := rfl
@[simp] theorem isle_vacateJob (s : State) (n : Nat) (k : IsleIdx) : (s.vacateJob n).isle k = s.isle k := rfl
@[simp] theorem isle_modJob (s : State) (n : Nat) (f : Job → Job) (k : IsleIdx) : (s.modJob n f).isle k = s.isle k := rfl

/-- A discarded job's Isles are filled; every other Isle is as before. -/
theorem discard_isle (s : State) (j : Job) (st : BitVec 16) (x : Word) (k : IsleIdx) :
    (s.discard j st x).isle k = if j.phase == .started && isleIn j.run k then (s.isle k).endFill else s.isle k := by
  simp only [State.discard]
  by_cases hp : (j.phase == .started) = true
  · simp only [hp, if_true, Bool.true_and, isle_quietPorts, fillRun_isle, isle_freeSlot, isle_vacateJob, isle_modJob]
  · simp only [hp, if_false, Bool.false_and, Bool.false_eq_true, isle_freeSlot, isle_vacateJob, isle_modJob]

theorem stopFor_isle (s : State) (r : Report) (row : Option RowIdx) (k : IsleIdx) :
    (s.stopFor r row).1.isle k = s.isle k ∨ (s.stopFor r row).1.isle k = (s.isle k).endFill := by
  simp only [State.stopFor]
  split
  · exact .inl rfl
  · split
    · rw [discard_isle]
      split
      · exact .inr rfl
      · exact .inl rfl
    · exact .inl rfl

/-- The job that a report finds is stopped; of the Reef only the armed injection may change. -/
theorem stopFor_frame (s : State) (r : Report) (row : Option RowIdx) :
    (s.stopFor r row).1.reef = { s.reef with injArmed := (s.stopFor r row).1.reef.injArmed } ∧ (s.stopFor r row).1.power = s.power := by
  simp only [State.stopFor]
  split
  · exact ⟨rfl, rfl⟩
  · split
    · rw [discard_frame]; exact ⟨rfl, rfl⟩
    · exact ⟨rfl, rfl⟩

theorem stopFor_none (s : State) (r : Report) (row : Option RowIdx) (h : row.bind s.chargedJob = none) :
    s.stopFor r row = (s, 0, 0) := by
  simp [State.stopFor, h]

/-- A contained report of the running module: counted once, and the Isles as the stopped job leaves them. -/
theorem containedTo_running (s : State) (r : Report) (row : Option RowIdx) (h : s.power = .running) :
    (s.containedTo r row).reef.cont = satInc32 s.reef.cont ∧ (s.containedTo r row).power = .running ∧
    (s.containedTo r row).reef.fatal = s.reef.fatal ∧ (s.containedTo r row).isles = (s.stopFor r row).1.isles := by
  simp only [State.containedTo, State.whenSeen, State.reefSees, h, beq_self_eq_true, if_true, State.flush]
  rw [logFault_frame]
  obtain ⟨a, b⟩ := stopFor_frame s r row
  refine ⟨?_, ?_, ?_, rfl⟩
  · show satInc32 _ = _
    rw [a]
  · exact b.trans h
  · show (s.stopFor r row).1.reef.fatal = _
    rw [a]

/-- An Isle after a contained fault: as before, or filled because its job was stopped. -/
theorem containedTo_isle (s : State) (r : Report) (row : Option RowIdx) (k : IsleIdx) (h : s.power = .running) :
    (s.containedTo r row).isle k = s.isle k ∨ (s.containedTo r row).isle k = (s.isle k).endFill := by
  simp only [State.isle, (containedTo_running s r row h).2.2.2]
  exact stopFor_isle s r row k

end Sys2Proof.Machine
end

