-- ==== Sys2Proof/Laws/Vector.lean ====
section
/-! SUPPORT. Vector lanes: what a packed register holds, one execution without a generator, and the issue of a vector
instruction in a calm state. -/

namespace Sys2Proof.Machine

/-! ## Lanes -/

theorem packNat_lane (w : Nat) (l : List Nat) (k : Nat) :
    packNat w l / 2 ^ (w * k) % 2 ^ w = l.getD k 0 % 2 ^ w := by
  induction l generalizing k with
  | nil => simp [packNat]
  | cons x t ih =>
    have hp : 0 < 2 ^ w := Nat.two_pow_pos w
    have hx : x % 2 ^ w < 2 ^ w := Nat.mod_lt _ hp
    cases k with
    | zero => simp [packNat, Nat.add_mod]
    | succ k =>
      rw [packNat, Nat.mul_succ, Nat.add_comm (w * k) w, Nat.pow_add, ← Nat.div_div_eq_div_mul,
        Nat.add_mul_div_left _ _ hp, Nat.div_eq_of_lt hx, Nat.zero_add, ih]
      simp

/-- Lane `k` of a packed register is the list's element `k`. -/
theorem lane_packLanes (w : Nat) (l : List Nat) (k : Nat) (hk : w * (k + 1) ≤ 2048) :
    lane w (packLanes w l) k = l.getD k 0 % 2 ^ w := by
  have hm : w * (k + 1) = w * k + w := Nat.mul_succ w k
  have h : lane w (packLanes w l) k = (BitVec.ofNat 2048 (packNat w l)).toNat / 2 ^ (w * k) % 2 ^ w := by
    rw [lane, field, packLanes, Nat.shiftRight_eq_div_pow]
  rw [h, BitVec.toNat_ofNat]
  generalize 2048 = n at hk
  have e : (2 : Nat) ^ n = 2 ^ (w * k) * 2 ^ (n - w * k) := by
    rw [← Nat.pow_add]; congr 1; omega
  have d : (2 : Nat) ^ w ∣ 2 ^ (n - w * k) := Nat.pow_dvd_pow 2 (by omega)
  rw [e, Nat.mod_mul_right_div_self, Nat.mod_mod_of_dvd _ d, packNat_lane w]

theorem lane_lt (w : Nat) (v : BitVec 2048) (k : Nat) : lane w v k < 2 ^ w := Nat.mod_lt _ (Nat.two_pow_pos w)

theorem lanes_getD (w : Nat) (v : BitVec 2048) (k : Nat) (hk : k < laneCount w) : (lanes w v).getD k 0 = lane w v k := by
  simp [lanes, hk]

theorem lanes_length (w : Nat) (v : BitVec 2048) : (lanes w v).length = laneCount w := by simp [lanes]

/-- Lane widths of the types. -/
theorem typeWidth_cases (ty : BitVec 3) : typeWidth ty = 8 ∨ typeWidth ty = 16 ∨ typeWidth ty = 32 := by
  simp only [typeWidth]
  split
  · exact .inl rfl
  · split
    · exact .inr (.inl rfl)
    · exact .inr (.inr rfl)

theorem lane_fits (ty : BitVec 3) (k : Nat) (hk : k < laneCount (typeWidth ty)) :
    typeWidth ty * (k + 1) ≤ 2048 := by
  have := typeWidth_cases ty
  simp only [laneCount] at hk
  rcases this with h | h | h <;> rw [h] at hk ⊢ <;> omega

/-! ## One execution -/

/-- An instruction without a generator executes once (R201). -/
theorem vecRun_once (i : IsleIdx) (c : Bool) (op : VOp) (f : VFields) (sc : Word) (is : Isle)
    (h : vecCount c op none = 1) : is.vecRun i c op f sc none = ((Isle.vecStep false i c op f sc none 0 is).1,
      (Isle.vecStep false i c op f sc none 0 is).2) := by
  simp [Isle.vecRun, h, List.range_succ]

end Sys2Proof.Machine
end

