-- ==== Sys2Proof/Tests/Slice0.lean ====
section
/-! SUPPORT. Small tests by evaluation: refusals of ill-formed commands, decoded instruction words, one step of commands whose
results the spec states, and a state that meets the hypotheses of each statement. -/

namespace Sys2Proof.Tests

set_option Elab.async false

open Sys2Proof Sys2Proof.Machine

/-! ## Helpers -/

/-- The next state of an outcome, or the reset state where there is none. -/
def next (r : Host.Outcome State Fault Refusal) : State :=
  match r with
  | .next t => t
  | _ => State.reset

/-- A running module. -/
def base : State := { State.reset with power := .running }

/-- The Skerry of an Isle that can issue, with s_k = 10 k. -/
def sk0 : Skerry :=
  { Skerry.reset with st := .running, halt := false, s := Vector.ofFn (fun k : Fin 32 => BitVec.ofNat 32 (10 * k.val)) }

/-- An Isle that can issue. -/
def isle0 : Isle := { Isle.reset with sk := sk0 }

/-- A running module whose Isle 3 is as given. -/
def withIsle (x : Isle) : State := base.setIsle 3 x
def live : State := withIsle isle0

/-- Isle 3 with one scalar register given. -/
def withReg (r : Fin 32) (v : Word) : State := withIsle (isle0.setReg r v)

def sf (sd sa sb : Fin 32) : SFields := { sd := sd, sa := sa, sb := sb, sc := 0, useImm := false, imm := 0 }
def si (sd sa : Fin 32) (imm : Word) : SFields := { sd := sd, sa := sa, sb := 0, sc := 0, useImm := true, imm := imm }

/-- Register `r` of Isle 3 after a command. -/
def regAfter (c : Instr) (s : State) (r : Fin 32) : Word := ((next (exec c s)).isle 3).reg r

/-- An Isle 3 that only its Skerry and memories tell from `isle0` is calm. -/
theorem calm_of (x : Isle) (h1 : x.canIssue = true) (h2 : queuesEmpty x) (h3 : x.mov = Mover.reset) (h4 : x.un = Units.none) :
    Calm (withIsle x) 3 := by
  refine ⟨rfl, rfl, ?_, ?_, ?_, fun k => ?_⟩
  · rw [withIsle, isle_setIsle]; exact h1
  · rw [withIsle, isle_setIsle]; exact h2
  · rw [withIsle, isle_setIsle, h4]; exact ⟨rfl, rfl, rfl⟩
  · by_cases hk : k = 3
    · rw [hk, withIsle, isle_setIsle, h3]; unfold moverIdle; decide
    · rw [withIsle, isle_setIsle_ne _ _ _ _ hk]
      have : ∀ k, moverIdle (base.isle k).mov := by unfold moverIdle; decide +kernel
      exact this k

theorem live_calm : Calm live 3 := calm_of _ rfl ⟨rfl, rfl, rfl, rfl⟩ rfl rfl
theorem withReg_calm (r : Fin 32) (v : Word) : Calm (withReg r v) 3 := by
  refine calm_of _ ?_ ?_ ?_ ?_ <;> unfold Isle.setReg <;> split <;> first | rfl | exact ⟨rfl, rfl, rfl, rfl⟩

/-! ## Ill-formed commands -/

def noSections : ImageSections :=
  { pages := [[]], slotTables := [], moverPlans := [], inputs := [], results := [], fingerprints := [], keySerial := none,
    keyKinds := [], luts := [], profiles := [], prog := [], strait := none, descTables := [], lagoonPlan := [],
    memWindows := [], residents := [] }

def pkt0 : Packet :=
  { fn := 8, q := 0, idx := 0, version := 2, noirq := false, fence := false, arm := false, opcode := 0x90, cid := 7, jobid := 0,
    body := 0, ext := 0 }
def pktV : Packet := { pkt0 with fn := 2 }

def zeros (n : Nat) : List Byte := List.replicate n 0
def loads (x : ImageSections) : Instr := .loadProgram pktV { raw := zeros 256, sections := x, sealBlk := [] }

theorem test_wf_accepts : (loads noSections).wellFormed = true ∧ (Instr.commandFetch 8 0 (zeros 64)).wellFormed = true ∧
    (Instr.idleFlit 0 (zeros 294)).wellFormed = true ∧ (Instr.wstate 0 (zeros 34)).wellFormed = true := by decide +kernel
theorem test_wf_fetch : (Instr.commandFetch 8 0 (zeros 47)).wellFormed = false := by decide +kernel
theorem test_wf_paramset : (Instr.loadParamset pktV (zeros 1023)).wellFormed = false := by decide +kernel
theorem test_wf_image_raw : (Instr.loadProgram pktV { raw := zeros 255, sections := noSections, sealBlk := [] }).wellFormed = false := by
  decide +kernel
theorem test_wf_image_pages : (loads { noSections with pages := [] }).wellFormed = false ∧
    (loads { noSections with pages := List.replicate 17 [] }).wellFormed = false := by decide +kernel
theorem test_wf_image_page_words : (loads { noSections with pages := [List.replicate 4097 0] }).wellFormed = false := by decide +kernel
theorem test_wf_image_slots : (loads { noSections with slotTables := [List.replicate 129 0] }).wellFormed = false ∧
    (loads { noSections with slotTables := List.replicate 65 [] }).wellFormed = false := by decide +kernel
theorem test_wf_image_plans : (loads { noSections with moverPlans := List.replicate 65 (0, 0, 0) }).wellFormed = false ∧
    (loads { noSections with lagoonPlan := List.replicate 17 0 }).wellFormed = false ∧
    (loads { noSections with lagoonPlan := [3] }).wellFormed = false := by decide +kernel
theorem test_wf_image_results : (loads { noSections with results := [{ value := 0, align16 := false }] }).wellFormed = false ∧
    (loads { noSections with luts := [[]] }).wellFormed = false := by decide +kernel
theorem test_wf_image_program : (loads { noSections with prog := [.ntt 0] }).wellFormed = false ∧
    progOk 1 [.rot 0 2] = false ∧ progOk 1 [.moddrop 0 0] = false ∧ progOk 1 [.rot 0 3, .moddrop 1 1] = true := by decide +kernel
theorem test_wf_manifest : (Instr.loadKeyset pktV { raw := zeros 63, sig := [], records := [] }).wellFormed = false ∧
    (Instr.loadKeyset pktV { raw := zeros 64, sig := [], records := [[]] }).wellFormed = false ∧
    (Instr.loadKeyset pktV { raw := zeros 80, sig := [], records := [[]] }).wellFormed = false := by decide +kernel
theorem test_wf_flits : (Instr.keyFlit 0 (zeros 293)).wellFormed = false ∧ (Instr.winFlit 0 (zeros 293)).wellFormed = false ∧
    (Instr.redFlit 0 (zeros 295)).wellFormed = false ∧ (Instr.idleFlit 0 []).wellFormed = false := by decide +kernel
theorem test_wf_codewords : (Instr.wstate 0 (zeros 33)).wellFormed = false ∧ (Instr.nack 0 (zeros 35)).wellFormed = false ∧
    (Instr.statusCodeword 0 []).wellFormed = false := by decide +kernel
theorem test_wf_mesh : (Instr.meshFlitDelivery 0 (zeros 26) (zeros 140)).wellFormed = false ∧
    (Instr.meshFlitDelivery 0 (zeros 27) (zeros 139)).wellFormed = false := by decide +kernel
theorem test_wf_accesses : (Instr.hostDramWrite 8 0 []).wellFormed = false ∧ (Instr.hostDramRead 8 0 0).wellFormed = false ∧
    (Instr.resultRead 0 0 0 0).wellFormed = false ∧ (Instr.resultRead 0 0 (2 ^ 34) 1).wellFormed = false := by decide +kernel

/-! ## Instruction words (Tables ISA-1 to ISA-6), written out from their fields -/

/-- ADD s3, s4, s5: UNIT 0, OP 0x00, sd 3, sa 4, sb 5. -/
theorem test_decode_add : decodeIsle (0x00 * 2 ^ 52 + 3 * 2 ^ 47 + 4 * 2 ^ 42 + 5 * 2 ^ 37) = .scalar .add (sf 3 4 5) := by decide +kernel
/-- SUB in the immediate form, OP 0x81. -/
theorem test_decode_sub_imm : decodeIsle (0x81 * 2 ^ 52 + 3 * 2 ^ 47 + 4 * 2 ^ 42 + 9) = .scalar .sub (si 3 4 9) := by decide +kernel
/-- BNE s1, s2, −8: UNIT 1, OP 0x01. -/
theorem test_decode_bne : decodeIsle (1 * 2 ^ 60 + 0x01 * 2 ^ 52 + 1 * 2 ^ 42 + 2 * 2 ^ 37 + 0xFFFFFFF8) =
    .branch .bne { sa := 1, sb := 2, imm := 0xFFFFFFF8 } := by decide +kernel
/-- The MMUL of the example under Table ISA-6. -/
theorem test_decode_mmul : decodeIsle 0x202A53F200008586 = .mmul {
    mode := 5, ft := 1, dt := 2, n1 := 63, acc := false, red := false, close := true, fsrc := false, ag := 0, ff := false, frow := 0,
    sync := { rv := true, rslot := 5, wv := true, wslot := 6 } } := by decide +kernel
/-- VADD of 32-bit lanes without a generator: UNIT 3, OP 0x00, TYPE 2, vd 1, va 2, vb 3, AG 15. -/
theorem test_decode_vadd : decodeIsle (3 * 2 ^ 60 + 2 * 2 ^ 49 + 1 * 2 ^ 44 + 2 * 2 ^ 39 + 3 * 2 ^ 34 + 15 * 2 ^ 20) =
    .vec .vadd { ty := 2, vd := 1, va := 2, vb := 3, vc := 0, sn := 0, ag := 15, aux := 0, sync := Sync.none } := by decide +kernel
/-- MVISSUE of 3 descriptors at 0x40: UNIT 4, OP 0x00. -/
theorem test_decode_mvissue : decodeIsle (4 * 2 ^ 60 + 3 * 2 ^ 40 + 0x40 * 2 ^ 16) = .mvissue 3 0x40 Sync.none := by decide +kernel
/-- BSOP MADD (FN 0x11) with AGA 1, AGB 2, s7: UNIT 5. -/
theorem test_decode_madd : decodeIsle (5 * 2 ^ 60 + 0x11 * 2 ^ 44 + 1 * 2 ^ 40 + 2 * 2 ^ 36 + 7 * 2 ^ 31) =
    .bank .madd { aga := 1, agb := 2, sn := 7, sync := Sync.none } := by decide +kernel
/-- TTAKE at VQ of slot 3: UNIT 6, OP 0x00, Q 1, RV 1. -/
theorem test_decode_ttake : decodeIsle (6 * 2 ^ 60 + 1 * 2 ^ 50 + 2 ^ 15 + 3 * 2 ^ 8) =
    .ttake { q := 1, sk := false, sync := { rv := true, rslot := 3, wv := false, wslot := 0 } } := by decide +kernel
/-- Reserved units and operation codes are no-operations (R185, R190). -/
theorem test_decode_reserved : decodeIsle (7 * 2 ^ 60) = .nop ∧ decodeIsle (0x3F * 2 ^ 52) = .nop := by decide +kernel

/-! ## Scalar instructions -/

theorem test_add_wraps : regAfter (.add 3 (si 5 1 0xFFFFFFFF)) (withReg 1 1) 5 = 0 := by decide +kernel
theorem test_add_same_register : regAfter (.add 3 (sf 4 4 4)) live 4 = 80 := by decide +kernel
theorem test_s0_discards : regAfter (.add 3 (sf 0 1 2)) live 0 = 0 := by decide +kernel
theorem test_sub_wraps : regAfter (.sub 3 (sf 5 0 1)) live 5 = 0xFFFFFFF6 := by decide +kernel
theorem test_sll_amount : regAfter (.sll 3 (si 5 1 33)) live 5 = 20 := by decide +kernel
theorem test_sra_sign : regAfter (.sra 3 (si 5 1 4)) (withReg 1 0x80000000) 5 = 0xF8000000 := by decide +kernel
theorem test_srl : regAfter (.srl 3 (si 5 1 4)) (withReg 1 0x80000000) 5 = 0x08000000 := by decide +kernel
theorem test_slt_signed : regAfter (.slt 3 (sf 5 1 0)) (withReg 1 0xFFFFFFFF) 5 = 1 := by decide +kernel
theorem test_sltu_unsigned : regAfter (.sltu 3 (sf 5 1 0)) (withReg 1 0xFFFFFFFF) 5 = 0 := by decide +kernel
theorem test_mulh_signed : regAfter (.mulh 3 (sf 5 1 2)) (withReg 1 0xFFFFFFFF) 5 = 0xFFFFFFFF := by decide +kernel
theorem test_mulhu : regAfter (.mulhu 3 (sf 5 1 2)) (withReg 1 0xFFFFFFFF) 5 = 19 := by decide +kernel
theorem test_div_by_zero : regAfter (.div 3 (sf 5 1 0)) live 5 = 0xFFFFFFFF ∧ regAfter (.rem 3 (sf 5 1 0)) live 5 = 10 := by decide +kernel
theorem test_div_overflow : regAfter (.div 3 (si 5 1 0xFFFFFFFF)) (withReg 1 0x80000000) 5 = 0x80000000 ∧
    regAfter (.rem 3 (si 5 1 0xFFFFFFFF)) (withReg 1 0x80000000) 5 = 0 := by decide +kernel
theorem test_div_towards_zero : regAfter (.div 3 (si 5 1 2)) (withReg 1 0xFFFFFFF9) 5 = 0xFFFFFFFD ∧
    regAfter (.rem 3 (si 5 1 2)) (withReg 1 0xFFFFFFF9) 5 = 0xFFFFFFFF := by decide +kernel
/-- 1.0 + 1.0 = 2.0, and 1.0 / 0 is infinity in fp32. -/
theorem test_fadd : regAfter (.fadd 3 (sf 5 1 1)) (withReg 1 0x3F800000) 5 = 0x40000000 := by decide +kernel
theorem test_fdiv_zero : regAfter (.fdiv 3 (sf 5 1 0)) (withReg 1 0x3F800000) 5 = 0x7F800000 := by decide +kernel
/-- 2^24 + 1 is no fp32 number; the tie goes to the even 2^24. -/
theorem test_fcvtsw_tie : regAfter (.fcvtsw 3 (sf 5 1 0)) (withReg 1 0x1000001) 5 = 0x4B800000 := by decide +kernel
theorem test_fsqrt : regAfter (.fsqrt 3 (sf 5 1 0)) (withReg 1 0x41100000) 5 = 0x40400000 := by decide +kernel

/-- Isle 3 with the bytes 0x80, 0x81 … from store address 0x100 on, and s1 = 0x100. -/
def stored : State := withIsle (((isle0.setReg 1 0x100)).storeWrite 0x100 [0x80, 0x81, 0x82, 0x83, 0x84])
def ldf (imm : Word) : SFields := { sd := 5, sa := 1, sb := 2, sc := 0, useImm := false, imm := imm }
theorem test_ld8_sign : regAfter (.ld8 3 (ldf 0)) stored 5 = 0xFFFFFF80 ∧ regAfter (.ld8u 3 (ldf 0)) stored 5 = 0x80 := by decide +kernel
theorem test_ld16_order : regAfter (.ld16 3 (ldf 2)) stored 5 = 0xFFFF8382 ∧ regAfter (.ld16u 3 (ldf 2)) stored 5 = 0x8382 := by
  decide +kernel
theorem test_ld32_order : regAfter (.ld32 3 (ldf 0)) stored 5 = 0x83828180 := by decide +kernel
def bytesAfter (c : Instr) (s : State) (a n : Nat) : List Byte := (List.range n).map (fun k => memRead ((next (exec c s)).isle 3).sto.mem (a + k))
theorem test_st16_order : bytesAfter (.st16 3 (ldf 2)) (withIsle ((isle0.setReg 1 0x100).setReg 2 0x12345678)) 0x101 4 =
    [0, 0x78, 0x56, 0] := by decide +kernel
/-- A misaligned load traps with cause 2, one beyond 3 MiB with cause 1 (R185, R188). -/
theorem test_trap_causes : (((next (exec (.ld32 3 (ldf 1)) stored)).isle 3).sk.st, ((next (exec (.ld32 3 (ldf 1)) stored)).isle 3).sk.cause) =
      (.trapped, 2) ∧ ((next (exec (.ld8 3 (ldf 0)) (withReg 1 0x300000))).isle 3).sk.cause = 1 := by decide +kernel

/-! ## Witnesses: Skerry -/

theorem witness_ScalarIntegerResults : Calm live 3 := live_calm
theorem witness_ScalarLoads : Calm (withReg 1 0x2FFFFF) 3 ∧ ((withReg 1 0x2FFFFF).isle 3).sto.errs = [] ∧
    0x2FFFFF + 1 = visibleBytes (withReg 1 0x2FFFFF) 3 ∧ 0x2FFFFE + 2 = visibleBytes (withReg 1 0x2FFFFE) 3 ∧
    0x2FFFFC + 4 = visibleBytes (withReg 1 0x2FFFFC) 3 ∧
    (((withReg 1 0x2FFFFC).isle 3).reg (ldf 0).sa + (ldf 0).imm).toNat = 0x2FFFFC := ⟨withReg_calm _ _, by decide +kernel⟩
theorem witness_ScalarStores : Calm (withReg 1 0x2FFFFC) 3 ∧ Memory.wf ((withReg 1 0x2FFFFC).isle 3).sto.mem = true ∧
    0x2FFFFC + 4 ≤ visibleBytes (withReg 1 0x2FFFFC) 3 ∧ 0x2FFFFC % 4 = 0 := ⟨withReg_calm _ _, by decide +kernel⟩
theorem witness_ScalarAccessTraps : Calm (withReg 1 0x2FFFFD) 3 ∧ IsScalar (.ld32 3 (ldf 0)) .ld32 3 (ldf 0) ∧
    accessBytes .ld32 = 4 ∧ visibleBytes (withReg 1 0x2FFFFD) 3 < 0x2FFFFD + 4 ∧
    0x2FFFFB + 4 ≤ visibleBytes (withReg 1 0x2FFFFB) 3 ∧ 0x2FFFFB % 4 ≠ 0 := ⟨withReg_calm _ _, rfl, by decide +kernel⟩

/-- An Isle in an open loop of two iterations, at its first. -/
def looping : State :=
  withIsle { isle0 with sk := { sk0 with pc := 16, loops := [{ first := 8, past := 32, count := 2, idx := 0 }] } }
theorem looping_calm : Calm looping 3 := calm_of _ rfl ⟨rfl, rfl, rfl, rfl⟩ rfl rfl
theorem witness_LoopOpens : Calm live 3 ∧ min ((live.isle 3).reg 0).toNat 5 = 0 ∧ min (((live.isle 3).reg 1).toNat % 2 ^ 24) 5 = 5 :=
  ⟨live_calm, by decide +kernel⟩
theorem witness_LoopExitAndIndex : Calm looping 3 ∧ (looping.isle 3).reg 0 = 0 ∧ (looping.isle 3).reg 1 ≠ 0 ∧
    (looping.isle 3).sk.loops[0]? = some { first := 8, past := 32, count := 2, idx := 0 } := ⟨looping_calm, by decide +kernel⟩
/-- LEXIT leaves the loop for the instruction after its body, and LIDX reads the index 0. -/
theorem test_lexit : ((next (exec (.lexit 3 1) looping)).isle 3).sk.pc = 32 ∧ ((next (exec (.lexit 3 1) looping)).isle 3).sk.loops = [] ∧
    regAfter (.lidx 3 5 0) looping 5 = 0 := by decide +kernel
/-- LOOP with CI = 0 takes the smaller of s_sa and MAXCNT; a count of 0 skips the body. -/
theorem test_loop : ((next (exec (.loop 3 1 false 4 2) live)).isle 3).sk.loops = [{ first := 8, past := 24, count := 4, idx := 0 }] ∧
    ((next (exec (.loop 3 0 false 4 2) live)).isle 3).sk.pc = 24 := by decide +kernel
/-- At the end of the body the loop repeats, and the branch back costs nothing. -/
theorem test_loop_repeats : (let t := next (exec (.add 3 (sf 5 1 1)) (withIsle { isle0 with sk := {
    sk0 with pc := 24, loops := [{ first := 8, past := 32, count := 2, idx := 0 }] } }));
    ((t.isle 3).sk.pc, (t.isle 3).sk.loops, (t.isle 3).sk.cyc)) = (8, [{ first := 8, past := 32, count := 2, idx := 1 }], 1) := by
  decide +kernel
theorem test_branch_taken : (let t := next (exec (.bne 3 { sa := 1, sb := 2, imm := 64 }) live); ((t.isle 3).sk.pc, (t.isle 3).sk.cyc)) =
    (64, 3) := by decide +kernel
theorem test_branch_signs : ((next (exec (.blt 3 { sa := 1, sb := 0, imm := 64 }) (withReg 1 0xFFFFFFFF))).isle 3).sk.pc = 64 ∧
    ((next (exec (.bltu 3 { sa := 1, sb := 0, imm := 64 }) (withReg 1 0xFFFFFFFF))).isle 3).sk.pc = 8 := by decide +kernel
theorem test_csrr_id : regAfter (.csrr 3 5 0) live 5 = 3 ∧ regAfter (.csrr 3 5 2) live 5 = 8 := by decide +kernel
theorem test_csrw_scr : regAfter (.csrr 3 5 0x12) (next (exec (.csrw 3 4 0x12) live)) 5 = 40 := by decide +kernel

theorem witness_GeneratorLoads : Calm (withReg 1 0x2FFFC0) 3 ∧ ((withReg 1 0x2FFFC0).isle 3).sto.errs = [] ∧
    (((withReg 1 0x2FFFC0).isle 3).reg 1 + 0).toNat + 64 = visibleBytes (withReg 1 0x2FFFC0) 3 ∧
    visibleBytes (withReg 1 0x2FFFC0) 3 < (((withReg 1 0x2FFFC0).isle 3).reg 1 + 1).toNat + 64 ∧ 14 < (15 : BitVec 6).toNat :=
  ⟨withReg_calm _ _, by decide +kernel⟩
theorem witness_ChainLatches : Calm live 3 ∧ Skerry.reset.agw = [] ∧ (live.isle 3).ready Sync.none = true ∧ (live.isle 3).reg 0 ++ (live.isle 3).reg 0 = (0 : DWord) ∧
    (live.isle 3).reg 1 ++ (live.isle 3).reg 0 ≠ (0 : DWord) ∧ (live.isle 3).me.norm = none := ⟨live_calm, by decide +kernel⟩
/-- AGW of FIELD 9 writes the second stride alone, and an instruction that issues in the next Isle cycle captures the old one. -/
theorem test_agw : (let g := (next (exec (.agw 3 4 9 1) live)).isle 3; ((g.sk.agAt 4 1).strides.toList, (g.sk.agAt 4 2).strides.toList)) =
    ([0, 0, 0, 0, 0, 0], [0, 10, 0, 0, 0, 0]) := by decide +kernel
/-- CHAINH of zeros ends the chain. -/
theorem test_chainh : ((next (exec (.chainh 3 1 2 { link2 := true, sync := Sync.none }) live)).isle 3).sk.chain.header = 0x140000000A ∧
    ((next (exec (.chainh 3 0 0 { link2 := true, sync := Sync.none }) live)).isle 3).sk.chain.header = 0 := by decide +kernel

def late : State := withIsle { isle0 with slack := 5, sk := { sk0 with cyc := 100 } }
theorem late_calm : Calm late 3 := calm_of _ rfl ⟨rfl, rfl, rfl, rfl⟩ rfl rfl
theorem witness_WaitForCycle : Calm late 3 ∧ (late.isle 3).sk.cyc + 1 - (96 : BitVec 48).toNat = (late.isle 3).slack.toNat ∧
    (late.isle 3).slack.toNat < (late.isle 3).sk.cyc + 1 - (95 : BitVec 48).toNat := ⟨late_calm, by decide +kernel⟩
theorem test_waitcyc : ((next (exec (.waitcyc 3 500) late)).isle 3).sk.cyc = 500 ∧
    ((next (exec (.waitcyc 3 96) late)).isle 3).tokOvr = false ∧ ((next (exec (.waitcyc 3 95) late)).isle 3).tokOvr = true := by decide +kernel

def page2 : ImBank := { valid := true, fn := 1, image := 9, page := 2, words := [] }
/-- An Isle whose shadow bank holds page 2 of the running image. -/
def swappable : State := withIsle { isle0 with sk := { sk0 with run := some (1, 9), bank1 := page2 } }
theorem swappable_calm : Calm swappable 3 := calm_of _ rfl ⟨rfl, rfl, rfl, rfl⟩ rfl rfl
/-- An Isle whose page copy runs is not quiet. -/
def loading : State := withIsle { isle0 with sk := { sk0 with run := some (1, 9), imload := some 2 } }
theorem loading_calm : Calm loading 3 := calm_of _ rfl ⟨rfl, rfl, rfl, rfl⟩ rfl rfl
theorem witness_FenceEndAndSwap : Calm swappable 3 ∧ (swappable.isle 3).quiet 15 = true ∧ (swappable.isle 3).sk.imload = none ∧
    (swappable.isle 3).sk.hasPage (swappable.isle 3).sk.shadow 2 = true ∧ (swappable.isle 3).sk.hasPage (swappable.isle 3).sk.shadow 1 = false :=
  ⟨swappable_calm, by decide +kernel⟩
theorem witness_FenceWaits : Calm loading 3 ∧ (loading.isle 3).quiet 4 = false ∧ (loading.isle 3).quiet 15 = false :=
  ⟨loading_calm, by decide +kernel⟩
theorem test_swap : (let k := ((next (exec (.swap 3 2 0x40) swappable)).isle 3).sk; (k.active, k.pc)) = (true, 0x40) := by decide +kernel
theorem test_end : ((next (exec (.iend 3) live)).isle 3).sk.ended = true ∧ ((next (exec (.iend 3) loading)).isle 3).sk.st = .stalled := by
  decide +kernel

/-! ## Witnesses: vector engine -/

/-- Isle 3 with va = v2 of bytes 0, 1, 2 … and vb = v3 of ones. -/
def vlive : State :=
  withIsle { isle0 with ve := { Vec.reset with v := Vector.ofFn (fun r : Fin 32 =>
    if r = 2 then BitVec.ofNat 2048 ((List.range 256).foldr (fun k n => n * 256 + k) 0)
    else if r = 3 then BitVec.ofNat 2048 ((2 ^ 2048 - 1) / 255) else 0) } }
theorem vlive_calm : Calm vlive 3 := calm_of _ rfl ⟨rfl, rfl, rfl, rfl⟩ rfl rfl
def vf (ty : BitVec 3) (aux : BitVec 4) : VFields :=
  { ty := ty, vd := 1, va := 2, vb := 3, vc := 4, sn := 5, ag := 15, aux := aux, sync := Sync.none }
/-- The integer, modular, float and conversion statements ask for a ready instruction of a lane type. -/
theorem witness_VectorReady : VectorReady vlive 3 (vf 2 0) ∧ (vf 2 0).ty.toNat ≤ 2 ∧ (vf 2 0).ty = 2 ∧ VectorReady vlive 3 (vf 3 0) ∧
    3 ≤ (vf 3 0).ty.toNat ∧ VectorReady vlive 3 (vf 5 0) ∧ (vf 5 0).ty.toNat ≤ 5 ∧ vecOk .vcvt (vf 0 8) = true :=
  ⟨⟨vlive_calm, rfl, rfl⟩, by decide, rfl, ⟨vlive_calm, rfl, rfl⟩, by decide, ⟨vlive_calm, rfl, rfl⟩, by decide, rfl⟩
theorem witness_VectorInstructionsFinish : Calm vlive 3 ∧ IsVector (.vadd 3 (vf 0 0)) .vadd 3 (vf 0 0) ∧ vecOk .vadd (vf 0 0) = true ∧
    (vlive.isle 3).ready (vf 0 0).sync = true ∧ (((vlive.isle 3).retire 1).vecRun 3 (vlive.isleCompat 3) .vadd (vf 0 0)
      ((vlive.isle 3).reg 5) ((vlive.isle 3).capOpt 15)).2 = [] := ⟨vlive_calm, rfl, rfl, rfl, by decide +kernel⟩
theorem witness_UnsupportedLaneTypes : Calm vlive 3 ∧ IsVector (.vadd 3 (vf 3 0)) .vadd 3 (vf 3 0) ∧ vecOk .vadd (vf 3 0) = false :=
  ⟨vlive_calm, rfl, rfl⟩
def laneAfter (c : Instr) (w : Nat) (k : Nat) : Nat := vlane (next (exec c vlive)) 3 w 1 k
theorem test_vadd_wraps : laneAfter (.vadd 3 (vf 0 0)) 8 255 = 0 ∧ laneAfter (.vadd 3 (vf 0 0)) 8 7 = 8 := by decide +kernel
theorem test_vadds_clamps : laneAfter (.vadds 3 (vf 0 0)) 8 127 = 127 ∧ ((next (exec (.vadds 3 (vf 0 0)) vlive)).isle 3).ve.sat = true := by
  decide +kernel
theorem test_vmax_signs : laneAfter (.vmax 3 (vf 0 0)) 8 200 = 1 ∧ laneAfter (.vmax 3 (vf 0 4)) 8 200 = 200 := by decide +kernel
theorem test_vrsum : ((next (exec (.vrsum 3 (vf 0 0)) vlive)).isle 3).reg 5 = 0xFFFFFF80 := by decide +kernel
theorem test_vrmaxi : ((next (exec (.vrmaxi 3 (vf 0 0)) vlive)).isle 3).reg 5 = 127 ∧
    ((next (exec (.vrmaxi 3 (vf 0 4)) vlive)).isle 3).reg 5 = 255 := by decide +kernel

/-- Isle 3 with generator 0 stepping 8 store words of 32 bytes from 4096, generator 1 naming the last word of the store, and
generator 2 the last 256 bytes of the tile registers. -/
def ag8 : AddrGen := { AddrGen.reset with base := 4096, counts := Vector.ofFn (fun k : Fin 6 => if k = 0 then 8 else 1), strides := Vector.ofFn (fun k : Fin 6 => if k = 0 then 32 else 0) }
def ag1 (b : BitVec 22) : AddrGen := { AddrGen.reset with base := b, counts := Vector.replicate 6 1 }
def alive : State :=
  withIsle { isle0 with
    sk := { sk0 with ags := Vector.ofFn (fun k : Fin 16 => if k = 0 then ag8 else if k = 1 then ag1 0x2FFFE0 else if k = 2 then ag1 0x1FF00 else ag1 64) }
    sto := { Store.reset with mem := memWriteN [] 64 [1, 0, 0, 0, 2, 0, 0, 0] } }
theorem alive_calm : Calm alive 3 := calm_of _ rfl ⟨rfl, rfl, rfl, rfl⟩ rfl rfl
theorem witness_VectorTransfers : Calm alive 3 ∧ (alive.isle 3).ready Sync.none = true ∧ ((alive.isle 3).cap 0).size false = 8 ∧
    (∀ k, k < 8 → ((alive.isle 3).cap 0).elem false k % 32 = 0 ∧ ((alive.isle 3).cap 0).elem false k + 32 ≤ 0x300000) ∧
    banksDistinct ((List.range 8).map (((alive.isle 3).cap 0).elem false)) = true ∧ (alive.isle 3).sto.errs = [] ∧
    Memory.wf (alive.isle 3).sto.mem = true ∧ ((alive.isle 3).cap 2).size false = 1 ∧
    ((alive.isle 3).cap 2).elem false 0 % 131072 + 256 = 131072 ∧ (alive.isle 3).me.tileErrs = [] ∧
    Memory.wf (alive.isle 3).me.tiles = true ∧ alive.isleCompat 3 = false := ⟨alive_calm, by decide +kernel⟩

/-! ## Witnesses: bank-side units, matrix engine -/

def bf (aga agb : Fin 16) : BFields := { aga := aga, agb := agb, sn := 5, sync := Sync.none }
theorem witness_BankOperationsComplete : Calm alive 3 ∧ IsBank (.madd 3 (bf 1 3)) .madd 3 (bf 1 3) ∧ (alive.isle 3).ready (bf 1 3).sync = true ∧
    (((alive.isle 3).retire 1).bankRun 3 (alive.isleCompat 3) .madd (bf 1 3) ((alive.isle 3).cap 1) ((alive.isle 3).cap 3)
      ((alive.isle 3).reg 5) ((alive.isle 3).reg 6)).2 = [] := ⟨alive_calm, rfl, rfl, by decide +kernel⟩
theorem witness_BankWordResults : Calm alive 3 ∧ (alive.isle 3).sto.errs = [] ∧ Memory.wf (alive.isle 3).sto.mem = true ∧
    ((alive.isle 3).cap 1).size false = 1 ∧ ((alive.isle 3).cap 1).elem false 0 + 32 = 0x300000 ∧
    ((alive.isle 3).cap 1).elem false 0 % 32 = 0 ∧ ((alive.isle 3).cap 3).size false = 1 ∧ ((alive.isle 3).cap 3).elem false 0 = 64 :=
  ⟨alive_calm, by decide +kernel⟩
/-- The chunk of a level key, and an Isle whose key slot 0 of one block at 64 holds it; lane E has it as well. -/
def chunk0 : KeyChunk :=
  { keyset := 0, mfp := 0, record := 0, seed := zeros 32, kind := 1, chunk := 0, limbs := 1, tiles := 1, nr := 0, digits := 0, lweDim := 0, primes := [5] }
def klive : State :=
  withIsle { (alive.isle 3) with
    sto := { (alive.isle 3).sto with slots := [{ kind := 2, init := false, readers := 2, len := 512, base := 64, full := true, drain := 0, rounds := 0, got := 0 }]
                                     tags := [(64, chunk0)] }
    laneE := [chunk0], lanePos := 8 }
theorem klive_calm : Calm klive 3 := calm_of _ rfl ⟨rfl, rfl, rfl, rfl⟩ rfl rfl
def kf : BFields := { aga := 1, agb := 3, sn := 5, sync := { rv := true, rslot := 0, wv := false, wslot := 0 } }
theorem witness_KeyLanes : Calm klive 3 ∧ IsBank (.mmack 3 kf) .mmack 3 kf ∧ IsBank (.mmace 3 (bf 1 3)) .mmace 3 (bf 1 3) ∧
    (klive.isle 3).ready kf.sync = true ∧ bankCount false .mmack ((klive.isle 3).cap 1) ((klive.isle 3).cap 3) = 1 ∧
    1 ≤ ((klive.isle 3).slot kf.sync.rslot).len ∧ 8 * 1 ≤ laneLeft (klive.isle 3).laneE (klive.isle 3).lanePos :=
  ⟨klive_calm, rfl, rfl, by decide +kernel⟩
/-- MMACK gives its slot's chunk to lane E behind what is still to be taken (R238). -/
theorem test_mmack_feeds_lane : (let x := (next (exec (.mmack 3 kf) klive)).isle 3; (x.laneE.length, x.lanePos, (x.slot 0).drain)) = (2, 8, 1) := by
  decide +kernel
/-- IADD of the words at generator 3 with themselves doubles each lane. -/
theorem test_iadd : ((next (exec (.iadd 3 (bf 3 3)) alive)).isle 3).storeW 68 = 4 := by decide +kernel
/-- CCU32 counts the lanes at or above s5 = 2 in the word at 64: one. -/
theorem test_ccu32 : ((next (exec (.ccu32 3 (bf 3 3)) (alive.setIsle 3 ((alive.isle 3).setReg 5 2)))).isle 3).reg 6 = 1 := by decide +kernel

def wl : WloadFields := { mode := 0, st := 0, wrow := 0, wcol := 0, wf := false, sync := Sync.none }
def mm : MmulFields :=
  { mode := 0, ft := 1, dt := 4, n1 := 0, acc := false, red := false, close := false, fsrc := false, ag := 0, ff := false,
    frow := 0, sync := Sync.none }
/-- The second weight row of t0 starts with 2. -/
def mlive : State := withIsle { isle0 with me := { Matrix.reset with tiles := memWriteN [] 128 [2] } }
theorem mlive_calm : Calm mlive 3 := calm_of _ rfl ⟨rfl, rfl, rfl, rfl⟩ rfl rfl
/-- 1 · 2 + 2 · 3 + 3 · (−1) = 5; with ACC = 1 and 2^31 − 1 it saturates to int32. -/
theorem test_int8_product : (let w : WeightSet := { WeightSet.reset with rows := [[1], [2], [3]] };
    ((productElem mm w [2, 3, 0xFF] 0 9).1, (productElem { mm with acc := true } w [2, 3, 0xFF] 0 0x7FFFFFFF).1)) = (5, 0x7FFFFFFF) := by
  decide +kernel
theorem test_wswap : ((next (exec (.wswap 3 Sync.none) mlive)).isle 3).me.active = true := by decide +kernel
theorem witness_MatrixInstructionsFinish : Calm mlive 3 ∧ wl.mode.toNat < 7 ∧ (mlive.isle 3).ready wl.sync = true ∧ (mlive.isle 3).me.tileErrs = [] ∧
    (((mlive.isle 3).retire 1).mmul 3 (mlive.isleCompat 3) mm (mlive.isle 3).sk.chain ((mlive.isle 3).cap 0)).2 = [] :=
  ⟨mlive_calm, by decide, rfl, rfl, by decide +kernel⟩
theorem witness_WeightLoads : wl.mode.toNat ≤ 4 ∧ (mlive.isle 3).me.tileErrs = [] ∧ 127 < modeRows wl.mode.toNat := by decide +kernel
def mods : WeightSet := { WeightSet.reset with mode := 5, rows := [List.replicate 16 2], primes := List.replicate 16 5 }
theorem witness_ProductElements : mods.prime 5 15 % 2 = 1 ∧ 1 < mods.prime 5 15 ∧ mods.prime 5 15 < 2 ^ 31 ∧
    (∀ x ∈ List.replicate 16 4, x < mods.prime 5 15) ∧ (List.replicate 16 4).length = 16 ∧ mods.weight 5 0 15 < mods.prime 5 15 ∧
    ∀ k, k < 20 → mods.weight 5 k 15 < mods.prime 5 15 := by decide +kernel

/-! ## Witnesses: tokens and the mover -/

def slotR : Slot := { kind := 0, init := true, readers := 2, len := 0, base := 0, full := true, drain := 0, rounds := 0, got := 0 }
/-- Slot 0 FULL with two readers, slot 1 FULL with one, slot 2 EMPTY. -/
def tokens : State :=
  withIsle { isle0 with sto := { Store.reset with slots := [slotR, { slotR with readers := 1 }, { slotR with full := false }] } }
theorem tokens_calm : Calm tokens 3 := calm_of _ rfl ⟨rfl, rfl, rfl, rfl⟩ rfl rfl
def rd (k : Fin 128) : TFields := { q := 0, sk := true, sync := { rv := true, rslot := k, wv := false, wslot := 0 } }
def wr (k : Fin 128) : TFields := { q := 3, sk := false, sync := { rv := false, rslot := 0, wv := true, wslot := k } }
theorem witness_TokenInstructions : Calm tokens 3 ∧ (tokens.isle 3).ready (rd 0).sync = true ∧ (tokens.isle 3).ready (rd 1).sync = true ∧
    (tokens.isle 3).ready (wr 2).sync = true ∧ (tokens.isle 3).sto.slots.length = 3 ∧
    ((tokens.isle 3).slot 0).drain + 1 < ((tokens.isle 3).slot 0).readers ∧ ((tokens.isle 3).slot 1).readers ≤ ((tokens.isle 3).slot 1).drain + 1 :=
  ⟨tokens_calm, by decide +kernel⟩
theorem test_ttake_last_reader : (((next (exec (.ttake 3 (rd 1)) tokens)).isle 3).slot 1).full = false ∧
    (((next (exec (.ttake 3 (rd 0)) tokens)).isle 3).slot 0).full = true := by decide +kernel
theorem test_tput_fills : (((next (exec (.tput 3 (wr 2)) tokens)).isle 3).slot 2).full = true := by decide +kernel

/-- A descriptor table of one COPY whose RSLOT 2 is EMPTY, at store address 0x40, beside the slots of `tokens`. -/
def descBytes : List Byte := [0x21, 0, 0, 0] ++ zeros 4 ++ [64, 0, 0, 0] ++ zeros 16 ++ [0x00, 0x82] ++ zeros 34
def batching : State :=
  withIsle { isle0 with sto := { Store.reset with mem := memWriteN [] 0x40 descBytes, slots := (tokens.isle 3).sto.slots } }
theorem batching_calm : Calm batching 3 := calm_of _ rfl ⟨rfl, rfl, rfl, rfl⟩ rfl rfl
theorem witness_MoverAndPageLoads : Calm batching 3 ∧ (batching.isle 3).sto.errs = [] ∧ (batching.isle 3).ready Sync.none = true ∧
    (batching.isle 3).mov.batchWv = none ∧ (batching.isle 3).sk.imload = none ∧
    (∀ b ∈ descOf ((batching.isle 3).storeRead (0x40 / 64 * 64 + 64 * 0) 64), b.2.sync.rv = true ∧
      (((batching.isle 3).syncRead Sync.none).slot b.2.sync.rslot).full = false) ∧
    (descOf ((batching.isle 3).storeRead 0x40 64)).isSome = true := ⟨batching_calm, by decide +kernel⟩
/-- The image whose page 2 is being loaded, bound as handle 9 of VF 1. -/
def loadingBound : State :=
  { loading with images := [{ bind := 0, fn := 1, handle := 9, hdr := hdrOf [], sections := { noSections with pages := [[], [], [7]] }
                              firstRow := 0, ioff := 0, valid := true }] }
theorem loadingBound_calm : Calm loadingBound 3 :=
  ⟨rfl, rfl, loading_calm.issues, loading_calm.queues, loading_calm.units, loading_calm.movers⟩
theorem witness_PageLoadLands : Calm loadingBound 3 ∧ (∀ c, (loadingBound.chan c).errs = [] ∧ (loadingBound.chan c).chk = []) ∧
    (loadingBound.isle 3).sk.imload = some 2 ∧ (loadingBound.isle 3).sk.run = some (1, 9) ∧ (loadingBound.imageOf 1 9).isSome = true :=
  ⟨loadingBound_calm, by decide +kernel⟩
/-- An MVISSUE of 40 descriptors fetches two bursts of 16, and the rest as descriptors begin (R242). -/
theorem test_descriptor_bursts : (let m := ((next (exec (.mvissue 3 40 0x40 Sync.none) batching)).isle 3).mov; (m.batch.length, m.unread)) = (32, 8) := by
  decide +kernel

/-- The mover of Isle 3 works in bring-up mode; aligned at 16 KiB it copies 64 bytes to the end of the store. -/
def moving : State := { alive with boot := { Boot.reset with mode := 1 } }
theorem moving_calm : Calm moving 3 := ⟨rfl, rfl, alive_calm.issues, alive_calm.queues, alive_calm.units, alive_calm.movers⟩
def df (src dst : DWord) (len : Word) : DescFields :=
  { version := 2, srcsp := 0, dstsp := 0, esize := 0, peer := 0, zpad := false, sref := 0, dref := 0, length := len, src := src,
    dst := dst, sync := Sync.none, target := 0, param := 0 }
theorem witness_DescriptorsComplete : Calm moving 3 ∧ IsDescriptor (.copy 3 (df 0 0x2FC000 0x4000)) .copy 3 (df 0 0x2FC000 0x4000) ∧
    moving.moverLive 3 = true ∧ (moving.isle 3).mov.stopped = false ∧ (moving.isle 3).sto.errs = [] ∧ (moving.isle 3).mov.batchWv = none ∧
    moving.misaligned 3 (df 0 0x2FC000 0x4000) = none ∧ 0x2FC000 + 0x4000 = 0x300000 ∧
    (moving.transform 3 .copy (df 0 0x2FC000 0x4000)).len ≤ 65536000 ∧ (moving.isle 3).mov.fwds.length < 4 ∧ Memory.wf (moving.isle 3).sto.mem = true :=
  ⟨moving_calm, rfl, by decide +kernel⟩
theorem test_copy : (let t := next (exec (.copy 3 (df 64 0x4040 8)) { moving with boot := Boot.reset, power := .running });
    (List.range 8).map (fun k => memRead (t.isle 3).sto.mem (0x4040 + k))) = [0, 0, 0, 0, 0, 0, 0, 0] := by decide +kernel
theorem test_copy_bring_up : (let t := next (exec (.copy 3 (df 0 0x4000 72)) moving);
    (List.range 8).map (fun k => memRead (t.isle 3).sto.mem (0x4040 + k))) = [1, 0, 0, 0, 2, 0, 0, 0] := by decide +kernel
theorem witness_IndexMaps : 8 ≤ 8 ∧ 17 ≤ 17 ∧ 2 ^ 17 - 1 < 2 ^ 17 := by decide
theorem test_rho : rho 8 0 = 0 ∧ rhoInv 8 (rho 8 77) = 77 ∧ galoisIndex 8 1 5 = 5 := by decide +kernel

def stagedCopy : Staged :=
  { op := .copy, d := { df 0 0x2FFFE0 32 with sync := { rv := false, rslot := 0, wv := true, wslot := 2 } }, runs := [(0, List.replicate 32 7)],
    pieces := 1, done := 0, blocks := 1, inn := 1, idx := 0, wait := 0, bwv := none, keys := [], sent := [], first := true, last := true }
def writing (k : Fin 128) : State :=
  { withIsle { (tokens.isle 3) with mov := { Mover.reset with staged := [{ stagedCopy with d := { stagedCopy.d with sync := (wr k).sync } }] } } with
    boot := { Boot.reset with mode := 1 } }
theorem witness_WritePhase : (writing 2).moverLive 3 = true ∧ (∃ g, ((writing 2).isle 3).mov.staged = [g] ∧ (writing 2).canWrite 3 g = true ∧ g.d.dstsp = 0) ∧
    (∃ g, ((writing 1).isle 3).mov.staged = [g] ∧ (writing 1).canWrite 3 g = false) :=
  ⟨by decide +kernel, ⟨_, rfl, by decide +kernel⟩, ⟨_, rfl, by decide +kernel⟩⟩
theorem test_write_phase : memRead ((next (exec (.descriptorWritePhase 3) (writing 2))).isle 3).sto.mem 0x2FFFFF = 7 ∧
    memRead ((next (exec (.descriptorWritePhase 3) (writing 1))).isle 3).sto.mem 0x2FFFFF = 0 := by decide +kernel

/-! ## Witnesses: host queues, loads, jobs -/

def q0 : Queue := { Queue.reset with en := true, sqlog := 4, cqlog := 4, version := 2, sqTail := 3 }
/-- The North controller holds the token, VF 2 owns rows 2 and 3, and queue 0 of VF 2 and of the PF are greeted at version 2. -/
def host : State :=
  (({ base with
    auth := { Authority.reset with claimN := true }
    rows := vset (vset base.rows 2 { owner := some 2, wiping := false }) 3 { owner := some 2, wiping := false }
    ownerNo := vset base.ownerNo 2 (some 5) }).setQueue 2 0 q0).setQueue 8 0 q0
/-- A packet with an opcode. -/
def asks (op : BitVec 16) (p : Packet) : Packet := { p with opcode := op }
theorem ready_of {s : State} {op : BitVec 16} {p : Packet} (h : (p.opcode == op && s.canInterpret p && !s.reef.fatal &&
    p.version != 0 && (s.queue p.fn p.q).version == p.version) = true) : PacketReady s op p := by
  simp only [Bool.and_eq_true, beq_iff_eq, bne_iff_ne, Bool.not_eq_true', ne_eq] at h
  exact ⟨h.1.1.1.1, h.1.1.1.2, h.1.1.2, h.1.2, h.2⟩
theorem host_ready : PacketReady host 0x90 pktV ∧ PacketReady host 0x90 pkt0 := ⟨ready_of (by decide +kernel), ready_of (by decide +kernel)⟩

theorem witness_CompatMode : State.reset.perst = true ∧ State.reset.power = .reset ∧ State.reset.pwrGood = true ∧
    host.takesWrite = true ∧ host.boot.genCompat = false := by decide +kernel
theorem witness_CompatModeResetting : (let s := next (exec .perstNAssert base); (s.perst, s.power)) = (true, .resetting none) ∧
    (next (exec (.perstNDeassert true false 0 false) State.reset)).boot.genCompat = true := by decide +kernel
/-- GEN_COMPAT strapped high makes COMPAT read 1. -/
theorem test_compat_strap : (next (exec (.perstNDeassert true false 0 false) State.reset)).regRead 8 0 false % 2 = 1 := by decide +kernel

def fatal : State := { host with reef := { Reef.reset with fatal := true } }
def ungreeted : State := host.setQueue 2 0 { q0 with version := 0 }
def unheld : State := { host with auth := Authority.reset }
/-- An ATOLL_OP whose OP is 1. -/
def pktExp0 : Packet := { pktV with opcode := 0x40, body := 1 }
theorem witness_PacketGate : gateOf (.abortJob pktV) = some (pktV, false, true, false) ∧ pktV.opcode ≠ opcodeOf (.abortJob pktV) ∧
    (asks 0x21 pktV).opcode = opcodeOf (.abortJob (asks 0x21 pktV)) ∧ (∀ x, atollOf (.abortJob (asks 0x21 pktV)) = some x → False) ∧
    atollOf (.modexp pktExp0 []) = some (.modexp, pktExp0, [], true, true) ∧ opNamed pktExp0 = AtollOp.modexp.code ∧
    pktExp0.opcode = opcodeOf (.modexp pktExp0 []) ∧ unheld.canInterpret pktV = false ∧
    host.canInterpret pktV = true ∧ fatal.canInterpret pktV = true ∧ fatal.reef.fatal = true ∧ (false && pktV.fn == Fn.pf) = false ∧
    ungreeted.canInterpret pktV = true ∧ (ungreeted.queue 2 0).version = 0 ∧ ungreeted.reef.fatal = false ∧
    gateOf (.setOwner pktV) = some (pktV, true, false, false) ∧ (if pktV.fn == Fn.pf then true else false) = false ∧
    opcodeOk 2 0x33 = false ∧ pktV.opcode ≠ 1 := by
  refine ⟨rfl, by decide, by decide, ?_, rfl, by decide +kernel⟩
  intro x h; exact absurd h (by simp [atollOf])
/-- The status and DETAIL of the last reply. -/
def lastReply (s : State) : Option (BitVec 16 × Byte) :=
  s.out.findSome? (fun o => match o with
    | .reply _ _ _ _ r => some (r.status, r.detail)
    | _ => none)
theorem test_gate_fatal : lastReply (next (exec (.abortJob (asks 0x21 pktV)) fatal)) = some (0x0070, 0xFE) ∧
    lastReply (next (exec (.setOwner (asks 0x50 pktV)) host)) = some (0x0070, 0xFF) ∧ (next (exec (.setOwner pktV) host)).out = [] ∧
    lastReply (next (exec (.invalidOpcode { pktV with opcode := 0x33 }) host)) = some (0x0070, 0xFF) := by decide +kernel

theorem witness_QueueSetup : (asks 1 pktV).opcode = 1 ∧ host.canInterpret (asks 1 pktV) = true ∧ host.reef.fatal = false ∧ host.takesWrite = true ∧ host.busServes = true ∧
    (host.queue 2 0).en = true ∧ (host.queue 2 1).en = false ∧ ((2 : Fn) ≠ Fn.pf ∨ (0 : Fin 8) = 0) := by decide +kernel
theorem test_hello : ((next (exec (.hello { asks 1 pktV with version := 9 }) host)).queue 2 0).version = 2 ∧
    ((next (exec (.hello { asks 1 pktV with version := 1 }) host)).queue 2 0).version = 1 := by decide +kernel
/-- SQLOG 15 is clamped to 12 and CQLOG 0 to 1, and each counts. -/
theorem test_qcfg_clamps : (let s := next (exec (.hbrQcfgWrite 2 1 0x8F000000) host);
    ((s.queue 2 1).sqlog, (s.queue 2 1).cqlog, (s.queue 2 1).en, (s.fnOf 2).clamp8)) = (12, 1, true, 2) := by decide +kernel
theorem test_doorbells : ((next (exec (.sqDoorbell 2 0 0x3F) host)).queue 2 0).sqTail = 15 ∧
    ((next (exec (.cqDoorbell 2 0 7) host)).queue 2 0).cqHead = 7 := by decide +kernel

/-- Without room for a reply the queue stalls. -/
def roomless : State := host.setQueue 2 0 { q0 with cqTail := 15, cqHead := 0 }
theorem witness_CommandFetches : host.power = .running ∧ host.gates.resumeAt ≤ host.now ∧ host.hasHolder = true ∧ (host.fnOf Fn.pf).d3hot = false ∧ (host.fnOf 2).d3hot = false ∧
    (host.queue 2 0).en = true ∧ (host.queue 2 0).err = false ∧ (host.queue 2 0).sqHead ≠ (host.queue 2 0).sqTail ∧
    host.hasRoom 2 0 = true ∧ roomless.hasRoom 2 0 = false ∧ ({ host with lastServed := 0 }).isNext 2 0 = true := by decide +kernel
theorem test_fetch_order : (next (exec (.commandFetch 2 0 (zeros 64)) host)).fetched = [] ∧
    ((next (exec (.commandFetch 8 0 (zeros 64)) host)).fetched.map (·.fn)) = [8] := by decide +kernel
theorem witness_StatusReplies : (host.queue pktV.fn pktV.q).en = true ∧ (State.reset.queue pktV.fn pktV.q).en = false := by decide +kernel
/-- The reply in the last entry turns the phase. -/
theorem test_reply_wraps : (let s := ((host.setQueue 2 0 { q0 with cqTail := 15, cqHead := 9 }).answer pktV (Answer.of 0 0)).queue 2 0;
    (s.cqTail, s.phase)) = (0, false) := by decide +kernel

/-- A record of TYPE 0, version 2. -/
def emptyRecord : List Byte := [0x20] ++ zeros 1023
theorem witness_ParameterSetLoads : PacketReady host 0x11 (asks 0x11 pktV) ∧ pktV.fn ≠ Fn.pf ∧ host.psetUsed 0 = false ∧ host.psets[(0 : Fin 16)] = none ∧
    (paramOf 2 emptyRecord 0).failing false true = none ∧ (paramOf 2 ([0x23] ++ zeros 1023) 0).failing false true = some 1 :=
  ⟨ready_of (by decide +kernel), by decide, by decide +kernel⟩
theorem test_paramset_refused : lastReply (next (exec (.loadParamset (asks 0x11 pktV) ([0x23] ++ zeros 1023)) host)) = some (0x0081, 1) ∧
    lastReply (next (exec (.loadParamset (asks 0x11 pktV) emptyRecord) host)) = some (0, 0) := by decide +kernel

/-- An image of one row at row 2, with a page of two END instructions, class 9, WCD 6000. -/
def rawImage : List Byte := [0x20, 9, 1, 1] ++ zeros 12 ++ [0x70, 0x17] ++ zeros 238
def image : ImageData := { raw := rawImage, sections := { noSections with pages := [[0x13F0000000000000]] }, sealBlk := [] }
/-- LENGTH 256, first row 2, handle 4. -/
def pktLoad : Packet := { pktV with opcode := 0x10, body := BitVec.ofNat 256 (256 * 2 ^ 64 + 4 * 2 ^ 96 + 2 * 2 ^ 112) }
theorem witness_LoadsBegin : PacketReady host 0x10 pktLoad ∧ PacketReady host 0x12 (asks 0x12 pktV) ∧ pktBytes pktLoad 24 4 = 256 ∧ host.loadRefusal pktLoad (hdrOf image.raw) = none ∧
    host.loadRefusal { pktLoad with body := 256 * 2 ^ 64 } (hdrOf image.raw) = some 2 ∧ host.keyRunOk 2 2 1 = true ∧ host.keyRunOk 2 1 1 = false ∧
    host.tagUsed 0 = false ∧ host.handleUsed 2 4 = false ∧ pktBytes pktV 24 4 = 0 :=
  ⟨ready_of (by decide +kernel), ready_of (by decide +kernel), by decide +kernel⟩
def waiting : State := next (exec (.loadProgram pktLoad image) host)
theorem test_load_waits : (waiting.progLoads.length, waiting.atl.queue.length, waiting.out.length) = (1, 1, 0) := by decide +kernel
def checkedLoad : State := { waiting with progLoads := waiting.progLoads.map (fun l => { l with checked := some true }) }
theorem witness_LoadsTakeEffect : checkedLoad.power = .running ∧ checkedLoad.reef.fatal = false ∧
    (∃ l, checkedLoad.progLoads = [l] ∧ l.checked = some true ∧ checkedLoad.loadRefusal l.p (hdrOf l.img.raw) = none) ∧ checkedLoad.engaged = [] :=
  ⟨rfl, rfl, ⟨_, rfl, by decide +kernel⟩, by decide +kernel⟩
/-- The bound image stands in the shadow banks of its run. -/
def bound : State := next (exec (.loadProgramComplete 0) checkedLoad)
theorem test_load_binds : bound.images.map (·.handle) = [4] ∧ (bound.isle 16).sk.bank1.valid = true ∧ (bound.isle 24).sk.bank1.valid = false ∧
    lastReply bound = some (0, 0) := by decide +kernel

/-- SUBMIT_JOB of handle 4 to slot 6 with JOBID 77: IDESC and RDESC in row 2. -/
def pktJob : Packet :=
  { pktV with opcode := 0x20, jobid := 77, body := BitVec.ofNat 256 (4 + 6 * 2 ^ 16 + 2 * 2 ^ 36 * 2 ^ 64 + (2 * 2 ^ 36 + 0x100000) * 2 ^ 128) }
def classed : State := { bound with adm := { bound.adm with clsmap := vset bound.adm.clsmap 9 2 } }
def submitted : State := next (exec (.submitJob pktJob) classed)
def bootJob : Job := submitted.jobs.headD (jobOf pktJob 0 0 (bound.images.headD
  { bind := 0, fn := 0, handle := 0, hdr := hdrOf [], sections := noSections, firstRow := 0, ioff := 0, valid := false }) 2 0 0 0 [])
theorem witness_Submissions : PacketReady classed 0x20 pktJob ∧ PacketReady classed 0x21 (asks 0x21 pktJob) ∧
    PacketReady classed 0x22 (asks 0x22 pktJob) ∧ pktJob.fn ≠ Fn.pf ∧ classed.boot.mode ≠ 3 ∧
    (classed.imageOf 2 4).any (fun m => (classed.refusal 2 (some m) 2 6 77 0 0 [] none).isNone && (classed.timelyRefusal m [] none).isNone &&
      (classed.place classed.timeline m classed.now false).isSome && classed.adm.clsmap[m.hdr.cls.toNat]'(m.hdr.cls.isLt) == 2 &&
      decide ((classed.armQueue m.hdr.cls.toNat).length < 4)) = true ∧
    classed.refusal 2 none 2 6 77 0 0 [] none = some (0x0080, 0) :=
  ⟨ready_of (by decide +kernel), ready_of (by decide +kernel), ready_of (by decide +kernel), by decide, by decide +kernel⟩
/-- ACCEPTED, with an interval of the job in row 2. -/
theorem test_submit : lastReply submitted = some (0x0001, 0) ∧ submitted.occs.map (·.rows) = [4] ∧ (submitted.slotOf 2 6).st = .pending ∧
    lastReply (next (exec (.submitJob { pktJob with body := 0 }) classed)) = some (0x0080, 0) := by decide +kernel
theorem test_arm : (let s := next (exec (.armJob { pktJob with arm := true }) classed); (s.occs, (s.armQueue 9).length)) = ([], 1) := by
  decide +kernel
theorem test_abort_latched : (next (exec (.abortJob (asks 0x21 pktJob)) submitted)).aborts.map (·.2) = [(1, none)] := by decide +kernel
theorem witness_PlacementIsEarliest : placeJob [{ id := 0, rows := 4, start := 100, len := 50, kind := .wipe }] 4 70 5 30 false = 155 ∧
    placeJob [] 4 0 5 30 true = 131072 := by decide +kernel

/-- The submitted job at its preparation, its start and its end. -/
def atPrep : State := { submitted with now := bootJob.start - bootJob.prep }
def prepared : State := next (exec (.jobPrepare bootJob.id) atPrep)
def atStart : State := { prepared with now := bootJob.start }
def started : State := next (exec (.jobStart bootJob.id) atStart)
def ended : State := { started with isles := vmodAll started.isles (fun i => decide (i.val / 8 = 2)) (fun _ x => { x with sk := { x.sk with ended := true } }) }
def finished : State := next (exec (.jobEnd bootJob.id) ended)
/-- A job whose image writes its one input back as its result. -/
def withResult (s : State) : State :=
  { s with jobs := s.jobs.map (fun j => { j with
    img := { j.img with sections := { j.img.sections with
      inputs := [{ kind := 0, pset := 0, level := 0, ntt := false, seeded := false, bitwidth := 0, count := 0, align16 := false }]
      results := [{ value := 0, align16 := false }] } }
    inputs := [ctDescOf (zeros 64)], inData := [zeros 256], payloads := [0x2000200000] }) }
theorem witness_JobLife : submitted.power = .running ∧ submitted.reef.fatal = false ∧ submitted.jobs.length = 1 ∧ bootJob.phase = .admitted ∧
    bootJob.ending = none ∧ atPrep.now + bootJob.prep = bootJob.start ∧ atStart.now = bootJob.start ∧
    prepared.jobs.all (fun j => j.phase == .prepared) = true ∧ (∀ y : RowIdx, atStart.hot[y] = false) ∧
    ended.jobs.all (fun j => ended.canFinish j && j.img.sections.results.isEmpty) = true ∧ ended.jobs.length = 1 ∧
    (ended.jobOcc bootJob.id).isSome = true ∧ (∀ y : RowIdx, atStart.runningOn y = none) ∧ (∀ c, (atStart.chan c).errs = [] ∧ (atStart.chan c).chk = []) ∧
    (∀ i ∈ circulation bootJob.img.firstRow.val bootJob.img.hdr.rows, bootJob.run.getLsbD i.row.val = true) ∧ ended.rfDue = [] ∧ vfOf bootJob.fn = some 2 ∧
    (let s := next (exec (.jobCommit bootJob.id) (withResult ended))
     s.jobs.all (fun j => j.ending.isSome && (s.jobOcc j.id).any (fun o => s.allEnded o.rows)) = true ∧ s.jobs.length = 1 ∧
       ∀ y : RowIdx, s.runningOn y = none) := by decide +kernel
theorem test_job_start : (let k := (started.isle 16).sk; (k.st, k.owner, k.jobtag, k.active, k.cyc)) = (.running, 2, 77, true, 0) ∧
    (started.isle 24).sk.st = .halted := by decide +kernel
theorem test_job_end : finished.occs.map (·.kind) = [.ended] ∧ finished.occs.map (·.stop) = [finished.now + 1] ∧ (finished.slotOf 2 6).st = .ready ∧ (finished.slotOf 2 6).since = ended.now + 1 ∧
    (finished.isle 16).sk.owner = 8 := by decide +kernel
/-- A running job executes its END by itself in an Isle cycle of the next management cycle. -/
theorem test_idle_cycle_runs : (({ started with now := started.now + 1 }.isleTick 16).isle 16).sk.ended = true := by decide +kernel
/-- A hot row discards the job at its start. -/
theorem test_hot_start : (let s := next (exec (.jobStart bootJob.id) { atStart with hot := Vector.replicate 8 true });
    ((s.slotOf 2 6).st, s.occs.map (·.kind), s.jobs.map (fun j => j.ending.map (·.status)))) = (.free, [.ended], [some 0x0030]) := by decide +kernel
theorem witness_JobCommit : (withResult ended).jobs.all (fun j => (withResult ended).canFinish j && !j.img.sections.results.isEmpty &&
    ((withResult ended).writeResults j (j.outputs ((withResult ended).heRun j))).stillRuns j.id) = true ∧ (withResult ended).jobs.length = 1 := by
  decide +kernel

/-! ## Witnesses: windows, Atoll, owners -/

/-- OPEN_WINDOW of handle 5 on port 2, STORE of Isle 16, 32 KiB from 0 on, and its CLOSE_WINDOW. -/
def pktClose : Packet := { pktV with opcode := 0x31, body := BitVec.ofNat 256 (5 + 2 * 2 ^ 16 + 16 * 2 ^ 32 + 0x8000 * 2 ^ 128) }
def pktWin : Packet := { pktV with opcode := 0x30, body := BitVec.ofNat 256 (5 + 2 * 2 ^ 16 + 16 * 2 ^ 32 + 0x8000 * 2 ^ 128) }
def opened : State := next (exec (.openWindow pktWin) host)
def reopening : State := next (exec (.openWindow pktWin) opened)
def closing : State := next (exec (.closeWindow pktClose) opened)
theorem witness_WindowCommands : PacketReady host 0x30 pktWin ∧ PacketReady opened 0x30 pktWin ∧ PacketReady closing 0x30 pktWin ∧
    PacketReady host 0x31 pktClose ∧ PacketReady opened 0x31 pktClose ∧ PacketReady closing 0x31 pktClose ∧
    vfOf pktWin.fn = some 2 ∧ host.holds 2 2 = true ∧ host.holds 2 1 = false ∧ ((host.port 2).window 5).st = .closed ∧
    (host.port 2).waiting < 32 ∧ ((opened.port 2).window 5).st = .opened ∧ ((closing.port 2).window 5).st = .closing :=
  ⟨ready_of (by decide +kernel), ready_of (by decide +kernel), ready_of (by decide +kernel), ready_of (by decide +kernel),
    ready_of (by decide +kernel), ready_of (by decide +kernel), by decide +kernel⟩
theorem witness_WindowCloses : closing.power = .running ∧ closing.now < ((closing.port 2).window 5).closeAt ∧
    (let s := { closing with now := 1 }; ((s.port 2).window 5).closeAt = s.now ∧ s.drainedWin ((s.port 2).window 5) = true ∧
      ((s.port 2).window 5).reopen = []) ∧
    (let s := { reopening with now := 1 }; ((s.port 2).window 5).st = .closing ∧ ((s.port 2).window 5).closeAt = s.now ∧
      s.drainedWin ((s.port 2).window 5) = true ∧ ((s.port 2).window 5).reopen.map (·.1) = [pktWin] ∧
      ((s.port 2).window 5).quiet = true ∧ ((s.port 2).window 5).closers = []) := by decide +kernel
/-- A close ends at the next epoch; the reopening entry is OPEN there. -/
theorem test_window_epoch : (let w := ((next (exec (.windowCloseComplete 2 5) { closing with now := 1 })).port 2).window 5; (w.st, w.epoch)) =
      (.closed, 1) ∧
    (let w := ((next (exec (.windowCloseComplete 2 5) { reopening with now := 1 })).port 2).window 5; (w.st, w.epoch)) = (.opened, 1) := by
  decide +kernel

/-- MODEXP with one word each: 3^5 mod 7. -/
def pktExp : Packet := { pktV with opcode := 0x40, body := BitVec.ofNat 256 (1 + 1 * 2 ^ 24 + 1 * 2 ^ 32) }
def expData : List Byte := leBytes 8 7 ++ leBytes 8 3 ++ leBytes 8 5
def queued : State := next (exec (.modexp pktExp expData) host)
def running : State := next (exec .atollOpStart queued)
def atEnd : State := { running with now := (running.atl.running.elim 0 (fun r => r.started + r.dur)) }
theorem witness_AtollQueue : atollOf (.modexp pktExp expData) = some (.modexp, pktExp, expData, true, true) ∧ PacketReady host 0x40 pktExp ∧ opNamed pktExp = AtollOp.modexp.code ∧
    (if pktExp.fn = Fn.pf then true else true) = true ∧ host.atl.queue.length < 16 ∧ host.atl.waiting = [] ∧
    16 ≤ ({ host with atl := { host.atl with queue := List.replicate 16 (.checkSeal 0) } }).atl.queue.length ∧
    queued.clocked = true ∧ queued.atl.running = none ∧ queued.atl.queue.length = 1 ∧ queued.atl.waiting = [] :=
  ⟨rfl, ready_of (by decide +kernel), by decide +kernel⟩
theorem witness_AtollEnds : running.clocked = true ∧ running.atl.running.any (fun r => r.work == .op .modexp pktExp expData &&
      decide (running.now < r.started + r.dur) && decide (r.started + r.dur ≤ atEnd.now) &&
      (({ atEnd with atl := { atEnd.atl with running := none } }).opResult r .modexp pktExp expData).isSome) = true := by decide +kernel
theorem test_modexp : (next (exec .atollOpEnd atEnd)).out.any (fun o => o == .dma 2 0 (leBytes 8 5)) = true ∧
    lastReply (next (exec .atollOpEnd atEnd)) = some (0, 0) ∧ (next (exec .atollOpEnd atEnd)).atl.done = 1 := by decide +kernel
/-- An even modulus is rejected, and so is everything after an entropy failure. -/
def evenData : List Byte := leBytes 8 8 ++ leBytes 8 3 ++ leBytes 8 5
def evenEnd : State :=
  let s := next (exec .atollOpStart (next (exec (.modexp pktExp evenData) host)))
  { s with now := (s.atl.running.elim 0 (fun r => r.started + r.dur)) }
theorem witness_AtollFailures : evenEnd.clocked = true ∧ evenEnd.atl.running.any (fun r => r.work == .op .modexp pktExp evenData &&
      decide (r.started + r.dur ≤ evenEnd.now) &&
      (({ evenEnd with atl := { evenEnd.atl with running := none } }).opResult r .modexp pktExp evenData).isNone) = true ∧
    (next (exec .entropyFailure atEnd)).atl.entfail = true ∧ (next (exec .entropyFailure atEnd)).atl.running.isSome = true := by decide +kernel
/-- An authorisation and a manifest under check, no key in either slot. -/
def badLoad : KeyLoad :=
  { id := 0, p := pkt0, man := { raw := [], sig := [], records := [] }, version := 2, tag := 0, checked := none, interp := 0 }
def checking (x : AtollWork) : State :=
  { evenEnd with
    keyLoads := [badLoad]
    atl := { evenEnd.atl with running := some { work := x, curve := none, key := none, keyCurve := none, dur := 5, started := 0 } } }
theorem witness_AtollChecks : (checking (.checkAuth pkt0 [])).clocked = true ∧ 0 + 5 ≤ (checking (.checkAuth pkt0 [])).now ∧
    (checking (.checkManifest 0)).keyLoads.find? (fun k => k.id == 0) = some badLoad ∧
    (checking (.checkAuth pkt0 [])).atl.keyVerifies 1 none none [] [] = false ∧
    (checking (.checkManifest 0)).atl.keyVerifies 0x10 none none (manifestMessage badLoad.man) [] = false := by decide +kernel
theorem test_atoll_reject : lastReply (next (exec .atollOpEnd evenEnd)) = some (0x00A0, 0) ∧
    lastReply (next (exec .atollOpEnd (next (exec .entropyFailure atEnd)))) = some (0x00A0, 0) := by decide +kernel
theorem witness_AtollArithmetic : 1 < 7 ∧ (leAt expData 0 8) % 2 = 1 ∧ 1 < leAt expData 0 8 := by decide +kernel
/-- The generator of P-384 lies on the curve. -/
theorem test_p384 : (let c := Curve.p384; c.gy * c.gy % c.p) = (let c := Curve.p384; (c.gx * c.gx * c.gx + c.a * c.gx + c.b) % c.p) := by
  decide +kernel

/-- SET_OWNER of row 4 to VF 2, number 5, by the PF. -/
def pktOwn : Packet := { pkt0 with opcode := 0x50, body := BitVec.ofNat 256 (16 + 2 * 2 ^ 8 + 5 * 2 ^ 16) }
def wiping : State := next (exec (.setOwner pktOwn) host)
def wipeBegins : State := { wiping with now := (wiping.occs.headD { id := 0, rows := 0, start := 0, len := 0, kind := .wipe }).start }
def wipeBegun : State := next (exec (.wipeStart 0) wipeBegins)
def wipeStops : State := { wipeBegun with now := (wiping.occs.headD { id := 0, rows := 0, start := 0, len := 0, kind := .wipe }).stop }
theorem witness_OwnerChanges : PacketReady host 0x50 pktOwn ∧ PacketReady host 0x50 { pktOwn with body := BitVec.ofNat 256 (4 + 2 * 2 ^ 8 + 5 * 2 ^ 16) } ∧ pktOwn.fn = Fn.pf ∧ (∀ y : RowIdx, host.rowDead y = false) ∧
    (∀ u : RowIdx, u ≠ 2 → host.ownerNo[u] ≠ some 5) ∧ host.rowTarget 4 ≠ some 2 ∧ host.rowTarget 2 = some 2 ∧
    wiping.wipes.map (fun w => (w.id, w.rows, w.begun)) = [(0, 16, false)] ∧
    (wipeBegins.occOf 0).any (fun o => o.start == wipeBegins.now) = true ∧
    wipeStops.wipes.map (fun w => (w.id, w.begun)) = [(0, true)] ∧ (wipeStops.occOf 0).any (fun o => o.stop == wipeStops.now) = true :=
  ⟨ready_of (by decide +kernel), ready_of (by decide +kernel), rfl, by decide +kernel⟩
theorem test_set_owner : wiping.occs.map (·.len) = [435000] ∧ lastReply wiping = none ∧
    lastReply (next (exec (.setOwner { pktOwn with body := BitVec.ofNat 256 (4 + 2 * 2 ^ 8 + 5 * 2 ^ 16) }) host)) = some (0, 0) := by decide +kernel
theorem test_wipe : wipeBegun.rowOwner = 0x88892288 := by decide +kernel
theorem test_wipe_end : (next (exec (.wipeEnd 0) wipeStops)).rowOwner = 0x88822288 ∧
    lastReply (next (exec (.wipeEnd 0) wipeStops)) = some (0, 0) := by decide +kernel
theorem witness_RowOwnerRegister : regAt Fn.pf 0x20004 = some .rowowner ∧ (host.rows[(2 : RowIdx)]).wiping = false ∧
    (host.rows[(2 : RowIdx)]).owner = some 2 ∧ (host.rows[(0 : RowIdx)]).owner = none ∧ (wipeBegun.rows[(4 : RowIdx)]).wiping = true := by
  decide +kernel
theorem witness_FunctionLevelResets : bound.power = .running ∧ vfOf 2 = some 2 ∧ bound.images.map (·.fn) = [2] := by decide +kernel
theorem test_flr : (let s := next (exec (.functionLevelReset 2) submitted);
    (s.images, s.jobs.length, (s.queue 2 0).en, s.rowOwner, s.out.length)) = ([], 0, false, 0x88882288, submitted.out.length) := by decide +kernel

/-! ## Witnesses: self-test, retirement, recorder -/

/-- BIST_SLICE of Isle 33. -/
def pktBist : Packet := { pkt0 with opcode := 0x70, body := 33 }
/-- The depot test's packet. -/
def pktDepot : Packet := { pkt0 with opcode := 0x70, body := BitVec.ofNat 256 (2 ^ 8) }
def sliced : State := next (exec (.bistSlice pktBist) host)
def sliceBegins : State := { sliced with now := (sliced.occs.map (·.start)).headD 0 }
def sliceBegun : State := { sliceBegins with slices := sliced.slices.map (fun x => { x with begun := true }) }
def sliceStops : State := { sliceBegun with now := (sliced.occs.map (·.stop)).headD 0 }
/-- Test mode, every row unowned. -/
def testMode : State := { host with rows := State.reset.rows, boot := { host.boot with mode := 2 } }
def depotPlaced : State := next (exec (.depotTest pktDepot) testMode)
def depotBegins : State := { depotPlaced with now := (depotPlaced.occs.map (·.start)).headD 0 }
def depotStops : State :=
  { depotPlaced with depots := depotPlaced.depots.map (fun x => { x with begun := true }), now := (depotPlaced.occs.map (·.stop)).headD 0 }
theorem witness_SelfTests : PacketReady host 0x70 pktBist ∧ PacketReady testMode 0x70 pktDepot ∧ pktBytes pktBist 17 1 % 4 = 0 ∧ pktBytes pktDepot 17 1 % 4 = 1 ∧
    host.boot.mode ≠ 2 ∧ testMode.boot.mode = 2 ∧ (∀ y : RowIdx, (testMode.rows[y]).code = 8) ∧ testMode.wipes = [] ∧
    sliceBegins.slices.all (fun x => !x.begun && (sliceBegins.occOf x.id).any (fun o => o.start == sliceBegins.now)) = true ∧
    sliceStops.slices.all (fun x => x.begun && (sliceStops.occOf x.id).any (fun o => o.stop == sliceStops.now)) = true ∧
    sliceStops.slices.length = 1 ∧ host.boot.mode = 0 ∧ 150000 * host.bstPeriod.toNat ≠ 0 ∧ (host.bstNext - 1) * (150000 * host.bstPeriod.toNat) ≤ host.now ∧
    depotBegins.depots.map (·.begun) = [false] ∧ depotBegins.depots.all (fun d => (depotBegins.occOf d.id).any (fun o => o.start == depotBegins.now)) = true ∧
    depotStops.depots.map (·.begun) = [true] ∧ depotStops.depots.all (fun d => (depotStops.occOf d.id).any (fun o => o.stop == depotStops.now)) = true :=
  ⟨ready_of (by decide +kernel), ready_of (by decide +kernel), by decide +kernel⟩
theorem test_slice_placed : sliced.occs.map (fun o => (o.rows, o.len)) = [(16, 60000)] ∧ depotPlaced.occs.map (fun o => (o.rows, o.len)) = [(0xFF, 2250000000)] := by
  decide +kernel
theorem test_slice_verdict : (let s := next (exec (.sliceEnd 0 false 0 0) sliceStops); (s.bstFail, s.bstLastIsle, s.bstLastResult, lastReply s)) =
    (0x200000000, 33, 1, some (0, 1)) := by decide +kernel
theorem test_depot_outside_window : lastReply (next (exec (.depotTestStart false true) depotBegins)) = some (0, 3) ∧
    lastReply (next (exec (.depotTest pktDepot) host)) = some (0x0070, 12) := by decide +kernel

/-- RETIRE_PAGE of page 9, channel 1 of package 3: row 1. -/
def pktRetire : Packet := { pkt0 with opcode := 0x80, body := BitVec.ofNat 256 (3 + 1 * 2 ^ 8 + 9 * 2 ^ 32) }
def retiring : State := next (exec (.retirePage pktRetire) host)
def retireBegins : State := { retiring with now := (retiring.occs.map (·.start)).headD 0 }
def retireStops : State :=
  { retiring with retires := retiring.retires.map (fun x => { x with begun := true }), now := (retiring.occs.map (·.stop)).headD 0 }
def retired9 : State := host.setChan 13 { host.chan 13 with retired := [9] }
def retireFull : State := host.setChan 13 { host.chan 13 with retired := (List.range 64).map (· + 100) }
theorem witness_PageRetirement : PacketReady host 0x80 pktRetire ∧ PacketReady retired9 0x80 pktRetire ∧ PacketReady retireFull 0x80 pktRetire ∧ pktRetire.fn = Fn.pf ∧
    pktBytes pktRetire 20 4 % 2 ^ 19 ≤ pageTop host.big512 ∧ host.retiredAs 13 9 = none ∧ retired9.retiredAs 13 9 = some 0 ∧
    retireFull.retiredAs 13 9 = none ∧ (retireFull.chan 13).retired.length = 64 ∧ (host.chan 13).retired.length < 64 ∧
    retireBegins.retires.map (fun r => (r.begun, r.chan, r.page)) = [(false, 13, 9)] ∧
    retireBegins.retires.all (fun r => (retireBegins.occOf r.id).any (fun o => o.start == retireBegins.now)) = true ∧
    retireStops.retires.all (fun r => r.begun && (retireStops.occOf r.id).any (fun o => o.stop == retireStops.now) &&
      decide (r.page < pageTop retireStops.big512) && (retireStops.retiredAs r.chan r.page).isNone) = true ∧
    (retireStops.chan 13).errs = [] ∧ (retireStops.chan 13).inj = none ∧ Memory.wf (retireStops.chan 13).mem = true :=
  ⟨ready_of (by decide +kernel), ready_of (by decide +kernel), ready_of (by decide +kernel), by decide +kernel⟩
def retireEnded : State := next (exec (.retirementWindowEnd 0) { retireStops with retires := retireStops.retires.map (fun x => { x with id := 0 }), occs := retireStops.occs.map (fun x => { x with id := 0 }) })
/-- The table is in flash, and the reply given, in the cycle after the window's end (R288). -/
theorem witness_PageRetirementSaved : retireEnded.retires.map (·.saving) = [some 0] ∧ (retireEnded.chan 13).retired = [9] ∧
    (retireStops.chan 13).chk = [] ∧ retireStops.retires.all (fun r => r.saving.isNone) = true ∧
    retireEnded.out.length = retiring.out.length ∧ lastReply retireEnded.saveRetires = some (0, 0) ∧
    ((next (exec .powerFail retireEnded)).chan 13).retired = [] := by decide +kernel
theorem test_retire : retiring.occs.map (fun o => (o.rows, o.len)) = [(2, 3000)] ∧ lastReply (next (exec (.retirePage pktRetire) retired9)) = some (0, 1) ∧
    lastReply (next (exec (.retirePage pktRetire) retireFull)) = some (0, 2) := by decide +kernel

/-- A log of two records; the flash without room; a buffer without room. -/
def rec0 : Record := { ty := 9, seq := 0, time := 5, payload := [] }
def logged : State := { host with evr := { host.evr with buf := [rec0, { rec0 with seq := 1 }], next := 2 } }
theorem witness_RecorderWrites : host.evr.full = false ∧ sizeOf' host.evr.buf + 24 ≤ 524288 ∧
    sizeOf' host.evr.flash + sizeOf' host.evr.buf + 24 + 28 ≤ 268435456 ∧ ({ host.evr with full := true }).full = true := by decide +kernel
theorem test_record : (let r := logged.record 4 [1, 2]; (r.2, r.1.evr.log.length, r.1.evr.next)) = (2, 3, 3) ∧
    (let r := ({ logged with evr := { logged.evr with full := true } }).record 4 []; (r.2, r.1.evr.lost)) = (0xFFFFFFFF, 1) := by decide +kernel

/-- LOG_READ of 30 bytes: one whole record. -/
def pktLog : Packet := { pkt0 with opcode := 0x60, body := BitVec.ofNat 256 (0x1000 + 30 * 2 ^ 64) }
def clearing : State := { logged with evr := { logged.evr with clearing := [(pktLog, 1, 1)] } }
def capturing : State := { host with evr := { host.evr with captures := [(13, 9, 0, 0)] } }
theorem witness_RecorderCommands : PacketReady logged 0x60 pktLog ∧ PacketReady logged 0x61 (asks 0x61 pktLog) ∧ PacketReady logged 0x90 (asks 0x90 pktLog) ∧ pktLog.fn = Fn.pf ∧ logged.atl.queue.length < 16 ∧ logged.atl.waiting = [] ∧
    clearing.clocked = true ∧ clearing.evr.flushing = false ∧ ({ logged.evr with flushing := true }).flushing = true ∧
    capturing.power = .running ∧ 0 + 150000 < ({ capturing with now := 150001 }).now ∧ capturing.now ≤ 0 + 150000 :=
  ⟨ready_of (by decide +kernel), ready_of (by decide +kernel), ready_of (by decide +kernel), by decide +kernel⟩
theorem test_log_read : (let s := next (exec (.logRead pktLog) logged); s.out.any (fun o => o == .dma 8 0x1000 (Record.bytes rec0))) = true ∧
    ((next (exec .logClearEffect clearing)).evr.log.map (fun r => (r.ty, r.seq))) = [(2, 2)] := by decide +kernel
theorem test_health : ((next (exec (.queryHealth (asks 0x90 pktLog)) host)).out.findSome? (fun o => match o with
    | .dma _ a d => some (a, d.length)
    | _ => none)) = some (0x1000, 256) := by decide +kernel

/-! ## Witnesses: registers -/

theorem witness_RegisterWrites : host.busServes = true ∧ host.reef.fatal = false ∧ regAt Fn.pf 0xFFFF8 = none ∧ regAt Fn.pf 0xFFFF4 = none ∧ 2 ^ 40 ≤ 2 ^ 40 ∧
    regAt Fn.pf 0x10020 = some .admSel ∧
    vfOf 2 = some 2 := by decide +kernel
theorem test_topo_read_only : (regAt Fn.pf 0x20000).isSome = true ∧ (next (exec (.registerWrite Fn.pf 0x20004 false 0xFFFFFFFF) host)).rowOwner = host.rowOwner := by
  decide +kernel
theorem test_unknown_offset : ((next (exec (.registerWrite 2 0xFFFF8 false 7) host)).fnOf 2).clamp8 = 1 ∧ host.regRead 2 0xFFFF8 false = 0 := by
  decide +kernel

/-- Bring-up mode; a halted Isle 3 whose first instruction is ADD s1, s2, s3. -/
def bringUp : State :=
  { withIsle ({ isle0 with sk := { sk0 with halt := true, st := .halted, bank0 := { ImBank.reset with
      valid := true, words := [0x0000886000000000] } } })
    with boot := { base.boot with mode := 1 }, gates := Gates.awake }
theorem witness_RegisterCommands : host.takesWrite = true ∧ host.busServes = true ∧ host.boot.mode ≠ 1 ∧ host.boot.mode ≠ 2 ∧ bringUp.takesWrite = true ∧
    bringUp.boot.mode = 1 ∧ bringUp.reef.fatal = false ∧ (bringUp.isle 3).sk.st = .halted ∧ (bringUp.isle 3).sk.ended = false ∧
    (bringUp.isle 3).sk.held = none ∧ (bringUp.isle 3).sk.halt = true ∧ bringUp.power = .running ∧ bringUp.gates.isleOn 3 = true ∧
    ({ bringUp with gates := Gates.reset }).gates.isleOn 3 = false ∧ (bringUp.isle 3).un = Units.none ∧
    (bringUp.isle 3).fetch = some (.scalar .add (sf 1 2 3)) ∧ (bringUp.isle 3).mq = [] ∧ injectable 0x2003 = true ∧ injectable 0x9000 = false ∧
    (bringUp.port 2).up = false ∧ ((bringUp.setPort 2 { bringUp.port 2 with up := true }).port 2).up = true := by decide +kernel
theorem test_skerry_step : ((next (exec (.skerryStep 3 2) bringUp)).isle 3).reg 1 = 50 ∧
    ((next (exec (.skerryHalt 3 0) bringUp)).isle 3).sk.st = .running ∧ ((next (exec (.skerryHalt 3 1) bringUp)).isle 3).sk.st = .halted := by
  decide +kernel
def owesStep : State := next (exec (.skerryStep 3 2) { bringUp with gates := Gates.reset })
theorem test_gated_step : (owesStep.isle 3).reg 1 = 10 ∧ owesStep.gates.stepOwed = [3] ∧
    (({ owesStep with gates := owesStep.gates.ungate 0 1, now := 3 }).gateCycle.isle 3).reg 1 = 10 ∧
    (({ owesStep with gates := owesStep.gates.ungate 0 1, now := 4 }).gateCycle.isle 3).reg 1 = 50 := by decide +kernel
theorem test_clsmap : (let s := next (exec (.admClsmapWrite 1 0x92) host); (s.adm.clsmap[8], s.adm.clsmap[9], s.adm.clsmap[10], s.adm.clsmap[0])) =
    (2, 8, 0, 8) := by decide +kernel
theorem test_inject_mode : (next (exec (.faultInjectArm 0x12003) bringUp)).reef.injArmed = true ∧
    ((next (exec (.faultInjectArm 0x12003) bringUp)).isle 3).sto.inj = some false ∧ (next (exec (.faultInjectArm 0x12003) host)).reef.injArmed = false := by
  decide +kernel
theorem test_devid : (next (exec (.devidWrite 0x12345678) bringUp)).devid = 0x45678 ∧ (next (exec (.devidWrite 0x12345678) host)).devid = 0xFFFFF := by
  decide +kernel

/-! ## Witnesses: host accesses -/

/-- Row 2 is VF 2's; a protected block of row 0's channel 0, and one stored byte. -/
def dram : State := host.setChan 0 { host.chan 0 with mem := [(5, 9)], prot := [{ lo := 64, hi := 128, img := true, key := 0 }] }
theorem witness_HostDramAccesses : dram.busServes = true ∧ devRow 0x2000000005 = 2 ∧ dram.holds 2 2 = true ∧ dram.holds 2 1 = false ∧
    (dram.rows[(0 : RowIdx)]).code = 8 ∧ dram.rowDead 0 = false ∧ ({ dram with boot := { dram.boot with trainFail := 1 } }).rowDead 0 = true ∧
    (∀ c, (dram.chan c).errs = []) ∧ (dram.chan (devByte dram.big512 64 0).1).isProtected (devByte dram.big512 64 0).2 = true ∧
    (dram.chan (devByte dram.big512 0 0).1).isProtected (devByte dram.big512 0 0).2 = false ∧ Memory.wf (dram.chan (dram.devHome 0 0).1).mem = true := by
  decide +kernel
theorem test_host_dram : (next (exec (.hostDramRead 8 4 3) dram)).out = [.completion 8 [0, 9, 0] false] ∧
    ((next (exec (.hostDramWrite 8 0 [1, 2]) dram)).chan 0).mem = [(0, 1), (1, 2), (5, 9)] ∧
    ((next (exec (.hostDramWrite 8 64 [1, 2]) dram)).fnOf 8).clamp8 = 1 := by decide +kernel
theorem witness_ForeignRowAccesses : dram.busServes = true ∧ dram.holds 2 (devRow 0x1000000000) = false ∧ (2 : Fn) ≠ Fn.pf := by
  decide +kernel
theorem witness_DeviceAddresses : devMode1 0x8200000000 = true ∧ 0x8200000000 % 2 ^ 33 + 0 < chanCap true ∧ devMode1 0x2000004000 = false ∧
    devByte true 0x8200000000 0 = (1, 0) ∧ devByte true 0x2000004000 0 = (17, 0) ∧ devByte true 0x2000020000 5 = (16, 0x4005) := by decide +kernel

/-- READY slots of VF 2: slot 3 without results, slot 4 with one of 8 bytes at device address 0. -/
def results : State :=
  (dram.setSlot 2 3 { ResultSlot.reset with st := .ready, status := 1 }).setSlot 2 4
    { ResultSlot.reset with st := .ready, results := [{ payload := 0, len := 8, desc := zeros 64 }] }
theorem witness_ResultWindows : results.busServes = true ∧ (results.slotOf 2 2).st ≠ .ready ∧ (results.slotOf 2 3).st = .ready ∧
    (results.slotOf 2 3).since ≤ results.now ∧ (results.slotOf 2 3).results = [] ∧ (results.slotOf 2 4).results.length = 1 := by decide +kernel
theorem test_result_read : (next (exec (.resultRead 2 2 0 2) results)).out = [.completion 2 [0x10, 0] false] ∧
    (next (exec (.resultRead 2 4 (16384 + 4) 3) results)).out = [.completion 2 [0, 9, 0] false] := by decide +kernel
theorem test_host_read_expired : (let s := next (exec (.hostReadExpired 2 13 150000) dram);
    (s.out, (s.dram 3).expired, (s.dram 3).maxwait)) = ([.completerAbort 2], 1, 150000) := by decide +kernel

/-! ## Witnesses: start-up, power, authority -/

def starting (b : Boot) : State := { State.reset with power := .starting, perst := false, boot := b }
def boot1 : Boot := { Boot.reset with pll := true }
def overdue : State := { starting Boot.reset with sinceReset := 6150000 }
def atReady (sync : Bool) : State := { starting { boot1 with l0 := true, fw := true, dram := true, tsyncEn := sync } with power := .ready }
theorem witness_StartUp : (starting Boot.reset).power = .starting ∧ (starting boot1).boot.pll = true ∧ (starting boot1).boot.fw = false ∧
    (starting boot1).boot.dram = false ∧ boot1.slot0.valid = true ∧ ({ boot1 with slot1 := { image := [], version := 3, count := 1, valid := true } }).prefers1 = true ∧
    ({ boot1 with slot0 := { image := [], version := 4, count := 1, valid := true }, slot1 := { image := [], version := 3, count := 1, valid := true } }).prefers1 = false ∧
    (starting { boot1 with fw := true, dram := true }).boot.fw = true ∧ 6150000 ≤ overdue.sinceReset ∧ overdue.boot.pll = false ∧
    (atReady true).power = .ready ∧ (atReady true).reef.early = [] ∧
    ({ atReady true with sinceReset := 1500000000 }).boot.readyAt + 1500000000 ≤ ({ atReady true with sinceReset := 1500000000 }).sinceReset := by
  decide +kernel
theorem witness_TimelineOrigin : (atReady true).power = .ready ∧ (atReady true).boot.tsyncEn = true ∧ (atReady false).boot.tsyncEn = false ∧
    (atReady true).sinceReset < (atReady true).boot.readyAt + 1500000000 := by decide +kernel
theorem test_origin : (let s := next (exec .timelineOrigin (atReady false)); (s.power, s.now, s.lasers, s.evr.log.map (·.ty))) = (.running, 0, true, [1]) ∧
    (next (exec .tsyncTimeout { atReady true with sinceReset := 1500000000 })).boot.nosync = true := by decide +kernel
/-- Between equal versions the higher count is tried first; when it does not verify the other is booted; an image too short for its
signature block does not verify, and the PF gets recovery mode. -/
theorem test_firmware_choice : (let b := { boot1 with slot1 := { image := [], version := 0, count := 2, valid := true } };
    (b.choose true true, b.choose true false, b.choose false false)) = (some (true, false), some (false, true), none) ∧
    (let s := next (exec (.firmwareBoot [] []) (starting boot1)); (s.boot.mode, s.boot.fallback, s.auth.claimN)) = (3, true, true) := by
  decide +kernel
theorem witness_StartUpCompletes : (starting boot1).power = .starting ∧ boot1.fw = false ∧ boot1.slot1.valid = false ∧ boot1.dram = false ∧
    (starting Boot.reset).boot.pll = false ∧ ({ starting Boot.reset with sinceReset := 6150000 }).reef.fatal = false ∧
    (0x1000 : Word).toNat < 0x800000 ∧ host.takesWrite = true ∧
    ({ host with boot := { host.boot with recovOk := true } }).clocked = true := by decide +kernel
theorem test_startup_timeout : (let s := next (exec (.startupTimeout true false false) { starting Boot.reset with sinceReset := 6150000 });
    (s.power, s.reef.fatal, s.reef.fchk)) = (.stuck, true, 0xE000) := by decide +kernel
theorem test_training : (let s := next (exec (.dramTrainingComplete [9] [6]) (starting boot1)); (s.boot.trainFail, s.hot[3], (s.chan 9).trained, (s.chan 8).trained)) =
    (2, true, false, true) := by decide +kernel

def recovery : State := { host with boot := { host.boot with mode := 3 } }
def programmed : State := { host with boot := { host.boot with recovOk := true, fwslot := true } }
theorem witness_FirmwareUpdate : host.takesWrite = true ∧ recovery.takesWrite = true ∧ recovery.boot.mode = 3 ∧ recovery.boot.recovResult ≠ 1 ∧
    (∀ c, (recovery.chan c).errs = []) ∧ recovery.atl.queue.length < 16 ∧ recovery.atl.waiting = [] ∧ programmed.clocked = true ∧
    programmed.boot.recovOk = true ∧ (0x80000010 : Word).getLsbD 31 = true := by decide +kernel
theorem test_recovery : (let s := next (exec (.recoveryUpdate 0x80000003) recovery); (s.boot.recovResult, s.boot.recovImage, s.atl.queue.length)) = (1, [0, 0, 0], 1) ∧
    (let s := next (exec .recoveryProgramComplete programmed); (s.boot.slot0.valid, s.boot.slot0.count, s.boot.recovResult)) = (true, 1, 2) := by
  decide +kernel

def flushing (p : Power) : State := { base with power := p, evr := { base.evr with flushing := true, buf := [rec0] } }
theorem witness_ResetsAndPowerLoss : base.power = .running ∧ (flushing (.resetting none)).evr.flushing = true ∧ State.reset.perst = true ∧
    State.reset.power = .reset ∧ State.reset.pwrGood = true ∧ ({ State.reset with pwrGood := false }).pwrGood = false ∧
    base.power ≠ .holdUp ∧ base.power ≠ .dark ∧ (flushing .holdUp).power = .holdUp := by decide +kernel
theorem test_power_fail : (let s := next (exec .powerFail host); (s.power, s.pwrGood, s.pwrfailN, s.evr.log.map (·.ty), s.jobs)) =
    (.holdUp, false, false, [0x30], []) ∧ (next (exec .holdUpEnd (flushing .holdUp))).evr.log = [] := by decide +kernel
theorem test_perst_keeps_dram : ((next (exec .perstNAssert dram)).chan 0).mem = [(5, 9)] ∧ (next (exec .perstNAssert dram)).power = .resetting none := by
  decide +kernel

def asleep : State :=
  let r : Reply := {
    status := 0, abortLate := false, ruleSub := false, cid := 9, sqhd := 0, version := 2, qid := 0, phase := false, detail := 0
    opcode := 0x20, result0 := 0, result1 := 4, time := 0, kind := 1 }
  (({ host with reef := { host.reef with owedIrq := true, events := [{ checker := 0, cls := 1, row := none, seq := 0 }] } }).setFn 8
    { host.fnOf 8 with d3hot := true }).setFn 2 { host.fnOf 2 with d3hot := true, deferred := [{ q := 0, noirq := true, r := r }] }
def hotDie : MonSample := { MonSample.reset with die := 951 }
theorem witness_PowerStatesAndMonitor : asleep.power = .running ∧ (asleep.fnOf 8).d3hot = true ∧ (asleep.fnOf 2).d3hot = true ∧
    (asleep.fnOf 2).deferred.length = 1 ∧ (asleep.queue 2 0).en = true ∧ asleep.standby = true ∧ asleep.slices = [] := by decide +kernel
theorem test_leaves_standby : (next (exec .pfD0Entry asleep)).gates.resumeAt = 5 ∧ (next (exec .pfD0Entry asleep)).fetching = false ∧
    ({ next (exec .pfD0Entry asleep) with now := 5 }).fetching = true := by decide +kernel
theorem test_d0 : (next (exec .pfD0Entry asleep)).out = [.msix 1 8 0] ∧ lastReply (next (exec (.vfD0Entry 2) asleep)) = some (0, 0) := by decide +kernel
theorem test_smbus : (next (exec (.smbReadDieTemp true hotDie) host)).out = [.smb 951] ∧ (next (exec (.smbReadDieTemp false hotDie) host)).out = [] ∧
    (next (exec (.smbAlertNAssert hotDie) host)).mon.alert = true ∧
    (next (exec (.smbReadAlertSources true) (next (exec (.smbAlertNAssert hotDie) host)))).mon.alert = false := by decide +kernel

def twoClaims : State := { submitted with auth := { submitted.auth with claimS := true }, fetched := [{ pktV with idx := 1 }] }
def unclaimed : State := { host with now := 600000, auth := { Authority.reset with noneSince := some 0 } }
def disputed : State := { host with auth := { Authority.reset with dispute := some 0 } }
def offered : State := { host with auth := { host.auth with offer := some (true, 0) } }
theorem witness_AuthorityEvents : host.clocked = true ∧ ({ host with boot := { host.boot with fw := true } }).boot.fw = true ∧ host.auth.dispute = none ∧
    host.hasHolder = true ∧ twoClaims.auth.claimN = true ∧ twoClaims.auth.claimS = true ∧ twoClaims.auth.dispute = none ∧
    unclaimed.auth.noneSince = some 0 ∧ 0 + 600000 ≤ unclaimed.now ∧ disputed.auth.dispute = some 0 ∧ disputed.now ≤ 0 + 600000 ∧
    0 + 600000 ≤ ({ disputed with now := 600000 }).now ∧ disputed.reef.fatal = false ∧ host.takesWrite = true ∧ host.auth.offer = none ∧
    host.disputeDue = false ∧ offered.auth.offer = some (true, 0) ∧ offered.hasHolder = true ∧ offered.now ≤ 0 + 1500 ∧
    0 + 1500 < ({ offered with now := 1501 }).now := by decide +kernel
theorem test_dispute : (let s := next (exec .authorityDispute twoClaims);
    (s.auth.dispute, s.jobs.map (fun j => j.ending.map (·.status)), s.fetched, (s.queue 2 0).sqHead)) = (some 0, [some 0x00F0], [], 1) := by decide +kernel
theorem test_handover : (next (exec (.handover 2) host)).auth.offer = some (true, 0) ∧ (next (exec (.handover 1) host)).auth.offer = none ∧
    (let s := next (exec .handoverAccept offered); (s.auth.claimN, s.auth.claimS)) = (false, true) ∧
    (next (exec .handoverTimeout { offered with now := 1501 })).auth.hofail = true := by decide +kernel
theorem test_claim_lapse : (let s := next (exec .claimLapse { host with now := 150000 }); (s.auth.claimN, s.auth.noneSince)) = (false, some 150000) ∧
    (next (exec .claimLapse { host with now := 149999 })).auth.claimN = true := by decide +kernel

/-! ## Witnesses: admission port, faults, timed events -/

/-- The port is open and class 9 has an armed job. -/
def admHost : State := next (exec (.armJob { pktJob with arm := true }) { classed with adm := { classed.adm with en := true } })
def published : State := next (exec .admPublish admHost)
theorem witness_AdmissionPort : published.power = .running ∧ published.admOpen = true ∧ admHost.admOpen = true ∧
    (published.copyEntry 0 9).any (fun e => published.copyOk 0 (some e) && (published.entryJob e).any (fun j => !published.abortMet j)) = true ∧
    published.copyOk 0 (published.copyEntry 0 8) = false := by decide +kernel
theorem test_admission : (let s := next (exec (.admRequest 9 true 0) published); (s.occs.map (·.rows), s.adm.admitted, s.jobs.map (·.phase))) =
    ([4], 1, [.admitted]) ∧ (next (exec (.admRequest 8 true 0) published)).adm.ignored = 1 := by decide +kernel

def storeErr : Report := Report.of 0x2010
def fatalRep : Report := Report.of 0xE001
def driverRep : Report := Report.of 0xB005
theorem witness_FaultReports : started.power = .running ∧ correctsErrors storeErr = true ∧ started.reef.corr ≠ 0xFFFFFFFFFFFFFFFF ∧ repRow storeErr = some 2 ∧
    knownChecker storeErr = true ∧ repKind storeErr ≠ 7 ∧ (started.chargedJob 2).any (fun j => j.ending.isNone && decide (started.jobById j.id = some j)) = true ∧
    storeErr.nack = false ∧ live.chargedJob 2 = none ∧ fatalChecker fatalRep = true ∧ driverChecker driverRep = true ∧ started.reef.events.length < 64 := by
  decide +kernel
theorem test_corrected : (let s := next (exec (.correctedFault storeErr) started); (s.reef.corr, s.reef.rowCorr[2], s.reef.cont, s.jobs.length)) = (1, 1, 0, 1) := by
  decide +kernel
theorem test_contained : (let s := next (exec (.containedFault storeErr) started); (s.reef.cont, (s.slotOf 2 6).st, (s.isle 16).canIssue,
    s.jobs.map (fun j => j.ending.map (·.status)))) = (1, .free, false, [some 0x0030]) := by decide +kernel
theorem test_fatal : (let s := next (exec (.fatalFault fatalRep) started); (s.reef.fatal, s.reef.fchk, s.jobs, (s.isle 16).canIssue)) = (true, 0xE001, [], false) := by
  decide +kernel

def overrun : State := started.setIsle 16 { started.isle 16 with tokMax := 1 }
theorem witness_OverrunsAndHotRows : overrun.power = .running ∧ ((overrun.runningOn 2).any (fun j => decide (overrun.chargedJob 2 = some j) &&
      decide (overrun.jobById j.id = some j))) = true ∧ (overrun.isle 16).overdue = true ∧ (overrun.isle 16).tokOvr = false ∧
    (let s := { host with hot := Vector.replicate 8 true, now := 15000000 }; s.hot[(3 : RowIdx)] = true ∧ s.cleanSince[(3 : RowIdx)] + 15000000 ≤ s.now) := by
  decide +kernel
/-- A SWAP whose page never comes has waited longer than ISL_SLACK (R216). -/
def swapping : State := started.setIsle 16 { started.isle 16 with slack := 16, sk := { (started.isle 16).sk with
  held := some (.swap 3 0), heldWait := 17, st := .stalled } }
theorem test_swap_overrun : (next (exec (.scheduleOverrun 16) swapping)).jobs.map (fun j => j.ending.map (·.result0)) = [some 0x00B0] := by
  decide +kernel
theorem test_overrun : (next (exec (.scheduleOverrun 16) overrun)).jobs.map (fun j => j.ending.map (·.result0)) = [some 0x00B0] := by decide +kernel
theorem test_hot : (next (exec (.dramHot 6) host)).hot[3] = true := by decide +kernel
def clocked (n : Nat) : State := { host with now := n, reef := { host.reef with aliveOn := true } }
theorem witness_ClockedEvents : (clocked 7500).power = .running ∧ (clocked 7500).reef.aliveOn = true ∧ (clocked 7500).now % 7500 = 0 ∧
    36 * ((17 : ChanIdx).val % 16) ≤ (clocked 621).now ∧ ((clocked 621).now - 36 * ((17 : ChanIdx).val % 16)) % 585 = 0 ∧
    (starting { boot1 with dram := true }).boot.dram = true ∧ fatal.reef.fatal = true := by decide +kernel
/-- The started job in bring-up mode: debug traffic delays its row. -/
def debugged : State := { started with boot := { started.boot with mode := 1 } }
theorem witness_DebugTraffic : debugged.boot.mode = 1 ∧ debugged.power = .running ∧ debugged.reef.fatal = false ∧
    (debugged.runningOn (ChanIdx.row 17)).isSome = true ∧ host.boot.mode ≠ 1 ∧ host.boot.mode ≠ 2 ∧ host.runningOn (ChanIdx.row 17) = none ∧
    (starting boot1).boot.dram = false := by decide +kernel
theorem test_alive : (next (exec .aliveToggle (clocked 7500))).reef.alive = true ∧ (next (exec .aliveToggle (clocked 7501))).reef.alive = false := by decide +kernel
theorem test_refresh : ((next (exec (.refreshSlot 17) { clocked 621 with hot := Vector.replicate 8 true })).chan 17).refreshes = 2 ∧
    ((next (exec (.refreshSlot 17) (clocked 622))).chan 17).slots = 0 := by decide +kernel

/-! ## Witnesses: Straits and mesh -/

/-- Port 2 is UP towards module 7; this module is 5. -/
def linked : State := { host with devid := 5 }.setPort 2 { host.port 2 with up := true, rxpeer := 7 }
/-- The data of a status codeword: a WSTATE or NACK for `dest` with `hops` left, window 3 open at epoch 2. -/
def cwData (msg hops dest : Nat) : List Byte :=
  zeros 8 ++ [byteOf msg] ++ leBytes 3 hops ++ leBytes 3 dest ++ leBytes 3 7 ++ leBytes 2 3 ++ leBytes 2 2 ++ [1] ++ zeros 9
def strait0 : StraitPlan :=
  { groups := [(2, [2])], topo := [], ringPorts := 0, reductions := [], keyLandings := [], landings := [(2, 5)] }
/-- The started job with a Strait plan, on the linked module. -/
def withPlan (p : StraitPlan) (s : State) : State :=
  let give := fun (j : Job) => { j with configs := [(0, 0, 1, [])], img := { j.img with sections := { j.img.sections with strait := some p } } }
  State.setPort { s with devid := 5, jobs := s.jobs.map give } 2 { s.port 2 with up := true, rxpeer := 7 }
def planned : State := withPlan strait0 started
/-- The last four frames of a port whose peer is module 7, and of one without a signal. -/
def heads : List (List Byte) := (List.range 4).map (fun n => alignPattern ++ codeCw (statusBytes 7 n none))
def lost : LinkFrames := { port := 2, frames := List.replicate 4 (zeros 114) }
theorem witness_LinksAndControl : linked.power = .running ∧ (linked.port 1).up = false ∧ (linked.port 2).up = true ∧ linked.planOn 2 = none ∧
    (planned.planOn 2).isSome = true ∧ linked.runningOn 2 = none ∧ readCw (codeCw (cwData 1 1 5)) = some (cwData 1 1 5, 0) ∧
    readCw (codeCw (cwData 2 3 9)) = some (cwData 2 3 9, 0) ∧ leAt (cwData 2 3 9) 12 3 % 2 ^ 20 = 9 ∧ leAt (cwData 1 1 5) 12 3 % 2 ^ 20 = 5 ∧
    leAt (cwData 1 1 5) 8 1 = 1 ∧ leAt (cwData 1 1 5) 22 1 = 1 ∧ leAt (cwData 2 3 9) 9 3 % 2 ^ 20 = 3 ∧ (linked.port 2).waiting < 32 ∧
    readCw (((codeCw (cwData 1 1 5)).set 0 1).set 1 1) = none ∧ aligned (zeros 114) = false ∧ cleanStatus (zeros 114 |>.set 80 1) = none ∧
    (heads.drop (heads.length - 4)).length = 4 ∧ (∀ h ∈ heads, aligned h = true) ∧
    (heads.filterMap cleanStatus).getLast? = some (statusBytes 7 3 none) ∧
    ((planned.runningOn 2).any (fun j => decide (planned.chargedJob 2 = some j) && decide (planned.jobById j.id = some j))) = true := by
  decide +kernel
theorem test_wstate : ((next (exec (.wstate 2 (codeCw (cwData 1 1 5))) linked)).port 2).mirror = [{ handle := 3, opened := true, epoch := 2 }] ∧
    ((next (exec (.nack 2 (codeCw (cwData 2 3 9))) linked)).port 2).fwdMsgs.map (fun m => (m.mhops, m.mdest, m.nack)) = [(2, 9, true)] := by decide +kernel
theorem test_nack_discards : (let s := next (exec (.nack 2 (codeCw (cwData 2 1 5))) planned); s.jobs.map (fun j => j.ending.map (·.status))) = [some 0x0050] ∧
    ((next (exec (.nack 2 (codeCw (cwData 2 1 5))) linked)).port 2).nacklate = 1 := by decide +kernel
theorem test_links : (let p := (next (exec (.linkUp 1 heads) { linked with devid := 7 })).port 1; (p.up, p.rxpeer, p.dupid)) = (true, 7, true) ∧
    (let p := (next (exec (.linkDown lost) linked)).port 2; (p.up, p.rxpeer, p.downs)) = (false, 0xFFFFF, 1) ∧
    (next (exec (.linkDown lost) planned)).reef.cont = 1 ∧ (next (exec (.linkUp 1 (heads.drop 1)) linked)).port 1 = linked.port 1 := by decide +kernel

theorem witness_Frames : linked.power = .running ∧ linked.now % 6 = 0 ∧ (linked.port 2).frame ≤ linked.now / 6 ∧ linked.planOn 2 = none ∧
    (linked.port 2).redBuf = [] ∧ (linked.port 2).nackAcc = [] ∧ (linked.port 2).inj = none ∧ (linked.port 2).waiting = 0 ∧
    ((linked.port 2).wstateMsgs.head?.all (fun a => a.openPkt.isNone)) = true ∧ ({ linked with now := 1 }).now % 6 ≠ 0 ∧
    (let s := linked.setPort 2 { linked.port 2 with windows := [{ (linked.port 2).window 5 with st := .opened }] };
      (s.port 2).windows.map (fun w => (w.handle, w.st)) = [(5, .opened)] ∧ (s.port 2).waiting = 0) := by decide +kernel
/-- A frame whose first flit group is of class WIN carries the waiting window write in its first slot. -/
def sending : State := linked.setPort 2 { linked.port 2 with groups := [2], egress := [rawFlit 2 0 7 [1]] }
theorem witness_FramesWithFlits : (sending.port 2).groupClass ((125 * 0 + 0) / 64) = 2 ∧ (sending.port 2).groupClass 0 ≠ 0 ∧
    (sending.port 2).egress.find? (fun f => flitClass f == 2) = some (rawFlit 2 0 7 [1]) ∧ sending.planOn 2 = none := by decide +kernel
theorem test_frame_flit : (let t := next (exec (.frameTransmit 2) sending); ((t.port 2).egress, t.out.any (fun o => match o with
    | .flit _ k w => k == 0 && (readFlit w).any (fun r => flitClass r.1 == 2)
    | _ => false))) = ([], true) := by decide +kernel
/-- An idle frame: 125 IDLE flits after the alignment pattern and a status codeword without a message. -/
theorem test_frame : (let o := (next (exec (.frameTransmit 2) linked)).out;
    (o.length, o.getLast?)) = (126, some (.frame 2 (alignPattern ++ codeCw (statusBytes 5 0 none)))) := by decide +kernel
theorem witness_StraitCodewords : (cwData 1 1 5).length ≤ 32 ∧ 33 < (cwData 1 1 5).length + 2 ∧ (codeCw (cwData 1 1 5)).getD 33 0 ≠ 0x55 := by decide +kernel
theorem test_codeword_corrected : readCw ((codeCw (cwData 1 1 5)).set 33 0x55) = some (cwData 1 1 5, 1) := by decide +kernel

/-- Flits before coding: class, index, fields, payload 1, 2, 3, 4 and zeros. -/
def flit (cls idx fields : Nat) : List Byte :=
  let r := rawFlit cls idx fields [1, 2, 3, 4]
  r.set 1 (byteOf (flitCheck r))
def wire (cls idx fields : Nat) : List Byte := codeFlit (rawFlit cls idx fields [1, 2, 3, 4]) none
/-- Window 5 of port 2 is OPEN on a target for VF 2; Isle 20 has a landing slot of 16 KiB at 0, and slice 4 a window of scheduled traffic. -/
def windowed (t : WinTarget) : State :=
  let s := planned.setPort 2 { planned.port 2 with windows := [{ (planned.port 2).window 5 with owner := some 2, st := .opened, target := t }] }
  let s := s.setIsle 20 { s.isle 20 with
    mov := { (s.isle 20).mov with rd := 2 }, sto := { (s.isle 20).sto with slots := [{ slotR with kind := 3, full := false, readers := 1, len := 512 }] } }
  s.setLagoon 4 { Lagoon.reset with mode := 1, windows := [(0, 1000000)] }
/-- Fields of a WIN flit of 32 bytes at offset 64 to handle 5, by epoch. -/
def winFields (epoch : Nat) : Nat := 7 + 5 * 2 ^ 20 + epoch * 2 ^ 36 + 2 * 2 ^ 52
theorem witness_FlitsReceived : linked.power = .running ∧ (linked.port 1).up = false ∧ (linked.port 2).up = true ∧
    readFlit (((wire 2 0 (winFields 0)).set 30 9).set 31 9) = none ∧ readFlit (wire 2 0 (winFields 0)) = some (flit 2 0 (winFields 0), 0) ∧
    flitVersion (flit 2 0 (winFields 0)) = 2 ∧ flitClass (flit 2 0 (winFields 0)) = 2 ∧ readFlit (wire 0 0 0) = some (flit 0 0 0, 0) ∧ flitClass (flit 0 0 0) = 0 ∧
    linked.winCause 2 ((linked.port 2).window 5) 0 64 32 = 1 := by decide +kernel
theorem witness_FlitsLand : (let s := windowed (.store 20 0 0x4000); s.winCause 2 ((s.port 2).window 5) 0 64 32 = 0 ∧ queuesEmpty (s.isle 20) ∧
      (s.isle 20).sk.held = none ∧ (s.isle 20).mov.fwds = [] ∧ (s.isle 20).un = Units.none ∧ (s.isle 20).slotAt 64 = some 0 ∧
      ((s.isle 20).slot 0).full = false ∧ Memory.wf (s.isle 20).sto.mem = true ∧
      s.winCause 2 ((s.port 2).window 5) 1 64 32 = 1 ∧ s.winCause 2 ((s.port 2).window 5) 0 0x4000 32 = 2 ∧
      s.winCause 2 ((s.port 2).window 5) 0 (0x4000 - 32) 32 = 0 ∧ ({ s with jobs := [] }).winCause 2 ((s.port 2).window 5) 0 64 32 = 3) ∧
    (let s := windowed (.lagoon 4 0 0x1000); s.winCause 2 ((s.port 2).window 5) 0 64 32 = 0 ∧
      (s.lagoon 4).junk = none ∧ Memory.wf (s.lagoon 4).mem = true) ∧ (flitData (flit 2 0 (winFields 0))).length = 256 ∧
    linked.keyPlan 2 = none ∧ flitClass (flit 1 0 0) = 1 ∧ flitFirst (flit 1 0 0) = true ∧ linked.redOf 2 (redStream (flit 3 0 0)) = none := by
  unfold queuesEmpty; decide +kernel
theorem witness_FlitsLandMovers : ∀ k, moverIdle ((windowed (.store 20 0 0x4000)).isle k).mov := by unfold moverIdle; decide +kernel
theorem test_window_write : memReadN ((next (exec (.winFlit 2 (wire 2 0 (winFields 0))) (windowed (.store 20 0 0x4000)))).isle 20).sto.mem 63 6 = [0, 1, 2, 3, 4, 0] ∧
    ((next (exec (.winFlit 2 (wire 2 0 (winFields 1))) (windowed (.store 20 0 0x4000)))).port 2).nackAcc.map (fun m => (m.handle, m.arg)) = [(5, 1)] := by
  decide +kernel
theorem test_stray_flits : ((next (exec (.keyFlit 2 (wire 1 0 0)) linked)).port 2).kcdrop = 1 ∧ ((next (exec (.redFlit 2 (wire 3 0 0)) linked)).port 2).reddrop = 1 ∧
    ((next (exec (.idleFlit 2 ((wire 0 0 0).set 40 1)) linked)).port 2).fecCorr = 1 := by decide +kernel

/-- A ring of two modules whose job reduces fp32 tiles in Isle 16 and circulates keys. -/
def red0 : ReductionDecl :=
  { port := 2, base := 9, ty := 0, pset := 0, limbs := 1, hardwired := false, pfmt := 0, sfmt := 0, master := false, thinMin := 0, tiles := 2,
    contrib := [{ isle := 16, off := 0 }], param := [{ isle := 16, off := 0x8000 }], stM := [], stV := [], masterAt := [],
    land := [{ isle := 16, off := 0x10000 }, { isle := 16, off := 0x14000 }], resid := [], selw := [], scalar := { isle := 16, off := 0x20000 } }
def ring : State :=
  let s := withPlan { strait0 with groups := [(2, [1, 3])], ringPorts := 4, reductions := [red0] } started
  let s := s.setPort 2 { s.port 2 with keyRx := some { targets := [], chunk := none, fwd := true } }
  { s with jobs := s.jobs.map (fun j => { j with members := [5, 7], img := { j.img with hdr := { j.img.hdr with ringSize := 2 } } }) }
def fullSlot : Slot := { kind := 1, init := false, readers := 1, len := 512, base := 0, full := true, drain := 0, rounds := 1, got := 0 }
/-- The contribution tile is FULL and holds 1.0. -/
def contributed : State :=
  ring.setIsle 16 { ring.isle 16 with sto := { (ring.isle 16).sto with mem := memWriteN [] 256 [0, 0, 0x80, 0x3F], slots := [fullSlot] } }
/-- A RED flit of stream 18 at an offset, 65 unless given: tile 1, with 2.0 first. -/
def redRawFlit (off : Nat := 65) : List Byte :=
  let r := rawFlit 3 1 (7 + 18 * 2 ^ 20 + 1 * 2 ^ 36 + off * 2 ^ 70) [0, 0, 0, 0x40]
  r.set 1 (byteOf (flitCheck r))
theorem witness_RingFlits : ring.power = .running ∧ (ring.port 2).up = true ∧ (ring.keyPlan 2).isSome = true ∧
    (ring.port 2).keyRx.any (fun g => g.targets.isEmpty) = true ∧ flitFirst (flit 1 3 0) = false ∧ flitVersion (flit 1 3 0) = 2 ∧
    readFlit (codeFlit redRawFlit none) = some (redRawFlit, 0) ∧ flitClass redRawFlit = 3 ∧ redStream redRawFlit = 18 ∧ (ring.port 2).redBuf = [] ∧
    (ring.redOf 2 18).any (fun r => decide (r.thin = 0) && !ring.tileReady 2 r 1 && contributed.tileReady 2 r 0 && contributed.tileReady 2 r 1 &&
      (r.owns 0 != r.owns 1)) = true ∧ (contributed.isle 16).sto.errs = [] ∧ flitFirst (flit 1 0 0) = true ∧ flitIdx (flit 1 0 0) = 0 ∧
    (ring.keyPlan 2).any (fun x => x.2.keyLandings.isEmpty) = true := by decide +kernel
theorem test_red_waits : ((next (exec (.redFlit 2 (codeFlit redRawFlit none)) ring)).port 2).redBuf.length = 1 := by decide +kernel
/-- The owner of tile 0 lands 2.0 + 1.0. -/
theorem test_red_owner : memReadN ((next (exec (.redFlit 2 (codeFlit (redRawFlit 1) none)) contributed)).isle 16).sto.mem 0x10100 4 = [0, 0, 0x40, 0x40] := by
  decide +kernel
/-- The first flit of a group with two hops left goes on with one. -/
def keyRaw (hops : Nat) : List Byte :=
  let r := rawFlit 1 0 (hops * 2 ^ 84) [5]
  r.set 1 (byteOf (flitCheck r))
theorem witness_KeyFlits : readFlit (codeFlit (keyRaw 2) none) = some (keyRaw 2, 0) ∧ flitVersion (keyRaw 2) = 2 ∧ flitClass (keyRaw 2) = 1 ∧
    flitFirst (keyRaw 2) = true ∧ flitIdx (keyRaw 2) = 0 ∧ 1 < flitFields (keyRaw 2) / 2 ^ 84 % 2 ^ 20 ∧
    flitFields (flit 1 0 0) / 2 ^ 84 % 2 ^ 20 ≤ 1 := by decide +kernel
theorem test_key_hops : ((next (exec (.keyFlit 2 (codeFlit (keyRaw 2) none)) ring)).port 2).egress.map (fun f => flitFields f / 2 ^ 84 % 2 ^ 20) = [1] := by
  decide +kernel
theorem test_key_passes : ((next (exec (.keyFlit 2 (wire 1 3 0)) ring)).port 2).egress.length = 1 := by decide +kernel

def meshHdr (dest port slot src : Nat) : List Byte :=
  let d := [byteOf dest, byteOf port, byteOf slot, byteOf src] ++ zeros 20
  rsCheck 3 d ++ d
theorem witness_MeshFlits : host.power = .running ∧ host.reef.injArmed = false ∧
    (meshHdr 17 2 2 40 :: chunks 35 (zeros 140)).map readMeshCw =
      ((([17, 2, 2, 40] : List Byte) ++ zeros 20) :: List.replicate 4 (zeros 32)).map (fun d => (some d, false)) ∧
    (((((meshHdr 17 2 2 40).set 5 1).set 6 9) :: chunks 35 (zeros 140)).map readMeshCw).map (·.1.isSome) = [false, true, true, true, true] ∧
    (host.rows[(2 : RowIdx)]).code = 2 ∧ (17 : IsleIdx).row = 2 ∧ (17 : IsleIdx).col ≠ (40 : IsleIdx).col := by decide +kernel
theorem test_mesh : (next (exec (.meshFlitDelivery 17 (meshHdr 17 2 2 40) (zeros 140)) host)).out = [.deliver 17 2 (zeros 16) (zeros 128)] ∧
    (next (exec (.meshFlitDelivery 40 (meshHdr 17 2 2 40) (zeros 140)) host)).out = [.deliver 17 2 (zeros 16) (zeros 128)] ∧
    (let s := next (exec (.meshFlitDelivery 17 (meshHdr 17 2 3 40) (zeros 140)) host); (s.out.length, s.reef.rowCont[5])) = (1, 1) := by decide +kernel

/-! ## Witnesses: held and key loads, loops, summaries, the whole machine -/

/-- A load of page 0 that waited, with nothing left that holds it. -/
def holding : State := { bound with heldLoads := [{ id := 50, occ := 51, p := pktLoad, bind := 0, isles := [16, 17], interp := 0, waits := [] }] }
/-- LOAD_KEYSET of an empty set for row 2, at the checks and past them. -/
def pktKeys : Packet := { pktV with opcode := 0x12, body := BitVec.ofNat 256 (2 * 2 ^ 96 + 1 * 2 ^ 104 + 1 * 2 ^ 160) }
def keyLoad (c : Option Bool) : State :=
  { host with keyLoads := [{ id := 60, p := pktKeys, man := { raw := zeros 64, sig := [], records := [] }, version := 2, tag := 0x50001, checked := c, interp := 0 }] }
/-- A key record that is none of the KINDs refuses the set (R46). -/
def badKeys : State :=
  { keyLoad (some true) with keyLoads := (keyLoad (some true)).keyLoads.map (fun k => { k with man := { k.man with records := [zeros 16384] } }) }
theorem witness_KeyLoadRefused : badKeys.keyLoads.all (fun k => k.man.records.any (fun r => !badKeys.recordOk k.p.fn (badKeys.keyRecOf k.p.fn k.version.toNat r).1 r.length)) = true := by
  decide +kernel
theorem test_keyset_refused : lastReply (next (exec (.loadKeysetComplete 60) badKeys)) = some (0x0081, 0) := by decide +kernel
/-- A held load waits for a job, until its interval begins. -/
def heldBack : State :=
  { submitted with
    heldLoads := [{ id := 50, occ := 51, p := pktLoad, bind := 0, isles := [16], interp := 0, waits := submitted.engaged.map (·.id) }]
    occs := { id := 51, rows := 4, start := 5, len := 3000, kind := .held } :: submitted.occs }
theorem witness_HeldLoadWaits : heldBack.engaged.length = 1 ∧ heldBack.now = 0 ∧
    (next (exec (.heldLoadWrite 50) heldBack)).heldLoads.length = 1 ∧
    (next (exec (.heldLoadWrite 50) { heldBack with now := 5 })).heldLoads.length = 0 := by decide +kernel
theorem witness_HeldAndKeyLoads : holding.heldLoads.all (fun h => h.waits.isEmpty) = true ∧
    holding.images.map (·.bind) = [0] ∧ (keyLoad (some true)).keyLoads.length = 1 ∧
    (keyLoad (some true)).keyRunOk 2 (pktFirstRow pktKeys 28).val ((keyLoad (some true)).keyFields pktKeys).1 = true ∧
    (keyLoad (some true)).tagUsed 0x50001 = false ∧ (∀ c, ((keyLoad (some true)).chan c).prot = []) := by decide +kernel
theorem test_keyset : (next (exec (.loadKeysetComplete 60) (keyLoad (some true)))).keysets.map (·.tag) = [0x50001] ∧
    lastReply (next (exec (.loadKeysetComplete 60) (keyLoad (some false)))) = some (0x00A0, 0) := by decide +kernel
theorem test_loop_settles : (let l : LoopFrame := { first := 8, past := 24, count := 2, idx := 0 };
    (settleLoops [l] 24, settleLoops [{ l with idx := 1 }] 24, settleLoops [l] 16)) =
    (([{ first := 8, past := 24, count := 2, idx := 1 }], 8), ([], 24), ([{ first := 8, past := 24, count := 2, idx := 0 }], 16)) := by decide +kernel
theorem witness_VectorSummaries : movsLane (vf 0 0) < 2048 / typeWidth (vf 0 0).ty ∧ (vf 3 0).ty.toNat = 3 := by decide +kernel

theorem witness_IdleCycle : State.reset.pending = [] ∧ State.reset.power ≠ .running ∧ (atReady true).pending = [] ∧ base.pending = [] ∧ base.power = .running := by
  decide +kernel
theorem test_step_front : (step { live with pending := [.add 3 (si 5 1 7), .add 3 (si 5 1 9)] }) = exec (.add 3 (si 5 1 7)) { live with pending := [.add 3 (si 5 1 9)] } :=
  rfl
theorem test_idle : base.latches.gateCycle.now = 1 ∧ (next (step State.reset)).now = 0 ∧ (next (step (atReady true))).sinceReset = 1 := by decide +kernel
theorem witness_StepKeepsSafe : Safe State.reset := by
  exact ⟨⟨by decide +kernel, by decide +kernel, by decide +kernel⟩, rfl⟩

end Sys2Proof.Tests
end

section
/-! H1-compatible mode (R6): the two places where it comes from, the strap sampled with PERST_N and the bit HBR_CTRL.COMPAT. -/

namespace Sys2Proof.Machine

/-! ## GEN_COMPAT, sampled as PERST_N is deasserted (R419, R420, R448) -/

/-- Start-up takes the strap it is given, whatever the state before held. -/
@[simp] theorem startUp_genCompat (s : State) (straps : Bool × Bool × BitVec 2 × Bool) :
    (s.startUp straps).boot.genCompat = straps.1 := rfl

theorem exec_perstNDeassert_startUp (s : State) (g h : Bool) (m : BitVec 2) (ts : Bool) (hp : s.perst = true)
    (hw : s.power = .reset ∨ s.power = .dark) (hg : s.pwrGood = true) :
    exec (.perstNDeassert g h m ts) s = .next (s.startUp (g, h, m, ts)) := by
  change execPerstNDeassert g h m ts s = _
  rcases hw with hw | hw <;> simp [execPerstNDeassert, hp, hw, hg]

/-- While a flush runs the straps wait for its end. -/
theorem exec_perstNDeassert_resetting (s : State) (g h : Bool) (m : BitVec 2) (ts : Bool)
    (x : Option (Bool × Bool × BitVec 2 × Bool)) (hp : s.perst = true) (hw : s.power = .resetting x) :
    exec (.perstNDeassert g h m ts) s = .next { s with perst := false, power := .resetting (some (g, h, m, ts)) } := by
  change execPerstNDeassert g h m ts s = _
  simp [execPerstNDeassert, hp, hw]

theorem exec_flushComplete_resetting (s : State) (straps : Bool × Bool × BitVec 2 × Bool) (hf : s.evr.flushing = true)
    (hw : s.power = .resetting (some straps)) :
    exec .flushComplete s = .next (State.startUp { s with evr := s.evr.flushed } straps) := by
  change execFlushComplete s = _
  simp [execFlushComplete, hf, hw]

/-! ## HBR_CTRL.COMPAT -/

theorem h1Mode_iff (s : State) : s.h1Mode = true ↔ s.boot.genCompat = true ∨ s.compat = true := by
  simp [State.h1Mode]

theorem exec_hbrCtrlWrite_unstrapped (s : State) (v : Word) (ht : s.takesWrite = true) (hg : s.boot.genCompat = false) :
    exec (.hbrCtrlWrite v) s = .next { s with compat := v.getLsbD 0 } := by
  change execHbrCtrlWrite v s = _
  simp [execHbrCtrlWrite, ht, hg]

theorem exec_hbrCtrlWrite_strapped (s : State) (v : Word) (hg : s.boot.genCompat = true) :
    exec (.hbrCtrlWrite v) s = .next s := by
  change execHbrCtrlWrite v s = _
  simp [execHbrCtrlWrite, hg]

theorem regAt_hbrCtrl : regAt Fn.pf 0 = some .hbrCtrl := by decide

/-- HBR_CTRL reads the mode in force in bit 0, and 0 elsewhere. -/
theorem regRead_hbrCtrl (s : State) : s.regRead Fn.pf 0 false = b2n s.h1Mode := by
  have hread : s.regRead Fn.pf 0 false = b2n s.h1Mode % 2 ^ 32 := by
    simp [State.regRead, regAt_hbrCtrl, State.regValue]
  cases hm : s.h1Mode <;> simp [hread, hm, b2n]

/-- Settles O26: the strap reaches the state through `startUp`, at once or at the flush's end; COMPAT through its own bit. -/
theorem compatMode : Obligations.CompatMode := by
  unfold Obligations.CompatMode
  intro s v g h m ts
  refine ⟨?strapAtOnce, ?strapAfterFlush, h1Mode_iff s, exec_hbrCtrlWrite_unstrapped s v, ?strapped⟩
  case strapAtOnce =>
    intro hp hw hg
    exact ⟨_, exec_perstNDeassert_startUp s g h m ts hp hw hg, startUp_genCompat ..⟩
  case strapAfterFlush =>
    intro x hp hw
    exact ⟨_, _, exec_perstNDeassert_resetting s g h m ts x hp hw, exec_flushComplete_resetting _ (g, h, m, ts) rfl rfl,
      startUp_genCompat ..⟩
  case strapped =>
    intro hg
    have hm : s.h1Mode = true := (h1Mode_iff s).2 (.inl hg)
    exact ⟨exec_hbrCtrlWrite_strapped s v hg, by simp [regRead_hbrCtrl, hm, b2n]⟩

end Sys2Proof.Machine
end

section
/-! The matrix engine's instructions (R141, R142, R144): what a weight load latches, and how WLOAD, WSWAP and MMUL run in a
calm state. -/

namespace Sys2Proof.Machine

/-! ## Tile elements -/

theorem leNat_lt (l : List Byte) : leNat l < 2 ^ (8 * l.length) := by
  induction l with
  | nil => simp [leNat]
  | cons b t ih =>
    have hb : b.toNat < 256 := b.isLt
    have hp : 2 ^ (8 * (t.length + 1)) = 256 * 2 ^ (8 * t.length) := by rw [Nat.mul_succ, Nat.pow_add]; omega
    rw [leNat, List.length_cons, hp]
    omega

/-- An element of a tile register fits in its bytes. -/
theorem tileElem_lt (is : Isle) (t bytes r c : Nat) : is.tileElem t bytes r c < 2 ^ (8 * bytes) := by
  simpa [Isle.tileElem, Isle.tileRead] using leNat_lt (is.tileRead (16384 * t + shapeOff bytes r c) bytes)

/-- An integer or float weight is at most two bytes, so that a word of its row holds it whole. -/
theorem tileElem_word (is : Isle) (t mode r c : Nat) (hm : mode ≤ 4) :
    (BitVec.ofNat 32 (is.tileElem t (modeBytes mode) r c)).toNat = is.tileElem t (modeBytes mode) r c := by
  have hb : 8 * modeBytes mode ≤ 32 := by simp only [modeBytes]; split <;> omega
  exact Nat.mod_eq_of_lt (Nat.lt_of_lt_of_le (tileElem_lt ..) (Nat.pow_le_pow_right (by decide) hb))

/-! ## The standby set (R141, R142) -/

@[simp] theorem latch_active (is : Isle) (f : WloadFields) (rows : List (List Word)) :
    (is.latch f rows).me.active = is.me.active := by
  simp only [Isle.latch]; split <;> rfl

@[simp] theorem latch_activeSet (is : Isle) (f : WloadFields) (rows : List (List Word)) :
    (is.latch f rows).me.activeSet = is.me.activeSet := by
  cases ha : is.me.active <;> simp [Isle.latch, Matrix.activeSet, ha]

@[simp] theorem latch_tiles (is : Isle) (f : WloadFields) (rows : List (List Word)) :
    (is.latch f rows).me.tiles = is.me.tiles := by
  simp only [Isle.latch]; split <;> rfl

/-- A load latches its weights in the set that is not active. -/
@[simp] theorem latch_standby (is : Isle) (f : WloadFields) (rows : List (List Word)) :
    (if is.me.active then (is.latch f rows).me.wA else (is.latch f rows).me.wB) = weightsOf f is.me.latchInj rows := by
  cases ha : is.me.active <;> simp [Isle.latch, ha]

/-- A load from tile words without wrong symbols latches the rows of its extent and reports nothing. -/
theorem wload_clean (i : IsleIdx) (is : Isle) (f : WloadFields) (h : is.me.tileErrs = []) :
    is.wload i f = (is.latch f ((List.range (wloadRows f.mode.toNat)).map (is.wloadRow f)), []) := by
  simp [Isle.wload, h]

/-- Row `k` of an integer or float load becomes row `k` of the weights, unchanged. -/
theorem weightsOf_weight (f : WloadFields) (b : Bool) (rows : List (List Word)) (k n : Nat) (hm : f.mode.toNat ≤ 4)
    (hk : k < modeRows f.mode.toNat) (hr : k < rows.length) :
    (weightsOf f b rows).weight f.mode k n = ((rows.getD k []).getD n 0).toNat := by
  have hm5 : ¬ f.mode.toNat ≥ 5 := by omega
  have hrows : (weightsOf f b rows).rows = rows.take (modeRows f.mode.toNat) := by simp [weightsOf, hm5]
  have hne : (rows.take (modeRows f.mode.toNat)).isEmpty = false := by
    rw [List.isEmpty_eq_false_iff, ← List.length_pos_iff, List.length_take]; omega
  have hmode : (weightsOf f b rows).mode = f.mode := rfl
  simp [WeightSet.weight, hrows, hne, hmode, hk]

theorem wloadRow_getD (is : Isle) (f : WloadFields) (r n : Nat) (hm : f.mode.toNat ≤ 4) (hn : n < modeRows f.mode.toNat) :
    (is.wloadRow f r).getD n 0 = BitVec.ofNat 32 (is.tileElem f.st.val (modeBytes f.mode.toNat) (f.wrow.toNat + r) n) := by
  have hm5 : ¬ f.mode.toNat ≥ 5 := by omega
  simp [Isle.wloadRow, hm5, hn]

/-- The weights of an integer or float load are the elements of the tile register from row WROW on. -/
theorem weightLoads : Claims.WeightLoads := by
  intro i x w k n hm he hk hn
  have hrows : wloadRows w.mode.toNat = modeRows w.mode.toNat := if_neg (by omega)
  have hbytes : (if w.mode.toNat ≤ 2 then 1 else 2) = modeBytes w.mode.toNat := by simp only [modeBytes, hm, if_true]
  simp only [wload_clean i x w he, hbytes, latch_standby, hrows]
  have hrow : ((List.range (modeRows w.mode.toNat)).map (x.wloadRow w)).getD k [] = x.wloadRow w k := by simp [hk]
  rw [weightsOf_weight w _ _ k n hm hk (by simpa using hk), hrow, wloadRow_getD x w k n hm hn, tileElem_word x _ _ _ _ hm]

/-! ## Issue -/

/-- A mode that is not reserved (R126). -/
theorem mode_ne_seven {m : BitVec 3} (h : m.toNat < 7) : m ≠ 7 := by
  rintro rfl
  exact absurd h (by decide)

theorem calm_retire {s : State} {i : IsleIdx} (h : Calm s i) (n : Nat) :
    queuesEmpty ((s.isle i).retire n) ∧ unitsIdle ((s.isle i).retire n).un ∧ moverIdle ((s.isle i).retire n).mov ∧
    ((s.isle i).retire n).sk.held = none ∧ ((s.isle i).retire n).me = (s.isle i).me := by
  have hh := canIssue_held h.issues
  rw [retire_calm _ n h.queues (h.movers i) hh]
  exact ⟨h.queues, h.units, h.movers i, hh, rfl⟩

/-- A matrix instruction joins MQ in a calm state and runs at once; its engine leaves `x` without a report. -/
theorem exec_matrix {c : Instr} {ins : IsleInstr} {op : QOp} {y : Sync} (s : State) (i : IsleIdx) (x : Isle) (h : Calm s i)
    (he : exec c s = .next (s.issueAt i ins))
    (hb : (s.isle i).begin i (s.isleCompat i) ins = (s.isle i).pushed 0 (entry op y))
    (hr : (s.isle i).ready y = true) (hx : x.control = ((s.isle i).retire 1).control)
    (hp : ((s.isle i).retire 1).runEntry i (s.isleCompat i) (entry op y) = some (x.syncDone y, [])) :
    exec c s = .next (s.putIsle i (x.syncDone y)) := by
  obtain ⟨rq, ru, rm, rh, -⟩ := calm_retire h 1
  obtain ⟨xq, xm, xu, xh⟩ := control_calm x _ hx rq rm rh y
  have hi : (s.isle i).tryIssue i (s.isleCompat i) ins = ((s.isle i).pushed 0 (entry op y)).map Issued.run := by
    rw [Isle.tryIssue, hb]
  rw [he, issueAt_run s i ins 0 (entry op y) _ h hi rfl hr (ready_headSync _ _ hr) hp xq (by rw [xu]; exact ru) xh xm]

theorem begin_wload (i : IsleIdx) (c : Bool) (is : Isle) (f : WloadFields) (hq : queuesEmpty is) (hu : unitsIdle is.un)
    (hm : f.mode.toNat < 7) : is.begin i c (.wload f) = is.pushed 0 (entry (.wload f) f.sync) := by
  simp only [Isle.begin, interlocked_calm _ _ hq hu, Bool.false_eq_true, mode_ne_seven hm, if_false]

theorem begin_wswap (i : IsleIdx) (c : Bool) (is : Isle) (y : Sync) (hq : queuesEmpty is) (hu : unitsIdle is.un) :
    is.begin i c (.wswap y) = is.pushed 0 (entry .wswap y) := by
  simp [Isle.begin, interlocked_calm _ _ hq hu]

/-- An MMUL captures its chain and its feed generator as it issues (R199). -/
theorem begin_mmul (i : IsleIdx) (c : Bool) (is : Isle) (f : MmulFields) (hq : queuesEmpty is) (hu : unitsIdle is.un)
    (hm : f.mode.toNat < 7) :
    is.begin i c (.mmul f) = is.pushed 0 (entry (.mmul f is.sk.chain (is.cap f.ag)) f.sync) := by
  simp only [Isle.begin, interlocked_calm _ _ hq hu, Bool.false_eq_true, mode_ne_seven hm, if_false]

theorem exec_wload_calm (s : State) (i : IsleIdx) (f : WloadFields) (h : Calm s i) (hm : f.mode.toNat < 7)
    (hr : (s.isle i).ready f.sync = true) (he : (s.isle i).me.tileErrs = []) :
    exec (.wload i f) s = .next (s.putIsle i ((((s.isle i).retire 1).wload i f).1.syncDone f.sync)) := by
  obtain ⟨-, -, -, -, hme⟩ := calm_retire h 1
  have hrep : (((s.isle i).retire 1).wload i f).2 = [] := by rw [wload_clean _ _ _ (by rw [hme, he])]
  exact exec_matrix s i _ h rfl (begin_wload _ _ _ f h.queues h.units hm) hr (wload_control i f _)
    (by simp [Isle.runEntry, entry, hrep])

theorem exec_wswap_calm (s : State) (i : IsleIdx) (y : Sync) (h : Calm s i) (hr : (s.isle i).ready y = true) :
    exec (.wswap i y) s = .next (s.putIsle i (((s.isle i).retire 1).wswap.syncDone y)) :=
  exec_matrix s i _ h rfl (begin_wswap _ _ _ y h.queues h.units) hr (wswap_control _) rfl

theorem exec_mmul_calm (s : State) (i : IsleIdx) (f : MmulFields) (h : Calm s i) (hm : f.mode.toNat < 7)
    (hr : (s.isle i).ready f.sync = true) :
    let r := ((s.isle i).retire 1).mmul i (s.isleCompat i) f (s.isle i).sk.chain ((s.isle i).cap f.ag)
    r.2 = [] → exec (.mmul i f) s = .next (s.putIsle i (r.1.syncDone f.sync)) := by
  intro r hrep
  exact exec_matrix s i _ h rfl (begin_mmul _ _ _ f h.queues h.units hm) hr (mmul_control ..)
    (by simp [Isle.runEntry, entry, r, hrep])

theorem matrixInstructionsComplete : Claims.MatrixInstructionsComplete := by
  intro s i w y f h
  obtain ⟨-, -, -, -, hme⟩ := calm_retire h 1
  refine ⟨fun hm hr he => ?wload, fun hr => ⟨exec_wswap_calm s i y h hr, ?wswap⟩, exec_mmul_calm s i f h⟩
  case wload =>
    refine ⟨exec_wload_calm s i w h hm hr he, ?_⟩
    simp only [wload_clean i _ w (by rw [hme, he]), ← hme, latch_active, latch_activeSet, latch_tiles, latch_standby,
      true_and]
    rfl
  case wswap => simp only [Isle.wswap, hme]

/-- Settles O19: each instruction joins an empty MQ and runs on the retired Isle; a load latches the set that is not active. -/
theorem matrixInstructionsFinish : Obligations.MatrixInstructionsFinish :=
  ⟨matrixInstructionsComplete, weightLoads⟩

end Sys2Proof.Machine
end

section
/-! One element of a matrix product (R134, R135, R138, R140): the saturated integer sum, the float column chain, and the
Montgomery reduction of a modular column. -/

namespace Sys2Proof.Machine

/-! ## INT8 (R135) -/

/-- The two comparisons of a saturation, as a clamp into [lo, hi]. -/
theorem saturate_eq_clamp (x lo hi : Int) (h : lo ≤ hi) :
    (if x > hi then (hi, true) else if x < lo then (lo, true) else (x, false)) =
      (max lo (min hi x), decide (x < lo ∨ hi < x)) := by
  split
  · rw [Int.min_eq_left (by omega), Int.max_eq_right h, decide_eq_true (by omega)]
  · split
    · rw [Int.min_eq_right (by omega), Int.max_eq_left (by omega), decide_eq_true (by omega)]
    · rw [Int.min_eq_right (by omega), Int.max_eq_right (by omega), decide_eq_false (by omega)]

theorem satSigned_32 (x : Int) :
    satSigned 32 x = (max (-2 ^ 31) (min (2 ^ 31 - 1) x), decide (x < -2 ^ 31 ∨ 2 ^ 31 - 1 < x)) := by
  have hhi : ((2 ^ (32 - 1) : Nat) : Int) - 1 = 2 ^ 31 - 1 := by decide
  have hlo : -((2 ^ (32 - 1) : Nat) : Int) = -2 ^ 31 := by decide
  rw [satSigned, hhi, hlo]
  exact saturate_eq_clamp x _ _ (by decide)

theorem productElem_int8 (f : MmulFields) (w : WeightSet) (feed : List Nat) (n d : Nat) (hm : f.mode = 0) :
    productElem f w feed n d =
      let r := satSigned 32 ((feed.zipIdx.map (fun t => signedOf 8 t.1 * signedOf 8 (w.weight 0 t.2 n))).foldl (· + ·) 0 +
        if f.acc then signedOf 32 d else 0)
      (wrapOf 32 r.1, ⟨r.2, false, false⟩) := by
  simp [productElem, hm, List.foldl_map]

/-! ## Float columns (R134) -/

/-- One more term adds its exact product to the running value and rounds once. -/
theorem floatDot_append (ff wf : FFmt) (start : Word) (l : List (Nat × Nat)) (t : Nat × Nat) :
    (floatDot ff wf start (l ++ [t])).1 =
      f32r ((f32 (floatDot ff wf start l).1).add ((FV.ofBits ff t.1).mul (FV.ofBits wf t.2))) := by
  simp [floatDot, f32r]

theorem productElem_float (f : MmulFields) (w : WeightSet) (feed : List Nat) (n d : Nat) (h2 : 2 ≤ f.mode.toNat)
    (h4 : f.mode.toNat ≤ 4) :
    (productElem f w feed n d).1 = (floatDot (feedFmt f.mode.toNat f.ff) (feedFmt f.mode.toNat w.wf)
      (if f.acc then BitVec.ofNat 32 d else 0) (feed.zipIdx.map (fun t => (t.1, w.weight f.mode t.2 n)))).1.toNat := by
  have h1 : ¬ f.mode.toNat ≤ 1 := by omega
  simp only [productElem, h1, h4, if_false, if_true]

theorem productElem_float_nil (f : MmulFields) (w : WeightSet) (n d : Nat) (h2 : 2 ≤ f.mode.toNat) (h4 : f.mode.toNat ≤ 4) :
    (productElem f w [] n d).1 = if f.acc then d % 2 ^ 32 else 0 := by
  rw [productElem_float f w [] n d h2 h4]
  cases f.acc <;> simp [floatDot]

theorem productElem_float_append (f : MmulFields) (w : WeightSet) (feed : List Nat) (n d x : Nat) (h2 : 2 ≤ f.mode.toNat)
    (h4 : f.mode.toNat ≤ 4) :
    (productElem f w (feed ++ [x]) n d).1 =
      (((FV.ofBits fp32 (productElem f w feed n d).1).add ((FV.ofBits (feedFmt f.mode.toNat f.ff) x).mul
        (FV.ofBits (feedFmt f.mode.toNat w.wf) (w.weight f.mode feed.length n)))).round fp32).bits % 2 ^ 32 := by
  rw [productElem_float f w _ n d h2 h4, productElem_float f w feed n d h2 h4, List.zipIdx_append, List.map_append]
  simp only [List.zipIdx_singleton, List.map_cons, List.map_nil, Nat.zero_add, floatDot_append, f32r, f32,
    BitVec.toNat_ofNat]

/-! ## Modular columns: the accumulator (R138) -/

/-- The subtraction that R138 makes after each addition when the accumulator has reached M. -/
def condSub (M v : Nat) : Nat := if v ≥ M then v - M else v

theorem modAcc_eq_foldl (p : Nat) (l : List (Nat × Nat)) :
    modAcc p l = l.foldl (fun a t => condSub (p * 2 ^ 32) (a + t.1 * t.2)) 0 := rfl

/-- A conditional subtraction keeps the residue modulo every divisor of what it subtracts. -/
theorem condSub_spec (p M v : Nat) (hM : p ∣ M) (hv : v < 2 * M) : condSub M v < M ∧ condSub M v % p = v % p := by
  obtain ⟨c, rfl⟩ := hM
  simp only [condSub]
  split
  · rename_i hge
    exact ⟨by omega, Nat.sub_mul_mod hge⟩
  · exact ⟨by omega, rfl⟩

/-- The accumulator started at `a` stays below M and congruent to the plain sum started at a congruent `b`. -/
theorem foldl_condSub_spec (p M : Nat) (hM : p ∣ M) (l : List (Nat × Nat)) (hl : ∀ t ∈ l, t.1 * t.2 < M) (a b : Nat)
    (ha : a < M) (hab : a % p = b % p) :
    l.foldl (fun a t => condSub M (a + t.1 * t.2)) a < M ∧
    l.foldl (fun a t => condSub M (a + t.1 * t.2)) a % p = (l.map (fun t => t.1 * t.2)).foldl (· + ·) b % p := by
  induction l generalizing a b with
  | nil => exact ⟨ha, hab⟩
  | cons t l ih =>
    have ht : t.1 * t.2 < M := hl t List.mem_cons_self
    obtain ⟨hlt, hmod⟩ := condSub_spec p M (a + t.1 * t.2) hM (by omega)
    have hsum : (a + t.1 * t.2) % p = (b + t.1 * t.2) % p := by rw [Nat.add_mod, hab, ← Nat.add_mod]
    exact ih (fun u hu => hl u (List.mem_cons_of_mem _ hu)) _ _ hlt (hmod.trans hsum)

/-- Products below p · 2^32 keep the accumulator below it and congruent to their sum. -/
theorem modAcc_spec (p : Nat) (hp : 0 < p) (l : List (Nat × Nat)) (hl : ∀ t ∈ l, t.1 * t.2 < p * 2 ^ 32) :
    modAcc p l < p * 2 ^ 32 ∧ modAcc p l % p = (l.map (fun t => t.1 * t.2)).foldl (· + ·) 0 % p :=
  foldl_condSub_spec p _ (Nat.dvd_mul_right ..) l hl 0 0 (Nat.mul_pos hp (Nat.two_pow_pos 32)) rfl

/-! ## Modular columns: p' (R136) -/

/-- One step of Newton's iteration towards the inverse of `p` modulo 2^32. -/
def newtonStep (p x : Nat) : Nat := x * (2 ^ 33 + 2 - p * x % 2 ^ 32) % 2 ^ 32

def newtonSteps (p n : Nat) : Nat := (List.range n).foldl (fun x _ => newtonStep p x) 1

theorem newtonSteps_succ (p n : Nat) : newtonSteps p (n + 1) = newtonStep p (newtonSteps p n) := by
  rw [newtonSteps, List.range_succ, List.foldl_append]
  rfl

theorem montInv_eq (p : Nat) : montInv p = (2 ^ 32 - newtonSteps p 5) % 2 ^ 32 := rfl

/-- The step is x(2 - px) up to a multiple of 2^32. -/
theorem newtonStep_eq (p x : Nat) : ∃ c : Int, (newtonStep p x : Int) = x * (2 - p * x) + 2 ^ 32 * c := by
  obtain ⟨z, hz⟩ : ∃ z, z = 2 ^ 33 + 2 - p * x % 2 ^ 32 := ⟨_, rfl⟩
  obtain ⟨q, hq⟩ : ∃ q : Int, (z : Int) = 2 - p * x + 2 ^ 32 * q := by
    rw [← Int.natCast_mul]
    generalize p * x = v at hz
    exact ⟨2 + v / 2 ^ 32, by omega⟩
  obtain ⟨k, hk⟩ : ∃ k : Int, ((x * z % 2 ^ 32 : Nat) : Int) = x * z + 2 ^ 32 * k := by
    rw [← Int.natCast_mul]
    generalize x * z = v
    exact ⟨-(v / 2 ^ 32), by omega⟩
  refine ⟨x * q + k, ?_⟩
  rw [newtonStep, ← hz, hk, hq]
  grind

/-- A step squares the error: 1 - px(2 - px) = (1 - px)², so that it doubles the number of correct low bits. -/
theorem newtonStep_correct (p x : Nat) (k : Int) (hk : k * k ∣ 2 ^ 32) (h : k ∣ 1 - p * x) :
    k * k ∣ 1 - p * newtonStep p x := by
  obtain ⟨c, hc⟩ := newtonStep_eq p x
  have herr : 1 - p * newtonStep p x = (1 - p * x) * (1 - p * x) - 2 ^ 32 * (p * c) := by rw [hc]; grind
  rw [herr]
  exact Int.dvd_sub (Int.mul_dvd_mul h h) (Int.dvd_mul_of_dvd_left hk)

/-- Five steps make 1, 2, 4, 8, 16 and at last 32 bits correct. -/
theorem newtonSteps_correct (p : Nat) (hp : p % 2 = 1) : (2 ^ 32 : Int) ∣ 1 - p * newtonSteps p 5 := by
  have h0 : (2 : Int) ∣ 1 - p * newtonSteps p 0 := by simp only [newtonSteps, List.range_zero, List.foldl_nil]; omega
  have h1 := newtonStep_correct p _ 2 (by decide) h0
  have h2 := newtonStep_correct p _ 4 (by decide) h1
  have h3 := newtonStep_correct p _ 16 (by decide) h2
  have h4 := newtonStep_correct p _ 256 (by decide) h3
  simp only [newtonSteps_succ]
  exact newtonStep_correct p _ 65536 (by decide) h4

theorem newtonSteps_lt (p : Nat) : newtonSteps p 5 < 2 ^ 32 := by
  rw [newtonSteps_succ, newtonStep]
  exact Nat.mod_lt _ (Nat.two_pow_pos 32)

/-- p · p' is -1 modulo 2^32 for every odd p. -/
theorem montInv_spec (p : Nat) (hp : p % 2 = 1) : 2 ^ 32 ∣ p * montInv p + 1 := by
  have hlt := newtonSteps_lt p
  have hinv := newtonSteps_correct p hp
  rw [montInv_eq]
  generalize newtonSteps p 5 = x at hlt hinv ⊢
  obtain ⟨c, hc⟩ := hinv
  have hx : x ≠ 0 := by
    rintro rfl
    omega
  obtain ⟨y, hy⟩ : ∃ y, y = 2 ^ 32 - x := ⟨_, rfl⟩
  have hyx : (y : Int) = 2 ^ 32 - x := by omega
  rw [← hy, Nat.mod_eq_of_lt (by omega), ← Int.natCast_dvd_natCast]
  have hsum : ((p * y + 1 : Nat) : Int) = 2 ^ 32 * (p + c) := by
    rw [Int.natCast_add, Int.natCast_mul, hyx]
    grind
  rw [hsum]
  exact Int.dvd_mul_right ..

/-! ## Modular columns: the output stage (R140) -/

/-- The multiple of p makes the low word 0. -/
theorem montOut_exact (p a : Nat) (hp : p % 2 = 1) : 2 ^ 32 ∣ a + a % 2 ^ 32 * montInv p % 2 ^ 32 * p := by
  have hinv := montInv_spec p hp
  generalize montInv p = q at hinv ⊢
  generalize 2 ^ 32 = R at hinv ⊢
  rw [Nat.mod_mul_mod]
  have hdiv := Nat.div_add_mod (a * q) R
  have hsum : R * (a * q / R) * p + (a + a * q % R * p) = a * (p * q + 1) := by grind
  have hR : R ∣ R * (a * q / R) * p := Nat.dvd_mul_right_of_dvd (Nat.dvd_mul_right ..) p
  exact (Nat.dvd_add_right hR).1 (hsum ▸ Nat.dvd_mul_left_of_dvd hinv a)

/-- The two conditional subtractions of RED. -/
theorem reduce_eq_mod (p v : Nat) (hv : v < 3 * p) : (if v ≥ 2 * p then v - 2 * p else if v ≥ p then v - p else v) = v % p := by
  split
  · rw [Nat.mod_eq_sub_mod (by omega), Nat.mod_eq_sub_mod (by omega), Nat.mod_eq_of_lt (by omega)]; omega
  · split
    · rw [Nat.mod_eq_sub_mod (by omega), Nat.mod_eq_of_lt (by omega)]
    · rw [Nat.mod_eq_of_lt (by omega)]

/-- With RED the output stage gives the residue of a / 2^32, with d added when ACC is 1. -/
theorem montOut_spec (p a d : Nat) (acc : Bool) (hp : p % 2 = 1) (ha : a < p * 2 ^ 32) :
    montOut p a acc true d < p ∧
    montOut p a acc true d * 2 ^ 32 % p = (a + if acc then d * 2 ^ 32 else 0) % p := by
  have hp0 : 0 < p := by omega
  obtain ⟨u, hu⟩ := montOut_exact p a hp
  have hout : montOut p a acc true d = (u + if acc then d % p else 0) % p := by
    have hm : a % 2 ^ 32 * montInv p % 2 ^ 32 * p < 2 ^ 32 * p :=
      Nat.mul_lt_mul_of_pos_right (Nat.mod_lt _ (Nat.two_pow_pos 32)) hp0
    have hdiv : (a + a % 2 ^ 32 * montInv p % 2 ^ 32 * p) / 2 ^ 32 = u := by omega
    have hd : (if acc then d % p else 0) < p := by
      split
      · exact Nat.mod_lt d hp0
      · exact hp0
    rw [← reduce_eq_mod p _ (by omega), ← hdiv]
    rfl
  have hu' : ∀ x, (u * 2 ^ 32 + x) % p = (a + x) % p := by
    intro x
    rw [Nat.mul_comm, ← hu, Nat.add_right_comm, Nat.add_mul_mod_self_right]
  rw [hout]
  refine ⟨Nat.mod_lt _ hp0, ?_⟩
  rw [Nat.mod_mul_mod, Nat.add_mul, hu']
  split
  · rw [← Nat.add_mod_mod, Nat.mod_mul_mod, Nat.add_mod_mod]
  · rw [Nat.zero_mul]

/-! ## Modular columns: one element -/

theorem productElem_mod32 (f : MmulFields) (w : WeightSet) (feed : List Nat) (n d : Nat) (hm : f.mode = 5)
    (hl : feed.length = 16) (hn : n < 16) :
    (productElem f w feed n d).1 = montOut (w.prime 5 n) (modAcc (w.prime 5 n)
      (feed.zipIdx.map (fun t => (t.1, w.weight 5 t.2 n)))) f.acc f.red d := by
  have hs : slice feed (n / 16 * 16) 16 = feed := by
    rw [Nat.div_eq_of_lt hn, slice, Nat.zero_mul, List.drop_zero, ← hl, List.take_length]
  simp [productElem, hm, hs, Nat.mod_eq_of_lt hn]

/-- Residues below a prime of 31 bits have products that the accumulator takes. -/
theorem products_fit (p : Nat) (feed : List Nat) (g : Nat → Nat) (hp : p < 2 ^ 31) (hf : ∀ x ∈ feed, x < p) (hg : ∀ k, g k < p) :
    ∀ t ∈ feed.zipIdx.map (fun t => (t.1, g t.2)), t.1 * t.2 < p * 2 ^ 32 := by
  simp only [List.mem_map]
  rintro _ ⟨u, hu, rfl⟩
  have hx : u.1 < p := hf _ (List.fst_mem_of_mem_zipIdx hu)
  have hw : g u.2 ≤ 2 ^ 32 := by have := hg u.2; omega
  exact Nat.mul_lt_mul_of_lt_of_le hx hw (Nat.two_pow_pos 32)

theorem productElem_mod32_red (f : MmulFields) (w : WeightSet) (feed : List Nat) (n d : Nat) (hm : f.mode = 5)
    (hred : f.red = true) (hl : feed.length = 16) (hn : n < 16) (hodd : w.prime 5 n % 2 = 1) (hp : w.prime 5 n < 2 ^ 31)
    (hf : ∀ x ∈ feed, x < w.prime 5 n) (hw : ∀ k, w.weight 5 k n < w.prime 5 n) :
    (productElem f w feed n d).1 < w.prime 5 n ∧ (productElem f w feed n d).1 * 2 ^ 32 % w.prime 5 n =
      ((feed.zipIdx.map (fun t => t.1 * w.weight 5 t.2 n)).foldl (· + ·) 0 + if f.acc then d * 2 ^ 32 else 0) %
        w.prime 5 n := by
  rw [productElem_mod32 f w feed n d hm hl hn, hred]
  generalize w.prime 5 n = p at *
  obtain ⟨ha, hsum⟩ := modAcc_spec p (by omega) _ (products_fit p feed (w.weight 5 · n) hp hf hw)
  obtain ⟨hlt, hmod⟩ := montOut_spec p _ d f.acc hodd ha
  rw [List.map_map] at hsum
  exact ⟨hlt, hmod.trans (by rw [Nat.add_mod, hsum, ← Nat.add_mod]; rfl)⟩

/-- Settles O20: an integer column by its saturation, a float column term by term, a modular column by Montgomery's reduction. -/
theorem productElements : Obligations.ProductElements := by
  intro f w feed n d
  refine ⟨fun hm => ?int8, fun h2 h4 => ⟨productElem_float_nil f w n d h2 h4, fun x => productElem_float_append f w feed n d x h2 h4⟩,
    fun hm hred hl hn hodd _ hp hf hw => productElem_mod32_red f w feed n d hm hred hl hn hodd hp hf hw⟩
  case int8 =>
    simp only [productElem_int8 f w feed n d hm, satSigned_32]

end Sys2Proof.Machine
end

section
/-! The address generators and the chain latches of an Isle (R199, R209, R212): what AGLD, AGW, CHAINH and CHAINA write, and when
an instruction captures it. A scalar access or AGLD beyond the visible store traps (R185). -/

namespace Sys2Proof.Machine

/-! ## The capture of a generator after a write (R212) -/

/-- A write with no other on its way is captured from its landing cycle on, by instructions that name its generator. -/
theorem agAt_agPut (x : Skerry) (k j : Fin 16) (n c : Nat) (w : AgSet) (h : x.agw = []) :
    (x.agPut k n w).agAt j c = if j = k ∧ x.cyc + n ≤ c then w.apply x.ags[j] else x.ags[j] := by
  have hput : x.agPut k n w = { x with agw := [{ ag := k, land := x.cyc + n, set := w }] } := by
    simp [Skerry.agPut, h, agApply, agwInsert]
  rw [hput]
  by_cases hc : j = k ∧ x.cyc + n ≤ c
  · obtain ⟨rfl, hle⟩ := hc
    simp [Skerry.agAt, hle]
  · have hf : (k == j && decide (x.cyc + n ≤ c)) = false := by
      rw [Bool.eq_false_iff, ne_eq, Bool.and_eq_true, beq_iff_eq, decide_eq_true_iff, eq_comm]
      exact hc
    simp only [Skerry.agAt, List.filter_cons, hf, Bool.false_eq_true, if_false, List.filter_nil, List.foldl_nil, if_neg hc]

/-! ## The fields that AGW writes (Table ISA-8, R209) -/

theorem apply_count (g : AddrGen) (v : Word) (k : Fin 6) :
    (AgSet.field (2 + k.val) v).apply g = { g with counts := vset g.counts k (v.setWidth 24) } := by
  have hlt : 2 + k.val - 2 < 6 ∧ 2 ≤ 2 + k.val := by omega
  rw [AgSet.apply, agSetField, if_neg (by omega), if_neg (by omega), dif_pos hlt]
  simp only [Nat.add_sub_cancel_left]
  rfl

theorem apply_stride (g : AddrGen) (v : Word) (k : Fin 6) :
    (AgSet.field (8 + k.val) v).apply g = { g with strides := vset g.strides k v } := by
  have hcount : ¬ (8 + k.val - 2 < 6 ∧ 2 ≤ 8 + k.val) := by omega
  have hlt : 8 + k.val - 8 < 6 ∧ 8 ≤ 8 + k.val := by omega
  rw [AgSet.apply, agSetField, if_neg (by omega), if_neg (by omega), dif_neg hcount, dif_pos hlt]
  simp only [Nat.add_sub_cancel_left]
  rfl

theorem apply_rot (g : AddrGen) (v : Word) :
    (AgSet.field 14 v).apply g = { g with rotmask := v.extractLsb' 3 4, rotlog := v.extractLsb' 0 3 } := by
  have hmask : BitVec.ofNat 4 (v.toNat / 8) = v.extractLsb' 3 4 := by
    rw [BitVec.extractLsb', Nat.shiftRight_eq_div_pow]
  have hlog : v.setWidth 3 = v.extractLsb' 0 3 := by
    rw [BitVec.setWidth_eq_extractLsb' (by decide)]
  simp [AgSet.apply, agSetField, hmask, hlog]

theorem generatorWritesLand : Claims.GeneratorWritesLand :=
  ⟨agAt_agPut, fun g v k => ⟨rfl, rfl, apply_count g v k, apply_stride g v k, apply_rot g v⟩⟩

/-! ## A trap of the Skerry (R185, R187) -/

/-- The report of a trap with cause `n`. -/
def trapReport (i : IsleIdx) (n : Nat) : Report :=
  { Report.of (0x9000 + i.val) with detail := BitVec.ofNat 32 (256 + n % 64) }

theorem trap_reports (i : IsleIdx) (is : Isle) (n : Nat) : (is.trap i n).2 = [trapReport i n] := rfl

theorem trapReport_checker (i : IsleIdx) (n : Nat) : (trapReport i n).checker.toNat = 0x9000 + i.val := by
  simp only [trapReport, Report.of, BitVec.toNat_ofNat]
  omega

theorem repKind_trapReport (i : IsleIdx) (n : Nat) : repKind (trapReport i n) = 9 := by
  rw [repKind, trapReport_checker]
  omega

/-- A trap is charged to the Isle's row (Table FL-2). -/
theorem repRow_trapReport (i : IsleIdx) (n : Nat) : repRow (trapReport i n) = some i.row := by
  have hinst : repInst (trapReport i n) = i.val := by
    rw [repInst, trapReport_checker]
    omega
  have hrow : finOf 7 (i.val / 8) = i.row := Fin.ext (Nat.mod_eq_of_lt (by omega))
  simp only [repRow, repKind_trapReport, hinst, hrow]
  rfl

/-- The report of a trap is a contained fault. -/
theorem reports_trap (t : State) (i : IsleIdx) (is : Isle) (n : Nat) :
    t.reports (is.trap i n).2 = t.containedTo (trapReport i n) (some i.row) := by
  simp [trap_reports, State.reports, repKind_trapReport, State.contained, repRow_trapReport]

theorem endFill_moverIdle (is : Isle) : moverIdle is.endFill.mov := ⟨rfl, rfl, rfl, rfl, by simp [Isle.endFill]⟩

/-- An Isle as it was, or filled, is as ready to rest as it was. -/
theorem quiet_or_filled {x y : Isle} (h : y = x ∨ y = x.endFill) (hq : queuesEmpty x) (hu : unitsIdle x.un)
    (hh : x.sk.held = none) : queuesEmpty y ∧ unitsIdle y.un ∧ y.sk.held = none := by
  rcases h with rfl | rfl
  · exact ⟨hq, hu, hh⟩
  · exact ⟨⟨rfl, rfl, rfl, rfl⟩, ⟨rfl, rfl, rfl⟩, rfl⟩

theorem moverIdle_or_filled {x y : Isle} (h : y = x ∨ y = x.endFill) (hm : moverIdle x.mov) : moverIdle y.mov := by
  rcases h with rfl | rfl
  · exact hm
  · exact endFill_moverIdle x

/-- A trap in a calm state: the trapped Isle is stored, its report found, and nothing moves any more. -/
theorem issueAt_trap (s : State) (i : IsleIdx) (ins : IsleInstr) (n : Nat) (h : Calm s i)
    (ht : (s.isle i).tryIssue i (s.isleCompat i) ins = some ((s.isle i).trap i n)) :
    s.issueAt i ins = (s.setIsle i ((s.isle i).trap i n).1).containedTo (trapReport i n) (some i.row) := by
  have hput : s.putIsle i ((s.isle i).trap i n).1 = s.setIsle i ((s.isle i).trap i n).1 := putIsle_same s i _ rfl
  have hissue : s.issueAt i ins = State.settle i settleFuel
      ((s.setIsle i ((s.isle i).trap i n).1).containedTo (trapReport i n) (some i.row)) := by
    simp [State.issueAt, h.power, h.alive, h.issues, Isle.issue, ht, hput, reports_trap]
  have hisle := fun k => containedTo_isle (s.setIsle i ((s.isle i).trap i n).1) (trapReport i n) (some i.row) k h.power
  have hheld : ((s.isle i).trap i n).1.sk.held = none := canIssue_held (is := s.isle i) h.issues
  obtain ⟨hq, hu, hh⟩ := quiet_or_filled (hisle i) (by rw [isle_setIsle]; exact h.queues) (by rw [isle_setIsle]; exact h.units)
    (by rw [isle_setIsle]; exact hheld)
  rw [hissue, settle_quiet _ i _ hq hu hh]
  intro k
  refine moverIdle_or_filled (hisle k) ?_
  by_cases hk : k = i
  · rw [hk, isle_setIsle]; exact h.movers i
  · rw [isle_setIsle_ne _ _ _ _ hk]; exact h.movers k

/-- An instruction that traps at issue with cause `n`. -/
theorem exec_traps {c : Instr} {ins : IsleInstr} (s : State) (i : IsleIdx) (n : Nat) (h : Calm s i)
    (he : exec c s = .next (s.issueAt i ins))
    (ht : (s.isle i).tryIssue i (s.isleCompat i) ins = some ((s.isle i).trap i n)) : Traps c s i (BitVec.ofNat 6 n) := by
  rw [issueAt_trap s i ins n h ht] at he
  obtain ⟨hcont, -, -, hisles⟩ :=
    containedTo_running (s.setIsle i ((s.isle i).trap i n).1) (trapReport i n) (some i.row) h.power
  have hisle := containedTo_isle (s.setIsle i ((s.isle i).trap i n).1) (trapReport i n) (some i.row) i h.power
  rw [isle_setIsle] at hisle
  refine ⟨_, he, ?stopped, ?cause, ?pc, ?registers, ?store, hcont⟩
  case registers =>
    intro hj
    have hnone : (some i.row).bind (s.setIsle i ((s.isle i).trap i n).1).chargedJob = none := hj
    rw [State.isle, hisles, stopFor_none _ _ _ hnone, ← State.isle, isle_setIsle]
    rfl
  all_goals rcases hisle with hx | hx <;> rw [hx] <;> rfl

/-! ## AGLD and AGW -/

/-- A write to a generator: the Skerry retires with it on its way, and nothing else of its Isle changes. -/
theorem exec_agPut {c : Instr} {ins : IsleInstr} (s : State) (i : IsleIdx) (ag : Fin 16) (n : Nat) (w : AgSet) (h : Calm s i)
    (he : exec c s = .next (s.issueAt i ins))
    (ht : (s.isle i).begin i (s.isleCompat i) ins =
      some (Isle.after { s.isle i with sk := (s.isle i).sk.agPut ag n w } 1 [])) :
    ∃ t, exec c s = .next t ∧ OnlyIsle s t i ∧ ContinuesAt s t i ((s.isle i).sk.pc + 8) ∧
      t.isle i = { s.isle i with
        mov := { (s.isle i).mov with rwait := 0 }
        sk := { (s.isle i).sk.agPut ag n w with
          pc := (t.isle i).sk.pc, loops := (t.isle i).sk.loops, cyc := (s.isle i).sk.cyc + 1 } } := by
  have hrun : (s.isle i).tryIssue i (s.isleCompat i) ins =
      some (Isle.retire { s.isle i with sk := (s.isle i).sk.agPut ag n w } 1, []) := by
    rw [Isle.tryIssue, ht, Option.map_some, after_run _ 1 [] (by decide) (by decide)]
  obtain ⟨hexec, hret⟩ := exec_now s i _ 1 h he hrun ⟨⟨rfl, rfl, rfl, rfl⟩, rfl, rfl, rfl, rfl⟩
  refine ⟨_, hexec, onlyIsle_setIsle s i _, ?_, ?_⟩
  · rw [ContinuesAt, isle_setIsle, hret]
    rfl
  · rw [isle_setIsle, hret]
    rfl

/-- AGLD within the visible store, at words without wrong symbols (R209). -/
theorem agLoad_clean (i : IsleIdx) (c : Bool) (is : Isle) (ag : Fin 16) (sa : Fin 32) (imm : Word)
    (hv : (is.reg sa + imm).toNat + 64 ≤ visibleStore c) (he : is.sto.errs = []) :
    is.agLoad i c ag sa imm = Isle.after { is with
      sk := is.sk.agPut ag 7 (.whole (agOfBytes (is.storeRead (is.reg sa + imm).toNat 64))) } 1 [] := by
  simp only [Isle.agLoad, if_neg (Nat.not_lt.mpr hv), storeCheck_clean _ _ _ he]

theorem agLoad_beyond (i : IsleIdx) (c : Bool) (is : Isle) (ag : Fin 16) (sa : Fin 32) (imm : Word)
    (hv : visibleStore c < (is.reg sa + imm).toNat + 64) : is.agLoad i c ag sa imm = is.trapped i 1 := by
  simp only [Isle.agLoad, if_pos hv]

theorem begin_agld (i : IsleIdx) (c : Bool) (is : Isle) (ag : Fin 16) (sa : Fin 32) (imm : Word) (hq : queuesEmpty is)
    (hu : unitsIdle is.un) : is.begin i c (.agld ag sa imm) = some (is.agLoad i c ag sa imm) := by
  simp [Isle.begin, interlocked_calm _ _ hq hu]

theorem begin_agw (i : IsleIdx) (c : Bool) (is : Isle) (ag : Fin 16) (fld : BitVec 6) (sb : Fin 32) (hq : queuesEmpty is)
    (hu : unitsIdle is.un) : is.begin i c (.agw ag fld sb) = some (is.agWrite ag fld sb) := by
  simp [Isle.begin, interlocked_calm _ _ hq hu]

theorem begin_nop (i : IsleIdx) (c : Bool) (is : Isle) (hq : queuesEmpty is) (hu : unitsIdle is.un) :
    is.begin i c .nop = some (is.after 1 []) := by
  simp [Isle.begin, interlocked_calm _ _ hq hu]

theorem exec_agw (s : State) (i : IsleIdx) (ag : Fin 16) (fld : BitVec 6) (sb : Fin 32) (hf : fld.toNat ≤ 14) :
    exec (.agw i ag fld sb) s = .next (s.issueAt i (.agw ag fld sb)) := by
  change execAgw i ag fld sb s = _
  rw [execAgw, if_pos hf]

/-- A FIELD that names none makes AGW a NOP (R190). -/
theorem exec_agw_reserved (s : State) (i : IsleIdx) (ag : Fin 16) (fld : BitVec 6) (sb : Fin 32) (hf : 14 < fld.toNat) :
    exec (.agw i ag fld sb) s = .next (s.issueAt i .nop) := by
  change execAgw i ag fld sb s = _
  rw [execAgw, if_neg (Nat.not_le.mpr hf)]

/-- An instruction that issues as a NOP passes one Isle cycle. -/
theorem exec_nop_calm {c : Instr} (s : State) (i : IsleIdx) (h : Calm s i) (he : exec c s = .next (s.issueAt i .nop)) :
    ∃ t, exec c s = .next t ∧ SkerryStep s t i 1 ∧ ContinuesAt s t i ((s.isle i).sk.pc + 8) ∧
      (t.isle i).sk.s = (s.isle i).sk.s := by
  have hrun : (s.isle i).tryIssue i (s.isleCompat i) .nop = some ((s.isle i).retire 1, []) := by
    rw [Isle.tryIssue, begin_nop _ _ _ h.queues h.units, Option.map_some, after_run _ 1 [] (by decide) (by decide)]
  have hret := retire_calm _ 1 h.queues (h.movers i) (canIssue_held h.issues)
  obtain ⟨hexec, hstep⟩ := skerry_now s i _ h he hrun 1 (by rw [hret])
  refine ⟨_, hexec, hstep, ?_, ?_⟩
  · rw [ContinuesAt, isle_setIsle, hret]
  · rw [isle_setIsle, hret]

theorem generatorWrites : Claims.GeneratorWrites := by
  intro s i ag sa imm fld h
  have hvis : visibleBytes s i = visibleStore (s.isleCompat i) := rfl
  refine ⟨fun hv he => ?load, fun hv => ?beyond, fun hf => ?field, fun hf => ?reserved⟩
  case load =>
    refine exec_agPut s i ag 7 _ h rfl ?_
    rw [begin_agld _ _ _ _ _ _ h.queues h.units, agLoad_clean _ _ _ _ _ _ (hvis ▸ hv) he]
  case beyond =>
    refine exec_traps (ins := .agld ag sa imm) s i 1 h rfl ?_
    rw [Isle.tryIssue, begin_agld _ _ _ _ _ _ h.queues h.units, agLoad_beyond _ _ _ _ _ _ (hvis ▸ hv), Option.map_some,
      trapped_run]
  case field =>
    refine exec_agPut s i ag 2 _ h (exec_agw s i ag fld sa hf) ?_
    rw [begin_agw _ _ _ _ _ _ h.queues h.units]
    rfl
  case reserved => exact exec_nop_calm s i h (exec_agw_reserved s i ag fld sa hf)

/-! ## The chain latches (R199) -/

/-- An Isle with its chain latches as given. -/
def Isle.withChain (is : Isle) (ch : Chain) : Isle := { is with sk := { is.sk with chain := ch } }

theorem withChain_retire (is : Isle) (ch : Chain) (n : Nat) (hq : queuesEmpty is) (hm : moverIdle is.mov)
    (hh : is.sk.held = none) : (is.withChain ch).retire n = (is.retire n).withChain ch := by
  rw [retire_calm is n hq hm hh, retire_calm (is.withChain ch) n hq hm hh]
  rfl

/-- The token changes depend on the slots alone. -/
theorem syncDone_slots_congr {x is : Isle} (h : x.sto.slots = is.sto.slots) (y : Sync) :
    (x.syncDone y).sto.slots = (is.syncDone y).sto.slots := by
  simp only [Isle.syncDone, Isle.syncWrite, Isle.syncRead]
  split <;> split <;> simp [Isle.setSlot, Isle.slot, h]

/-- The 64-bit header that CHAINH assembles from two registers. -/
theorem header_append (a b : Word) : BitVec.ofNat 64 (b.toNat * 2 ^ 32 + a.toNat) = (b ++ a : DWord) := by
  apply BitVec.eq_of_toNat_eq
  rw [BitVec.toNat_append, ← Nat.shiftLeft_add_eq_or_of_lt a.isLt, Nat.shiftLeft_eq, BitVec.toNat_ofNat]
  have ha := a.isLt
  have hb := b.isLt
  omega

theorem append_eq_zero_iff (a b : Word) : (b ++ a : DWord) = 0 ↔ a = 0 ∧ b = 0 := by
  rw [← header_append, ← BitVec.toNat_inj, ← BitVec.toNat_inj, ← BitVec.toNat_inj, BitVec.toNat_ofNat]
  have ha := a.isLt
  have hb := b.isLt
  simp only [BitVec.ofNat_eq_ofNat, BitVec.toNat_ofNat, Nat.zero_mod]
  omega

/-- The latches after CHAINH: its header, or nothing but the next generation of row statistics (R199). -/
def Isle.headedChain (is : Isle) (sa sb : Fin 32) (l2 : Bool) : Chain :=
  if (is.reg sb ++ is.reg sa : DWord) = 0 then { Chain.none with gen := is.sk.chain.gen + 1 }
  else { is.sk.chain with header := is.reg sb ++ is.reg sa, link2 := l2 }

theorem chainHead_eq (is : Isle) (sa sb : Fin 32) (l2 : Bool) :
    is.chainHead sa sb l2 = (is.withChain (is.headedChain sa sb l2)).after 1 [] := by
  simp only [Isle.chainHead, header_append]
  rfl

/-- The latches after CHAINA (R199). -/
def Isle.boundChain (is : Isle) (f : ChainaFields) : Chain :=
  { is.sk.chain with
    agp := is.capOpt f.agp, age := is.capOpt f.age, ags := is.capOpt f.ags
    sx := is.reg f.sx, sy := is.reg f.sy, sz := is.reg f.sz }

theorem push_mq_calm (is : Isle) (e : QEntry) (hq : queuesEmpty is) : is.push 0 e = some { is with mq := [e] } := by
  obtain ⟨h1, -, -, -⟩ := hq
  simp [Isle.push, h1, mqDepth]

theorem begin_chainh (i : IsleIdx) (c : Bool) (is : Isle) (sa sb : Fin 32) (f : ChainhFields) (hq : queuesEmpty is)
    (hu : unitsIdle is.un) :
    is.begin i c (.chainh sa sb f) = (is.withChain (is.headedChain sa sb f.link2)).pushed 0
      (entry (.chainh (is.reg sa == 0 && is.reg sb == 0)) f.sync) := by
  have hq' : queuesEmpty (is.withChain (is.headedChain sa sb f.link2)) := hq
  simp only [Isle.begin, interlocked_calm _ _ hq hu, Isle.pushed, push_mq_calm _ _ hq, push_mq_calm _ _ hq',
    Option.map_some, chainHead_eq, Bool.false_eq_true, if_false]
  rfl

theorem begin_chainh_header (i : IsleIdx) (c : Bool) (is : Isle) (sa sb : Fin 32) (f : ChainhFields) (hq : queuesEmpty is)
    (hu : unitsIdle is.un) (h0 : (is.reg sb ++ is.reg sa : DWord) ≠ 0) :
    is.begin i c (.chainh sa sb f) = (is.withChain { is.sk.chain with header := is.reg sb ++ is.reg sa, link2 := f.link2 }).pushed 0
      (entry (.chainh false) f.sync) := by
  have hopen : (is.reg sa == 0 && is.reg sb == 0) = false := by
    rw [Bool.eq_false_iff, ne_eq, Bool.and_eq_true, beq_iff_eq, beq_iff_eq, ← append_eq_zero_iff]
    exact h0
  rw [begin_chainh _ _ _ _ _ _ hq hu, hopen, Isle.headedChain, if_neg h0]

theorem begin_chainh_ends (i : IsleIdx) (c : Bool) (is : Isle) (sa sb : Fin 32) (f : ChainhFields) (hq : queuesEmpty is)
    (hu : unitsIdle is.un) (h0 : (is.reg sb ++ is.reg sa : DWord) = 0) :
    is.begin i c (.chainh sa sb f) = (is.withChain { Chain.none with gen := is.sk.chain.gen + 1 }).pushed 0
      (entry (.chainh true) f.sync) := by
  have hends : (is.reg sa == 0 && is.reg sb == 0) = true := by
    rw [Bool.and_eq_true, beq_iff_eq, beq_iff_eq, ← append_eq_zero_iff]
    exact h0
  rw [begin_chainh _ _ _ _ _ _ hq hu, hends, Isle.headedChain, if_pos h0]

theorem begin_chaina (i : IsleIdx) (c : Bool) (is : Isle) (f : ChainaFields) (hq : queuesEmpty is) (hu : unitsIdle is.un) :
    is.begin i c (.chaina f) = (is.withChain (is.boundChain f)).pushed 0 (entry .token f.sync) := by
  have hq' : queuesEmpty (is.withChain (is.boundChain f)) := hq
  simp only [Isle.begin, interlocked_calm _ _ hq hu, Isle.pushed, push_mq_calm _ _ hq, push_mq_calm _ _ hq',
    Option.map_some, Bool.false_eq_true, if_false]
  rfl

/-- An instruction that latches `ch` as it issues and joins an empty MQ runs at once on the retired Isle. -/
theorem exec_latches {c : Instr} {ins : IsleInstr} {op : QOp} {y : Sync} (s : State) (i : IsleIdx) (ch : Chain) (x : Isle)
    (h : Calm s i) (he : exec c s = .next (s.issueAt i ins))
    (hb : (s.isle i).begin i (s.isleCompat i) ins = ((s.isle i).withChain ch).pushed 0 (entry op y))
    (hr : (s.isle i).ready y = true) (hx : x.control = (((s.isle i).retire 1).withChain ch).control)
    (hp : (((s.isle i).retire 1).withChain ch).runEntry i (s.isleCompat i) (entry op y) = some (x.syncDone y, [])) :
    exec c s = .next (s.putIsle i (x.syncDone y)) := by
  obtain ⟨rq, ru, rm, rh, -⟩ := calm_retire h 1
  have hh := canIssue_held h.issues
  have hret := retire_calm _ 1 h.queues (h.movers i) hh
  obtain ⟨xq, xm, xu, xh⟩ := control_calm x (((s.isle i).retire 1).withChain ch) hx rq rm rh y
  have hwait := ready_headSync _ (entry op y) hr
  have ht : (s.isle i).tryIssue i (s.isleCompat i) ins = some ((((s.isle i).retire 1).withChain ch).onlyIn 0 (entry op y), []) := by
    rw [Isle.tryIssue, hb, pushed_calm ((s.isle i).withChain ch) 0 (entry op y) h.queues (h.movers i) hh rfl hr,
      withChain_retire _ ch 1 h.queues (h.movers i) hh]
  have hready : (((s.isle i).retire 1).withChain ch).ready (headSync (entry op y)) = true := by
    rw [hret]
    exact hwait
  rw [he, issueAt_queued s i ins _ (x.syncDone y) h ht (by rw [hret]; rfl) rm ru.1
    (progress_onlyIn i _ _ 0 _ _ rq ru hready hp) xq (by rw [xu]; exact ru) xh xm]

/-- A latch that makes nothing but its token changes at MQ's head. -/
theorem exec_latches_only {c : Instr} {ins : IsleInstr} {op : QOp} {y : Sync} (s : State) (i : IsleIdx) (ch : Chain)
    (h : Calm s i) (he : exec c s = .next (s.issueAt i ins))
    (hb : (s.isle i).begin i (s.isleCompat i) ins = ((s.isle i).withChain ch).pushed 0 (entry op y))
    (hr : (s.isle i).ready y = true)
    (hp : (((s.isle i).retire 1).withChain ch).runEntry i (s.isleCompat i) (entry op y) =
      some ((((s.isle i).retire 1).withChain ch).syncDone y, [])) :
    ∃ t, exec c s = .next t ∧ OnlyIsle s t i ∧ ContinuesAt s t i ((s.isle i).sk.pc + 8) ∧
      t.isle i = { s.isle i with
        mov := { (s.isle i).mov with rwait := 0 }
        sto := { (s.isle i).sto with slots := ((s.isle i).syncDone y).sto.slots }
        sk := { (s.isle i).sk with
          chain := ch, pc := (t.isle i).sk.pc, loops := (t.isle i).sk.loops, cyc := (s.isle i).sk.cyc + 1 } } := by
  have hret := retire_calm _ 1 h.queues (h.movers i) (canIssue_held h.issues)
  have hexec := exec_latches s i ch _ h he hb hr rfl hp
  have hslots : ((((s.isle i).retire 1).withChain ch).syncDone y).sto.slots = ((s.isle i).syncDone y).sto.slots :=
    syncDone_slots_congr (by rw [hret]; rfl) y
  have hdone := syncDone_frame (((s.isle i).retire 1).withChain ch) y
  rw [hslots, hret] at hdone
  rw [putIsle_same s i _ (by rw [hret, hdone]; rfl)] at hexec
  refine ⟨_, hexec, onlyIsle_setIsle s i _, ?_, ?_⟩
  · rw [ContinuesAt, isle_setIsle, hret, hdone]
    rfl
  · rw [isle_setIsle, hret, hdone]
    rfl

/-! ## The row statistics at a chain's end (R165) -/

@[simp] theorem normWrite_control (c : Bool) (is : Isle) : (is.normWrite c).control = is.control := by
  simp only [Isle.normWrite]
  split
  · rfl
  · refine foldl_control _ (fun x t => ?_) _ is
    split
    · rfl
    · rfl

theorem normWrite_none (c : Bool) (is : Isle) (h : is.me.norm = none) : is.normWrite c = is := by
  simp only [Isle.normWrite, h]

/-- The end of a chain at MQ's head writes the row statistics, then makes its token changes (R165). -/
theorem runEntry_chainh_ends (i : IsleIdx) (c : Bool) (is : Isle) (y : Sync) :
    is.runEntry i c (entry (.chainh true) y) = some ((is.normWrite c).syncDone y, []) := rfl

theorem chainLatches : Claims.ChainLatches := by
  intro s i sa sb x f h
  obtain ⟨-, -, -, -, hme⟩ := calm_retire h 1
  refine ⟨fun hr => ⟨fun h0 => ?header, fun h0 hn => ?ends, fun h0 => ?endsNorm⟩, fun hr => ?operands⟩
  case header => exact exec_latches_only s i _ h rfl (begin_chainh_header i _ _ sa sb x h.queues h.units h0) hr rfl
  case ends =>
    refine exec_latches_only s i _ h rfl (begin_chainh_ends i _ _ sa sb x h.queues h.units h0) hr ?_
    have hnorm : (((s.isle i).retire 1).withChain { Chain.none with gen := (s.isle i).sk.chain.gen + 1 }).me.norm = none :=
      (congrArg Matrix.norm hme).trans hn
    rw [runEntry_chainh_ends, normWrite_none _ _ hnorm]
  case endsNorm =>
    exact exec_latches s i _ _ h rfl (begin_chainh_ends i _ _ sa sb x h.queues h.units h0) hr (normWrite_control _ _)
      (runEntry_chainh_ends ..)
  case operands => exact exec_latches_only s i _ h rfl (begin_chaina i _ _ f h.queues h.units) hr rfl

/-- Settles O7: a write to a generator retires with it on its way and lands by cycle; a chain latch is written at issue and its
token changes follow at the head of an empty MQ. -/
theorem generatorAndChainLatches : Obligations.GeneratorAndChainLatches :=
  ⟨generatorWrites, generatorWritesLand, chainLatches⟩

end Sys2Proof.Machine
end
